-- ==== Sys2Proof/Word.lean ====
section
/-!
DEFINITION. The word and byte types (00 R9 `WORD`, `ADDR_W`; 20 R76, R82).
-/
namespace Sys2Proof

/-- The smallest addressable unit of bus memory (20 R70). -/
abbrev Byte := BitVec 8

/-- A beat, an OOL word, a descriptor field or a bus address: 32 bits (00 R9, R11). -/
abbrev Word := BitVec 32

end Sys2Proof
end

