-- ==== Sys2Proof/Syntax.lean ====
section
/-!
DEFINITION. Agents, the loaded descriptor, fault codes, pulse lists, and `Instr`: one constructor per row of
spec/opcode_table.json.
-/
namespace Sys2Proof

/-- The two channels, and the two pacers that pace them (10 R30: ChanId = P | S). -/
inductive ChanId where
  /-- Primary: the carrier. -/
  | P
  /-- Secondary: playback. -/
  | S
  deriving DecidableEq, Repr, Inhabited

/-- What executes a step (00 R8). A channel has a second kind of turn, `early`, in which it reads one word of the
descriptor it is fetching ahead of its FETCH step (20 R83; log 12). -/
inductive Agent where
  | host
  | chan (ch : ChanId)
  | early (ch : ChanId) (k : Fin 8)
  | pacer (pc : ChanId)
  deriving DecidableEq, Repr, Inhabited

/-- The engine fault codes, in the ordinal order of 60 R331. -/
inductive FaultReason where
  /-- F_MISALIGNED -/
  | misaligned
  /-- F_UNMAPPED -/
  | unmapped
  /-- F_UNWRITTEN -/
  | unwritten
  /-- F_UNADMITTED: a refusal, also sets the `refused` mark. -/
  | unadmitted
  /-- F_BAD_LENGTH -/
  | badLength
  /-- F_OVERLAP -/
  | overlap
  /-- F_WRITE_ONLY -/
  | writeOnly
  /-- F_READ_ONLY -/
  | readOnly
  /-- F_FIFO_OVERFLOW -/
  | fifoOverflow
  deriving DecidableEq, Repr

/-- The six used words of a transfer descriptor, as they stand in memory (30 R110) and in the loaded-descriptor
registers of a channel (10 R32, R35). -/
structure Desc where
  ti : Word
  sourceAd : Word
  destAd : Word
  txfrLen : Word
  stride : Word
  nextconbk : Word
  deriving DecidableEq, Repr

/-- The free fields of an admitted TI word (30 R111, R116). -/
structure XferTI where
  /-- TI bit 4, DEST_INC. -/
  destInc : Bool
  /-- TI bit 6, DEST_DREQ. -/
  destDreq : Bool
  /-- TI bit 8, SRC_INC. -/
  srcInc : Bool
  /-- TI bits 15:12, BURST_LENGTH: timing only. -/
  burst : BitVec 4
  /-- TI bits 20:16, PERMAP. -/
  permap : BitVec 5
  /-- TI bits 25:21, WAITS: timing only. -/
  waits : BitVec 5
  /-- TI bit 26, NO_WIDE_BURSTS: timing only. -/
  noWide : Bool
  deriving DecidableEq, Repr

/-- One pulse of a pulse list (30 R125). -/
structure PulseSpec where
  set : Word
  clear : Word
  /-- Microseconds, an unsigned 32-bit count. -/
  delay : Word
  sampleLevels : Bool
  sampleTick : Bool
  deriving DecidableEq, Repr

/-- The caller-specified mode of a wave (43 R241, R247). -/
inductive WaveMode where
  | oneShot
  | repeating
  deriving DecidableEq, Repr

/-- Which of the table's three formats an instruction has. -/
inductive Kind where
  /-- CB: an 8-word transfer descriptor, executed by a channel. -/
  | descriptor
  /-- CHAIN: a one-word chain opcode, compiled by the host. -/
  | chain
  /-- HOST: one host step. -/
  | host
  deriving DecidableEq, Repr

/-- The rows of spec/opcode_table.json. A descriptor carries its address fields, its STRIDE word (ignored at
execution, 30 R115) and its NEXTCONBK; a word that its class fixes is not repeated. -/
inductive Instr where
  /-- SET (40 R156): `m` is the OOL mask word. -/
  | set (m stride next : Word)
  /-- CLR (40 R157). -/
  | clr (m stride next : Word)
  /-- LEV (40 R158): `c` is the top-OOL cell. -/
  | lev (c stride next : Word)
  /-- TICK (40 R159). -/
  | tick (c stride next : Word)
  /-- PACE_P (40 R160): `t` ticks. -/
  | paceP (t : BitVec 28) (stride next : Word)
  /-- PACE_S (40 R161). -/
  | paceS (t : BitVec 28) (stride next : Word)
  /-- COPY of one word (40 R162). -/
  | copy (src dst stride next : Word)
  /-- COPY.N: `w` words, w > 1 (40 R162). -/
  | copyN (src dst : Word) (w : BitVec 28) (stride next : Word)
  /-- XFER: any other admitted descriptor, `n` words long (40 R155). -/
  | xfer (f : XferTI) (src dst : Word) (n : BitVec 28) (stride next : Word)
  /-- NOP (40 R163). -/
  | nop (stride next : Word)
  /-- LINK c, t (30 R135): `t` is the address of the descriptor whose NEXTCONBK word is written. -/
  | link (c t stride next : Word)
  /-- PlayWave(id) (44 R280). -/
  | playWave (id : Nat)
  /-- DelayMicros(n) (44 R284). -/
  | delayMicros (n : Nat)
  /-- LoopBegin (44 R285). -/
  | loopBegin
  /-- LoopEnd(cycleCount) (44 R286 to R288). -/
  | loopEnd (k : Nat)
  /-- RepeatForever (44 R291). -/
  | repeatForever
  /-- ARM(ch, a) (41 R190). -/
  | arm (ch : ChanId) (a : Word)
  /-- RESET(ch) (41 R191). -/
  | reset (ch : ChanId)
  /-- BUSY(ch) (41 R192). -/
  | busy (ch : ChanId)
  /-- STORE(a, v) (41 R193). -/
  | store (a v : Word)
  /-- LOAD(a) (41 R194). -/
  | load (a : Word)
  /-- PACER_CFG(P, tickMicros) (41 R195). -/
  | pacerCfg (tickMicros : Nat)
  /-- WAVECLK (41 R196). -/
  | waveclk
  /-- GPIO_SET(v) (41 R197). -/
  | gpioSet (v : Word)
  /-- GPIO_CLR(v) (41 R197). -/
  | gpioClr (v : Word)
  /-- STOP(ch) (41 R198). -/
  | stop (ch : ChanId)
  /-- CSREAD(ch) (41 R199). -/
  | csread (ch : ChanId)
  deriving DecidableEq, Repr

/-- The table's format of an instruction. -/
def Instr.kind : Instr → Kind
  | .set _ _ _ | .clr _ _ _ | .lev _ _ _ | .tick _ _ _ | .paceP _ _ _ | .paceS _ _ _ => .descriptor
  | .copy _ _ _ _ | .copyN _ _ _ _ _ | .xfer _ _ _ _ _ _ | .nop _ _ | .link _ _ _ _ => .descriptor
  | .playWave _ | .delayMicros _ | .loopBegin | .loopEnd _ | .repeatForever => .chain
  | .arm _ _ | .reset _ | .busy _ | .store _ _ | .load _ | .pacerCfg _ | .waveclk => .host
  | .gpioSet _ | .gpioClr _ | .stop _ | .csread _ => .host

end Sys2Proof
end

