-- ==== Sys2Proof/Config.lean ====
section
/-!
DEFINITION. The configuration record of 00 R9, the example instance CFG-X of spec/95_test_vectors.md section 0,
and the free values (`draw()`).

The record is an ARGUMENT of the model: it stands in State, no step changes it, and a statement over all states is
a statement over all configurations (log 1).
-/
namespace Sys2Proof

/-- `PAGE_SIZE` (00 R9). -/
def pageSize : Nat := 4096

/-- The implementation parameters of 00 R9, under the spec's names. `arenaPages` is the length of `pageBus`, and
`chainCbs` the length of `chainCbBus`. -/
structure Config where
  /-- `pageBus(p)`, one entry per arena page. -/
  pageBus : List Word
  cbsPerPage : Nat
  oolPerPage : Nat
  /-- `chainCbBus(i)`, one entry per chain descriptor slot. -/
  chainCbBus : List Word
  chainOol : Nat
  chainOolBase : Word
  maxCounters : Nat
  /-- L, the Counter radix. -/
  blockLength : Nat
  /-- B, the Counter digit count. -/
  blocks : Nat
  maxLoopDepth : Nat
  maxPulses : Nat
  maxWaves : Nat
  /-- K, delay and turn-off pairs per carrier repetition. -/
  carrierSlots : Nat
  carrierCbs : Nat
  carrierOol : Nat
  carrierCb0 : Nat
  carrierOol0 : Nat
  pacerDepthP : Nat
  pacerDepthS : Nat
  chP : Nat
  chS : Nat
  gpset0 : Word
  gpclr0 : Word
  gplev0 : Word
  timerLo : Word
  fifoP : Word
  permapP : BitVec 5
  fifoS : Word
  permapS : BitVec 5
  outputMask : Word
  /-- ZW, the bus address of the zero word. -/
  zw : Word
  deriving DecidableEq, Repr

/-- CFG-X, the example instance of spec/95_test_vectors.md section 0: "Any other instance is equally valid". The
peripheral addresses and PERMAP numbers are the defaults of 00 R9. DESIGN CHOICE (log 1): it is the configuration of
`State.reset`. The channel numbers, which no rule reads, are 0 and 1 (CFG-X names none). -/
def Config.example : Config where
  pageBus := [0x00100000#32, 0x00101000#32, 0x00102000#32, 0x00103000#32]
  cbsPerPage := 64
  oolPerPage := 512
  chainCbBus := (List.range 64).map fun i => BitVec.ofNat 32 (0x00180000 + 32 * i)
  chainOol := 256
  chainOolBase := 0x00181000#32
  maxCounters := 4
  blockLength := 4
  blocks := 2
  maxLoopDepth := 4
  maxPulses := 64
  maxWaves := 16
  carrierSlots := 2
  carrierCbs := 64
  carrierOol := 63
  carrierCb0 := 0
  carrierOol0 := 1
  pacerDepthP := 2
  pacerDepthS := 2
  chP := 0
  chS := 1
  gpset0 := 0x7E20001C#32
  gpclr0 := 0x7E200028#32
  gplev0 := 0x7E200034#32
  timerLo := 0x7E003004#32
  fifoP := 0x7E203004#32
  permapP := 2#5
  fifoS := 0x7E20C018#32
  permapS := 5#5
  outputMask := 0x000000FF#32
  zw := 0x00100800#32

/-! ### Free values: `draw()` of the spec, applied to the draw counter of State (log 7). None has a body. -/

/-- External levels of input lines (10 R40; 93 U3). -/
opaque Config.freeLevels : Nat → Word

/-- The free-running timer (10 R45; 93 U2). -/
opaque Config.freeTimer : Nat → Word

/-- CS bits 30:1 on a host read (10 R34; 41 R199; 93 U5). -/
opaque Config.freeStatus : Nat → Word

/-- A host LOAD of a word nothing has written (41 R194; 93 U12). -/
opaque Config.freeUnwritten : Nat → Word

/-- Whether a descriptor of LENGTH 0 performs one beat (40 R154; 93 U1). -/
opaque Config.freeBeat : Nat → Bool

/-- Which agent steps next where the schedule names none (20 R86; 93 U28). -/
opaque Config.freeTurn : Nat → Agent

end Sys2Proof
end

