-- ==== Sys2Proof/Machine/Map.lean ====
section
/-!
DEFINITION. The bus address map (20 R71, R72), arena and chain-region addressing (20 R73; 44 R270), and what makes a
configuration meet 00 R9.
-/
namespace Sys2Proof

/-- The address lies in an arena page (20 R71, R72). -/
def Config.inArena (c : Config) (a : Word) : Bool :=
  c.pageBus.any fun p => decide (p.toNat ≤ a.toNat) && decide (a.toNat < p.toNat + pageSize)

/-- The address lies in a descriptor slot of the chain region (20 R71). -/
def Config.inChainSlot (c : Config) (a : Word) : Bool :=
  c.chainCbBus.any fun b => decide (b.toNat ≤ a.toNat) && decide (a.toNat < b.toNat + 32)

/-- The address lies in the chain region's OOL words (20 R71). -/
def Config.inChainOol (c : Config) (a : Word) : Bool :=
  decide (c.chainOolBase.toNat ≤ a.toNat) && decide (a.toNat < c.chainOolBase.toNat + 4 * c.chainOol)

/-- The address lies in the arena or the chain region: the memory regions of 20 R71. -/
def Config.inMem (c : Config) (a : Word) : Bool :=
  c.inArena a || c.inChainSlot a || c.inChainOol a

/-- The 32 bytes at `a` lie in the arena or in one chain-region slot (30 R122 step 2). -/
def Config.fetchable (c : Config) (a : Word) : Bool :=
  c.pageBus.any (fun p => decide (p.toNat ≤ a.toNat) && decide (a.toNat + 32 ≤ p.toNat + pageSize)) ||
    c.chainCbBus.any (fun b => decide (b = a))

/-- The regions of 20 R71. -/
inductive Region where
  | memory
  | gpset
  | gpclr
  | gplev
  | timer
  | fifo (pc : ChanId)
  | unmapped
  deriving DecidableEq, Repr

/-- The region an address lies in, tested in the order of 20 R80 and R81. -/
def Config.region (c : Config) (a : Word) : Region :=
  if c.inMem a then .memory
  else if a = c.gpset0 then .gpset
  else if a = c.gpclr0 then .gpclr
  else if a = c.fifoP then .fifo .P
  else if a = c.fifoS then .fifo .S
  else if a = c.gplev0 then .gplev
  else if a = c.timerLo then .timer
  else .unmapped

/-- `pacerDepth_pc` (00 R9). -/
def Config.pacerDepth (c : Config) : ChanId → Nat
  | .P => c.pacerDepthP
  | .S => c.pacerDepthS

/-- `pageBus(p)`; a page the arena does not have is 0, which lies in no region (20 R79). -/
def Config.page (c : Config) (p : Nat) : Word := (c.pageBus[p]?).getD 0#32

/-- `cbBus(n)`: descriptor position n of the arena (20 R73). -/
def Config.cbBus (c : Config) (n : Nat) : Word :=
  c.page (n / c.cbsPerPage) + BitVec.ofNat 32 (32 * (n % c.cbsPerPage))

/-- `oolBus(m)`: OOL position m of the arena (20 R73). -/
def Config.oolBus (c : Config) (m : Nat) : Word :=
  c.page (m / c.oolPerPage) + BitVec.ofNat 32 (32 * c.cbsPerPage + 4 * (m % c.oolPerPage))

/-- `CH(i)`: chain descriptor i (44 R270). -/
def Config.chainCb (c : Config) (i : Nat) : Word := (c.chainCbBus[i]?).getD 0#32

/-- `CO(m)`: chain OOL word m (44 R270). -/
def Config.chainCo (c : Config) (m : Nat) : Word := c.chainOolBase + BitVec.ofNat 32 (4 * m)

/-- Address `t` is a descriptor position of the arena (20 R73) or a chain-region slot. -/
def Config.isDescSlot (c : Config) (t : Word) : Bool :=
  c.pageBus.any (fun p => decide (p.toNat ≤ t.toNat) && decide (t.toNat < p.toNat + 32 * c.cbsPerPage) &&
    decide ((t.toNat - p.toNat) % 32 = 0)) ||
    c.chainCbBus.any (fun b => decide (b = t))

/-- Address `a` is the NEXTCONBK word (offset 0x14) of a descriptor position (30 R110, R135). -/
def Config.isNextWord (c : Config) (a : Word) : Bool := c.isDescSlot (a - 0x14#32)

/-! ### The constraints of 00 R9 -/

/-- No two members of a list are equal. -/
def allDistinct {α : Type} [DecidableEq α] : List α → Bool
  | [] => true
  | x :: xs => xs.all (fun y => decide (x ≠ y)) && allDistinct xs

/-- Two address ranges (base, length) do not meet. -/
def apart (a : Nat) (la : Nat) (b : Nat) (lb : Nat) : Bool := decide (a + la ≤ b) || decide (b + lb ≤ a)

/-- The peripheral registers of 20 R71. -/
def Config.peripherals (c : Config) : List Word :=
  [c.gpset0, c.gpclr0, c.gplev0, c.timerLo, c.fifoP, c.fifoS]

/-- Arena geometry: at least one page, slot and OOL word; the slots and words fit a page; pages aligned, non-zero,
distinct (00 R9 rows arenaPages, cbsPerPage, oolPerPage, pageBus). -/
def Config.arenaOk (c : Config) : Bool :=
  decide (c.pageBus ≠ []) && decide (1 ≤ c.cbsPerPage) && decide (1 ≤ c.oolPerPage) &&
  decide (32 * c.cbsPerPage + 4 * c.oolPerPage ≤ pageSize) &&
  c.pageBus.all (fun p => decide (p.toNat % pageSize = 0) && decide (p ≠ 0#32)) && allDistinct c.pageBus

/-- Chain region: slots aligned, non-zero, distinct; OOL words aligned, non-zero, inside the address space; all
disjoint from each other and from the arena (00 R9 rows chainCbs, chainOol, chainCbBus; 20 R71). -/
def Config.chainOk (c : Config) : Bool :=
  decide (c.chainCbBus ≠ []) && decide (1 ≤ c.chainOol) &&
  c.chainCbBus.all (fun b => decide (b.toNat % 32 = 0) && decide (b ≠ 0#32)) && allDistinct c.chainCbBus &&
  decide (c.chainOolBase.toNat % 4 = 0) && decide (c.chainOolBase ≠ 0#32) &&
  decide (c.chainOolBase.toNat + 4 * c.chainOol ≤ 2 ^ 32) &&
  c.chainCbBus.all (fun b => apart b.toNat 32 c.chainOolBase.toNat (4 * c.chainOol) &&
    c.pageBus.all (fun p => apart b.toNat 32 p.toNat pageSize)) &&
  c.pageBus.all (fun p => apart p.toNat pageSize c.chainOolBase.toNat (4 * c.chainOol))

/-- Peripheral registers: word aligned, distinct, not 0 and not in memory; the two PERMAP numbers differ
(00 R9; 20 R71, R79). -/
def Config.peripheralsOk (c : Config) : Bool :=
  c.peripherals.all (fun a => decide (a.toNat % 4 = 0) && decide (a ≠ 0#32) && !c.inMem a) &&
  allDistinct c.peripherals && decide (c.permapP ≠ c.permapS)

/-- The limits of 00 R9. -/
def Config.limitsOk (c : Config) : Bool :=
  decide (2 ≤ c.blockLength) && decide (1 ≤ c.blocks) && decide (1 ≤ c.maxLoopDepth) && decide (1 ≤ c.maxPulses) &&
  decide (1 ≤ c.maxWaves) && decide (c.maxWaves ≤ 65536) && decide (1 ≤ c.carrierSlots) &&
  decide (1 ≤ c.pacerDepthP) && decide (1 ≤ c.pacerDepthS) && decide (c.chP ≠ c.chS)

/-- ZW is one OOL word of the arena, and the carrier region lies in the arena without it (00 R9 rows ZW,
carrierCb0, carrierOol0; 42 R210). -/
def Config.reservedOk (c : Config) : Bool :=
  decide (c.carrierCb0 + c.carrierCbs ≤ c.pageBus.length * c.cbsPerPage) &&
  decide (c.carrierOol0 + c.carrierOol ≤ c.pageBus.length * c.oolPerPage) &&
  (List.range (c.pageBus.length * c.oolPerPage)).any (fun m => decide (c.zw = c.oolBus m) &&
    (decide (m < c.carrierOol0) || decide (c.carrierOol0 + c.carrierOol ≤ m)))

/-- The record meets the constraints 00 R9 puts on its entries. -/
def Config.ok (c : Config) : Bool :=
  c.arenaOk && c.chainOk && c.peripheralsOk && c.limitsOk && c.reservedOk

end Sys2Proof
end

