-- ==== Sys2Proof/Machine/Operands.lean ====
section
/-!
DEFINITION. The fields of a descriptor's words (30 R111 to R118), operand assembly (30 R119), the overlap check
(30 R122 step 8), and the descriptors of the classes and pseudo-instructions (30 R120, R121, R132 to R135).
-/
namespace Sys2Proof

/-! ### TI fields (30 R111) -/

/-- TI bit 4. -/
def Desc.destInc (d : Desc) : Bool := d.ti.getLsbD 4
/-- TI bit 6. -/
def Desc.destDreq (d : Desc) : Bool := d.ti.getLsbD 6
/-- TI bit 8. -/
def Desc.srcInc (d : Desc) : Bool := d.ti.getLsbD 8
/-- TI bits 20:16. -/
def Desc.permap (d : Desc) : BitVec 5 := d.ti.extractLsb' 16 5

/-- `admittedTI` (30 R116). -/
def Config.admittedTI (c : Config) (ti : Word) : Bool :=
  !ti.getLsbD 0 && !ti.getLsbD 1 && !ti.getLsbD 2 && ti.getLsbD 3 &&
  !ti.getLsbD 5 && !ti.getLsbD 7 && !ti.getLsbD 9 && !ti.getLsbD 10 && !ti.getLsbD 11 &&
  decide (ti.extractLsb' 27 5 = 0#5) &&
  (!ti.getLsbD 6 || decide (ti.extractLsb' 16 5 = c.permapP) || decide (ti.extractLsb' 16 5 = c.permapS))

/-! ### Operand assembly (30 R119) -/

/-- n = TXFR_LEN[29:0] / 4 (30 R114). -/
def Desc.beats (d : Desc) : Nat := (d.txfrLen.extractLsb' 2 28).toNat

/-- The source address of beat i (30 R112). -/
def Desc.srcAt (d : Desc) (i : Nat) : Word :=
  d.sourceAd + (if d.srcInc then BitVec.ofNat 32 (4 * i) else 0#32)

/-- The destination address of beat i (30 R113). -/
def Desc.dstAt (d : Desc) (i : Nat) : Word :=
  d.destAd + (if d.destInc then BitVec.ofNat 32 (4 * i) else 0#32)

/-- Which pacer's DREQ paces the beats, read only when DEST_DREQ = 1 (30 R119). -/
def Desc.pacerOf (c : Config) (d : Desc) : ChanId := if d.permap = c.permapP then .P else .S

/-! ### The overlap check (30 R122 step 8) -/

/-- Some i in [start, start + fuel) satisfies p. -/
def anyFrom (p : Nat → Bool) : Nat → Nat → Bool
  | 0, _ => false
  | fuel + 1, i => p i || anyFrom p fuel (i + 1)

/-- Some beat j reads a memory word that a beat i < j of the same descriptor writes, by the four cases of the INC
bits (30 R122 step 8). With both fixed the two addresses must be equal; with one fixed the moving address must reach
it; with both moving the distance is a whole number of words below n and some shared word lies in memory. -/
def Desc.overlaps (c : Config) (d : Desc) : Bool :=
  match d.srcInc, d.destInc with
  | false, false => decide (2 ≤ d.beats) && decide (d.destAd = d.sourceAd) && c.inMem d.destAd
  | true, false =>
    c.inMem d.destAd && decide ((d.destAd - d.sourceAd).toNat % 4 = 0) &&
      decide (4 ≤ (d.destAd - d.sourceAd).toNat) && decide ((d.destAd - d.sourceAd).toNat < 4 * d.beats)
  | false, true =>
    c.inMem d.sourceAd && decide ((d.sourceAd - d.destAd).toNat % 4 = 0) &&
      decide ((d.sourceAd - d.destAd).toNat + 4 < 4 * d.beats)
  | true, true =>
    decide ((d.destAd - d.sourceAd).toNat % 4 = 0) && decide (4 ≤ (d.destAd - d.sourceAd).toNat) &&
      decide ((d.destAd - d.sourceAd).toNat < 4 * d.beats) &&
      anyFrom (fun i => c.inMem (d.dstAt i)) (d.beats - (d.destAd - d.sourceAd).toNat / 4) 0

/-! ### The checks on a fetched descriptor -/

/-- 30 R122 steps 4 to 8 on the descriptor's words, in that order; the first failing check decides. -/
def Desc.check (c : Config) (d : Desc) : Option FaultReason :=
  if c.admittedTI d.ti = false then some .unadmitted
  else if d.txfrLen.extractLsb' 30 2 ≠ 0#2 ∨ d.txfrLen.extractLsb' 0 2 ≠ 0#2 then some .badLength
  else if d.sourceAd.extractLsb' 0 2 ≠ 0#2 ∨ d.destAd.extractLsb' 0 2 ≠ 0#2 then some .misaligned
  else if d.nextconbk.extractLsb' 0 5 ≠ 0#5 then some .misaligned
  else if d.overlaps c then some .overlap
  else none

/-! ### Constants and descriptors of the classes -/

/-- TI_NORMAL = NO_WIDE_BURSTS | WAIT_RESP (30 R121). -/
def tiNormal : Word := 0x04000008#32

/-- TI_INC = TI_NORMAL | SRC_INC | DEST_INC (30 R121). -/
def tiInc : Word := 0x04000118#32

/-- TI_PACE = TI_NORMAL | DEST_DREQ | (PERMAP << 16) (30 R121). -/
def tiPace (permap : BitVec 5) : Word := 0x04000048#32 ||| (permap.setWidth 32 <<< 16)

/-- The TI word of an XFER: bit 3 is 1 and every bit the admitted subset forbids is 0 (30 R111, R116). -/
def XferTI.word (f : XferTI) : Word :=
  0#5 ++ BitVec.ofBool f.noWide ++ f.waits ++ f.permap ++ f.burst ++ 0#3 ++ BitVec.ofBool f.srcInc ++ 0#1 ++
    BitVec.ofBool f.destDreq ++ 0#1 ++ BitVec.ofBool f.destInc ++ 1#1 ++ 0#3

/-- The free TI fields of an admitted TI word. -/
def XferTI.ofWord (ti : Word) : XferTI where
  destInc := ti.getLsbD 4
  destDreq := ti.getLsbD 6
  srcInc := ti.getLsbD 8
  burst := ti.extractLsb' 12 4
  permap := ti.extractLsb' 16 5
  waits := ti.extractLsb' 21 5
  noWide := ti.getLsbD 26

/-- TXFR_LEN of n words: LENGTH = 4n in bits 29:0, bits 31:30 zero (30 R114). -/
def lenWord (n : BitVec 28) : Word := 0#2 ++ n ++ 0#2

/-- `SET m` (30 R132). -/
def descSet (c : Config) (m stride next : Word) : Desc := ⟨tiNormal, m, c.gpset0, 4#32, stride, next⟩
/-- `CLR m` (30 R132). -/
def descClr (c : Config) (m stride next : Word) : Desc := ⟨tiNormal, m, c.gpclr0, 4#32, stride, next⟩
/-- `LEV cell` (30 R133). -/
def descLev (c : Config) (cell stride next : Word) : Desc := ⟨tiNormal, c.gplev0, cell, 4#32, stride, next⟩
/-- `TICK cell` (30 R133). -/
def descTick (c : Config) (cell stride next : Word) : Desc := ⟨tiNormal, c.timerLo, cell, 4#32, stride, next⟩
/-- `PACE_P t` (30 R134). -/
def descPaceP (c : Config) (t : BitVec 28) (stride next : Word) : Desc :=
  ⟨tiPace c.permapP, c.zw, c.fifoP, lenWord t, stride, next⟩
/-- `PACE_S t` (30 R134). -/
def descPaceS (c : Config) (t : BitVec 28) (stride next : Word) : Desc :=
  ⟨tiPace c.permapS, c.zw, c.fifoS, lenWord t, stride, next⟩
/-- `COPY s, d, 1` (30 R135). -/
def descCopy (src dst stride next : Word) : Desc := ⟨tiNormal, src, dst, 4#32, stride, next⟩
/-- `COPY s, d, w`, w > 1 (30 R135). -/
def descCopyN (src dst : Word) (w : BitVec 28) (stride next : Word) : Desc :=
  ⟨tiInc, src, dst, lenWord w, stride, next⟩
/-- Any other admitted descriptor (30 R120 row XFER). -/
def descXfer (f : XferTI) (src dst : Word) (n : BitVec 28) (stride next : Word) : Desc :=
  ⟨f.word, src, dst, lenWord n, stride, next⟩
/-- `NOP` (30 R135). -/
def descNop (c : Config) (stride next : Word) : Desc := ⟨tiNormal, c.zw, c.zw, 4#32, stride, next⟩
/-- `LINK cell, t` = `COPY cell, t+0x14, 1` (30 R135). -/
def descLink (cell t stride next : Word) : Desc := ⟨tiNormal, cell, t + 0x14#32, 4#32, stride, next⟩

/-- The descriptor words of an instruction; none for a chain opcode or a host step. -/
def Instr.desc (c : Config) : Instr → Option Desc
  | .set m st nx => some (descSet c m st nx)
  | .clr m st nx => some (descClr c m st nx)
  | .lev cell st nx => some (descLev c cell st nx)
  | .tick cell st nx => some (descTick c cell st nx)
  | .paceP t st nx => some (descPaceP c t st nx)
  | .paceS t st nx => some (descPaceS c t st nx)
  | .copy s d st nx => some (descCopy s d st nx)
  | .copyN s d w st nx => some (descCopyN s d w st nx)
  | .xfer f s d n st nx => some (descXfer f s d n st nx)
  | .nop st nx => some (descNop c st nx)
  | .link cell t st nx => some (descLink cell t st nx)
  | .playWave _ | .delayMicros _ | .loopBegin | .loopEnd _ | .repeatForever => none
  | .arm _ _ | .reset _ | .busy _ | .store _ _ | .load _ | .pacerCfg _ | .waveclk => none
  | .gpioSet _ | .gpioClr _ | .stop _ | .csread _ => none

end Sys2Proof
end

