-- ==== Sys2Proof/WellFormed.lean ====
section
/-!
DEFINITION. When an instruction is well formed: its operands are in the ranges the spec gives, its descriptor passes
the checks of 30 R122 steps 4 to 8, and it is named by the first class it meets (30 R120).
-/
namespace Sys2Proof

/-- The conditions 30 R120 and spec/opcode_table.json put on the operands of a descriptor class, beside the checks. -/
def Instr.inClass (c : Config) : Instr → Bool
  | .set m _ _ => c.inMem m
  | .clr m _ _ => c.inMem m
  | .lev cell _ _ => c.inMem cell
  | .tick cell _ _ => c.inMem cell
  | .paceP _ _ _ => true
  | .paceS _ _ _ => true
  | .copy s d _ _ => c.inMem s && c.inMem d && !(decide (s = c.zw) && decide (d = c.zw)) && !c.isNextWord d
  | .copyN s d w _ _ => c.inMem s && c.inMem d && decide (2 ≤ w.toNat)
  | .xfer f s d n _ _ =>
    !(decide (f.word = tiNormal) && decide (n = 1#28) &&
        ((decide (d = c.gpset0) && c.inMem s) || (decide (d = c.gpclr0) && c.inMem s) ||
         (decide (s = c.gplev0) && c.inMem d) || (decide (s = c.timerLo) && c.inMem d) ||
         (c.inMem s && c.inMem d))) &&
    !(decide (f.word = tiPace c.permapP) && decide (s = c.zw) && decide (d = c.fifoP)) &&
    !(decide (f.word = tiPace c.permapS) && decide (s = c.zw) && decide (d = c.fifoS)) &&
    !(decide (f.word = tiInc) && decide (2 ≤ n.toNat) && c.inMem s && c.inMem d)
  | .nop _ _ => c.inMem c.zw
  | .link cell t _ _ =>
    c.inMem cell && c.inMem (t + 0x14#32) && c.isDescSlot t && !(decide (cell = c.zw) && decide (t + 0x14#32 = c.zw))
  | .playWave id => decide (id < 65536)
  | .delayMicros n => decide (n < 2 ^ 28)
  | .loopBegin => true
  | .loopEnd k => decide (k < 2 ^ 28)
  | .repeatForever => true
  | .arm _ _ => true
  | .reset _ => true
  | .busy _ => true
  | .store a _ => c.inMem a && decide (a.extractLsb' 0 2 = 0#2)
  | .load a => c.inMem a && decide (a.extractLsb' 0 2 = 0#2)
  | .pacerCfg t => decide (1 ≤ t)
  | .waveclk => true
  | .gpioSet _ => true
  | .gpioClr _ => true
  | .stop _ => true
  | .csread _ => true

/-- Well-formedness: the class conditions, and for a descriptor no failing check. -/
def Instr.wellFormed (c : Config) (i : Instr) : Bool :=
  i.inClass c &&
    match i.desc c with
    | some d => decide (d.check c = none)
    | none => true

end Sys2Proof
end

