-- ==== Sys2Proof/Decode.lean ====
section
/-!
DEFINITION. Decoding and encoding: transfer descriptors from 32 little-endian bytes (30 R110 to R122; 20 R76) and
chain opcodes from one word (30 R130). Total; every refusal has a name. Host steps have no instruction words.
-/
namespace Sys2Proof

/-! ### Bytes and words (20 R76: little-endian) -/

/-- The four bytes of a word, lowest address first. -/
def wordBytes (w : Word) : List Byte :=
  [w.extractLsb' 0 8, w.extractLsb' 8 8, w.extractLsb' 16 8, w.extractLsb' 24 8]

/-- The word of four bytes, the first at the lowest address. -/
def wordOfBytes (b0 b1 b2 b3 : Byte) : Word := b3 ++ b2 ++ b1 ++ b0

/-- Whole words from the front of a byte list, with the bytes left over dropped. -/
def wordsOfBytes : List Byte → List Word
  | b0 :: b1 :: b2 :: b3 :: rest => wordOfBytes b0 b1 b2 b3 :: wordsOfBytes rest
  | _ => []

/-! ### Descriptors -/

/-- The free TI fields and the length field read back as an XFER (30 R120's last row). -/
def Desc.asXfer (d : Desc) : Instr :=
  .xfer (XferTI.ofWord d.ti) d.sourceAd d.destAd (d.txfrLen.extractLsb' 2 28) d.stride d.nextconbk

/-- The name of a descriptor with TI = TI_NORMAL and LENGTH = 4, the first class met (30 R120). A COPY of ZW onto ZW
is named NOP, and one whose destination is the NEXTCONBK word of a descriptor position is named LINK (30 R135;
log 15). -/
def Desc.classifyNormal (c : Config) (d : Desc) : Instr :=
  if d.destAd = c.gpset0 ∧ c.inMem d.sourceAd = true then .set d.sourceAd d.stride d.nextconbk
  else if d.destAd = c.gpclr0 ∧ c.inMem d.sourceAd = true then .clr d.sourceAd d.stride d.nextconbk
  else if d.sourceAd = c.gplev0 ∧ c.inMem d.destAd = true then .lev d.destAd d.stride d.nextconbk
  else if d.sourceAd = c.timerLo ∧ c.inMem d.destAd = true then .tick d.destAd d.stride d.nextconbk
  else if c.inMem d.sourceAd = true ∧ c.inMem d.destAd = true then
    if d.sourceAd = c.zw ∧ d.destAd = c.zw then .nop d.stride d.nextconbk
    else if c.isNextWord d.destAd = true then .link d.sourceAd (d.destAd - 0x14#32) d.stride d.nextconbk
    else .copy d.sourceAd d.destAd d.stride d.nextconbk
  else d.asXfer

/-- The name of an admitted descriptor: the first class of 30 R120's table whose conditions it meets. -/
def Desc.classify (c : Config) (d : Desc) : Instr :=
  if d.ti = tiNormal ∧ d.txfrLen = 4#32 then d.classifyNormal c
  else if d.ti = tiPace c.permapP ∧ d.sourceAd = c.zw ∧ d.destAd = c.fifoP then
    .paceP (d.txfrLen.extractLsb' 2 28) d.stride d.nextconbk
  else if d.ti = tiPace c.permapS ∧ d.sourceAd = c.zw ∧ d.destAd = c.fifoS then
    .paceS (d.txfrLen.extractLsb' 2 28) d.stride d.nextconbk
  else if d.ti = tiInc ∧ 2 ≤ d.beats ∧ c.inMem d.sourceAd = true ∧ c.inMem d.destAd = true then
    .copyN d.sourceAd d.destAd (d.txfrLen.extractLsb' 2 28) d.stride d.nextconbk
  else d.asXfer

/-- 30 R122 steps 4 to 8, then the class. -/
def decodeDesc (c : Config) (d : Desc) : Except FaultReason Instr :=
  match d.check c with
  | some r => .error r
  | none => .ok (d.classify c)

/-- Why a byte list is no instruction. -/
inductive DecodeError where
  /-- Fewer than 32 bytes: no whole descriptor. -/
  | truncated
  /-- A check of 30 R122 steps 4 to 8 fails. -/
  | check (r : FaultReason)
  deriving DecidableEq, Repr

/-- The descriptor in the first 32 bytes, and the bytes after it. Words 6 and 7 are read and ignored (30 R118). -/
def decode (c : Config) (bs : List Byte) : Except DecodeError (Instr × List Byte) :=
  match wordsOfBytes (bs.take 32) with
  | [w0, w1, w2, w3, w4, w5, _, _] =>
    match decodeDesc c ⟨w0, w1, w2, w3, w4, w5⟩ with
    | .ok i => .ok (i, bs.drop 32)
    | .error r => .error (.check r)
  | _ => .error .truncated

/-! ### Chain opcodes (30 R130) -/

/-- A chain-opcode word; none where it decodes to no opcode (reserved tag, or a non-zero bit where 30 R130 has 0). -/
def decodeChain (w : Word) : Option Instr :=
  if w.extractLsb' 28 4 = 1#4 then
    if w.extractLsb' 16 12 = 0#12 then some (.playWave (w.extractLsb' 0 16).toNat) else none
  else if w.extractLsb' 28 4 = 2#4 then some (.delayMicros (w.extractLsb' 0 28).toNat)
  else if w.extractLsb' 28 4 = 3#4 then if w.extractLsb' 0 28 = 0#28 then some .loopBegin else none
  else if w.extractLsb' 28 4 = 4#4 then some (.loopEnd (w.extractLsb' 0 28).toNat)
  else if w.extractLsb' 28 4 = 5#4 then if w.extractLsb' 0 28 = 0#28 then some .repeatForever else none
  else none

/-! ### Encoding -/

/-- The eight words of a descriptor; words 6 and 7 are written 0 (30 R110, R118). -/
def Desc.words (d : Desc) : List Word :=
  [d.ti, d.sourceAd, d.destAd, d.txfrLen, d.stride, d.nextconbk, 0#32, 0#32]

/-- The word of a chain opcode (30 R130). -/
def encodeChain : Instr → List Word
  | .playWave id => [1#4 ++ 0#12 ++ BitVec.ofNat 16 id]
  | .delayMicros n => [2#4 ++ BitVec.ofNat 28 n]
  | .loopBegin => [3#4 ++ 0#28]
  | .loopEnd k => [4#4 ++ BitVec.ofNat 28 k]
  | .repeatForever => [5#4 ++ 0#28]
  | .set _ _ _ | .clr _ _ _ | .lev _ _ _ | .tick _ _ _ | .paceP _ _ _ | .paceS _ _ _ => []
  | .copy _ _ _ _ | .copyN _ _ _ _ _ | .xfer _ _ _ _ _ _ | .nop _ _ | .link _ _ _ _ => []
  | .arm _ _ | .reset _ | .busy _ | .store _ _ | .load _ | .pacerCfg _ | .waveclk => []
  | .gpioSet _ | .gpioClr _ | .stop _ | .csread _ => []

/-- The instruction words: eight for a descriptor, one for a chain opcode, none for a host step. -/
def encode (c : Config) (i : Instr) : List Word :=
  match i.desc c with
  | some d => d.words
  | none => encodeChain i

/-- The bytes of the instruction words, lowest address first. -/
def encodeBytes (c : Config) (i : Instr) : List Byte := (encode c i).flatMap wordBytes

/-! ### The opcode table's words -/

/-- Word k of the number w, bit 0 of w being bit 0 of word 0. -/
def wordAt (w k : Nat) : Word := BitVec.ofNat 32 (w >>> (32 * k))

/-- The eight words of an instruction given as its first `nbits` bits, every further bit 0. -/
def tableWords (nbits w : Nat) : List Word :=
  let v := w % 2 ^ nbits
  [wordAt v 0, wordAt v 1, wordAt v 2, wordAt v 3, wordAt v 4, wordAt v 5, wordAt v 6, wordAt v 7]

/-- The chain opcode that a table word of at most one word is, if it is one. The two formats share no word: an
admitted TI has bits 31:27 zero (30 R116) and a chain opcode has a tag of 1 to 5 there (30 R130). -/
def tableChain (nbits w : Nat) : Option Instr :=
  if nbits ≤ 32 then decodeChain (wordAt (w % 2 ^ nbits) 0) else none

/-- The instruction the decoder reads from a word of the opcode table, under CFG-X (log 30). -/
def decodeTableWord (nbits w : Nat) : Option Instr :=
  match tableChain nbits w with
  | some i => some i
  | none =>
    match decode Config.example ((tableWords nbits w).flatMap wordBytes) with
    | .ok (i, _) => some i
    | .error _ => none

end Sys2Proof
end

