-- ==== Sys2Proof/Machine/State.lean ====
section
/-!
DEFINITION. The state of the machine (10 R30), why it can stop, and the state after reset: the launch state
(10 R50; 70 R371 step 3, R372).
-/
namespace Sys2Proof.Machine

/-- Memory: (address, byte) pairs, addresses strictly rising. A byte that is not listed has not been written (10 R46:
`none`), so nothing is listed that reads as an unlisted address does. -/
abbrev Memory := List Host.Cell

/-- What a channel is doing (10 R32). `fetch early`: the words of the descriptor at CONBLK_AD that have been read ahead
of the FETCH step, by word number, each none where nothing had written it (20 R83; the MODEL's own, log 12).
`exec d n i h`: descriptor snapshot d is loaded (10 R35), n beats are to be performed, i have been, and h is the word
the current beat has read but not yet written. -/
inductive Phase where
  | idle
  | fetch (early : List (Nat × Option Word))
  | exec (d : Desc) (n i : Nat) (h : Option Word)
  deriving DecidableEq, Repr

/-- A DMA channel (10 R32 to R36). -/
structure Channel where
  /-- CS.ACTIVE. -/
  active : Bool
  /-- CONBLK_AD: the bus address of the descriptor being fetched or executed, 0 when idle. -/
  conblkAd : Word
  phase : Phase
  /-- Sticky (60 R332). -/
  fault : Option FaultReason
  deriving DecidableEq, Repr

/-- A pacer (10 R42). -/
structure Pacer where
  configured : Bool
  /-- Words in the FIFO. -/
  fill : Nat
  /-- Ghost: ticks since launch, read by no step. -/
  ticks : Nat
  /-- The recorded tick period in microseconds, read by no step (41 R195). -/
  period : Nat
  deriving DecidableEq, Repr

/-- Who wrote a GPIO register (10 R48: src). -/
inductive Source where
  | chan (ch : ChanId)
  | host
  deriving DecidableEq, Repr

/-- The recorded events (10 R48). -/
inductive Event where
  | gpioSet (src : Source) (v : Word)
  | gpioClr (src : Source) (v : Word)
  | tick (pc : ChanId)
  | arm (ch : ChanId) (a : Word)
  | reset (ch : ChanId)
  | stop (ch : ChanId)
  | fault (ch : ChanId) (r : FaultReason)
  | waveClock
  | sample (ch : ChanId) (a v : Word)
  deriving DecidableEq, Repr

/-- The host rejection codes, in the ordinal order of 60 R340. -/
inductive HostReject where
  | initMemory
  | initRegisters
  | carrierAlreadyStarted
  | badCarrierArgs
  | carrierTooBig
  | emptyWave
  | tooManyPulses
  | delayTooLong
  | tooManyDescriptors
  | tooManyOOLWords
  | noSpace
  | badWaveId
  | badOpcode
  | mustBeLast
  | badLoop
  | nestingTooDeep
  | badLoopCount
  | chainTooBig
  | accountingMismatch
  deriving DecidableEq, Repr

/-- The registry's record of one compiled wave (43 R240). -/
structure WaveRange where
  bottomCB : Nat
  topCB : Nat
  bottomOOL : Nat
  topOOL : Nat
  cbCount : Nat
  oolBottomCount : Nat
  oolTopCount : Nat
  deleted : Bool
  deriving DecidableEq, Repr

/-- The failures the registry's allocation may answer with (43 R240). -/
inductive AllocError where
  | tooManyDescriptors
  | tooManyOOLWords
  | noSpace
  deriving DecidableEq, Repr

/-- What the registry answers to alloc(e), an input of compile: a range and the id it is registered under, or a
failure (43 R240, R241; log 21). -/
inductive Alloc where
  | ok (id : Nat) (r : WaveRange)
  | fail (e : AllocError)
  deriving DecidableEq, Repr

/-- One item of a chain program: a packed word (30 R130), or an opcode as an abstract value (30 R126). -/
inductive ChainItem where
  | word (w : Word)
  | op (i : Instr)
  deriving DecidableEq, Repr

/-- The sizes 43 R244 counts. -/
structure WaveSize where
  cbCount : Nat
  oolBottomCount : Nat
  oolTopCount : Nat
  deriving DecidableEq, Repr

/-- What a host step or procedure returned last. The MODEL's own (log 10). -/
inductive Ret where
  | none
  | done
  | flag (b : Bool)
  | word (w : Word)
  | waveId (id : Nat)
  | info (r : Option WaveRange)
  | rejected (e : HostReject)
  deriving DecidableEq, Repr

/-- One thing the host still has to do (log 9). -/
inductive HostTask where
  /-- A host step of 41, or a chain opcode of an accepted program being emitted. -/
  | instr (i : Instr)
  /-- A chain-opcode word of an accepted program being emitted. -/
  | word (w : Word)
  /-- The tail T of the chain program (44 R290). -/
  | tail
  /-- Carrier start's last line (42 R212). -/
  | carrierStarted
  /-- compile's sizing assertion (43 R248). -/
  | checkSize (emitted est : WaveSize)
  /-- compile's last line: register the range and return the id (43 R241). -/
  | register (id : Nat) (r : WaveRange)
  /-- The STORE of a live table update, of the word just loaded with the mask set or cleared (42 R218). -/
  | rmwStore (a mask : Word) (setBits : Bool)
  /-- The procedure returns. -/
  | ret (r : Ret)
  /-- A raw host write of CS (10 R34). -/
  | csWrite (ch : ChanId) (v : Word)
  /-- A host access narrower than a word, to memory or a register (20 R76). -/
  | narrowAccess
  /-- A host access to a loaded-descriptor register (10 R35). -/
  | loadedRegAccess (ch : ChanId)
  /-- start(tickMicros, C) (42 R212). -/
  | start (tickMicros cycles : Nat)
  /-- compile(pulses, mode), with the registry's answer (43 R241). -/
  | compile (pulses : List PulseSpec) (mode : WaveMode) (alloc : Alloc)
  /-- play(id, mode) (43 R249). -/
  | play (id : Nat) (mode : WaveMode)
  /-- submit(prog) (44 R271). -/
  | submit (prog : List ChainItem)
  /-- delete(id) (43 R254). -/
  | delete (id : Nat)
  /-- info(id) (43 R254). -/
  | info (id : Nat)
  /-- A live table update of word a: LOAD, then STORE (42 R218). -/
  | tableUpdate (a mask : Word) (setBits : Bool)
  deriving DecidableEq, Repr

/-- The working variables of chain validation and emission (44 R272, R274): cursors q (= cbs) and m (= ool), the
Counters so far, the open loop heads, innermost first, and whether RepeatForever has been seen. -/
structure Build where
  q : Nat
  m : Nat
  counters : Nat
  openHeads : List Nat
  seenRepeat : Bool
  deriving DecidableEq, Repr

/-- Where 44 R272 and R274 start. -/
def Build.init : Build := ⟨0, 0, 0, [], false⟩

/-- The host's state (10 R47); `todo`, `ret` and `build` are the MODEL's own (log 9, log 10, log 14). -/
structure HostState where
  waveClockReady : Bool
  carrierRunning : Bool
  /-- Wave id to range, ids strictly rising. -/
  waves : List (Nat × WaveRange)
  todo : List HostTask
  ret : Ret
  build : Build
  deriving DecidableEq, Repr

/-- The machine state (10 R30). `sched`, `cur` and `draws` are the MODEL's own (log 4, log 5, log 7). -/
structure State where
  /-- The configuration, changed by no step (00 R9; log 1). -/
  cfg : Config
  chanP : Channel
  chanS : Channel
  pacerP : Pacer
  pacerS : Pacer
  /-- gpio.out (10 R37). -/
  gpioOut : Word
  /-- The value the last read of the free-running timer drew (10 R45; log 8). -/
  timer : Word
  mem : Memory
  host : HostState
  /-- Oldest first (10 R48). -/
  trace : List Event
  refused : Bool
  /-- The agents that step next, in order. -/
  sched : List Agent
  /-- The channel whose descriptor `exec` steps. -/
  cur : ChanId
  /-- How many free values have been drawn. -/
  draws : Nat
  deriving DecidableEq, Repr

/-- Why the machine stops. `step` raises none of these: an engine fault is a NEXT state (60 R330). -/
inductive Fault where
  /-- Raised by `boot` where a register block cannot be mapped: "The block never runs" (70 R371 step 1). Safe. -/
  | initRegisters
  /-- Raised by `boot` where the memory cannot be locked or exceeds the buffer horizon (70 R371 step 2). Safe. -/
  | initMemory
  deriving DecidableEq, Repr

/-- Why an instruction has no meaning. -/
inductive Refusal where
  /-- Raised by `exec` for an instruction this model has not reached; no arm raises it. Safe. -/
  | notModelled (mnemonic : String)
  deriving DecidableEq, Repr

/-- A channel after boot's RESET (10 R50, at launch). -/
def Channel.launch : Channel := ⟨false, 0#32, .idle, none⟩

/-- A pacer at launch (10 R50). -/
def Pacer.launch : Pacer := ⟨false, 0, 0, 0⟩

/-- The host at launch, with its program still to be given (10 R50; log 9). -/
def HostState.launch : HostState := ⟨false, false, [], [], .none, Build.init⟩

/-- The launch state (10 R50; 70 R371 step 3) for a configuration and a GPIO latch, which the spec leaves open:
memory holds ZW = 0 and nothing else, the trace holds the boot's two RESETs. -/
def State.launch (c : Config) (g : Word) : State where
  cfg := c
  chanP := .launch
  chanS := .launch
  pacerP := .launch
  pacerS := .launch
  gpioOut := g
  timer := 0#32
  mem := [(c.zw.toNat, 0#8), (c.zw.toNat + 1, 0#8), (c.zw.toNat + 2, 0#8), (c.zw.toNat + 3, 0#8)]
  host := .launch
  trace := [.reset .P, .reset .S]
  refused := false
  sched := []
  cur := .P
  draws := 0

/-- The machine right after reset: the launch state under CFG-X, with the GPIO latch at 0. DESIGN CHOICE: the spec
gives the latch no value (log 3) and leaves the configuration open (log 1). -/
def State.reset : State := State.launch Config.example 0#32

end Sys2Proof.Machine
end

