-- ==== Sys2Proof/Machine/Ops.lean ====
section
/-!
DEFINITION. The named operations on memory, channels, pacers, GPIO and the trace, bus reads and writes per region
(20 R80, R81), and taking an engine fault (60 R330).
-/
namespace Sys2Proof.Machine

/-! ### Sorted tables: the canonical form of memory and of the wave registry -/

/-- The entry under key k. -/
def Table.get {α : Type} : List (Nat × α) → Nat → Option α
  | [], _ => none
  | (k', v) :: t, k => if k = k' then some v else Table.get t k

/-- The table with v under key k, its keys still rising. -/
def Table.set {α : Type} : List (Nat × α) → Nat → α → List (Nat × α)
  | [], k, v => [(k, v)]
  | (k', v') :: t, k, v =>
    if k < k' then (k, v) :: (k', v') :: t
    else if k = k' then (k, v) :: t
    else (k', v') :: Table.set t k v

/-- Every key is above b and the keys rise strictly. -/
def Table.risingAbove {α : Type} : Nat → List (Nat × α) → Bool
  | _, [] => true
  | b, (k, _) :: t => decide (b < k) && Table.risingAbove k t

/-- The keys rise strictly. -/
def Table.rising {α : Type} : List (Nat × α) → Bool
  | [] => true
  | (k, _) :: t => Table.risingAbove k t

/-- The canonical form of memory: addresses strictly rising, each a 32-bit bus address. -/
def Memory.wf (m : Memory) : Bool := Table.rising m && m.all fun e => decide (e.1 < 2 ^ 32)

/-! ### Memory words (20 R76, R82) -/

/-- The byte at a bus address; none while nothing has written it (10 R46). -/
def Memory.byte (m : Memory) (a : Nat) : Option Byte := Table.get m a

/-- The word whose lowest byte is at a; none while any of its bytes is unwritten. -/
def Memory.word (m : Memory) (a : Word) : Option Word :=
  match m.byte a.toNat, m.byte (a.toNat + 1), m.byte (a.toNat + 2), m.byte (a.toNat + 3) with
  | some b0, some b1, some b2, some b3 => some (wordOfBytes b0 b1 b2 b3)
  | _, _, _, _ => none

/-- Memory with the word v written at a, little-endian. -/
def Memory.writeWord (m : Memory) (a : Word) (v : Word) : Memory :=
  Table.set (Table.set (Table.set (Table.set m a.toNat (v.extractLsb' 0 8)) (a.toNat + 1) (v.extractLsb' 8 8))
    (a.toNat + 2) (v.extractLsb' 16 8)) (a.toNat + 3) (v.extractLsb' 24 8)

/-- The address is a multiple of 4 (20 R78). -/
def wordAligned (a : Word) : Bool := decide (a.extractLsb' 0 2 = 0#2)

/-! ### Parts of the state by channel -/

/-- `chan[ch]` (10 R30). -/
def State.chan (s : State) : ChanId → Channel
  | .P => s.chanP
  | .S => s.chanS

/-- `pacer[pc]` (10 R30). -/
def State.pacer (s : State) : ChanId → Pacer
  | .P => s.pacerP
  | .S => s.pacerS

/-- `chan[ch] <- c`. -/
def State.setChan (s : State) (ch : ChanId) (c : Channel) : State :=
  match ch with
  | .P => { s with chanP := c }
  | .S => { s with chanS := c }

/-- `pacer[pc] <- p`. -/
def State.setPacer (s : State) (pc : ChanId) (p : Pacer) : State :=
  match pc with
  | .P => { s with pacerP := p }
  | .S => { s with pacerS := p }

/-- `chan[ch].phase <- p`. -/
def State.setPhase (s : State) (ch : ChanId) (p : Phase) : State :=
  s.setChan ch { s.chan ch with phase := p }

/-- `mem <- m`. -/
def State.setMem (s : State) (m : Memory) : State := { s with mem := m }

/-- `gpio.out <- v`. -/
def State.setGpio (s : State) (v : Word) : State := { s with gpioOut := v }

/-- The timer's last value drawn (10 R45). -/
def State.setTimer (s : State) (v : Word) : State := { s with timer := v }

/-- `trace += e` (10 R48). -/
def State.log (s : State) (e : Event) : State := { s with trace := s.trace ++ [e] }

/-- One more free value has been drawn. -/
def State.drawn (s : State) : State := { s with draws := s.draws + 1 }

/-- The run is outside the model from here on (60 R333). -/
def State.refuse (s : State) : State := { s with refused := true }

/-- What the host step or procedure returns. -/
def State.setRet (s : State) (r : Ret) : State := { s with host := { s.host with ret := r } }

/-- The host's remaining tasks. -/
def State.setTodo (s : State) (ts : List HostTask) : State := { s with host := { s.host with todo := ts } }

/-- The chain builder's cursors. -/
def State.setBuild (s : State) (b : Build) : State := { s with host := { s.host with build := b } }

/-- The registry view (10 R47). -/
def State.setWaves (s : State) (w : List (Nat × WaveRange)) : State := { s with host := { s.host with waves := w } }

/-- `host.carrierRunning <- b`. -/
def State.setCarrier (s : State) (b : Bool) : State := { s with host := { s.host with carrierRunning := b } }

/-- The channel `exec` steps. -/
def State.setCur (s : State) (ch : ChanId) : State := { s with cur := ch }

/-! ### Taking an engine fault (60 R330) -/

/-- `raise Fault(r)` on channel ch: the fault is recorded on the channel and in the trace, and F_UNADMITTED sets
`refused`. CONBLK_AD, phase and active stay; there is no handler and no return (60 R344, R345). -/
def State.raise (s : State) (ch : ChanId) (r : FaultReason) : State :=
  let t := (s.setChan ch { s.chan ch with fault := some r }).log (.fault ch r)
  if r = .unadmitted then t.refuse else t

/-! ### GPIO (10 R37 to R41) -/

/-- A write of v to GPSET0: `gpio.out <- gpio.out | v` (10 R38). -/
def State.gpioSet (s : State) (src : Source) (v : Word) : State :=
  (s.setGpio (s.gpioOut ||| v)).log (.gpioSet src v)

/-- A write of v to GPCLR0: `gpio.out <- gpio.out & ~v` (10 R39). -/
def State.gpioClr (s : State) (src : Source) (v : Word) : State :=
  (s.setGpio (s.gpioOut &&& ~~~v)).log (.gpioClr src v)

/-- What a read of GPLEV0 returns for an external level word x (10 R40). -/
def State.levels (s : State) (x : Word) : Word :=
  (s.gpioOut &&& s.cfg.outputMask) ||| (x &&& ~~~s.cfg.outputMask)

/-- The level line g is driven to, where it is an output (10 R37). -/
def State.driven (s : State) (g : Nat) : Option Bool :=
  if s.cfg.outputMask.getLsbD g then some (s.gpioOut.getLsbD g) else none

/-! ### Pacers (10 R42 to R44) -/

/-- DREQ of pacer pc (10 R43). -/
def State.dreq (s : State) (pc : ChanId) : Bool :=
  (s.pacer pc).configured && decide ((s.pacer pc).fill < s.cfg.pacerDepth pc)

/-- Pacer pc may tick (10 R44). -/
def State.tickEnabled (s : State) (pc : ChanId) : Bool :=
  (s.pacer pc).configured && decide (0 < (s.pacer pc).fill)

/-- A tick of pacer pc, where enabled; otherwise the pacer holds (10 R44; log 28). -/
def State.pacerTick (s : State) (pc : ChanId) : State :=
  if s.tickEnabled pc then
    (s.setPacer pc { s.pacer pc with fill := (s.pacer pc).fill - 1, ticks := (s.pacer pc).ticks + 1 }).log (.tick pc)
  else s

/-- A configured pacer with an empty FIFO (41 R195, R196). -/
def State.configurePacer (s : State) (pc : ChanId) (period : Nat) : State :=
  s.setPacer pc { s.pacer pc with configured := true, fill := 0, period := period }

/-! ### Bus accesses by a channel -/

/-- `MemRead(a, 4)` (20 R80): the word and the state after any draw, or the fault. -/
def State.busRead (s : State) (a : Word) : Except FaultReason (Word × State) :=
  if wordAligned a = false then .error .misaligned
  else
    match s.cfg.region a with
    | .memory =>
      match s.mem.word a with
      | some v => .ok (v, s)
      | none => .error .unwritten
    | .gplev => .ok (s.levels (Config.freeLevels s.draws), s.drawn)
    | .timer => .ok (Config.freeTimer s.draws, (s.setTimer (Config.freeTimer s.draws)).drawn)
    | .gpset => .error .writeOnly
    | .gpclr => .error .writeOnly
    | .fifo _ => .error .writeOnly
    | .unmapped => .error .unmapped

/-- `MemWrite(a, 4, v)` by channel ch (20 R81): the state after, or the fault. The word written to a FIFO has no
effect (10 R42). -/
def State.busWrite (s : State) (ch : ChanId) (a v : Word) : Except FaultReason State :=
  if wordAligned a = false then .error .misaligned
  else
    match s.cfg.region a with
    | .memory => .ok (s.setMem (s.mem.writeWord a v))
    | .gpset => .ok (s.gpioSet (.chan ch) v)
    | .gpclr => .ok (s.gpioClr (.chan ch) v)
    | .fifo pc =>
      if (s.pacer pc).fill = s.cfg.pacerDepth pc then .error .fifoOverflow
      else .ok (s.setPacer pc { s.pacer pc with fill := (s.pacer pc).fill + 1 })
    | .gplev => .error .readOnly
    | .timer => .error .readOnly
    | .unmapped => .error .unmapped

/-! ### Channel operations of the host (41 R190, R191) -/

/-- RESET(ch) (41 R191): the fault stays, the held word is discarded. -/
def State.resetChan (s : State) (ch : ChanId) : State :=
  (s.setChan ch { s.chan ch with active := false, conblkAd := 0#32, phase := .idle }).log (.reset ch)

/-- The channel is idle, so that ARM is allowed (41 R190). -/
def State.chanIdle (s : State) (ch : ChanId) : Bool :=
  !(s.chan ch).active && decide ((s.chan ch).phase = .idle)

/-- ARM(ch, a) (41 R190). -/
def State.armChan (s : State) (ch : ChanId) (a : Word) : State :=
  if s.chanIdle ch then
    if a = 0#32 then (s.setChan ch { s.chan ch with conblkAd := a }).log (.arm ch a)
    else (s.setChan ch { s.chan ch with conblkAd := a, active := true, phase := .fetch [] }).log (.arm ch a)
  else s.refuse

/-- BUSY(ch) (41 R192). -/
def State.isBusy (s : State) (ch : ChanId) : Bool := decide ((s.chan ch).conblkAd ≠ 0#32)

/-! ### Host memory accesses (41 R193, R194) -/

/-- A whole aligned word of the arena or the chain region: what a host access may reach (41 R193; 20 R76). -/
def State.hostReaches (s : State) (a : Word) : Bool := wordAligned a && s.cfg.inMem a

/-- STORE(a, v) (41 R193). -/
def State.hostStore (s : State) (a v : Word) : State :=
  if s.hostReaches a then s.setMem (s.mem.writeWord a v) else s.refuse

/-- LOAD(a) (41 R194): a word nothing has written reads as a draw. -/
def State.hostLoad (s : State) (a : Word) : State :=
  if s.hostReaches a then
    match s.mem.word a with
    | some v => s.setRet (.word v)
    | none => (s.setRet (.word (Config.freeUnwritten s.draws))).drawn
  else (s.setRet .none).refuse

/-- A procedure is rejected: only the returned code changes (60 R340, R341). -/
def State.reject (s : State) (e : HostReject) : State := s.setRet (.rejected e)

/-- The host tasks that are done before the ones already waiting. -/
def State.pushTasks (s : State) (ts : List HostTask) : State := s.setTodo (ts ++ s.host.todo)

/-- The STOREs of a list of words at a, a+4, a+8, …, in that order (DESIGN CHOICE, log 38). -/
def storeWords : Word → List Word → List HostTask
  | _, [] => []
  | a, w :: ws => .instr (.store a w) :: storeWords (a + 4#32) ws

/-- The eight STOREs of a descriptor at a (30 R110, R131). The spec gives the words' order no rule; the model stores word 0
first and word 7 last (DESIGN CHOICE, log 38). -/
def storeDesc (a : Word) (d : Desc) : List HostTask := storeWords a d.words

end Sys2Proof.Machine
end

