-- ==== Sys2Proof/Machine/Chain.lean ====
section
/-!
DEFINITION. The chain engine: validation (44 R272), emission opcode by opcode (44 R274 to R291) and the Counter
(44 R296 to R303). A chain opcode's meaning checks the opcode against the builder's cursors as 44 R272 does and emits
its descriptors and OOL words as STOREs, which the host then makes one by one (00 R7; 70 R392; log 14).
-/
namespace Sys2Proof.Machine

/-- The registered, not deleted wave under an id below maxWaves (44 R272; 43 R249). -/
def liveWave (c : Config) (waves : List (Nat × WaveRange)) (id : Nat) : Option WaveRange :=
  if id < c.maxWaves then
    match Table.get waves id with
    | some r => if r.deleted then none else some r
    | none => none
  else none

/-! ### Validation of one opcode (44 R272) -/

/-- PlayWave(id): `cbs += 1 ; ool += 1`. -/
def advPlayWave (c : Config) (waves : List (Nat × WaveRange)) (b : Build) (id : Nat) : Except HostReject Build :=
  match liveWave c waves id with
  | none => .error .badWaveId
  | some _ => .ok { b with q := b.q + 1, m := b.m + 1 }

/-- DelayMicros(n): one descriptor where n > 0. -/
def advDelayMicros (b : Build) (n : Nat) : Except HostReject Build :=
  if 2 ^ 28 - 1 < n then .error .delayTooLong
  else if 0 < n then .ok { b with q := b.q + 1 }
  else .ok b

/-- LoopBegin: one loop head, pushed on the open stack. -/
def advLoopBegin (c : Config) (b : Build) : Except HostReject Build :=
  if b.openHeads.length = c.maxLoopDepth then .error .nestingTooDeep
  else .ok { b with q := b.q + 1, openHeads := b.q :: b.openHeads }

/-- LoopEnd(k): pops a head; k ≥ 2 takes one Counter, 3B + 1 descriptors and 2B(L + 1) OOL words. A k above L^B is
badLoopCount (44 R272, R296). An abstract LoopEnd(k) with 2^28 ≤ k ≤ L^B, which 30 R126 puts out of range and no
rule rejects, is admitted and counts k times (DESIGN CHOICE, log 37). -/
def advLoopEnd (c : Config) (b : Build) (k : Nat) : Except HostReject Build :=
  match b.openHeads with
  | [] => .error .badLoop
  | _ :: rest =>
    if c.blockLength ^ c.blocks < k then .error .badLoopCount
    else if 2 ≤ k then
      if c.maxCounters < b.counters + 1 then .error .chainTooBig
      else .ok { b with
        openHeads := rest, counters := b.counters + 1, q := b.q + (3 * c.blocks + 1),
        m := b.m + 2 * c.blocks * (c.blockLength + 1) }
    else .ok { b with openHeads := rest }

/-- RepeatForever: nothing may follow. -/
def advRepeatForever (b : Build) : Except HostReject Build := .ok { b with seenRepeat := true }

/-- The checks around every opcode (44 R272): `mustBeLast` before it, the size of the chain region after it, with one
descriptor kept for the tail. -/
def guardOp (c : Config) (b : Build) (adv : Except HostReject Build) : Except HostReject Build :=
  if b.seenRepeat then .error .mustBeLast
  else
    match adv with
    | .error e => .error e
    | .ok b' =>
      if c.chainCbBus.length < b'.q + 1 ∨ c.chainOol < b'.m then .error .chainTooBig else .ok b'

/-- One opcode of the validation pass; a word or value that is no chain opcode is badOpcode. -/
def advanceOp (c : Config) (waves : List (Nat × WaveRange)) (b : Build) : Instr → Except HostReject Build
  | .playWave id => guardOp c b (advPlayWave c waves b id)
  | .delayMicros n => guardOp c b (advDelayMicros b n)
  | .loopBegin => guardOp c b (advLoopBegin c b)
  | .loopEnd k => guardOp c b (advLoopEnd c b k)
  | .repeatForever => guardOp c b (advRepeatForever b)
  | .set _ _ _ | .clr _ _ _ | .lev _ _ _ | .tick _ _ _ | .paceP _ _ _ | .paceS _ _ _ => .error .badOpcode
  | .copy _ _ _ _ | .copyN _ _ _ _ _ | .xfer _ _ _ _ _ _ | .nop _ _ | .link _ _ _ _ => .error .badOpcode
  | .arm _ _ | .reset _ | .busy _ | .store _ _ | .load _ | .pacerCfg _ | .waveclk => .error .badOpcode
  | .gpioSet _ | .gpioClr _ | .stop _ | .csread _ => .error .badOpcode

/-- The opcode of a program item: a word decodes by 30 R130, an abstract opcode stands for itself. -/
def ChainItem.opcode : ChainItem → Option Instr
  | .word w => decodeChain w
  | .op i => if i.kind = .chain then some i else none

/-- One item of the validation pass: decoding first (44 R272). -/
def advanceItem (c : Config) (waves : List (Nat × WaveRange)) (b : Build) (x : ChainItem) : Except HostReject Build :=
  match x.opcode with
  | none => .error .badOpcode
  | some i => advanceOp c waves b i

/-- The items of the validation pass in order; the first failure decides. -/
def advanceItems (c : Config) (waves : List (Nat × WaveRange)) : Build → List ChainItem → Except HostReject Build
  | b, [] => .ok b
  | b, x :: xs =>
    match advanceItem c waves b x with
    | .error e => .error e
    | .ok b' => advanceItems c waves b' xs

/-- `validate(prog)` (44 R272): the final cursors, or the rejection. A LoopBegin left open without RepeatForever is
badLoop; the empty program is admitted and needs its tail's descriptor, which 00 R9 gives every chain region. -/
def validate (c : Config) (waves : List (Nat × WaveRange)) (prog : List ChainItem) : Except HostReject Build :=
  match advanceItems c waves Build.init prog with
  | .error e => .error e
  | .ok b => if b.openHeads ≠ [] ∧ b.seenRepeat = false then .error .badLoop else .ok b

end Sys2Proof.Machine

namespace Sys2Proof

/-! ### The Counter (44 R298, R299) -/

/-- v_d: base-L digit d of v. -/
def Config.digit (c : Config) (v d : Nat) : Nat := v / c.blockLength ^ d % c.blockLength

/-- W_d[i]. -/
def Config.counterW (c : Config) (m d i : Nat) : Word := c.chainCo (m + d * (c.blockLength + 1) + i)

/-- P_d[i]. -/
def Config.counterP (c : Config) (m d i : Nat) : Word :=
  c.chainCo (m + c.blocks * (c.blockLength + 1) + d * (c.blockLength + 1) + i)

/-- Bd_d: the next digit's entry, or the exit E. -/
def Config.borrow (c : Config) (q d : Nat) : Word :=
  if d + 1 < c.blocks then c.chainCb (q + 3 * (d + 1)) else c.chainCb (q + 3 * c.blocks)

/-- The L + 1 initial words of digit d's arrays: Bd_d at index v_d, R elsewhere and in the scratch word. -/
def Config.digitArray (c : Config) (q : Nat) (R : Word) (v d : Nat) : List Word :=
  (List.range (c.blockLength + 1)).map fun i =>
    if i < c.blockLength ∧ i = c.digit v d then c.borrow q d else R

/-- COPY of w words (30 R135): TXFR_LEN is 4w modulo 2^32 (00 R11), so that a w of 2^28 or more fails FETCH's length
check (30 R122 step 5; log 36). -/
def descCopyWords (src dst : Word) (w : Nat) (next : Word) : Desc :=
  if w = 1 then descCopy src dst 0#32 next else ⟨tiInc, src, dst, BitVec.ofNat 32 (4 * w), 0#32, next⟩

/-- PACE_S of a count t that the host computed (30 R134): TXFR_LEN is 4t modulo 2^32 (00 R11; log 35). -/
def descPaceSWords (c : Config) (t : Nat) (next : Word) : Desc :=
  ⟨tiPace c.permapS, c.zw, c.fifoS, BitVec.ofNat 32 (4 * t), 0#32, next⟩

/-- The three descriptors of digit d: branch write, save head, rotate (44 R299). The rotate's NEXT is built as the
initial W_d[0]. -/
def Config.digitDescs (c : Config) (q m : Nat) (R : Word) (v d : Nat) : List (Word × Desc) :=
  [(c.chainCb (q + 3 * d),
      descCopy (c.counterW m d 0) (c.chainCb (q + 3 * d + 2) + 0x14#32) 0#32 (c.chainCb (q + 3 * d + 1))),
   (c.chainCb (q + 3 * d + 1),
      descCopy (c.counterW m d 0) (c.counterW m d c.blockLength) 0#32 (c.chainCb (q + 3 * d + 2))),
   (c.chainCb (q + 3 * d + 2),
      descCopyWords (c.counterW m d 1) (c.counterW m d 0) c.blockLength
        (if 0 = c.digit v d then c.borrow q d else R))]

/-- The exit and restore descriptor E (44 R299, R303). -/
def Config.exitDesc (c : Config) (q m : Nat) (X : Word) : Word × Desc :=
  (c.chainCb (q + 3 * c.blocks),
   descCopyWords (c.counterP m 0 0) (c.counterW m 0 0) (c.blocks * (c.blockLength + 1)) X)

end Sys2Proof

namespace Sys2Proof.Machine

/-- The STOREs that build one Counter at descriptor position q and OOL position m (44 R298, R299): the arrays first, each
digit's working array before its pristine one, then the descriptors in ascending position. 44 R271 leaves the order of
the STOREs free; this order is the model's (DESIGN CHOICE, log 38). -/
def counterTasks (c : Config) (q m : Nat) (R X : Word) (v : Nat) : List HostTask :=
  ((List.range c.blocks).flatMap fun d =>
    storeWords (c.counterW m d 0) (c.digitArray q R v d) ++ storeWords (c.counterP m d 0) (c.digitArray q R v d)) ++
  (((List.range c.blocks).flatMap fun d => c.digitDescs q m R v d) ++ [c.exitDesc q m X]).flatMap
    fun p => storeDesc p.1 p.2

/-! ### Emission of one opcode (44 R274) -/

/-- The link cell and the link descriptor LNK (44 R280), the cell first: 44 R271 leaves the order of the STOREs free
(DESIGN CHOICE, log 38). -/
def playWaveTasks (c : Config) (waves : List (Nat × WaveRange)) (b : Build) (id : Nat) : List HostTask :=
  match liveWave c waves id with
  | none => []
  | some r =>
    .instr (.store (c.chainCo b.m) (c.chainCb (b.q + 1))) ::
      storeDesc (c.chainCb b.q) (descLink (c.chainCo b.m) (c.cbBus r.topCB) 0#32 (c.cbBus r.bottomCB))

/-- DLY: PACE_S n, or nothing for n = 0 (44 R284). -/
def delayMicrosTasks (c : Config) (b : Build) (n : Nat) : List HostTask :=
  if 0 < n then storeDesc (c.chainCb b.q) (descPaceSWords c n (c.chainCb (b.q + 1))) else []

/-- The loop head H: a NOP to the first descriptor of the body (44 R285). -/
def loopBeginTasks (c : Config) (b : Build) : List HostTask :=
  storeDesc (c.chainCb b.q) (descNop c 0#32 (c.chainCb (b.q + 1)))

/-- LoopEnd(k): k = 0 rewrites H's NEXT to the continuation (44 R286), k = 1 emits nothing (R287), k ≥ 2 builds a
Counter with R = CH(h), X = CH(q + 3B + 1), v = k − 1 (R288). -/
def loopEndTasks (c : Config) (b : Build) (k : Nat) : List HostTask :=
  match b.openHeads with
  | [] => []
  | h :: _ =>
    if k = 0 then [.instr (.store (c.chainCb h + 0x14#32) (c.chainCb b.q))]
    else if k = 1 then []
    else counterTasks c b.q b.m (c.chainCb h) (c.chainCb (b.q + 3 * c.blocks + 1)) (k - 1)

/-- T's NEXT: 0 without RepeatForever (44 R290); with it, the outermost head still open, else CH(0) (44 R291). -/
def tailNext (c : Config) (b : Build) : Word :=
  if b.seenRepeat then
    match b.openHeads.getLast? with
    | some h => c.chainCb h
    | none => c.chainCb 0
  else 0#32

/-- The tail T: a NOP at CH(q) (44 R290). -/
def tailTasks (c : Config) (b : Build) : List HostTask := storeDesc (c.chainCb b.q) (descNop c 0#32 (tailNext c b))

/-- The host emits one opcode: the cursors advance and the opcode's STOREs are next to be done. An opcode that
44 R272 would reject at these cursors is rejected with that code and changes nothing else (60 R341). -/
def State.emitOp (s : State) (adv : Except HostReject Build) (stores : List HostTask) :
    Host.Outcome State Fault Refusal :=
  match guardOp s.cfg s.host.build adv with
  | .error e => .next (s.reject e)
  | .ok b => .next ((s.setBuild b).pushTasks stores)

/-- PlayWave(id) (44 R280, R283). -/
def execPlayWave (id : Nat) (s : State) : Host.Outcome State Fault Refusal :=
  s.emitOp (advPlayWave s.cfg s.host.waves s.host.build id) (playWaveTasks s.cfg s.host.waves s.host.build id)

/-- DelayMicros(n) (44 R284). -/
def execDelayMicros (n : Nat) (s : State) : Host.Outcome State Fault Refusal :=
  s.emitOp (advDelayMicros s.host.build n) (delayMicrosTasks s.cfg s.host.build n)

/-- LoopBegin (44 R285). -/
def execLoopBegin (s : State) : Host.Outcome State Fault Refusal :=
  s.emitOp (advLoopBegin s.cfg s.host.build) (loopBeginTasks s.cfg s.host.build)

/-- LoopEnd(k) (44 R286 to R288). -/
def execLoopEnd (k : Nat) (s : State) : Host.Outcome State Fault Refusal :=
  s.emitOp (advLoopEnd s.cfg s.host.build k) (loopEndTasks s.cfg s.host.build k)

/-- RepeatForever (44 R291): emits nothing; the tail closes the graph. -/
def execRepeatForever (s : State) : Host.Outcome State Fault Refusal :=
  s.emitOp (advRepeatForever s.host.build) []

end Sys2Proof.Machine
end

