-- ==== Sys2Proof/Machine/Engine.lean ====
section
/-!
DEFINITION. The channel steps FETCH, BEAT-READ, BEAT-WRITE and COMPLETE (40 R150 to R154), once for every descriptor
class: TD has one meaning, XFER (30 R120; 40 R155).
-/
namespace Sys2Proof.Machine

/-- A channel that may step: active, not faulted, not idle (40 R150). -/
def State.canStep (s : State) (ch : ChanId) : Bool :=
  (s.chan ch).active && decide ((s.chan ch).fault = none) && decide ((s.chan ch).phase ≠ .idle)

/-- Word k of the descriptor at a, as memory holds it now. -/
def State.descWord (s : State) (a : Word) (k : Nat) : Option Word := s.mem.word (a + BitVec.ofNat 32 (4 * k))

/-- Word k of the descriptor at a as FETCH reads it: the word that was read early, else the word as it stands
(40 R151; 20 R83; log 12). -/
def State.fetchWord (s : State) (early : List (Nat × Option Word)) (a : Word) (k : Nat) : Option Word :=
  (Table.get early k).getD (s.descWord a k)

/-- 30 R122 steps 1 to 3 at address a, with the words not read early read as one step (40 R151; log 12). Words 6 and 7
must be written and are ignored (30 R118). -/
def State.fetchDesc (s : State) (early : List (Nat × Option Word)) (a : Word) : Except FaultReason Desc :=
  if a.extractLsb' 0 5 ≠ 0#5 then .error .misaligned
  else if s.cfg.fetchable a = false then .error .unmapped
  else
    let w := s.fetchWord early a
    match w 0, w 1, w 2, w 3, w 4, w 5, w 6, w 7 with
    | some w0, some w1, some w2, some w3, some w4, some w5, some _, some _ => .ok ⟨w0, w1, w2, w3, w4, w5⟩
    | _, _, _, _, _, _, _, _ => .error .unwritten

/-- The instruction at address a: steps 1 to 8 of 30 R122 in order. -/
def State.fetchInstr (s : State) (early : List (Nat × Option Word)) (a : Word) : Except FaultReason Instr :=
  match s.fetchDesc early a with
  | .ok d => decodeDesc s.cfg d
  | .error r => .error r

/-- A word read of a fetch made ahead of its FETCH step: word k of the descriptor at CONBLK_AD is read now, once, and
kept (20 R83: the eight reads of a fetch are not atomic as a whole; log 12). -/
def State.earlyRead (s : State) (ch : ChanId) (k : Nat) : State :=
  match (s.chan ch).phase with
  | .idle => s
  | .fetch early =>
    if s.canStep ch = true ∧ Table.get early k = none then
      s.setPhase ch (.fetch (Table.set early k (s.descWord (s.chan ch).conblkAd k)))
    else s
  | .exec _ _ _ _ => s

/-- FETCH's last lines (40 R151): the snapshot d is loaded with its beat count. LENGTH = 0 draws 0 or 1 beats
(40 R154). -/
def State.loadDesc (s : State) (ch : ChanId) (d : Desc) : State :=
  if d.beats = 0 then (s.setPhase ch (.exec d (if Config.freeBeat s.draws then 1 else 0) 0 none)).drawn
  else s.setPhase ch (.exec d d.beats 0 none)

/-- BEAT-READ of beat i (40 R152); `d0` is the loaded snapshot, which only FETCH changes (10 R35). -/
def State.beatRead (s : State) (ch : ChanId) (d d0 : Desc) (n i : Nat) : State :=
  match s.busRead (d.srcAt i) with
  | .ok (v, t) => t.setPhase ch (.exec d0 n i (some v))
  | .error r => s.raise ch r

/-- The beat copies a sampled level or timer value to memory, which the trace records (10 R48; 40 R158, R159). -/
def State.isSample (s : State) (src dst : Word) : Bool :=
  s.cfg.inMem dst && (decide (s.cfg.region src = .gplev) || decide (s.cfg.region src = .timer))

/-- BEAT-WRITE of beat i (40 R152): a paced beat holds until its pacer's DREQ, checks its destination only then
(60 R334), and leaves the phase as it was where the write faults. -/
def State.beatWrite (s : State) (ch : ChanId) (d d0 : Desc) (n i : Nat) (v : Word) : State :=
  if d.destDreq = true ∧ s.dreq (d.pacerOf s.cfg) = false then s
  else
    match s.busWrite ch (d.dstAt i) v with
    | .ok t =>
      (if s.isSample (d.srcAt i) (d.dstAt i) then t.log (.sample ch (d.dstAt i) v) else t).setPhase ch
        (.exec d0 n (i + 1) none)
    | .error r => s.raise ch r

/-- COMPLETE (40 R153). -/
def State.complete (s : State) (ch : ChanId) (next : Word) : State :=
  if next = 0#32 then s.setChan ch { s.chan ch with conblkAd := next, active := false, phase := .idle }
  else s.setChan ch { s.chan ch with conblkAd := next, phase := .fetch [] }

/-- One step of channel ch running descriptor d, chosen by the channel's phase (40 R150). A channel with no enabled
step holds (00 R12; log 28). -/
def State.engineStep (s : State) (ch : ChanId) (d : Desc) : State :=
  if s.canStep ch = false then s
  else
    match (s.chan ch).phase with
    | .idle => s
    | .fetch _ => s.loadDesc ch d
    | .exec d0 n i none =>
      if i < n then s.beatRead ch d d0 n i
      else if i = n then s.complete ch d.nextconbk
      else s
    | .exec d0 n i (some v) => if i < n then s.beatWrite ch d d0 n i v else s

/-- One step of the current channel, as an outcome: what every descriptor class does (30 R120; 40 R155). -/
def State.runDesc (s : State) (d : Desc) : Host.Outcome State Fault Refusal := .next (s.engineStep s.cur d)

end Sys2Proof.Machine
end

