-- ==== Sys2Proof/Machine/Descriptors.lean ====
section
/-!
DEFINITION. The meanings of the eleven descriptor rows: one engine step of the current channel running that
descriptor (40 R150 to R163). Calling a meaning again runs the channel's next step of the same descriptor: FETCH, then
BEAT-READ and BEAT-WRITE per beat, then COMPLETE (log 5).
-/
namespace Sys2Proof.Machine

/-- SET (40 R156). -/
def execSet (m stride next : Word) (s : State) : Host.Outcome State Fault Refusal :=
  s.runDesc (descSet s.cfg m stride next)

/-- CLR (40 R157). -/
def execClr (m stride next : Word) (s : State) : Host.Outcome State Fault Refusal :=
  s.runDesc (descClr s.cfg m stride next)

/-- LEV (40 R158). -/
def execLev (cell stride next : Word) (s : State) : Host.Outcome State Fault Refusal :=
  s.runDesc (descLev s.cfg cell stride next)

/-- TICK (40 R159). -/
def execTick (cell stride next : Word) (s : State) : Host.Outcome State Fault Refusal :=
  s.runDesc (descTick s.cfg cell stride next)

/-- PACE_P (40 R160). -/
def execPaceP (t : BitVec 28) (stride next : Word) (s : State) : Host.Outcome State Fault Refusal :=
  s.runDesc (descPaceP s.cfg t stride next)

/-- PACE_S (40 R161). -/
def execPaceS (t : BitVec 28) (stride next : Word) (s : State) : Host.Outcome State Fault Refusal :=
  s.runDesc (descPaceS s.cfg t stride next)

/-- COPY of one word (40 R162). -/
def execCopy (src dst stride next : Word) (s : State) : Host.Outcome State Fault Refusal :=
  s.runDesc (descCopy src dst stride next)

/-- COPY.N (40 R162). -/
def execCopyN (src dst : Word) (w : BitVec 28) (stride next : Word) (s : State) : Host.Outcome State Fault Refusal :=
  s.runDesc (descCopyN src dst w stride next)

/-- XFER (40 R155). -/
def execXfer (f : XferTI) (src dst : Word) (n : BitVec 28) (stride next : Word) (s : State) :
    Host.Outcome State Fault Refusal :=
  s.runDesc (descXfer f src dst n stride next)

/-- NOP (40 R163). -/
def execNop (stride next : Word) (s : State) : Host.Outcome State Fault Refusal :=
  s.runDesc (descNop s.cfg stride next)

/-- LINK (30 R135; 40 R162). -/
def execLink (cell t stride next : Word) (s : State) : Host.Outcome State Fault Refusal :=
  s.runDesc (descLink cell t stride next)

end Sys2Proof.Machine
end

