-- ==== Sys2Proof/Machine/Flags.lean ====
section
/-!
DEFINITION. Status: TD has no condition codes (10 R49). The status bits are CS of each channel (10 R34) and the sticky
fault and `refused` marks, which Machine/Ops.lean sets.
-/
namespace Sys2Proof.Machine

/-- What a host read of CS returns for a drawn word x: bit 0 is ACTIVE, bit 31 is 0, bits 30:1 are the draw
(10 R34; 41 R199). -/
def csValue (active : Bool) (x : Word) : Word := 0#1 ++ x.extractLsb' 1 30 ++ BitVec.ofBool active

/-- CSREAD(ch) (41 R199). -/
def State.csRead (s : State) (ch : ChanId) : State :=
  (s.setRet (.word (csValue (s.chan ch).active (Config.freeStatus s.draws)))).drawn

/-- A raw host write of v to CS (10 R34): any of bits 30:1 refuses; bit 31 performs RESET; otherwise bit 0 is written
to ACTIVE, which an idle channel, having no chain, keeps at 0 (DEDUCED, log 18). -/
def State.csWrite (s : State) (ch : ChanId) (v : Word) : State :=
  if v.extractLsb' 1 30 ≠ 0#30 then s.refuse
  else if v.getLsbD 31 then s.resetChan ch
  else if (s.chan ch).phase = .idle then s.setChan ch { s.chan ch with active := false }
  else s.setChan ch { s.chan ch with active := v.getLsbD 0 }

end Sys2Proof.Machine
end

