-- ==== Sys2Proof/Machine/HostSteps.lean ====
section
/-!
DEFINITION. The meanings of the eleven host steps (41 R190 to R199).
-/
namespace Sys2Proof.Machine

/-- ARM(ch, a) (41 R190). -/
def execArm (ch : ChanId) (a : Word) (s : State) : Host.Outcome State Fault Refusal := .next (s.armChan ch a)

/-- RESET(ch) (41 R191). -/
def execReset (ch : ChanId) (s : State) : Host.Outcome State Fault Refusal := .next (s.resetChan ch)

/-- BUSY(ch) (41 R192). -/
def execBusy (ch : ChanId) (s : State) : Host.Outcome State Fault Refusal := .next (s.setRet (.flag (s.isBusy ch)))

/-- STORE(a, v) (41 R193). -/
def execStore (a v : Word) (s : State) : Host.Outcome State Fault Refusal := .next (s.hostStore a v)

/-- LOAD(a) (41 R194). -/
def execLoad (a : Word) (s : State) : Host.Outcome State Fault Refusal := .next (s.hostLoad a)

/-- PACER_CFG(P, tickMicros) (41 R195). A period of 0, which carrier start rejects before this step, is rejected
(DEDUCED, log 19). -/
def execPacerCfg (tickMicros : Nat) (s : State) : Host.Outcome State Fault Refusal :=
  if tickMicros = 0 then .next (s.reject .badCarrierArgs) else .next (s.configurePacer .P tickMicros)

/-- The first-use transition: PacerS is configured with an empty FIFO and ticks once per microsecond (10 R42), and the
transition is recorded (41 R196). -/
def State.takeWaveClock (s : State) : State :=
  let t := s.configurePacer .S 1
  { t with host := { t.host with waveClockReady := true } }.log .waveClock

/-- WAVECLK (41 R196): taken at most once. -/
def execWaveclk (s : State) : Host.Outcome State Fault Refusal :=
  if s.host.waveClockReady then .next s else .next s.takeWaveClock

/-- GPIO_SET(v) by the host (41 R197). -/
def execGpioSet (v : Word) (s : State) : Host.Outcome State Fault Refusal := .next (s.gpioSet .host v)

/-- GPIO_CLR(v) by the host (41 R197). -/
def execGpioClr (v : Word) (s : State) : Host.Outcome State Fault Refusal := .next (s.gpioClr .host v)

/-- STOP(ch) (41 R198). -/
def execStop (ch : ChanId) (s : State) : Host.Outcome State Fault Refusal :=
  let t := (s.resetChan ch).log (.stop ch)
  match ch with
  | .P => .next (t.setCarrier false)
  | .S => .next t

/-- CSREAD(ch) (41 R199). -/
def execCsread (ch : ChanId) (s : State) : Host.Outcome State Fault Refusal := .next (s.csRead ch)

end Sys2Proof.Machine
end

