-- ==== Sys2Proof/Machine/Dispatch.lean ====
section
/-! DEFINITION. `exec`: one arm per row of spec/opcode_table.json. -/
namespace Sys2Proof.Machine

def exec (i : Instr) (s : State) : Host.Outcome State Fault Refusal :=
  match i with
  | .set m stride next => Sys2Proof.Machine.execSet m stride next s
  | .clr m stride next => Sys2Proof.Machine.execClr m stride next s
  | .lev c stride next => Sys2Proof.Machine.execLev c stride next s
  | .tick c stride next => Sys2Proof.Machine.execTick c stride next s
  | .paceP t stride next => Sys2Proof.Machine.execPaceP t stride next s
  | .paceS t stride next => Sys2Proof.Machine.execPaceS t stride next s
  | .copy src dst stride next => Sys2Proof.Machine.execCopy src dst stride next s
  | .copyN src dst w stride next => Sys2Proof.Machine.execCopyN src dst w stride next s
  | .xfer f src dst n stride next => Sys2Proof.Machine.execXfer f src dst n stride next s
  | .nop stride next => Sys2Proof.Machine.execNop stride next s
  | .link c t stride next => Sys2Proof.Machine.execLink c t stride next s
  | .playWave id => Sys2Proof.Machine.execPlayWave id s
  | .delayMicros n => Sys2Proof.Machine.execDelayMicros n s
  | .loopBegin => Sys2Proof.Machine.execLoopBegin s
  | .loopEnd k => Sys2Proof.Machine.execLoopEnd k s
  | .repeatForever => Sys2Proof.Machine.execRepeatForever s
  | .arm ch a => Sys2Proof.Machine.execArm ch a s
  | .reset ch => Sys2Proof.Machine.execReset ch s
  | .busy ch => Sys2Proof.Machine.execBusy ch s
  | .store a v => Sys2Proof.Machine.execStore a v s
  | .load a => Sys2Proof.Machine.execLoad a s
  | .pacerCfg tickMicros => Sys2Proof.Machine.execPacerCfg tickMicros s
  | .waveclk => Sys2Proof.Machine.execWaveclk s
  | .gpioSet v => Sys2Proof.Machine.execGpioSet v s
  | .gpioClr v => Sys2Proof.Machine.execGpioClr v s
  | .stop ch => Sys2Proof.Machine.execStop ch s
  | .csread ch => Sys2Proof.Machine.execCsread ch s

end Sys2Proof.Machine
end

