-- ==== Sys2Proof/Machine/Procedures.lean ====
section
/-!
DEFINITION. The host procedures: carrier start (42 R212), compile (43 R241 to R248), play (43 R249), submit
(44 R271), delete and info (43 R254), the live table update (42 R218). A procedure that is accepted becomes the exact
sequence of host steps the spec gives it, done one host step at a time (00 R7; 70 R392); one that is rejected changes
only the returned code (60 R341).
-/
namespace Sys2Proof.Machine

/-! ### Carrier (42 R210 to R212) -/

end Sys2Proof.Machine

namespace Sys2Proof

/-- N = C·(1 + 2K). -/
def Config.carrierN (c : Config) (cycles : Nat) : Nat := cycles * (1 + 2 * c.carrierSlots)

/-- cd(q) (42 R210). -/
def Config.carrierCd (c : Config) (q : Nat) : Word := c.cbBus (c.carrierCb0 + q)

/-- ON[rep] (42 R210). -/
def Config.carrierOn (c : Config) (rep : Nat) : Word := c.oolBus (c.carrierOol0 + rep)

/-- OFF[rep][j] (42 R210). -/
def Config.carrierOff (c : Config) (cycles rep j : Nat) : Word :=
  c.oolBus (c.carrierOol0 + cycles + rep * c.carrierSlots + j)

/-- next(q): the last descriptor links to the first (42 R211). -/
def Config.carrierNext (c : Config) (cycles q : Nat) : Word :=
  if q + 1 < c.carrierN cycles then c.carrierCd (q + 1) else c.carrierCd 0

/-- The carrier descriptor at position q: with base b = rep·(1 + 2K), SET at b, then PACE_P 1 and CLR in turn
(42 R211). -/
def Config.carrierDesc (c : Config) (cycles q : Nat) : Desc :=
  let rep := q / (1 + 2 * c.carrierSlots)
  let o := q % (1 + 2 * c.carrierSlots)
  if o = 0 then descSet c (c.carrierOn rep) 0#32 (c.carrierNext cycles q)
  else if o % 2 = 1 then descPaceP c 1#28 0#32 (c.carrierNext cycles q)
  else descClr c (c.carrierOff cycles rep (o / 2 - 1)) 0#32 (c.carrierNext cycles q)

end Sys2Proof

namespace Sys2Proof.Machine

/-- The STOREs of carrier start: the tables pre-zeroed, then the N descriptors in ascending position (42 R212). That the
tables' words go in ascending repetition and slot, and each descriptor's words in ascending order, is the model's
(DESIGN CHOICE, log 38). -/
def carrierStores (c : Config) (cycles : Nat) : List HostTask :=
  ((List.range cycles).flatMap fun rep =>
    .instr (.store (c.carrierOn rep) 0#32) ::
      (List.range c.carrierSlots).map fun j => HostTask.instr (.store (c.carrierOff cycles rep j) 0#32)) ++
  (List.range (c.carrierN cycles)).flatMap fun q => storeDesc (c.carrierCd q) (c.carrierDesc cycles q)

/-- The rejections of carrier start, in order (42 R212; 60 R342). -/
def carrierReject (c : Config) (running : Bool) (tickMicros cycles : Nat) : Option HostReject :=
  if running then some .carrierAlreadyStarted
  else if tickMicros = 0 ∨ cycles = 0 ∨ c.carrierSlots = 0 then some .badCarrierArgs
  else if c.carrierCbs < c.carrierN cycles ∨ c.carrierOol < cycles * (1 + c.carrierSlots) then some .carrierTooBig
  else none

/-- The host steps of an accepted start(tickMicros, C) (42 R212). -/
def carrierTasks (c : Config) (tickMicros cycles : Nat) : List HostTask :=
  carrierStores c cycles ++
    [.instr (.pacerCfg tickMicros), .instr (.reset .P), .instr (.arm .P (c.carrierCd 0)), .carrierStarted, .ret .done]

/-- start(tickMicros, C) (42 R212). -/
def State.carrierStart (s : State) (tickMicros cycles : Nat) : State :=
  match carrierReject s.cfg s.host.carrierRunning tickMicros cycles with
  | some e => s.reject e
  | none => s.pushTasks (carrierTasks s.cfg tickMicros cycles)

/-! ### Waveform compile (43 R240 to R248) -/

end Sys2Proof.Machine

namespace Sys2Proof

/-- wcb(r, q) (43 R240). -/
def Config.wcb (c : Config) (r : Machine.WaveRange) (q : Nat) : Word := c.cbBus (r.bottomCB + q)
/-- wbo(r, b). -/
def Config.wbo (c : Config) (r : Machine.WaveRange) (b : Nat) : Word := c.oolBus (r.bottomOOL + b)
/-- wto(r, t). -/
def Config.wto (c : Config) (r : Machine.WaveRange) (t : Nat) : Word := c.oolBus (r.topOOL - t)

/-! ### What a range the registry hands back satisfies (43 R240; 20 R72; 00 R9) -/

/-- The n positions from a and the m positions from b have none in common. -/
def spansApart (a n b m : Nat) : Bool := decide (n = 0) || decide (m = 0) || apart a n b m

/-- n descriptor positions from a lie in the wave part of the arena: in the arena and outside the carrier region. -/
def Config.cbSpanInWavePart (c : Config) (a n : Nat) : Bool :=
  decide (a + n ≤ c.pageBus.length * c.cbsPerPage) && spansApart a n c.carrierCb0 c.carrierCbs

/-- n OOL positions from a lie in the wave part of the arena: in the arena, outside the carrier region, none of them
ZW's. -/
def Config.oolSpanInWavePart (c : Config) (a n : Nat) : Bool :=
  decide (n = 0) || (decide (a + n ≤ c.pageBus.length * c.oolPerPage) && spansApart a n c.carrierOol0 c.carrierOol &&
    (List.range n).all fun k => decide (c.oolBus (a + k) ≠ c.zw))

/-- The lowest position of the top range, which grows down from `topOOL`. -/
def Machine.WaveRange.topBase (r : Machine.WaveRange) : Nat := r.topOOL + 1 - r.oolTopCount

/-- A range by itself (43 R240): at least one descriptor, `topCB` the last of them, every position in the wave part. That
the bottom and the top range share no position is DEDUCED (log 21). -/
def Config.rangeOk (c : Config) (r : Machine.WaveRange) : Bool :=
  decide (1 ≤ r.cbCount) && decide (r.topCB + 1 = r.bottomCB + r.cbCount) &&
  c.cbSpanInWavePart r.bottomCB r.cbCount && c.oolSpanInWavePart r.bottomOOL r.oolBottomCount &&
  decide (r.oolTopCount ≤ r.topOOL + 1) && c.oolSpanInWavePart r.topBase r.oolTopCount &&
  spansApart r.bottomOOL r.oolBottomCount r.topBase r.oolTopCount

/-- Two ranges have no position in common. -/
def Machine.WaveRange.apartFrom (r s : Machine.WaveRange) : Bool :=
  spansApart r.bottomCB r.cbCount s.bottomCB s.cbCount &&
  spansApart r.bottomOOL r.oolBottomCount s.bottomOOL s.oolBottomCount &&
  spansApart r.bottomOOL r.oolBottomCount s.topBase s.oolTopCount &&
  spansApart r.topBase r.oolTopCount s.bottomOOL s.oolBottomCount &&
  spansApart r.topBase r.oolTopCount s.topBase s.oolTopCount

/-- The registry may hand back range r under this id: an id below maxWaves of no live wave, a range not deleted that
meets its conditions and is apart from every other non-deleted wave (43 R240; 00 R9; log 21). -/
def Config.admitsRange (c : Config) (waves : List (Nat × Machine.WaveRange)) (id : Nat) (r : Machine.WaveRange) :
    Bool :=
  decide (id < c.maxWaves) && !r.deleted && c.rangeOk r &&
  waves.all fun p => p.2.deleted || (decide (p.1 ≠ id) && r.apartFrom p.2)

end Sys2Proof

namespace Sys2Proof.Machine

/-- One transfer of a pulse. -/
inductive PulseOp where
  | set (v : Word)
  | clr (v : Word)
  | lev
  | tick
  | pace (delay : Word)
  deriving DecidableEq, Repr

/-- The transfers of one pulse, in emission order (43 R242). -/
def pulseOps (p : PulseSpec) : List PulseOp :=
  (if p.set ≠ 0#32 then [.set p.set] else []) ++ (if p.clear ≠ 0#32 then [.clr p.clear] else []) ++
  (if p.sampleLevels then [.lev] else []) ++ (if p.sampleTick then [.tick] else []) ++ [.pace p.delay]

/-- estimate(pulses) (43 R244). -/
def estimate : List PulseSpec → WaveSize
  | [] => ⟨0, 0, 0⟩
  | p :: ps =>
    let e := estimate ps
    let set := if p.set ≠ 0#32 then 1 else 0
    let clr := if p.clear ≠ 0#32 then 1 else 0
    let lev := if p.sampleLevels then 1 else 0
    let tick := if p.sampleTick then 1 else 0
    ⟨set + clr + lev + tick + 1 + e.cbCount, set + clr + e.oolBottomCount, lev + tick + e.oolTopCount⟩

/-- The NEXT of the wave's final descriptor (43 R247). -/
def finalNext (c : Config) (r : WaveRange) : WaveMode → Word
  | .oneShot => 0#32
  | .repeating => c.wcb r 0

/-- The STOREs of the transfers from counters q, b, t on, with the counters they end at (43 R242, R243). The last
transfer's NEXT is `last`, every other's is wcb(r, q + 1). The words of one descriptor are stored in ascending order
(DESIGN CHOICE, log 38). -/
def emitOps (c : Config) (r : WaveRange) (last : Word) : List PulseOp → Nat → Nat → Nat → List HostTask × WaveSize
  | [], q, b, t => ([], ⟨q, b, t⟩)
  | op :: ops, q, b, t =>
    let next := if ops = [] then last else c.wcb r (q + 1)
    match op with
    | .set v =>
      let e := emitOps c r last ops (q + 1) (b + 1) t
      (.instr (.store (c.wbo r b) v) :: storeDesc (c.wcb r q) (descSet c (c.wbo r b) 0#32 next) ++ e.1, e.2)
    | .clr v =>
      let e := emitOps c r last ops (q + 1) (b + 1) t
      (.instr (.store (c.wbo r b) v) :: storeDesc (c.wcb r q) (descClr c (c.wbo r b) 0#32 next) ++ e.1, e.2)
    | .lev =>
      let e := emitOps c r last ops (q + 1) b (t + 1)
      (.instr (.store (c.wto r t) 0#32) :: storeDesc (c.wcb r q) (descLev c (c.wto r t) 0#32 next) ++ e.1, e.2)
    | .tick =>
      let e := emitOps c r last ops (q + 1) b (t + 1)
      (.instr (.store (c.wto r t) 0#32) :: storeDesc (c.wcb r q) (descTick c (c.wto r t) 0#32 next) ++ e.1, e.2)
    | .pace d =>
      let e := emitOps c r last ops (q + 1) b t
      (storeDesc (c.wcb r q) (descPaceSWords c d.toNat next) ++ e.1, e.2)

/-- emit(pulses, mode, r): the STOREs and the counts emitted (43 R241, R243). -/
def emitWave (c : Config) (pulses : List PulseSpec) (mode : WaveMode) (r : WaveRange) : List HostTask × WaveSize :=
  emitOps c r (finalNext c r mode) (pulses.flatMap pulseOps) 0 0 0

/-- The rejection code of an allocation failure (43 R240). -/
def AllocError.code : AllocError → HostReject
  | .tooManyDescriptors => .tooManyDescriptors
  | .tooManyOOLWords => .tooManyOOLWords
  | .noSpace => .noSpace

/-- The rejections of compile before alloc, in order (43 R241; 60 R342). -/
def compileReject (c : Config) (pulses : List PulseSpec) : Option HostReject :=
  if pulses = [] then some .emptyWave
  else if c.maxPulses < pulses.length then some .tooManyPulses
  else if pulses.any (fun p => decide (2 ^ 28 - 1 < p.delay.toNat)) then some .delayTooLong
  else none

/-- The host steps of an accepted compile (43 R241). -/
def compileTasks (c : Config) (pulses : List PulseSpec) (mode : WaveMode) (id : Nat) (r : WaveRange) : List HostTask :=
  (emitWave c pulses mode r).1 ++ [.checkSize (emitWave c pulses mode r).2 (estimate pulses), .register id r]

/-- The range has the sizes asked for (43 R240, R241: r is the answer to alloc(e)). -/
def WaveRange.hasSize (r : WaveRange) (e : WaveSize) : Bool :=
  decide (r.cbCount = e.cbCount) && decide (r.oolBottomCount = e.oolBottomCount) &&
  decide (r.oolTopCount = e.oolTopCount)

/-- compile(pulses, mode) (43 R241). A range that does not have the sizes asked for or does not meet 43 R240's
conditions is no answer of the registry: the run is refused (DESIGN CHOICE, log 21). -/
def State.compileWave (s : State) (pulses : List PulseSpec) (mode : WaveMode) (alloc : Alloc) : State :=
  match compileReject s.cfg pulses with
  | some e => s.reject e
  | none =>
    match alloc with
    | .fail e => s.reject e.code
    | .ok id r =>
      if r.hasSize (estimate pulses) && s.cfg.admitsRange s.host.waves id r then
        s.pushTasks (compileTasks s.cfg pulses mode id r)
      else s.refuse

/-- compile's last line (43 R241), where the range still meets 43 R240's conditions; otherwise the run is refused
(log 21). -/
def State.registerWave (s : State) (id : Nat) (r : WaveRange) : State :=
  if s.cfg.admitsRange s.host.waves id r then (s.setWaves (Table.set s.host.waves id r)).setRet (.waveId id)
  else s.refuse

/-- The sizing assertion (43 R248): on a mismatch the run is refused and the host stops (60 R340 row 19). -/
def State.checkSize (s : State) (emitted est : WaveSize) : State :=
  if emitted = est then s else ((s.reject .accountingMismatch).setTodo []).refuse

/-! ### Play, delete, info (43 R249, R254) -/

/-- The host steps of an accepted play (43 R249). -/
def playTasks (c : Config) (r : WaveRange) (mode : WaveMode) : List HostTask :=
  [.instr .waveclk, .instr (.reset .S), .instr (.store (c.cbBus r.topCB + 0x14#32) (finalNext c r mode)),
   .instr (.arm .S (c.wcb r 0)), .ret .done]

/-- play(id, mode) (43 R249). -/
def State.play (s : State) (id : Nat) (mode : WaveMode) : State :=
  match liveWave s.cfg s.host.waves id with
  | none => s.reject .badWaveId
  | some r => s.pushTasks (playTasks s.cfg r mode)

/-- delete(id) (43 R254): marks the entry deleted and writes no memory. An unknown id changes nothing (log 20). -/
def State.deleteWave (s : State) (id : Nat) : State :=
  match Table.get s.host.waves id with
  | some r => (s.setWaves (Table.set s.host.waves id { r with deleted := true })).setRet .done
  | none => s.setRet (.info none)

/-! ### Submit (44 R271) -/

/-- The emission task of a program item. -/
def ChainItem.task : ChainItem → HostTask
  | .word w => .word w
  | .op i => .instr i

/-- The host steps of an accepted submit (44 R271). -/
def submitTasks (c : Config) (prog : List ChainItem) : List HostTask :=
  [.instr .waveclk, .instr (.reset .S)] ++ prog.map ChainItem.task ++
    [.tail, .instr (.arm .S (c.chainCb 0)), .ret .done]

/-- submit(prog) (44 R271). -/
def State.submit (s : State) (prog : List ChainItem) : State :=
  match validate s.cfg s.host.waves prog with
  | .error e => s.reject e
  | .ok _ => (s.setBuild Build.init).pushTasks (submitTasks s.cfg prog)

/-! ### Tasks other than instructions -/

/-- The STORE of a live table update: of the word LOAD returned, with the mask set or cleared (42 R218). Where LOAD
returned no word, because it was refused, nothing is stored. -/
def State.rmwStore (s : State) (a mask : Word) (setBits : Bool) : State :=
  match s.host.ret with
  | .word w => s.hostStore a (if setBits then w ||| mask else w &&& ~~~mask)
  | .none | .done | .flag _ | .waveId _ | .info _ | .rejected _ => s

/-- A host task that is no instruction. -/
def State.runTask (s : State) : HostTask → State
  | .instr _ => s
  | .word _ => s
  | .tail => s.pushTasks (tailTasks s.cfg s.host.build)
  | .carrierStarted => s.setCarrier true
  | .checkSize emitted est => s.checkSize emitted est
  | .register id r => s.registerWave id r
  | .rmwStore a mask setBits => s.rmwStore a mask setBits
  | .ret r => s.setRet r
  | .csWrite ch v => s.csWrite ch v
  | .narrowAccess => s.refuse
  | .loadedRegAccess _ => s.refuse
  | .start tickMicros cycles => s.carrierStart tickMicros cycles
  | .compile pulses mode alloc => s.compileWave pulses mode alloc
  | .play id mode => s.play id mode
  | .submit prog => s.submit prog
  | .delete id => s.deleteWave id
  | .info id => s.setRet (.info (Table.get s.host.waves id))
  | .tableUpdate a mask setBits => s.pushTasks [.instr (.load a), .rmwStore a mask setBits]

end Sys2Proof.Machine
end

