-- ==== Sys2Proof/Machine/Agents.lean ====
section
/-!
DEFINITION. The steps of the five agents (00 R8), and whose turn it is (20 R86; 60 R350; log 4).
-/
namespace Sys2Proof.Machine

/-- The agent that steps, and the state with its turn taken: the head of the schedule, or a free choice where the
schedule is empty (log 4). -/
def State.takeTurn (s : State) : Agent × State :=
  match s.sched with
  | a :: rest => (a, { s with sched := rest })
  | [] => (Config.freeTurn s.draws, s.drawn)

/-- A step of channel ch (40 R150). In Fetch it fetches and decodes the descriptor at CONBLK_AD, words read early as
they were read (log 12); in Exec it goes on with the loaded snapshot. Either way `exec` of the descriptor's
instruction makes the step; a failed check is the channel's fault (40 R151). A channel that cannot step holds (log
28). -/
def State.chanStep (s : State) (ch : ChanId) : Host.Outcome State Fault Refusal :=
  let t := s.setCur ch
  if t.canStep ch = false then .next t
  else
    match (t.chan ch).phase with
    | .idle => .next t
    | .fetch early =>
      match t.fetchInstr early (t.chan ch).conblkAd with
      | .ok i => exec i t
      | .error r => .next (t.raise ch r)
    | .exec d _ _ _ =>
      match decodeDesc t.cfg d with
      | .ok i => exec i t
      | .error r => .next (t.raise ch r)

/-- A step of the host: the first task waiting, or nothing to do (log 9). A descriptor is no host step: the host
access has no meaning and refuses the run (60 R333). -/
def State.hostStep (s : State) : Host.Outcome State Fault Refusal :=
  match s.host.todo with
  | [] => .next s
  | .instr i :: rest =>
    if i.kind = .descriptor then .next (s.setTodo rest).refuse else exec i (s.setTodo rest)
  | .word w :: rest =>
    match decodeChain w with
    | some i => exec i (s.setTodo rest)
    | none => .next ((s.setTodo rest).reject .badOpcode)
  | t :: rest => .next ((s.setTodo rest).runTask t)

/-- A step of agent a (00 R8); `early` is one word read of a fetch (20 R83; log 12). -/
def State.agentStep (s : State) : Agent → Host.Outcome State Fault Refusal
  | .host => s.hostStep
  | .chan ch => s.chanStep ch
  | .early ch k => .next (s.earlyRead ch k)
  | .pacer pc => .next (s.pacerTick pc)

/-- The state with the words placed at a chain-region slot and ChanS about to fetch them (log 22). -/
def State.placeDesc (s : State) (a : Word) (ws : List Word) : State :=
  let m := (List.range ws.length).foldl
    (fun m k => Memory.writeWord m (a + BitVec.ofNat 32 (4 * k)) ((ws[k]?).getD 0#32)) s.mem
  { (s.setMem m).setChan .S ⟨true, a, .fetch [], none⟩ with sched := .chan .S :: s.sched }

/-- The state with a chain-opcode word as the host's next task (log 22). -/
def State.placeChainWord (s : State) (w : Word) : State :=
  { s.setTodo (.word w :: s.host.todo) with sched := .host :: s.sched }

end Sys2Proof.Machine
end

