-- ==== Sys2Proof/Machine/Step.lean ====
section
/-!
DEFINITION. One step of the machine, and placing an instruction where the next step takes it from.
-/
namespace Sys2Proof.Machine

/-- One step: the agent whose turn it is steps (00 R8; 60 R350). -/
def step (s : State) : Host.Outcome State Fault Refusal := s.takeTurn.2.agentStep s.takeTurn.1

/-- `s` with the instruction whose first `nbits` bits are `w` where the next step takes it from: a chain opcode as the
host's next task, a descriptor at CH(0) with ChanS armed there; the schedule names that agent next (log 9, log 22). -/
def State.withFetchWord (s : State) (nbits w : Nat) : State :=
  match tableChain nbits w with
  | some _ => s.placeChainWord (wordAt (w % 2 ^ nbits) 0)
  | none => s.placeDesc (s.cfg.chainCb 0) (tableWords nbits w)

end Sys2Proof.Machine
end

