-- ==== Sys2Proof/Machine/Boot.lean ====
section
/-!
DEFINITION. Power-on and boot (70 R370, R371; 10 R50).
-/
namespace Sys2Proof.Machine

/-- The state at power-on (10 R50): the channels' contents and the GPIO latch are whatever they are, no channel is
faulted, the pacers are unconfigured, nothing is written. -/
def State.powerOn (c : Config) (chanP chanS : Channel) (g : Word) : State where
  cfg := c
  chanP := { chanP with fault := none }
  chanS := { chanS with fault := none }
  pacerP := .launch
  pacerS := .launch
  gpioOut := g
  timer := 0#32
  mem := []
  host := .launch
  trace := []
  refused := false
  sched := []
  cur := .P
  draws := 0

/-- What boot finds outside the block: the register blocks map, the memory can be locked, and the request is within
the buffer horizon (70 R371 steps 1 and 2); and the host's program: carrier start's arguments (step 4) and the
procedures and host steps it makes from then on, in any order (step 5). -/
structure BootInput where
  regsMap : Bool
  memLocks : Bool
  withinHorizon : Bool
  tickMicros : Nat
  cycles : Nat
  later : List HostTask
  deriving DecidableEq, Repr

/-- The host's program is given, with carrier start as the host's first procedure (70 R371 steps 4 and 5, R372;
log 39). -/
def State.giveProgram (s : State) (tickMicros cycles : Nat) (later : List HostTask) : State :=
  s.setTodo (.start tickMicros cycles :: later)

/-- Boot (70 R371). Steps 1 and 2 may fail, which is fatal: the block never runs. Step 3 is RESET(P), RESET(S) and
STORE(ZW, 0), made at once, and leaves the launch state. Step 4, carrier start, is then the host's next task, and
step 5's procedures come after it. -/
def boot (inp : BootInput) (s : State) : Host.Outcome State Fault Refusal :=
  if inp.regsMap = false then .fault .initRegisters
  else if inp.memLocks = false ∨ inp.withinHorizon = false then .fault .initMemory
  else .next ((((s.resetChan .P).resetChan .S).hostStore s.cfg.zw 0#32).giveProgram inp.tickMicros inp.cycles inp.later)

end Sys2Proof.Machine
end

