-- ==== Sys2Proof/Safety.lean ====
section
/-!
DEFINITION. What claims about runs are stated in: a run outside the model, a clean end, enabled agents, weak fairness
(40 R150, R168; 60 R332, R333; 70 R391).
-/
namespace Sys2Proof.Machine

/-- No channel is faulted and the run is inside the model (60 R332, R333). -/
def State.clean (s : State) : Bool :=
  decide (s.chanP.fault = none) && decide (s.chanS.fault = none) && !s.refused

/-- The channel's run has ended cleanly: idle and not faulted (40 R168). -/
def State.ended (s : State) (ch : ChanId) : Bool :=
  decide ((s.chan ch).phase = .idle) && decide ((s.chan ch).fault = none)

/-- The channel is held on a paced write (40 R150, R152). -/
def State.heldOnPacer (s : State) (ch : ChanId) : Bool :=
  match (s.chan ch).phase with
  | .idle => false
  | .fetch _ => false
  | .exec _ _ _ none => false
  | .exec d _ _ (some _) => d.destDreq && !s.dreq (d.pacerOf s.cfg)

/-- The agent has an enabled step (10 R44; 40 R150). An early word read is never owed a turn (log 12). -/
def State.enabled (s : State) : Agent → Bool
  | .host => decide (s.host.todo ≠ [])
  | .chan ch => s.canStep ch && !s.heldOnPacer ch
  | .early _ _ => false
  | .pacer pc => s.tickEnabled pc

/-- A run: each state's step answers the next. -/
def isRun (run : Nat → State) : Prop := ∀ k, step (run k) = .next (run (k + 1))

/-- Weak fairness (70 R391): an agent enabled from some point on is given a turn after that point. -/
def weaklyFair (run : Nat → State) : Prop :=
  ∀ a k, (∀ j, k ≤ j → (run j).enabled a = true) → ∃ j, k ≤ j ∧ (run j).takeTurn.1 = a

/-- `k` steps of the current channel running descriptor instruction `i`, with no other agent in between. -/
def execTimes (i : Instr) : Nat → State → Host.Outcome State Fault Refusal
  | 0, s => .next s
  | k + 1, s =>
    match exec i s with
    | .next t => execTimes i k t
    | .fault r => .fault r
    | .refused r => .refused r

/-- `k` turns of agent `a`, with no other agent in between. -/
def agentTimes (a : Agent) : Nat → State → Host.Outcome State Fault Refusal
  | 0, s => .next s
  | k + 1, s =>
    match s.agentStep a with
    | .next t => agentTimes a k t
    | .fault r => .fault r
    | .refused r => .refused r

/-- The current channel can step and is in phase p. -/
def State.ready (s : State) (p : Phase) : Prop := s.canStep s.cur = true ∧ (s.chan s.cur).phase = p

/-- The current channel can step and is about to fetch, with whatever words it has read early (log 12). -/
def State.atFetch (s : State) : Prop := s.canStep s.cur = true ∧ ∃ early, (s.chan s.cur).phase = .fetch early

/-- The channel registers after COMPLETE to `next` (40 R153). -/
def Channel.completed (c : Channel) (next : Word) : Channel :=
  if next = 0#32 then { c with active := false, conblkAd := 0#32, phase := .idle }
  else { c with conblkAd := next, phase := .fetch [] }

/-- A descriptor instruction of one beat, step by step from Fetch: FETCH loads d, BEAT-READ reads v and makes s into r,
BEAT-WRITE makes r into t, and COMPLETE ends the descriptor (40 R151 to R153). -/
def oneBeat (i : Instr) (d : Desc) (s r t : State) (v : Word) : Prop :=
  exec i s = .next (s.setPhase s.cur (.exec d 1 0 none)) ∧
  exec i (s.setPhase s.cur (.exec d 1 0 none)) = .next (r.setPhase s.cur (.exec d 1 0 (some v))) ∧
  exec i (r.setPhase s.cur (.exec d 1 0 (some v))) = .next (t.setPhase s.cur (.exec d 1 1 none)) ∧
  exec i (t.setPhase s.cur (.exec d 1 1 none)) = .next (t.setChan s.cur ((s.chan s.cur).completed d.nextconbk))

/-- m' is m with the word v stored at a: that word reads as v, and every byte outside it as before (20 R82). -/
def wordStored (m : Memory) (a v : Word) (m' : Memory) : Prop :=
  m'.word a = some v ∧ ∀ x, (x < a.toNat ∨ a.toNat + 4 ≤ x) → m'.byte x = m.byte x

/-- PACE_P t or PACE_S t (30 R134). -/
def paceInstr (pc : ChanId) (t : BitVec 28) (stride next : Word) : Instr :=
  match pc with
  | .P => .paceP t stride next
  | .S => .paceS t stride next

/-- The descriptor of PACE_P t or PACE_S t (30 R121, R134). -/
def paceDesc (c : Config) (pc : ChanId) (t : BitVec 28) (stride next : Word) : Desc :=
  match pc with
  | .P => ⟨tiPace c.permapP, c.zw, c.fifoP, lenWord t, stride, next⟩
  | .S => ⟨tiPace c.permapS, c.zw, c.fifoS, lenWord t, stride, next⟩

/-- Chain descriptors an opcode takes (44 R273). -/
def chainCbCost (c : Config) : Option Instr → Nat
  | some (.playWave _) => 1
  | some (.delayMicros n) => if 0 < n then 1 else 0
  | some .loopBegin => 1
  | some (.loopEnd k) => if 2 ≤ k then 3 * c.blocks + 1 else 0
  | _ => 0

/-- Chain OOL words an opcode takes (44 R273). -/
def chainOolCost (c : Config) : Option Instr → Nat
  | some (.playWave _) => 1
  | some (.loopEnd k) => if 2 ≤ k then 2 * c.blocks * (c.blockLength + 1) else 0
  | _ => 0

/-- Everything taking fault r on channel ch changes, and that nothing else does (60 R330). -/
def faultTaken (s : State) (ch : ChanId) (r : FaultReason) (t : State) : Prop :=
  t.chan ch = { s.chan ch with fault := some r } ∧ (∀ x, x ≠ ch → t.chan x = s.chan x) ∧
  t.trace = s.trace ++ [.fault ch r] ∧ t.refused = (s.refused || decide (r = .unadmitted)) ∧
  t.mem = s.mem ∧ t.gpioOut = s.gpioOut ∧ t.pacerP = s.pacerP ∧ t.pacerS = s.pacerS ∧ t.timer = s.timer ∧
  t.host = s.host ∧ t.cfg = s.cfg ∧ t.sched = s.sched ∧ t.cur = s.cur ∧ t.draws = s.draws

/-- The memory word an engine step of the current channel running d stores to: the destination of the beat whose word
is held, where it lies in memory (40 R152; 20 R81). -/
def State.storeTarget (s : State) (d : Desc) : Option Word :=
  match (s.chan s.cur).phase with
  | .idle => none
  | .fetch _ => none
  | .exec _ _ _ none => none
  | .exec _ n k (some _) => if k < n ∧ s.cfg.inMem (d.dstAt k) = true then some (d.dstAt k) else none

/-- The eight words of descriptor d stand at a (30 R110). -/
def descAt (m : Memory) (a : Word) (d : Desc) : Prop :=
  ∀ k, k < 8 → m.word (a + BitVec.ofNat 32 (4 * k)) = d.words[k]?

/-- A channel's registers fit together: idle exactly with CONBLK_AD = 0 and then not active; at most the eight words
of one descriptor read early while fetching (log 12); a descriptor address while executing, a snapshot that passes the
checks, and a beat index and held word within the beat count (10 R32, R33; 40 R151 to R154). -/
def Channel.consistent (cfg : Config) (c : Channel) : Prop :=
  match c.phase with
  | .idle => c.conblkAd = 0#32 ∧ c.active = false
  | .fetch early => c.conblkAd ≠ 0#32 ∧ Table.rising early = true ∧ ∀ e ∈ early, e.1 < 8
  | .exec d n i h =>
    c.conblkAd ≠ 0#32 ∧ c.conblkAd.toNat % 32 = 0 ∧ cfg.fetchable c.conblkAd = true ∧ d.check cfg = none ∧
    (n = d.beats ∨ (d.beats = 0 ∧ n = 1)) ∧ i ≤ n ∧ (h ≠ none → i < n)

/-- Both channels' registers fit together. -/
def State.channelsConsistent (s : State) : Prop := s.chanP.consistent s.cfg ∧ s.chanS.consistent s.cfg

/-- Descriptor position n belongs to the range (43 R240). -/
def WaveRange.cbAt (r : WaveRange) (n : Nat) : Prop := r.bottomCB ≤ n ∧ n < r.bottomCB + r.cbCount

/-- OOL position n belongs to the range: to its bottom words, or to its top cells, which go down from `topOOL`
(43 R240). -/
def WaveRange.oolAt (r : WaveRange) (n : Nat) : Prop :=
  (r.bottomOOL ≤ n ∧ n < r.bottomOOL + r.oolBottomCount) ∨ (n ≤ r.topOOL ∧ r.topOOL < n + r.oolTopCount)

/-- The registry is as 43 R240 has it: one entry per id below maxWaves; every range has a final descriptor at `topCB`
and lies in the wave part of the arena, outside the carrier region and off ZW (20 R72; 00 R9; 42 R210); two ranges
that are not deleted share no position. -/
def State.wavesOk (s : State) : Prop :=
  Table.rising s.host.waves = true ∧
  (∀ id r, Table.get s.host.waves id = some r →
    id < s.cfg.maxWaves ∧ 1 ≤ r.cbCount ∧ r.topCB = r.bottomCB + r.cbCount - 1 ∧
    (∀ n, r.cbAt n → n < s.cfg.pageBus.length * s.cfg.cbsPerPage ∧
      (n < s.cfg.carrierCb0 ∨ s.cfg.carrierCb0 + s.cfg.carrierCbs ≤ n)) ∧
    ∀ n, r.oolAt n → n < s.cfg.pageBus.length * s.cfg.oolPerPage ∧ s.cfg.oolBus n ≠ s.cfg.zw ∧
      (n < s.cfg.carrierOol0 ∨ s.cfg.carrierOol0 + s.cfg.carrierOol ≤ n)) ∧
  ∀ i j r q, i ≠ j → Table.get s.host.waves i = some r → Table.get s.host.waves j = some q →
    r.deleted = false → q.deleted = false → ∀ n, ¬ (r.cbAt n ∧ q.cbAt n) ∧ ¬ (r.oolAt n ∧ q.oolAt n)

/-- The Counter of value v at descriptor position q and OOL position o stands in memory m as built, with restart
target R and exit target X (44 R298, R299): the working and pristine arrays, Bd_d at index v_d and R elsewhere; per
digit the branch write, the head's save and the rotate; and E. -/
def counterAt (c : Config) (m : Memory) (q o v : Nat) (R X : Word) : Prop :=
  let L := c.blockLength
  let B := c.blocks
  let W := fun d i => c.chainCo (o + d * (L + 1) + i)
  let P := fun d i => c.chainCo (o + B * (L + 1) + d * (L + 1) + i)
  let init := fun d i => if i < L ∧ i = v / L ^ d % L
    then (if d + 1 < B then c.chainCb (q + 3 * (d + 1)) else c.chainCb (q + 3 * B)) else R
  (∀ d, d < B → ∀ i, i ≤ L → m.word (W d i) = some (init d i) ∧ m.word (P d i) = some (init d i)) ∧
  (∀ d, d < B →
    descAt m (c.chainCb (q + 3 * d))
      ⟨0x04000008#32, W d 0, c.chainCb (q + 3 * d + 2) + 0x14#32, 4#32, 0#32, c.chainCb (q + 3 * d + 1)⟩ ∧
    descAt m (c.chainCb (q + 3 * d + 1)) ⟨0x04000008#32, W d 0, W d L, 4#32, 0#32, c.chainCb (q + 3 * d + 2)⟩ ∧
    descAt m (c.chainCb (q + 3 * d + 2)) ⟨0x04000118#32, W d 1, W d 0, BitVec.ofNat 32 (4 * L), 0#32, init d 0⟩) ∧
  descAt m (c.chainCb (q + 3 * B)) ⟨0x04000118#32, P 0 0, W 0 0, BitVec.ofNat 32 (4 * (B * (L + 1))), 0#32, X⟩

/-- The program `pre`, item x, … of a chain reaches x, which stands for opcode i, with the builder at b (44 R272). -/
def reaches (c : Config) (waves : List (Nat × WaveRange)) (prog : List ChainItem) (b : Build) (i : Instr) : Prop :=
  ∃ pre x post, prog = pre ++ x :: post ∧ advanceItems c waves Build.init pre = .ok b ∧ x.opcode = some i

/-- The chain program stands in memory m as built (44 R274 to R291): of each opcode, at the cursors it was reached with,
what it emits, and the tail T at the final cursors. A loop head's NEXT is the body unless LoopEnd(0) closes that loop,
and then the descriptor after the loop. -/
def chainAt (c : Config) (waves : List (Nat × WaveRange)) (prog : List ChainItem) (last : Build) (m : Memory) : Prop :=
  (∀ b id r, reaches c waves prog b (.playWave id) → Table.get waves id = some r →
    m.word (c.chainCo b.m) = some (c.chainCb (b.q + 1)) ∧
    descAt m (c.chainCb b.q)
      ⟨0x04000008#32, c.chainCo b.m, c.cbBus r.topCB + 0x14#32, 4#32, 0#32, c.cbBus r.bottomCB⟩) ∧
  (∀ b n, reaches c waves prog b (.delayMicros n) → 0 < n → descAt m (c.chainCb b.q)
    ⟨tiPace c.permapS, c.zw, c.fifoS, BitVec.ofNat 32 (4 * n), 0#32, c.chainCb (b.q + 1)⟩) ∧
  (∀ b, reaches c waves prog b .loopBegin → ∃ next,
    descAt m (c.chainCb b.q) ⟨0x04000008#32, c.zw, c.zw, 4#32, 0#32, next⟩ ∧
    ((∀ e, reaches c waves prog e (.loopEnd 0) → e.openHeads.head? ≠ some b.q) → next = c.chainCb (b.q + 1))) ∧
  (∀ b h, reaches c waves prog b (.loopEnd 0) → b.openHeads.head? = some h →
    m.word (c.chainCb h + 0x14#32) = some (c.chainCb b.q)) ∧
  (∀ b h k, reaches c waves prog b (.loopEnd k) → 2 ≤ k → b.openHeads.head? = some h →
    counterAt c m b.q b.m (k - 1) (c.chainCb h) (c.chainCb (b.q + 3 * c.blocks + 1))) ∧
  descAt m (c.chainCb last.q) ⟨0x04000008#32, c.zw, c.zw, 4#32, 0#32,
    if last.seenRepeat then c.chainCb (last.openHeads.getLast?.getD 0) else 0#32⟩

/-- Every byte in memory lies in a memory region of the map, and the word around it is wholly written (10 R46;
20 R72, R82). -/
def State.memoryInRegions (s : State) : Prop :=
  ∀ a, (s.mem.byte a).isSome = true →
    a < 2 ^ 32 ∧ s.cfg.inMem (BitVec.ofNat 32 a) = true ∧ ∀ j, j < 4 → (s.mem.byte (a / 4 * 4 + j)).isSome = true

/-- No pacer holds more than its depth, and each has ticked as often as the trace records (10 R42, R44). -/
def State.pacersConsistent (s : State) : Prop :=
  ∀ pc, (s.pacer pc).fill ≤ s.cfg.pacerDepth pc ∧ (s.pacer pc).ticks = s.trace.count (.tick pc)

/-- The first-use transition has been recorded exactly when it has been made, and PacerS is configured exactly then
(41 R196). -/
def State.waveClockConsistent (s : State) : Prop :=
  s.trace.count .waveClock = (if s.host.waveClockReady then 1 else 0) ∧
  s.pacerS.configured = s.host.waveClockReady

/-- gpio.out after the GPSET0 and GPCLR0 writes of a trace, applied in order to a launch value (20 R86). -/
def replay : Word → List Event → Word
  | g, [] => g
  | g, .gpioSet _ v :: es => replay (g ||| v) es
  | g, .gpioClr _ v :: es => replay (g &&& ~~~v) es
  | g, .tick _ :: es => replay g es
  | g, .arm _ _ :: es => replay g es
  | g, .reset _ :: es => replay g es
  | g, .stop _ :: es => replay g es
  | g, .fault _ _ :: es => replay g es
  | g, .waveClock :: es => replay g es
  | g, .sample _ _ _ :: es => replay g es

end Sys2Proof.Machine
end

