-- ==== Sys2Proof/Certificates/Slice0/Obligations.lean ====
section
/-!
DEFINITION. The statements for the provers, each from the rules of spec/ its docstring names. Where a statement gives a
next state as a record update, every field it does not name is unchanged.
-/
section
open Sys2Proof Sys2Proof.Machine

/-! ### Encoding -/

/-- 30 R110 to R121, R130: words written out from the encodings decode to what they stand for, under CFG-X; the TI
constants are the words 30 R121 gives, and each of them meets the admitted subset. -/
def Obligations.SpecWordsDecode : Prop :=
  decode Config.example ([0x04000008#32, 0x00100804#32, 0x7E20001C#32, 4#32, 0#32, 0x00100020#32, 0#32, 0#32].flatMap
    wordBytes) = .ok (.set 0x00100804#32 0#32 0x00100020#32, []) ∧
  decode Config.example ([0x04050048#32, 0x00100800#32, 0x7E20C018#32, 0x190#32, 0#32, 0#32, 0#32, 0#32].flatMap
    wordBytes) = .ok (.paceS 100#28 0#32 0#32, []) ∧
  decode Config.example ([0x04000118#32, 0x00181008#32, 0x00181004#32, 0x10#32, 0#32, 0x00180020#32, 0#32, 0#32].flatMap
    wordBytes) = .ok (.copyN 0x00181008#32 0x00181004#32 4#28 0#32 0x00180020#32, []) ∧
  decodeChain 0x10000003#32 = some (.playWave 3) ∧ decodeChain 0x20000190#32 = some (.delayMicros 400) ∧
  decodeChain 0x40000005#32 = some (.loopEnd 5) ∧ decodeChain 0x50000000#32 = some .repeatForever ∧
  tiNormal = 0x04000008#32 ∧ tiInc = 0x04000118#32 ∧ tiPace 2#5 = 0x04020048#32 ∧ tiPace 5#5 = 0x04050048#32 ∧
  ∀ c : Config, c.admittedTI tiNormal = true ∧ c.admittedTI tiInc = true ∧
    c.admittedTI (tiPace c.permapP) = true ∧ c.admittedTI (tiPace c.permapS) = true

/-- 30 R110 to R121, R132 to R135: encoding a well-formed descriptor instruction of any class and decoding the bytes
gives the instruction back, with the bytes after it left over. -/
def Obligations.DescriptorRoundTrip : Prop :=
  ∀ (c : Config) (i : Instr) (rest : List Byte), c.ok = true → i.kind = .descriptor → i.wellFormed c = true →
    decode c (encodeBytes c i ++ rest) = .ok (i, rest)

/-- 30 R118, R120, R122: what the decoder answers is a well-formed descriptor instruction whose encoding has the words
0 to 5 that were decoded, whatever words 6 and 7 are. -/
def Obligations.DecodedInstructionKeepsItsWords : Prop :=
  ∀ (c : Config) (w0 w1 w2 w3 w4 w5 w6 w7 : Word) (i : Instr) (rest tail : List Byte),
    decode c ([w0, w1, w2, w3, w4, w5, w6, w7].flatMap wordBytes ++ rest) = .ok (i, tail) →
    i.kind = .descriptor ∧ i.wellFormed c = true ∧ encode c i = [w0, w1, w2, w3, w4, w5, 0#32, 0#32] ∧ tail = rest

/-- 30 R130: a well-formed chain opcode is one word that decodes to it, and a word that decodes is that opcode's. -/
def Obligations.ChainOpcodeRoundTrip : Prop :=
  (∀ (c : Config) (i : Instr), i.kind = .chain → i.wellFormed c = true →
    ∃ w, encode c i = [w] ∧ decodeChain w = some i) ∧
  ∀ (c : Config) (w : Word) (i : Instr), decodeChain w = some i →
    i.kind = .chain ∧ encode c i = [w] ∧ ∀ id, i = .playWave id → id < 65536

/-- 30 R130: a word with a reserved tag, or with a non-zero bit where the table has 0, decodes to no opcode, and submit
rejects a program that holds one, at the first such word of a program valid so far. -/
def Obligations.ReservedChainWordsAreRejected : Prop :=
  (∀ w : Word, decodeChain w = none ↔
    (w.toNat / 2 ^ 28 = 0 ∨ 6 ≤ w.toNat / 2 ^ 28) ∨
    (w.toNat / 2 ^ 28 = 1 ∧ w.toNat / 2 ^ 16 % 2 ^ 12 ≠ 0) ∨
    ((w.toNat / 2 ^ 28 = 3 ∨ w.toNat / 2 ^ 28 = 5) ∧ w.toNat % 2 ^ 28 ≠ 0)) ∧
  ∀ (s : State) (pre post : List ChainItem) (b : Build) (w : Word),
    advanceItems s.cfg s.host.waves Build.init pre = .ok b → decodeChain w = none →
    s.submit (pre ++ .word w :: post) = { s with host := { s.host with ret := .rejected .badOpcode } }

/-- 30 R122 step 8: the closed form of the overlap check holds exactly where some beat reads a memory word that an
earlier beat writes. -/
def Obligations.OverlapCheckMatchesBeats : Prop :=
  ∀ (c : Config) (d : Desc),
    d.overlaps c = true ↔ ∃ i j, i < j ∧ j < d.beats ∧ d.dstAt i = d.srcAt j ∧ c.inMem (d.dstAt i) = true

/-- 30 R122 (and 60 R334, first point): the checks on a fetch address, in order; the first that fails decides, and a
descriptor that passes all eight decodes to an instruction that stands for exactly its words. The words are those read
early (20 R83; log 12), and memory's for the others; with none read early, memory's alone. -/
def Obligations.FetchChecksInOrder : Prop :=
  ∀ (s : State) (early : List (Nat × Option Word)) (a : Word),
    let word := fun k => (Table.get early k).getD (s.mem.word (a + BitVec.ofNat 32 (4 * k)))
    let fetch := s.fetchInstr early a
    (a.toNat % 32 ≠ 0 → fetch = .error .misaligned) ∧
    (a.toNat % 32 = 0 →
      ((∀ p ∈ s.cfg.pageBus, ¬ (p.toNat ≤ a.toNat ∧ a.toNat + 32 ≤ p.toNat + 4096)) ∧ a ∉ s.cfg.chainCbBus →
        fetch = .error .unmapped) ∧
      ((∃ p ∈ s.cfg.pageBus, p.toNat ≤ a.toNat ∧ a.toNat + 32 ≤ p.toNat + 4096) ∨ a ∈ s.cfg.chainCbBus →
        ((∃ k, k < 8 ∧ word k = none) → fetch = .error .unwritten) ∧
        ∀ w0 w1 w2 w3 w4 w5 w6 w7,
          (∀ k, k < 8 → word k = [w0, w1, w2, w3, w4, w5, w6, w7][k]?) →
          if s.cfg.admittedTI w0 = false then fetch = .error .unadmitted
          else if 2 ^ 30 ≤ w3.toNat ∨ w3.toNat % 4 ≠ 0 then fetch = .error .badLength
          else if w1.toNat % 4 ≠ 0 ∨ w2.toNat % 4 ≠ 0 then fetch = .error .misaligned
          else if w5.toNat % 32 ≠ 0 then fetch = .error .misaligned
          else
            ((∃ i j, i < j ∧ j < Desc.beats ⟨w0, w1, w2, w3, w4, w5⟩ ∧
              Desc.dstAt ⟨w0, w1, w2, w3, w4, w5⟩ i = Desc.srcAt ⟨w0, w1, w2, w3, w4, w5⟩ j ∧
              s.cfg.inMem (Desc.dstAt ⟨w0, w1, w2, w3, w4, w5⟩ i) = true) → fetch = .error .overlap) ∧
            ((¬ ∃ i j, i < j ∧ j < Desc.beats ⟨w0, w1, w2, w3, w4, w5⟩ ∧
              Desc.dstAt ⟨w0, w1, w2, w3, w4, w5⟩ i = Desc.srcAt ⟨w0, w1, w2, w3, w4, w5⟩ j ∧
              s.cfg.inMem (Desc.dstAt ⟨w0, w1, w2, w3, w4, w5⟩ i) = true) →
              ∃ i, fetch = .ok i ∧ i.desc s.cfg = some ⟨w0, w1, w2, w3, w4, w5⟩)))

/-- 30 R112 to R114, R119: beat count and beat addresses, modulo 2^32. -/
def Obligations.OperandAssembly : Prop :=
  ∀ (c : Config) (d : Desc) (i : Nat),
    d.beats = d.txfrLen.toNat % 2 ^ 30 / 4 ∧
    (d.srcAt i).toNat = (d.sourceAd.toNat + if d.ti.toNat / 2 ^ 8 % 2 = 1 then 4 * i else 0) % 2 ^ 32 ∧
    (d.dstAt i).toNat = (d.destAd.toNat + if d.ti.toNat / 2 ^ 4 % 2 = 1 then 4 * i else 0) % 2 ^ 32 ∧
    d.pacerOf c = (if d.ti.toNat / 2 ^ 16 % 2 ^ 5 = c.permapP.toNat then .P else .S) ∧
    (d.destDreq = true ↔ d.ti.toNat / 2 ^ 6 % 2 = 1)

/-! ### The step -/

/-- 40 R150, R151; 00 R8: the turn of a channel that can step fetches the instruction at CONBLK_AD and is `exec` of
it, or goes on with the loaded snapshot; an early turn reads one word of the descriptor being fetched and keeps it, at
most once a word, so that the FETCH may see any mixture of old and new words (20 R83; log 12); the turn of the host is
`exec` of the instruction waiting, or of the chain opcode that a waiting word decodes to; a pacer's turn is a tick.
Around `exec` the step takes the turn from the schedule (a free choice where it is empty, log 4), sets `cur` to the
channel (log 5), and takes the host's task off its list (log 9). -/
def Obligations.TurnRunsDecodedInstruction : Prop :=
  (∀ s : State, step s = s.takeTurn.2.agentStep s.takeTurn.1) ∧
  (∀ (s : State) (a : Agent) (rest : List Agent), s.sched = a :: rest → s.takeTurn = (a, { s with sched := rest })) ∧
  (∀ (s : State) (ch : ChanId) (e : List (Nat × Option Word)) (i : Instr), s.canStep ch = true →
    (s.chan ch).phase = .fetch e → s.fetchInstr e (s.chan ch).conblkAd = .ok i →
    s.agentStep (.chan ch) = exec i { s with cur := ch }) ∧
  (∀ (s : State) (ch : ChanId) (k : Fin 8) (e : List (Nat × Option Word)), s.canStep ch = true →
    (s.chan ch).phase = .fetch e → Table.get e k = none → ∃ e', s.agentStep (.early ch k) =
        .next (s.setChan ch { s.chan ch with phase := .fetch e' }) ∧
      Table.get e' k = some (s.mem.word ((s.chan ch).conblkAd + BitVec.ofNat 32 (4 * k))) ∧
      ∀ j : Nat, j ≠ k → Table.get e' j = Table.get e j) ∧
  (∀ (s : State) (ch : ChanId) (k : Fin 8), (s.canStep ch = false ∨
      ∀ e, (s.chan ch).phase = .fetch e → Table.get e k ≠ none) → s.agentStep (.early ch k) = .next s) ∧
  (∀ (s : State) (ch : ChanId) (d : Desc) (n k : Nat) (h : Option Word) (i : Instr), s.canStep ch = true →
    (s.chan ch).phase = .exec d n k h → decodeDesc s.cfg d = .ok i → s.agentStep (.chan ch) = exec i { s with cur := ch }) ∧
  (∀ (s : State) (i : Instr) (ts : List HostTask), s.host.todo = .instr i :: ts → i.kind ≠ .descriptor →
    s.agentStep .host = exec i { s with host := { s.host with todo := ts } }) ∧
  (∀ (s : State) (w : Word) (i : Instr) (ts : List HostTask), s.host.todo = .word w :: ts → decodeChain w = some i →
    s.agentStep .host = exec i { s with host := { s.host with todo := ts } }) ∧
  (∀ (s : State) (pc : ChanId), s.agentStep (.pacer pc) = .next (s.pacerTick pc))

/-- 60 R330, R340, R344; 10 R30, R48: no state stops the machine: a fault, a rejection and a refusal of the run are next
states. No step changes the configuration (00 R9), and the trace only grows, by at most two events (STOP records
two). -/
def Obligations.EveryStepAnswersNext : Prop :=
  ∀ s : State, ∃ t es, step s = .next t ∧ t.cfg = s.cfg ∧ t.trace = s.trace ++ es ∧ es.length ≤ 2

/-- 40 R150: a channel's turn changes its registers exactly where the channel has an enabled step, in every state whose
channel registers fit together; where it has none, its turn leaves everything but `cur` as it was. -/
def Obligations.ChannelStepsExactlyWhenEnabled : Prop :=
  ∀ (s : State) (ch : ChanId), s.channelsConsistent →
    ((s.enabled (.chan ch) = true ↔
      ((s.chan ch).active = true ∧ (s.chan ch).fault = none ∧ (s.chan ch).phase ≠ .idle) ∧
      ¬ ∃ d n i v, (s.chan ch).phase = .exec d n i (some v) ∧ d.ti.getLsbD 6 = true ∧
        ¬ ((s.pacer (d.pacerOf s.cfg)).configured = true ∧
          (s.pacer (d.pacerOf s.cfg)).fill < s.cfg.pacerDepth (d.pacerOf s.cfg)))) ∧
    ∃ t, s.agentStep (.chan ch) = .next t ∧
      (s.enabled (.chan ch) = true → t.chan ch ≠ s.chan ch) ∧
      (s.enabled (.chan ch) = false → t = { s with cur := ch })

/-- 60 R330; 40 R151, R152: a channel's turn that fails a fetch check, a beat's read or a beat's write takes that fault,
and nothing else changes (`faultTaken`; `cur` is the model's, log 5). -/
def Obligations.FailingStepTakesTheFault : Prop :=
  ∀ (s : State) (ch : ChanId) (r : FaultReason), s.canStep ch = true →
    (∀ e, (s.chan ch).phase = .fetch e → s.fetchInstr e (s.chan ch).conblkAd = .error r →
      ∃ t, s.agentStep (.chan ch) = .next t ∧ faultTaken { s with cur := ch } ch r t) ∧
    (∀ d n i, (s.chan ch).phase = .exec d n i none → i < n → d.check s.cfg = none → s.busRead (d.srcAt i) = .error r →
      ∃ t, s.agentStep (.chan ch) = .next t ∧ faultTaken { s with cur := ch } ch r t) ∧
    (∀ d n i v, (s.chan ch).phase = .exec d n i (some v) → i < n → d.check s.cfg = none →
      (d.destDreq = true → s.dreq (d.pacerOf s.cfg) = true) → s.busWrite ch (d.dstAt i) v = .error r →
      ∃ t, s.agentStep (.chan ch) = .next t ∧ faultTaken { s with cur := ch } ch r t)

/-- 60 R332: nothing clears a channel's fault; a faulted channel never steps, even after a RESET and an ARM that sets it
active. -/
def Obligations.FaultsAreSticky : Prop :=
  (∀ (s t : State) (ch : ChanId) (r : FaultReason), (s.chan ch).fault = some r → step s = .next t →
    (t.chan ch).fault = some r) ∧
  (∀ (s : State) (ch : ChanId) (r : FaultReason), (s.chan ch).fault = some r →
    s.agentStep (.chan ch) = .next { s with cur := ch } ∧ ∀ k, s.agentStep (.early ch k) = .next s) ∧
  (∀ (s : State) (ch : ChanId) (a : Word), (s.chan ch).fault ≠ none → a ≠ 0#32 →
    ∃ t u, exec (.reset ch) s = .next t ∧ exec (.arm ch a) t = .next u ∧ (u.chan ch).active = true ∧
      (u.chan ch).fault = (s.chan ch).fault ∧ u.agentStep (.chan ch) = .next { u with cur := ch })

/-- 60 R333; 10 R34, R35; 20 R76; 43 R248: what sets the `refused` mark, and that no step clears it. Each refused host
access leaves everything but the mark (and `ret` of a LOAD, log 10) as it was; that a narrow access and one to a
loaded-descriptor register change nothing else is DEDUCED (log 26), and that a failed sizing drops the host's tasks is
the model's choice (log 29). -/
def Obligations.RefusedIsSetAndKept : Prop :=
  (∀ s t : State, s.refused = true → step s = .next t → t.refused = true) ∧
  (∀ (s : State) (ch : ChanId), (s.raise ch .unadmitted).refused = true) ∧
  (∀ (s : State) (ch : ChanId) (a : Word), ((s.chan ch).active = true ∨ (s.chan ch).phase ≠ .idle) →
    exec (.arm ch a) s = .next { s with refused := true }) ∧
  (∀ (s : State) (a v : Word), (a.toNat % 4 ≠ 0 ∨ s.cfg.inMem a = false) →
    exec (.store a v) s = .next { s with refused := true } ∧
    exec (.load a) s = .next { s with refused := true, host := { s.host with ret := .none } }) ∧
  (∀ (s : State) (ch : ChanId) (v : Word) (ts : List HostTask), v.extractLsb' 1 30 ≠ 0#30 →
    s.host.todo = .csWrite ch v :: ts →
    s.agentStep .host = .next { s with refused := true, host := { s.host with todo := ts } }) ∧
  (∀ (s : State) (x : HostTask) (ts : List HostTask), (x = .narrowAccess ∨ ∃ ch, x = .loadedRegAccess ch) →
    s.host.todo = x :: ts → s.agentStep .host = .next { s with refused := true, host := { s.host with todo := ts } }) ∧
  (∀ (s : State) (emitted est : WaveSize) (ts : List HostTask), emitted ≠ est →
    s.host.todo = .checkSize emitted est :: ts → ∃ t, s.agentStep .host = .next t ∧ t.refused = true ∧ t.host.todo = [])

/-! ### Bus accesses -/

/-- 20 R79, R80: MemRead by region; address 0 is in none of them. What a level or timer read draws is a free value
(log 7), of which nothing is said but that it fills the bits the rule leaves to it; that the field `timer` holds the
value drawn is the model's choice (log 8). -/
def Obligations.BusReadFollowsRegions : Prop :=
  ∀ (s : State) (a : Word), s.cfg.ok = true →
    s.cfg.inMem 0#32 = false ∧ 0#32 ∉ s.cfg.peripherals ∧
    (a.toNat % 4 ≠ 0 → s.busRead a = .error .misaligned) ∧
    (a.toNat % 4 = 0 →
      (s.cfg.inMem a = true → s.mem.word a = none → s.busRead a = .error .unwritten) ∧
      (∀ v, s.cfg.inMem a = true → s.mem.word a = some v → s.busRead a = .ok (v, s)) ∧
      (a = s.cfg.gplev0 → ∃ x, s.busRead a =
        .ok ((s.gpioOut &&& s.cfg.outputMask) ||| (x &&& ~~~s.cfg.outputMask), { s with draws := s.draws + 1 })) ∧
      (a = s.cfg.timerLo → ∃ x, s.busRead a = .ok (x, { s with timer := x, draws := s.draws + 1 })) ∧
      ((a = s.cfg.gpset0 ∨ a = s.cfg.gpclr0 ∨ a = s.cfg.fifoP ∨ a = s.cfg.fifoS) →
        s.busRead a = .error .writeOnly) ∧
      (s.cfg.inMem a = false → a ∉ s.cfg.peripherals → s.busRead a = .error .unmapped))

/-- 20 R81: MemWrite by region. -/
def Obligations.BusWriteFollowsRegions : Prop :=
  ∀ (s : State) (ch : ChanId) (a v : Word), s.cfg.ok = true →
    (a.toNat % 4 ≠ 0 → s.busWrite ch a v = .error .misaligned) ∧
    (a.toNat % 4 = 0 →
      (s.cfg.inMem a = true → ∃ m, s.busWrite ch a v = .ok { s with mem := m } ∧ m.word a = some v ∧
        ∀ x, (x < a.toNat ∨ a.toNat + 4 ≤ x) → m.byte x = s.mem.byte x) ∧
      (a = s.cfg.gpset0 → s.busWrite ch a v =
        .ok { s with gpioOut := s.gpioOut ||| v, trace := s.trace ++ [Event.gpioSet (.chan ch) v] }) ∧
      (a = s.cfg.gpclr0 → s.busWrite ch a v =
        .ok { s with gpioOut := s.gpioOut &&& ~~~v, trace := s.trace ++ [Event.gpioClr (.chan ch) v] }) ∧
      (∀ pc, a = (match pc with | .P => s.cfg.fifoP | .S => s.cfg.fifoS) →
        ((s.pacer pc).fill = s.cfg.pacerDepth pc → s.busWrite ch a v = .error .fifoOverflow) ∧
        ((s.pacer pc).fill ≠ s.cfg.pacerDepth pc → s.busWrite ch a v =
          .ok (s.setPacer pc { s.pacer pc with fill := (s.pacer pc).fill + 1 }))) ∧
      ((a = s.cfg.gplev0 ∨ a = s.cfg.timerLo) → s.busWrite ch a v = .error .readOnly) ∧
      (s.cfg.inMem a = false → a ∉ s.cfg.peripherals → s.busWrite ch a v = .error .unmapped))

/-! ### Descriptors -/

/-- 40 R151 (last lines), R152, R153; 10 R48: one engine step of any descriptor instruction, by the phase of the
current channel. That a sample of the levels or the timer is recorded for every class is DEDUCED (log 16). It is said
of every class: SET, CLR, LEV, TICK, PACE_P, PACE_S, COPY, COPY.N, XFER, NOP, LINK. -/
def Obligations.DescriptorPhases : Prop :=
  ∀ (i : Instr) (d : Desc) (s : State), i.desc s.cfg = some d → s.canStep s.cur = true →
    (∀ e, (s.chan s.cur).phase = .fetch e → d.beats ≠ 0 →
      exec i s = .next (s.setChan s.cur { s.chan s.cur with phase := .exec d d.beats 0 none })) ∧
    (∀ d0 n k v t, (s.chan s.cur).phase = .exec d0 n k none → k < n → s.busRead (d.srcAt k) = .ok (v, t) →
      exec i s = .next (t.setChan s.cur { s.chan s.cur with phase := .exec d0 n k (some v) })) ∧
    (∀ d0 n k v t, (s.chan s.cur).phase = .exec d0 n k (some v) → k < n →
      (d.destDreq = true → (s.pacer (d.pacerOf s.cfg)).configured = true ∧
        (s.pacer (d.pacerOf s.cfg)).fill < s.cfg.pacerDepth (d.pacerOf s.cfg)) →
      s.busWrite s.cur (d.dstAt k) v = .ok t →
      ∃ es, exec i s = .next ({ t with trace := t.trace ++ es }.setChan s.cur
          { s.chan s.cur with phase := .exec d0 n (k + 1) none }) ∧
        es = if s.cfg.inMem (d.dstAt k) = true ∧
            (s.cfg.region (d.srcAt k) = .gplev ∨ s.cfg.region (d.srcAt k) = .timer)
          then [.sample s.cur (d.dstAt k) v] else []) ∧
    (∀ d0 n k v, (s.chan s.cur).phase = .exec d0 n k (some v) → d.destDreq = true →
      ¬ ((s.pacer (d.pacerOf s.cfg)).configured = true ∧
        (s.pacer (d.pacerOf s.cfg)).fill < s.cfg.pacerDepth (d.pacerOf s.cfg)) → exec i s = .next s) ∧
    (∀ d0 n, (s.chan s.cur).phase = .exec d0 n n none →
      exec i s = .next (s.setChan s.cur (if d.nextconbk = 0#32
        then { s.chan s.cur with conblkAd := 0#32, active := false, phase := .idle }
        else { s.chan s.cur with conblkAd := d.nextconbk, phase := .fetch [] })))

/-- 40 R154: with LENGTH = 0 the beat count is a draw of 0 or 1 (log 7: a free value). With 0 the descriptor completes
at its next step, having read and written nothing; with 1 its later steps are those of the same descriptor with
LENGTH = 4. -/
def Obligations.ZeroLengthDrawsItsBeatCount : Prop :=
  ∀ (i : Instr) (d : Desc) (s : State), i.desc s.cfg = some d → d.beats = 0 → s.atFetch →
    ∃ n, (n = 0 ∨ n = 1) ∧
      exec i s = .next ({ s with draws := s.draws + 1 }.setPhase s.cur (.exec d n 0 none)) ∧
      (n = 0 → execTimes i 2 s =
        .next ({ s with draws := s.draws + 1 }.setChan s.cur ((s.chan s.cur).completed d.nextconbk))) ∧
      (n = 1 → ∀ (j : Instr) (u : State), u.cfg = s.cfg → (∀ e, (u.chan u.cur).phase ≠ .fetch e) →
        j.desc s.cfg = some { d with txfrLen := 4#32 } → exec i u = exec j u)

/-- 40 R156, R157; 30 R132: SET ORs its mask word into the output latch and CLR clears the lines of its mask word; each
records the write. -/
def Obligations.SetAndClrDriveTheLatch : Prop :=
  ∀ (m stride next : Word) (s : State) (v : Word), s.cfg.ok = true → s.atFetch → s.cfg.inMem m = true →
    m.toNat % 4 = 0 → s.mem.word m = some v →
    oneBeat (.set m stride next) ⟨0x04000008#32, m, s.cfg.gpset0, 4#32, stride, next⟩ s s
      { s with gpioOut := s.gpioOut ||| v, trace := s.trace ++ [Event.gpioSet (.chan s.cur) v] } v ∧
    oneBeat (.clr m stride next) ⟨0x04000008#32, m, s.cfg.gpclr0, 4#32, stride, next⟩ s s
      { s with gpioOut := s.gpioOut &&& ~~~v, trace := s.trace ++ [Event.gpioClr (.chan s.cur) v] } v

/-- 40 R158, R159; 10 R40, R45; 30 R133: LEV stores the latch on output lines and a free value x (log 7) on input lines
into its cell; with every line an output, the sample is the latch. TICK stores a free value, which `timer` then holds
(log 8). Each records the sample. -/
def Obligations.LevAndTickSample : Prop :=
  ∀ (cell stride next : Word) (s : State), s.cfg.ok = true → s.atFetch → s.cfg.inMem cell = true →
    cell.toNat % 4 = 0 →
    (∃ x v m, v = (s.gpioOut &&& s.cfg.outputMask) ||| (x &&& ~~~s.cfg.outputMask) ∧
      (s.cfg.outputMask = 0xFFFFFFFF#32 → v = s.gpioOut) ∧ wordStored s.mem cell v m ∧
      oneBeat (.lev cell stride next) ⟨0x04000008#32, s.cfg.gplev0, cell, 4#32, stride, next⟩ s
        { s with draws := s.draws + 1 }
        { s with draws := s.draws + 1, mem := m, trace := s.trace ++ [Event.sample s.cur cell v] } v) ∧
    ∃ v m, wordStored s.mem cell v m ∧
      oneBeat (.tick cell stride next) ⟨0x04000008#32, s.cfg.timerLo, cell, 4#32, stride, next⟩ s
        { s with timer := v, draws := s.draws + 1 }
        { s with timer := v, draws := s.draws + 1, mem := m, trace := s.trace ++ [Event.sample s.cur cell v] } v

/-- 40 R160, R161; 10 R42, R43; 30 R134: PACE_P and PACE_S, t > 0 ticks. Each beat reads ZW and, only while its pacer
requests, puts one word in the FIFO; it holds otherwise. With room for t words the whole descriptor takes 2t + 2 steps,
adds t words, and no tick passes. (t = 0: ZeroLengthDrawsItsBeatCount.) -/
def Obligations.PaceFillsItsPacer : Prop :=
  ∀ (pc : ChanId) (t : BitVec 28) (stride next : Word) (s : State) (v : Word), s.cfg.ok = true → t ≠ 0#28 →
    s.mem.word s.cfg.zw = some v →
    let i := paceInstr pc t stride next
    let d := paceDesc s.cfg pc t stride next
    (s.atFetch → exec i s = .next (s.setPhase s.cur (.exec d t.toNat 0 none))) ∧
    (∀ k, k < t.toNat → s.ready (.exec d t.toNat k none) →
      exec i s = .next (s.setPhase s.cur (.exec d t.toNat k (some v)))) ∧
    (∀ k w, k < t.toNat → s.ready (.exec d t.toNat k (some w)) →
      exec i s = .next (if (s.pacer pc).configured = true ∧ (s.pacer pc).fill < s.cfg.pacerDepth pc
        then (s.setPacer pc { s.pacer pc with fill := (s.pacer pc).fill + 1 }).setPhase s.cur
          (.exec d t.toNat (k + 1) none)
        else s)) ∧
    (s.ready (.exec d t.toNat t.toNat none) →
      exec i s = .next (s.setChan s.cur ((s.chan s.cur).completed next))) ∧
    (s.atFetch → (s.pacer pc).configured = true → (s.pacer pc).fill + t.toNat ≤ s.cfg.pacerDepth pc →
      execTimes i (2 * t.toNat + 2) s =
        .next ((s.setPacer pc { s.pacer pc with fill := (s.pacer pc).fill + t.toNat }).setChan s.cur
          ((s.chan s.cur).completed next)))

/-- 40 R162, R163; 30 R135: COPY of one word stores the source word at the destination, and nothing else changes. NOP
copies ZW onto itself: in a state whose memory is canonical (log 11) nothing but the channel changes. -/
def Obligations.CopyAndNopMoveOneWord : Prop :=
  (∀ (src dst stride next : Word) (s : State) (v : Word), s.cfg.ok = true → s.atFetch →
    s.cfg.inMem src = true → s.cfg.inMem dst = true → src.toNat % 4 = 0 → dst.toNat % 4 = 0 →
    s.mem.word src = some v →
    ∃ m, wordStored s.mem dst v m ∧
      oneBeat (.copy src dst stride next) ⟨0x04000008#32, src, dst, 4#32, stride, next⟩ s s { s with mem := m } v) ∧
  ∀ (stride next : Word) (s : State) (v : Word), s.cfg.ok = true → s.atFetch → s.mem.wf = true →
    s.mem.word s.cfg.zw = some v →
    oneBeat (.nop stride next) ⟨0x04000008#32, s.cfg.zw, s.cfg.zw, 4#32, stride, next⟩ s s s v

/-- 40 R162, R165; 30 R135: LINK stores the word of its cell in the NEXTCONBK word of the descriptor at t, so that a
fetch of that descriptor afterwards, none of whose words was read before, goes to the address the cell held. -/
def Obligations.LinkWritesTheNextWord : Prop :=
  ∀ (cell t stride next : Word) (s : State) (v : Word), s.cfg.ok = true → s.atFetch →
    s.cfg.inMem cell = true → s.cfg.isDescSlot t = true → cell.toNat % 4 = 0 → s.mem.word cell = some v →
    ∃ m, wordStored s.mem (t + 0x14#32) v m ∧
      oneBeat (.link cell t stride next) ⟨0x04000008#32, cell, t + 0x14#32, 4#32, stride, next⟩ s s { s with mem := m }
        v ∧
      ∀ d, State.fetchDesc { s with mem := m } [] t = .ok d → d.nextconbk = v

/-- 40 R162; 30 R122 step 8: COPY of w words, also where the ranges overlap in the direction the checks admit: after
2w + 2 steps each destination word is the source word of the start, every byte outside the destination is as it was, and
the channel has completed. -/
def Obligations.CopyNMovesABlock : Prop :=
  ∀ (src dst : Word) (w : BitVec 28) (stride next : Word) (s : State) (x : Nat → Word), s.cfg.ok = true →
    s.atFetch → w ≠ 0#28 → Desc.check s.cfg ⟨0x04000118#32, src, dst, lenWord w, stride, next⟩ = none →
    (∀ k, k < w.toNat → s.cfg.inMem (src + BitVec.ofNat 32 (4 * k)) = true ∧
      s.cfg.inMem (dst + BitVec.ofNat 32 (4 * k)) = true ∧ s.mem.word (src + BitVec.ofNat 32 (4 * k)) = some (x k)) →
    ∃ m, execTimes (.copyN src dst w stride next) (2 * w.toNat + 2) s =
        .next ({ s with mem := m }.setChan s.cur ((s.chan s.cur).completed next)) ∧
      (∀ k, k < w.toNat → m.word (dst + BitVec.ofNat 32 (4 * k)) = some (x k)) ∧
      ∀ a, (∀ k, k < w.toNat → a < (dst + BitVec.ofNat 32 (4 * k)).toNat ∨ (dst + BitVec.ofNat 32 (4 * k)).toNat + 4 ≤ a) →
        m.byte a = s.mem.byte a

/-- 40 R155; 30 R112, R113; 20 R81: an XFER of n words with only the source moving, onto GPSET0, ORs every word into the
latch and records each write in order, whatever its timing fields are. -/
def Obligations.XferOrsEachWordIntoTheLatch : Prop :=
  ∀ (burst : BitVec 4) (permap waits : BitVec 5) (noWide : Bool) (src : Word) (n : BitVec 28) (stride next : Word)
    (s : State) (x : Nat → Word), s.cfg.ok = true → s.atFetch → n ≠ 0#28 → src.toNat % 4 = 0 →
    (∀ k, k < n.toNat → s.cfg.inMem (src + BitVec.ofNat 32 (4 * k)) = true ∧
      s.mem.word (src + BitVec.ofNat 32 (4 * k)) = some (x k)) →
    execTimes (.xfer ⟨false, false, true, burst, permap, waits, noWide⟩ src s.cfg.gpset0 n stride next)
        (2 * n.toNat + 2) s =
      .next ({ s with
        gpioOut := (List.range n.toNat).foldl (fun g k => g ||| x k) s.gpioOut,
        trace := s.trace ++ (List.range n.toNat).map (fun k => Event.gpioSet (.chan s.cur) (x k)) }.setChan s.cur
          ((s.chan s.cur).completed next))

/-- 40 R150 to R155; 20 R80, R81: what one step of any descriptor instruction leaves unchanged. Memory changes only in
the four bytes at `storeTarget`, the destination of the beat whose word is held. -/
def Obligations.DescriptorStepFrame : Prop :=
  ∀ (i : Instr) (d : Desc) (s t : State), i.desc s.cfg = some d → exec i s = .next t →
    (∀ a, (∀ b, s.storeTarget d = some b → a < b.toNat ∨ b.toNat + 4 ≤ a) → t.mem.byte a = s.mem.byte a) ∧
    (∀ x, x ≠ s.cur → t.chan x = s.chan x) ∧
    ((∀ d0 n, (s.chan s.cur).phase ≠ .exec d0 n n none) →
      (t.chan s.cur).active = (s.chan s.cur).active ∧ (t.chan s.cur).conblkAd = (s.chan s.cur).conblkAd) ∧
    (∀ pc, (t.pacer pc).configured = (s.pacer pc).configured ∧ (t.pacer pc).ticks = (s.pacer pc).ticks ∧
      (t.pacer pc).period = (s.pacer pc).period) ∧
    (∀ pc, (∀ d0 n k v, (s.chan s.cur).phase = .exec d0 n k (some v) → s.cfg.region (d.dstAt k) ≠ .fifo pc) →
      (t.pacer pc).fill = (s.pacer pc).fill) ∧
    ((∀ d0 n k v, (s.chan s.cur).phase = .exec d0 n k (some v) → s.cfg.region (d.dstAt k) ≠ .gpset ∧
      s.cfg.region (d.dstAt k) ≠ .gpclr) → t.gpioOut = s.gpioOut) ∧
    ((∀ d0 n k, (s.chan s.cur).phase = .exec d0 n k none → s.cfg.region (d.srcAt k) ≠ .timer) → t.timer = s.timer) ∧
    (∃ es, t.trace = s.trace ++ es ∧ es.length ≤ 1) ∧
    t.cfg = s.cfg ∧ t.host = s.host ∧ t.refused = s.refused ∧ t.sched = s.sched ∧ t.cur = s.cur

/-! ### Invariants that every step keeps -/

/-- 10 R32, R33; 30 R122; 40 R151 to R154: idle exactly with CONBLK_AD = 0 and then not active; while executing, a
fetchable descriptor address, an admitted snapshot, and a beat index and held word within the beat count. -/
def Obligations.ChannelRegistersStayConsistent : Prop :=
  ∀ s t : State, s.channelsConsistent → step s = .next t → t.channelsConsistent

/-- 10 R46; 20 R76, R82: memory keeps its canonical form. The form, a list of (address, byte) pairs with rising
addresses, is the model's choice (log 11). -/
def Obligations.MemoryStaysCanonical : Prop := ∀ s t : State, s.mem.wf = true → step s = .next t → t.mem.wf = true

/-- 20 R71, R72, R82; 41 R193: only whole words of the arena and the chain region are ever written. -/
def Obligations.MemoryStaysInItsRegions : Prop :=
  ∀ s t : State, s.cfg.ok = true → s.memoryInRegions → step s = .next t → t.memoryInRegions

/-- 10 R42, R44: no FIFO holds more than its depth, and `ticks` is the number of ticks recorded. -/
def Obligations.PacersStayWithinDepth : Prop := ∀ s t : State, s.pacersConsistent → step s = .next t → t.pacersConsistent

/-- 20 R86; 10 R41: the latch is its launch value with every GPSET0 and GPCLR0 write of the run applied in order, by
whichever channel or the host. -/
def Obligations.LatchIsTheReplayOfTheTrace : Prop :=
  ∀ (g : Word) (s t : State), s.gpioOut = replay g s.trace → step s = .next t → t.gpioOut = replay g t.trace

/-- 41 R196: the first-use transition is recorded at most once, and PacerS is configured exactly when it has been
made. -/
def Obligations.WaveClockHappensAtMostOnce : Prop :=
  ∀ s t : State, s.waveClockConsistent → step s = .next t → t.waveClockConsistent

/-- 43 R240; 20 R72; 42 R210; 00 R9: the registry's ranges stay in the wave part of the arena, outside the carrier
region and off ZW, and two that are not deleted share no position. A range that would break this is refused (the
model's choice, log 21); that the bottom words and the top cells of one range are distinct is DEDUCED there, and not
said here. -/
def Obligations.WaveRangesStayApart : Prop := ∀ s t : State, s.wavesOk → step s = .next t → t.wavesOk

/-- 10 R50; 70 R371, R372: the state after reset meets the invariants above. Its configuration, latch value and the
fields that are the model's own are DESIGN CHOICES (log 1, 3, 4, 5, 7 to 10, 24); the invariants do not rest on the
latch value. -/
def Obligations.ResetMeetsTheInvariants : Prop :=
  State.reset.channelsConsistent ∧ State.reset.mem.wf = true ∧ State.reset.memoryInRegions ∧
  State.reset.pacersConsistent ∧ State.reset.waveClockConsistent ∧ State.reset.wavesOk ∧
  State.reset.cfg.ok = true ∧
  ∀ g, (State.launch Config.example g).gpioOut = replay g (State.launch Config.example g).trace

/-- 70 R371, R372; 10 R50; 42 R212: boot from any power-on state gives the launch state, with the latch as it was, and
carrier start as the host's first procedure, its other procedures after it; or fails with the block never running.
With arguments that carrier start accepts, the host's turns then arm ChanP before any later procedure. That boot is one
function outside `step`, given the host's program, is the model's choice (log 25, log 39). -/
def Obligations.BootReachesTheLaunchState : Prop :=
  ∀ (c : Config) (p q : Channel) (g : Word) (inp : BootInput), c.ok = true →
    (inp.regsMap = true ∧ inp.memLocks = true ∧ inp.withinHorizon = true →
      let s := State.launch c g
      let t := { s with host := { s.host with todo := .start inp.tickMicros inp.cycles :: inp.later } }
      boot inp (State.powerOn c p q g) = .next t ∧
      (inp.tickMicros ≠ 0 → inp.cycles ≠ 0 → inp.cycles * (1 + 2 * c.carrierSlots) ≤ c.carrierCbs →
        inp.cycles * (1 + c.carrierSlots) ≤ c.carrierOol →
        ∃ k u, agentTimes .host k t = .next u ∧ u.host.todo = inp.later ∧ u.host.carrierRunning = true ∧
          u.pacerP.configured = true ∧ u.pacerP.period = inp.tickMicros ∧ u.chanP.active = true ∧
          u.chanP.conblkAd = c.cbBus c.carrierCb0 ∧ u.chanS = Channel.launch)) ∧
    (inp.regsMap = false → boot inp (State.powerOn c p q g) = .fault .initRegisters) ∧
    (inp.regsMap = true → (inp.memLocks = false ∨ inp.withinHorizon = false) →
      boot inp (State.powerOn c p q g) = .fault .initMemory) ∧
    (State.launch c g).mem.word c.zw = some 0#32 ∧
    ∀ a, (a < c.zw.toNat ∨ c.zw.toNat + 4 ≤ a) → (State.launch c g).mem.byte a = none

/-! ### Pacers and host steps -/

/-- 10 R44: a pacer steps exactly when it is configured and holds a word; the step drains one word, counts the tick and
records it, and nothing else changes. -/
def Obligations.PacerTickDrainsOneWord : Prop :=
  ∀ (s : State) (pc : ChanId),
    ((s.pacer pc).configured = true ∧ 0 < (s.pacer pc).fill → s.agentStep (.pacer pc) =
      .next ({ s with trace := s.trace ++ [Event.tick pc] }.setPacer pc
        { s.pacer pc with fill := (s.pacer pc).fill - 1, ticks := (s.pacer pc).ticks + 1 })) ∧
    (¬ ((s.pacer pc).configured = true ∧ 0 < (s.pacer pc).fill) → s.agentStep (.pacer pc) = .next s)

/-- 41 R190: ARM of an idle channel writes CONBLK_AD and records the event; a non-zero address makes the channel active,
about to fetch. ARM of a channel that is not idle is refused. -/
def Obligations.ArmStartsAnIdleChannel : Prop :=
  ∀ (s : State) (ch : ChanId) (a : Word),
    ((s.chan ch).active = false → (s.chan ch).phase = .idle → exec (.arm ch a) s =
      .next ({ s with trace := s.trace ++ [Event.arm ch a] }.setChan ch (if a = 0#32
        then { s.chan ch with conblkAd := 0#32 }
        else { s.chan ch with conblkAd := a, active := true, phase := .fetch [] }))) ∧
    (((s.chan ch).active = true ∨ (s.chan ch).phase ≠ .idle) → exec (.arm ch a) s = .next { s with refused := true })

/-- 41 R191; 70 R373; 10 R34: RESET of a channel changes its active bit, CONBLK_AD and phase, records the event, and
changes nothing else: not its fault, memory, latch, pacers, host flags or the other channel. A host write of CS with bit
31 set, and none of bits 30:1, is that RESET; with bit 31 clear it writes ACTIVE, which an idle channel keeps at 0
(DEDUCED, log 18). -/
def Obligations.ResetStopsOneChannel : Prop :=
  ∀ (s : State) (ch : ChanId),
    exec (.reset ch) s = .next ({ s with trace := s.trace ++ [Event.reset ch] }.setChan ch
      { s.chan ch with active := false, conblkAd := 0#32, phase := .idle }) ∧
    ∀ (v : Word) (ts : List HostTask), s.host.todo = .csWrite ch v :: ts → v.extractLsb' 1 30 = 0#30 →
      (v.getLsbD 31 = true → s.agentStep .host = exec (.reset ch) { s with host := { s.host with todo := ts } }) ∧
      (v.getLsbD 31 = false → s.agentStep .host =
        .next ({ s with host := { s.host with todo := ts } }.setChan ch { s.chan ch with
          active := v.getLsbD 0 && decide ((s.chan ch).phase ≠ Phase.idle) }))

/-- 41 R192, R199; 10 R34: BUSY answers whether CONBLK_AD is not 0; CSREAD answers a word whose bit 0 is ACTIVE and bit
31 is 0, its other bits a free value (log 7). Neither changes anything but what the host is answered (log 10). -/
def Obligations.BusyAndCsreadOnlyRead : Prop :=
  ∀ (s : State) (ch : ChanId),
    exec (.busy ch) s = .next { s with host := { s.host with ret := .flag (decide ((s.chan ch).conblkAd ≠ 0#32)) } } ∧
    ∃ w, exec (.csread ch) s = .next { s with draws := s.draws + 1, host := { s.host with ret := .word w } } ∧
      w.getLsbD 0 = (s.chan ch).active ∧ w.getLsbD 31 = false

/-- 41 R193, R194; 20 R82: STORE writes one aligned word of the arena or the chain region and nothing else, and a LOAD
of that word then answers the value. LOAD answers a free value (log 7) where nothing has written the word. -/
def Obligations.StoreAndLoadOneWord : Prop :=
  ∀ (s : State) (a v : Word), a.toNat % 4 = 0 → s.cfg.inMem a = true →
    (∃ m, wordStored s.mem a v m ∧ exec (.store a v) s = .next { s with mem := m } ∧
      exec (.load a) { s with mem := m } = .next { s with mem := m, host := { s.host with ret := .word v } }) ∧
    (s.mem.word a = some v → exec (.load a) s = .next { s with host := { s.host with ret := .word v } }) ∧
    (s.mem.word a = none → ∃ w, exec (.load a) s =
      .next { s with draws := s.draws + 1, host := { s.host with ret := .word w } })

/-- 41 R195, R196; 10 R42: PACER_CFG with a period of at least 1 configures PacerP with an empty FIFO; the first WAVECLK
configures PacerS so and is recorded; a later WAVECLK does nothing. -/
def Obligations.PacersAreConfigured : Prop :=
  ∀ s : State,
    (∀ n, 1 ≤ n → exec (.pacerCfg n) s =
      .next { s with pacerP := { s.pacerP with configured := true, fill := 0, period := n } }) ∧
    (s.host.waveClockReady = false → exec .waveclk s =
      .next { s with pacerS := { s.pacerS with configured := true, fill := 0, period := 1 },
                     host := { s.host with waveClockReady := true }, trace := s.trace ++ [Event.waveClock] }) ∧
    (s.host.waveClockReady = true → exec .waveclk s = .next s)

/-- 41 R197; 10 R38, R39: the host's writes to GPSET0 and GPCLR0. -/
def Obligations.HostGpioWrites : Prop :=
  ∀ (s : State) (v : Word),
    exec (.gpioSet v) s = .next { s with gpioOut := s.gpioOut ||| v, trace := s.trace ++ [Event.gpioSet .host v] } ∧
    exec (.gpioClr v) s = .next { s with gpioOut := s.gpioOut &&& ~~~v, trace := s.trace ++ [Event.gpioClr .host v] }

/-- 41 R198; 42 R219: STOP is RESET and its record; STOP(P) clears `carrierRunning`; afterwards the channel is not busy
and no line has changed. -/
def Obligations.StopResetsTheChannel : Prop :=
  ∀ (s : State) (ch : ChanId), exec (.stop ch) s =
    .next ({ s with trace := s.trace ++ [Event.reset ch, Event.stop ch],
                    host := { s.host with carrierRunning := if ch = ChanId.P then false else s.host.carrierRunning } }.setChan
      ch { s.chan ch with active := false, conblkAd := 0#32, phase := .idle })

/-- 41 R190 to R199: what the host steps leave unchanged, in every state and for every operand. -/
def Obligations.HostStepFrame : Prop :=
  ∀ (i : Instr) (s t : State), i.kind = .host → exec i s = .next t →
    (∀ x, (∀ a v, i = .store a v → x < a.toNat ∨ a.toNat + 4 ≤ x) → t.mem.byte x = s.mem.byte x) ∧
    (∀ ch, (∀ a, i ≠ .arm ch a) → i ≠ .reset ch → i ≠ .stop ch → t.chan ch = s.chan ch) ∧
    (∀ ch, (t.chan ch).fault = (s.chan ch).fault) ∧
    ((∀ n, i ≠ .pacerCfg n) → t.pacerP = s.pacerP) ∧ (i ≠ .waveclk → t.pacerS = s.pacerS) ∧
    (∀ pc, (t.pacer pc).ticks = (s.pacer pc).ticks) ∧
    ((∀ v, i ≠ .gpioSet v ∧ i ≠ .gpioClr v) → t.gpioOut = s.gpioOut) ∧
    (i ≠ .waveclk → t.host.waveClockReady = s.host.waveClockReady) ∧
    (i ≠ .stop .P → t.host.carrierRunning = s.host.carrierRunning) ∧
    ((∀ ch a, i ≠ .arm ch a) → (∀ a v, i ≠ .store a v ∧ i ≠ .load a) → t.refused = s.refused) ∧
    t.timer = s.timer ∧ t.cfg = s.cfg ∧ t.sched = s.sched ∧ t.cur = s.cur ∧ t.host.waves = s.host.waves ∧
    t.host.todo = s.host.todo ∧ t.host.build = s.host.build

/-- 30 R110, R118, R131; 41 R193: the eight STOREs of a descriptor leave its eight words at its slot, words 6 and 7
zero, and every other byte as it was. -/
def Obligations.EightStoresBuildADescriptor : Prop :=
  ∀ (s : State) (a : Word) (d : Desc) (rest : List HostTask), s.cfg.ok = true → a.toNat % 32 = 0 →
    s.cfg.fetchable a = true → s.host.todo = storeDesc a d ++ rest →
    ∃ m, agentTimes .host 8 s = .next { s with mem := m, host := { s.host with todo := rest } } ∧ descAt m a d ∧
      ∀ x, (x < a.toNat ∨ a.toNat + 32 ≤ x) → m.byte x = s.mem.byte x

/-! ### Chain opcodes -/

/-- 44 R280, R284, R285, R274: what PlayWave, DelayMicros and LoopBegin emit at the cursors q and m, as STOREs next to
be done, where 44 R272 admits them there. PlayWave: the link cell and the link descriptor. DelayMicros: a PACE_S, or
nothing for 0. LoopBegin: the loop head, its position pushed.
The rules give which words stand where, not this list: 44 R271 leaves the order of these stores free. That the link
cell comes before its LNK, and a descriptor's words in ascending order, is the model's choice (log 38). So are the
builder `host.build`, the task list the STOREs stand on, and the checks of an opcode run on its own at the builder's
cursors (log 14). -/
def Obligations.StraightOpcodesEmit : Prop :=
  ∀ (s : State) (q m n : Nat) (open' : List Nat), s.host.build = ⟨q, m, n, open', false⟩ → m ≤ s.cfg.chainOol →
    (∀ id r, id < s.cfg.maxWaves → Table.get s.host.waves id = some r → r.deleted = false →
      q + 2 ≤ s.cfg.chainCbBus.length → m + 1 ≤ s.cfg.chainOol →
      exec (.playWave id) s = .next { s with host := { s.host with
        build := ⟨q + 1, m + 1, n, open', false⟩,
        todo := .instr (.store (s.cfg.chainCo m) (s.cfg.chainCb (q + 1))) ::
          (storeDesc (s.cfg.chainCb q) ⟨0x04000008#32, s.cfg.chainCo m, s.cfg.cbBus r.topCB + 0x14#32, 4#32, 0#32,
            s.cfg.cbBus r.bottomCB⟩ ++ s.host.todo) } }) ∧
    (∀ k, 0 < k → k < 2 ^ 28 → q + 2 ≤ s.cfg.chainCbBus.length →
      exec (.delayMicros k) s = .next { s with host := { s.host with
        build := ⟨q + 1, m, n, open', false⟩,
        todo := storeDesc (s.cfg.chainCb q) ⟨tiPace s.cfg.permapS, s.cfg.zw, s.cfg.fifoS, BitVec.ofNat 32 (4 * k),
          0#32, s.cfg.chainCb (q + 1)⟩ ++ s.host.todo } }) ∧
    (q + 1 ≤ s.cfg.chainCbBus.length → exec (.delayMicros 0) s = .next s) ∧
    (open'.length ≠ s.cfg.maxLoopDepth → q + 2 ≤ s.cfg.chainCbBus.length →
      exec .loopBegin s = .next { s with host := { s.host with
        build := ⟨q + 1, m, n, q :: open', false⟩,
        todo := storeDesc (s.cfg.chainCb q) ⟨0x04000008#32, s.cfg.zw, s.cfg.zw, 4#32, 0#32, s.cfg.chainCb (q + 1)⟩ ++
          s.host.todo } })

/-- 44 R286 to R288, R296: LoopEnd(0) stores the continuation in its loop head's NEXTCONBK word, LoopEnd(1) emits
nothing, LoopEnd(k) with 2 ≤ k ≤ L^B builds a Counter with R = the head, X = the continuation and v = k − 1. Each pops
the head.
The clause 2 ≤ k ≤ L^B takes in abstract counts k ≥ 2^28, which 30 R126 puts out of the operand's range; that they are
admitted is the model's choice (log 37, unsafe). So are the builder `host.build`, the task list the STOREs stand on and
the checks of an opcode run on its own (log 14), and the order of the Counter's STOREs, which 44 R271 leaves free
(log 38). -/
def Obligations.LoopEndEmits : Prop :=
  ∀ (s : State) (q m n h k : Nat) (outer : List Nat), s.host.build = ⟨q, m, n, h :: outer, false⟩ →
    q + 1 ≤ s.cfg.chainCbBus.length → m ≤ s.cfg.chainOol →
    exec (.loopEnd 0) s = .next { s with host := { s.host with
      build := ⟨q, m, n, outer, false⟩,
      todo := .instr (.store (s.cfg.chainCb h + 0x14#32) (s.cfg.chainCb q)) :: s.host.todo } } ∧
    (1 ≤ s.cfg.blockLength ^ s.cfg.blocks →
      exec (.loopEnd 1) s = .next { s with host := { s.host with build := ⟨q, m, n, outer, false⟩ } }) ∧
    (2 ≤ k → k ≤ s.cfg.blockLength ^ s.cfg.blocks → n + 1 ≤ s.cfg.maxCounters →
      q + 3 * s.cfg.blocks + 2 ≤ s.cfg.chainCbBus.length →
      m + 2 * s.cfg.blocks * (s.cfg.blockLength + 1) ≤ s.cfg.chainOol →
      exec (.loopEnd k) s = .next { s with host := { s.host with
        build := ⟨q + 3 * s.cfg.blocks + 1, m + 2 * s.cfg.blocks * (s.cfg.blockLength + 1), n + 1, outer, false⟩,
        todo := counterTasks s.cfg q m (s.cfg.chainCb h) (s.cfg.chainCb (q + 3 * s.cfg.blocks + 1)) (k - 1) ++
          s.host.todo } })

/-- 44 R290, R291: RepeatForever emits nothing and is remembered; the tail is a NOP at the last position whose NEXT is 0
without it, the outermost head still open with it, or CH(0) where no loop is open. The builder, the task list and the
opcode's checks on its own are the model's choice (log 14), and so is the ascending order of the tail's words (log 38). -/
def Obligations.RepeatForeverClosesTheGraph : Prop :=
  (∀ s : State, s.host.build.seenRepeat = false → s.host.build.q + 1 ≤ s.cfg.chainCbBus.length →
    s.host.build.m ≤ s.cfg.chainOol →
    exec .repeatForever s = .next { s with host := { s.host with build := { s.host.build with seenRepeat := true } } }) ∧
  ∀ (s : State) (ts : List HostTask) (next : Word), s.host.todo = .tail :: ts →
    ((s.host.build.seenRepeat = false ∧ next = 0#32) ∨
      (s.host.build.seenRepeat = true ∧ s.host.build.openHeads = [] ∧ next = s.cfg.chainCb 0) ∨
      (s.host.build.seenRepeat = true ∧ ∃ inner h, s.host.build.openHeads = inner ++ [h] ∧ next = s.cfg.chainCb h)) →
    s.agentStep .host = .next { s with host := { s.host with
      todo := storeDesc (s.cfg.chainCb s.host.build.q) ⟨0x04000008#32, s.cfg.zw, s.cfg.zw, 4#32, 0#32, next⟩ ++ ts } }

/-- 44 R272; 60 R341: a chain opcode touches nothing but the builder and the host's task list, or is rejected with only
the returned code changed; the rejections by opcode, mustBeLast before the others and ChainTooBig after them. That an
opcode run on its own is checked, at the builder's cursors, as submit's validation checks it, is the model's choice
(log 14). That LoopEnd(k) with 2^28 ≤ k ≤ L^B, out of 30 R126's range, is not rejected is the model's choice (log 37). -/
def Obligations.ChainOpcodesEmitOrReject : Prop :=
  (∀ (i : Instr) (s t : State), i.kind = .chain → exec i s = .next t →
    (∃ b ts, t = { s with host := { s.host with build := b, todo := ts ++ s.host.todo } }) ∨
    ∃ e, t = { s with host := { s.host with ret := .rejected e } }) ∧
  ∀ s : State,
    (∀ i, Instr.kind i = .chain → s.host.build.seenRepeat = true →
      exec i s = .next { s with host := { s.host with ret := .rejected .mustBeLast } }) ∧
    (s.host.build.seenRepeat = false →
      (∀ id, (s.cfg.maxWaves ≤ id ∨ Table.get s.host.waves id = none ∨
          ∃ r, Table.get s.host.waves id = some r ∧ r.deleted = true) →
        exec (.playWave id) s = .next { s with host := { s.host with ret := .rejected .badWaveId } }) ∧
      (∀ k, 2 ^ 28 ≤ k →
        exec (.delayMicros k) s = .next { s with host := { s.host with ret := .rejected .delayTooLong } }) ∧
      (s.host.build.openHeads.length = s.cfg.maxLoopDepth →
        exec .loopBegin s = .next { s with host := { s.host with ret := .rejected .nestingTooDeep } }) ∧
      (∀ k, s.host.build.openHeads = [] →
        exec (.loopEnd k) s = .next { s with host := { s.host with ret := .rejected .badLoop } }) ∧
      (∀ k, s.host.build.openHeads ≠ [] → s.cfg.blockLength ^ s.cfg.blocks < k →
        exec (.loopEnd k) s = .next { s with host := { s.host with ret := .rejected .badLoopCount } }) ∧
      (∀ k, s.host.build.openHeads ≠ [] → k ≤ s.cfg.blockLength ^ s.cfg.blocks → 2 ≤ k →
        (s.cfg.maxCounters < s.host.build.counters + 1 ∨
          s.cfg.chainCbBus.length < s.host.build.q + 3 * s.cfg.blocks + 2 ∨
          s.cfg.chainOol < s.host.build.m + 2 * s.cfg.blocks * (s.cfg.blockLength + 1)) →
        exec (.loopEnd k) s = .next { s with host := { s.host with ret := .rejected .chainTooBig } }) ∧
      (s.host.build.openHeads.length ≠ s.cfg.maxLoopDepth → s.cfg.chainCbBus.length < s.host.build.q + 2 →
        exec .loopBegin s = .next { s with host := { s.host with ret := .rejected .chainTooBig } }) ∧
      (∀ id r, id < s.cfg.maxWaves → Table.get s.host.waves id = some r → r.deleted = false →
        (s.cfg.chainCbBus.length < s.host.build.q + 2 ∨ s.cfg.chainOol < s.host.build.m + 1) →
        exec (.playWave id) s = .next { s with host := { s.host with ret := .rejected .chainTooBig } }) ∧
      (∀ n, 0 < n → n < 2 ^ 28 →
        (s.cfg.chainCbBus.length < s.host.build.q + 2 ∨ s.cfg.chainOol < s.host.build.m) →
        exec (.delayMicros n) s = .next { s with host := { s.host with ret := .rejected .chainTooBig } }))

/-- 44 R298, R299; 30 R135; 00 R11: the STOREs of a Counter, done by the host, leave the working and pristine arrays and
the 3B + 1 descriptors as the rules lay them out (`counterAt`), and every other byte as it was. A rotate or restore of
2^28 words or more, whose LENGTH 4w does not fit bits 29:0, fails the length check of its fetch (30 R122 step 5;
log 36). -/
def Obligations.CounterIsLaidOut : Prop :=
  ∀ (s : State) (q m v : Nat) (R X : Word) (ts : List HostTask), s.cfg.ok = true →
    q + 3 * s.cfg.blocks + 1 ≤ s.cfg.chainCbBus.length →
    m + 2 * s.cfg.blocks * (s.cfg.blockLength + 1) ≤ s.cfg.chainOol →
    s.host.todo = counterTasks s.cfg q m R X v ++ ts →
    let n := s.cfg.blocks * (s.cfg.blockLength + 1)
    (∃ k mem', agentTimes .host k s = .next { s with mem := mem', host := { s.host with todo := ts } } ∧
      counterAt s.cfg mem' q m v R X ∧
      ∀ x, (∀ j, q ≤ j → j ≤ q + 3 * s.cfg.blocks →
          x < (s.cfg.chainCb j).toNat ∨ (s.cfg.chainCb j).toNat + 32 ≤ x) →
        (x < (s.cfg.chainCo m).toNat ∨ (s.cfg.chainCo m).toNat + 8 * n ≤ x) → mem'.byte x = s.mem.byte x) ∧
    ∀ (w : Nat) (src dst next : Word), (w = s.cfg.blockLength ∨ w = n) → 2 ^ 28 ≤ w →
      decodeDesc s.cfg ⟨0x04000118#32, src, dst, BitVec.ofNat 32 (4 * w), 0#32, next⟩ = .error .badLength

/-- 44 R300, R302: from the entry G_d of a digit, ChanS makes the branch write, saves the head, rotates the array left
by one and goes on to the descriptor the head held, with no word outside the array and the rotate's NEXTCONBK changed.
The premise L < 2^28 is the length field's: CounterIsLaidOut says what a longer rotate does. -/
def Obligations.CounterDigitTurnsAndBranches : Prop :=
  ∀ (s : State) (q m d : Nat) (w : Nat → Word) (old : Word), s.cfg.ok = true →
    q + 3 * s.cfg.blocks + 1 ≤ s.cfg.chainCbBus.length →
    m + 2 * s.cfg.blocks * (s.cfg.blockLength + 1) ≤ s.cfg.chainOol → s.cfg.blockLength < 2 ^ 28 →
    d < s.cfg.blocks → s.canStep .S = true → s.chanS.phase = .fetch [] →
    let L := s.cfg.blockLength
    let CH := s.cfg.chainCb
    let W := fun i => s.cfg.chainCo (m + d * (L + 1) + i)
    s.chanS.conblkAd = CH (q + 3 * d) →
    descAt s.mem (CH (q + 3 * d)) ⟨0x04000008#32, W 0, CH (q + 3 * d + 2) + 0x14#32, 4#32, 0#32, CH (q + 3 * d + 1)⟩ →
    descAt s.mem (CH (q + 3 * d + 1)) ⟨0x04000008#32, W 0, W L, 4#32, 0#32, CH (q + 3 * d + 2)⟩ →
    descAt s.mem (CH (q + 3 * d + 2)) ⟨0x04000118#32, W 1, W 0, BitVec.ofNat 32 (4 * L), 0#32, old⟩ →
    (∀ i, i ≤ L → s.mem.word (W i) = some (w i)) → (w 0).toNat % 32 = 0 → w 0 ≠ 0#32 →
    ∃ mem', agentTimes (.chan .S) (2 * L + 10) s = .next { s with
        mem := mem', cur := .S, chanS := { s.chanS with conblkAd := w 0, phase := .fetch [] } } ∧
      (∀ i, i < L - 1 → mem'.word (W i) = some (w (i + 1))) ∧ mem'.word (W (L - 1)) = some (w 0) ∧
      mem'.word (CH (q + 3 * d + 2) + 0x14#32) = some (w 0) ∧
      ∀ x, (x < (W 0).toNat ∨ (W 0).toNat + 4 * (L + 1) ≤ x) →
        (x < (CH (q + 3 * d + 2)).toNat + 0x14 ∨ (CH (q + 3 * d + 2)).toNat + 0x18 ≤ x) → mem'.byte x = s.mem.byte x

/-! ### Host procedures -/

/-- 44 R272, R273: the size of a program that validation admits, and that it fits the chain region. Validation admits
LoopEnd(k) with 2^28 ≤ k ≤ L^B, out of 30 R126's range, by the model's choice (log 37). -/
def Obligations.ValidProgramsHaveTheirSize : Prop :=
  ∀ (c : Config) (waves : List (Nat × WaveRange)) (prog : List ChainItem) (b : Build), c.ok = true →
    validate c waves prog = .ok b →
    b.q + 1 = 1 + (prog.map fun x => chainCbCost c x.opcode).sum ∧
    b.m = (prog.map fun x => chainOolCost c x.opcode).sum ∧
    b.q + 1 ≤ c.chainCbBus.length ∧ b.m ≤ c.chainOol ∧ b.counters ≤ c.maxCounters ∧
    ∀ x ∈ prog, x.opcode ≠ none

/-- 44 R271, R273, R274, R280 to R291, R298, R299; 41 R196: a program that validation admits is built by host steps
alone, into the chain region alone, at the size validated: every opcode's descriptors and OOL words and the tail stand
as the rules give them (`chainAt`); and ChanS is then armed at CH(0). No wave word, latch line or ChanP register
changes. The task list is the model's (log 14), and LoopEnd(k) with 2^28 ≤ k ≤ L^B, out of 30 R126's range, is among
the programs admitted by the model's choice (log 37). -/
def Obligations.SubmitBuildsAndArmsTheChain : Prop :=
  ∀ (s : State) (prog : List ChainItem) (ts : List HostTask) (b : Build), s.cfg.ok = true →
    validate s.cfg s.host.waves prog = .ok b → s.host.todo = .submit prog :: ts →
    ∃ k u, agentTimes .host k s = .next u ∧ chainAt s.cfg s.host.waves prog b u.mem ∧
      u.host.todo = ts ∧ u.host.ret = .done ∧ u.host.build = b ∧
      u.host.waves = s.host.waves ∧ u.host.waveClockReady = true ∧ u.host.carrierRunning = s.host.carrierRunning ∧
      u.chanS = { s.chanS with active := true, conblkAd := s.cfg.chainCb 0, phase := .fetch [] } ∧
      u.chanP = s.chanP ∧ u.pacerP = s.pacerP ∧ u.gpioOut = s.gpioOut ∧ u.refused = s.refused ∧ u.cfg = s.cfg ∧
      u.trace = s.trace ++ (if s.host.waveClockReady then [] else [.waveClock]) ++
        [.reset .S, .arm .S (s.cfg.chainCb 0)] ∧
      ∀ x, (∀ a ∈ s.cfg.chainCbBus, x < a.toNat ∨ a.toNat + 32 ≤ x) →
        (x < s.cfg.chainOolBase.toNat ∨ s.cfg.chainOolBase.toNat + 4 * s.cfg.chainOol ≤ x) →
        u.mem.byte x = s.mem.byte x

/-- 42 R212; 43 R241, R246, R249, R254; 44 R271, R272; 60 R341, R342: a rejected procedure changes nothing but the
returned code (log 10) and its own task; the codes in their order of precedence. Of a chain program the first item that
validation rejects decides, and then a LoopBegin left open without RepeatForever is badLoop. -/
def Obligations.RejectedProceduresChangeNothing : Prop :=
  ∀ (s : State) (ts : List HostTask),
    let rejected := fun e => Host.Outcome.next (φ := Fault) (ρ := Refusal)
      { s with host := { s.host with todo := ts, ret := .rejected e } }
    (∀ n C, s.host.todo = .start n C :: ts →
      if s.host.carrierRunning = true then s.agentStep .host = rejected .carrierAlreadyStarted
      else if n = 0 ∨ C = 0 ∨ s.cfg.carrierSlots = 0 then s.agentStep .host = rejected .badCarrierArgs
      else if s.cfg.carrierCbs < C * (1 + 2 * s.cfg.carrierSlots) ∨ s.cfg.carrierOol < C * (1 + s.cfg.carrierSlots)
        then s.agentStep .host = rejected .carrierTooBig
      else True) ∧
    (∀ pulses mode alloc, s.host.todo = .compile pulses mode alloc :: ts →
      if pulses = [] then s.agentStep .host = rejected .emptyWave
      else if s.cfg.maxPulses < pulses.length then s.agentStep .host = rejected .tooManyPulses
      else if ∃ p ∈ pulses, 2 ^ 28 ≤ p.delay.toNat then s.agentStep .host = rejected .delayTooLong
      else (alloc = .fail .tooManyDescriptors → s.agentStep .host = rejected .tooManyDescriptors) ∧
        (alloc = .fail .tooManyOOLWords → s.agentStep .host = rejected .tooManyOOLWords) ∧
        (alloc = .fail .noSpace → s.agentStep .host = rejected .noSpace)) ∧
    (∀ id mode, s.host.todo = .play id mode :: ts →
      (s.cfg.maxWaves ≤ id ∨ Table.get s.host.waves id = none ∨
        ∃ r, Table.get s.host.waves id = some r ∧ r.deleted = true) → s.agentStep .host = rejected .badWaveId) ∧
    (∀ prog e, s.host.todo = .submit prog :: ts → validate s.cfg s.host.waves prog = .error e →
      s.agentStep .host = rejected e) ∧
    (∀ pre x post b e, s.host.todo = .submit (pre ++ x :: post) :: ts →
      advanceItems s.cfg s.host.waves Build.init pre = .ok b → advanceItem s.cfg s.host.waves b x = .error e →
      s.agentStep .host = rejected e) ∧
    (∀ prog b, s.host.todo = .submit prog :: ts → advanceItems s.cfg s.host.waves Build.init prog = .ok b →
      b.openHeads ≠ [] → b.seenRepeat = false → s.agentStep .host = rejected .badLoop)

/-- 43 R242 to R245, R247: the STOREs of a pulse that others follow, at the counters q, b and t, and of the last pulse's
delay, whose NEXT is the wave's final NEXT. The transfers' order, each OOL word before its descriptor, is the rules';
the ascending order of a descriptor's own words is the model's choice (log 38). A delay's LENGTH is 4d modulo 2^32
(DEDUCED, log 35). -/
def Obligations.PulsesBecomeDescriptors : Prop :=
  ∀ (c : Config) (r : WaveRange) (p : PulseSpec) (q b t : Nat) (last : Word),
    let bit := fun x : Bool => if x then 1 else 0
    let hasSet := decide (p.set ≠ 0#32)
    let hasClr := decide (p.clear ≠ 0#32)
    let q1 := q + bit hasSet
    let b1 := b + bit hasSet
    let q2 := q1 + bit hasClr
    let q3 := q2 + bit p.sampleLevels
    let t3 := t + bit p.sampleLevels
    let q4 := q3 + bit p.sampleTick
    let next := fun q => c.cbBus (r.bottomCB + (q + 1))
    let stores :=
      (if hasSet then HostTask.instr (.store (c.oolBus (r.bottomOOL + b)) p.set) ::
        storeDesc (c.cbBus (r.bottomCB + q)) (descSet c (c.oolBus (r.bottomOOL + b)) 0#32 (next q)) else []) ++
      (if hasClr then HostTask.instr (.store (c.oolBus (r.bottomOOL + b1)) p.clear) ::
        storeDesc (c.cbBus (r.bottomCB + q1)) (descClr c (c.oolBus (r.bottomOOL + b1)) 0#32 (next q1)) else []) ++
      (if p.sampleLevels then HostTask.instr (.store (c.oolBus (r.topOOL - t)) 0#32) ::
        storeDesc (c.cbBus (r.bottomCB + q2)) (descLev c (c.oolBus (r.topOOL - t)) 0#32 (next q2)) else []) ++
      (if p.sampleTick then HostTask.instr (.store (c.oolBus (r.topOOL - t3)) 0#32) ::
        storeDesc (c.cbBus (r.bottomCB + q3)) (descTick c (c.oolBus (r.topOOL - t3)) 0#32 (next q3)) else [])
    let delay := fun next => storeDesc (c.cbBus (r.bottomCB + q4))
      ⟨tiPace c.permapS, c.zw, c.fifoS, BitVec.ofNat 32 (4 * p.delay.toNat), 0#32, next⟩
    (emitOps c r last (pulseOps p) q b t).1 = stores ++ delay last ∧
    ∀ ps, ps ≠ [] → emitOps c r last ((p :: ps).flatMap pulseOps) q b t =
      (stores ++ delay (next q4) ++
          (emitOps c r last (ps.flatMap pulseOps) (q4 + 1) (b1 + bit hasClr) (t3 + bit p.sampleTick)).1,
        (emitOps c r last (ps.flatMap pulseOps) (q4 + 1) (b1 + bit hasClr) (t3 + bit p.sampleTick)).2)

/-- 43 R244, R247, R248: what compile emits is what it estimated, for every pulse list, so the sizing assertion never
fires; the estimate is the sum the rule gives, and every wave of at least one pulse ends in its last delay with the
mode's final NEXT. Delays that compile rejects are said too: their LENGTH is 4d modulo 2^32 (DEDUCED, log 35). The
ascending order of a descriptor's words is the model's choice (log 38). -/
def Obligations.EmissionMatchesTheEstimate : Prop :=
  ∀ (c : Config) (pulses : List PulseSpec) (mode : WaveMode) (r : WaveRange),
    let bit := fun x : Bool => if x then 1 else 0
    (emitWave c pulses mode r).2 = estimate pulses ∧
    (estimate pulses).cbCount = (pulses.map fun p => bit (decide (p.set ≠ 0#32)) + bit (decide (p.clear ≠ 0#32)) +
      bit p.sampleLevels + bit p.sampleTick + 1).sum ∧
    (estimate pulses).oolBottomCount =
      (pulses.map fun p => bit (decide (p.set ≠ 0#32)) + bit (decide (p.clear ≠ 0#32))).sum ∧
    (estimate pulses).oolTopCount = (pulses.map fun p => bit p.sampleLevels + bit p.sampleTick).sum ∧
    (∀ ps p, pulses = ps ++ [p] → ∃ pre, (emitWave c pulses mode r).1 = pre ++
      storeDesc (c.cbBus (r.bottomCB + ((estimate pulses).cbCount - 1)))
        ⟨tiPace c.permapS, c.zw, c.fifoS, BitVec.ofNat 32 (4 * p.delay.toNat), 0#32,
          match mode with | .oneShot => 0#32 | .repeating => c.cbBus (r.bottomCB + 0)⟩) ∧
    ∀ s : State, s.checkSize (emitWave c pulses mode r).2 (estimate pulses) = s

/-- 43 R240, R241, R254; 00 R9: an accepted compile, done by the host alone, makes the STOREs of its emission, writes no
byte outside its range's descriptors and OOL words, registers the range under its id and returns the id. A range that
the registry may not hand back refuses the run (the model's choice, log 21). delete marks an entry deleted and info
answers it, writing no memory; for an id the registry does not hold both answer unknown (log 20). -/
def Obligations.WaveRegistryFollowsTheProcedures : Prop :=
  ∀ (s : State) (ts : List HostTask),
    (∀ pulses mode id r, s.cfg.ok = true → s.host.todo = .compile pulses mode (.ok id r) :: ts → pulses ≠ [] →
      pulses.length ≤ s.cfg.maxPulses → (∀ p ∈ pulses, p.delay.toNat < 2 ^ 28) →
      (r.hasSize (estimate pulses) && s.cfg.admitsRange s.host.waves id r) = true →
      ∃ k m, agentTimes .host k s = .next { s with mem := m, host := { s.host with
          todo := ts, ret := .waveId id, waves := Table.set s.host.waves id r } } ∧
        (∀ a v, .instr (.store a v) ∈ (emitWave s.cfg pulses mode r).1 → m.word a = some v) ∧
        ∀ x, (∀ n, r.cbAt n → x < (s.cfg.cbBus n).toNat ∨ (s.cfg.cbBus n).toNat + 32 ≤ x) →
          (∀ n, r.oolAt n → x < (s.cfg.oolBus n).toNat ∨ (s.cfg.oolBus n).toNat + 4 ≤ x) →
          m.byte x = s.mem.byte x) ∧
    (∀ pulses mode id r, s.host.todo = .compile pulses mode (.ok id r) :: ts →
      compileReject s.cfg pulses = none →
      (r.hasSize (estimate pulses) && s.cfg.admitsRange s.host.waves id r) = false →
      s.agentStep .host = .next { s with refused := true, host := { s.host with todo := ts } }) ∧
    (∀ id r, s.host.todo = .delete id :: ts → Table.get s.host.waves id = some r →
      ∃ w, s.agentStep .host = .next { s with host := { s.host with todo := ts, ret := .done, waves := w } } ∧
        Table.get w id = some { r with deleted := true } ∧ ∀ j, j ≠ id → Table.get w j = Table.get s.host.waves j) ∧
    (∀ id, s.host.todo = .delete id :: ts → Table.get s.host.waves id = none →
      s.agentStep .host = .next { s with host := { s.host with todo := ts, ret := .info none } }) ∧
    ∀ id, s.host.todo = .info id :: ts →
      s.agentStep .host = .next { s with host := { s.host with todo := ts, ret := .info (Table.get s.host.waves id) } }

/-- 43 R249; 41 R190, R191, R193, R196: play of a live wave whose first and final descriptors lie in the arena, done by
the host alone: WAVECLK on first use, RESET(S), the final NEXT for the mode, ARM(S) at the first descriptor. -/
def Obligations.PlayArmsTheWave : Prop :=
  ∀ (s : State) (id : Nat) (mode : WaveMode) (r : WaveRange) (ts : List HostTask), s.cfg.ok = true →
    s.host.todo = .play id mode :: ts → id < s.cfg.maxWaves → Table.get s.host.waves id = some r → r.deleted = false →
    r.bottomCB < s.cfg.pageBus.length * s.cfg.cbsPerPage → r.topCB < s.cfg.pageBus.length * s.cfg.cbsPerPage →
    ∃ m, wordStored s.mem (s.cfg.cbBus r.topCB + 0x14#32)
        (match mode with | .oneShot => 0#32 | .repeating => s.cfg.cbBus r.bottomCB) m ∧
      agentTimes .host 6 s = .next { s with
        mem := m,
        chanS := { s.chanS with active := true, conblkAd := s.cfg.cbBus r.bottomCB, phase := .fetch [] },
        pacerS := if s.host.waveClockReady then s.pacerS
          else { s.pacerS with configured := true, fill := 0, period := 1 },
        trace := s.trace ++ (if s.host.waveClockReady then [] else [Event.waveClock]) ++
          [Event.reset .S, Event.arm .S (s.cfg.cbBus r.bottomCB)],
        host := { s.host with todo := ts, ret := .done, waveClockReady := true } }

/-- 42 R210 to R213; 41 R190, R191, R195: an accepted carrier start, done by the host alone, zeroes the tables, builds
the N descriptors as a cycle, configures PacerP and arms ChanP at cd(0). Every byte outside the N descriptors and the ON
and OFF words is as it was, ZW among them. -/
def Obligations.CarrierStartBuildsItsCycle : Prop :=
  ∀ (s : State) (n C : Nat) (ts : List HostTask), s.cfg.ok = true → s.host.todo = .start n C :: ts →
    s.host.carrierRunning = false → n ≠ 0 → C ≠ 0 →
    let K := s.cfg.carrierSlots
    let N := C * (1 + 2 * K)
    N ≤ s.cfg.carrierCbs → C * (1 + K) ≤ s.cfg.carrierOol →
    let cd := fun q => s.cfg.cbBus (s.cfg.carrierCb0 + q)
    let next := fun q => if q + 1 < N then cd (q + 1) else cd 0
    let ON := fun c => s.cfg.oolBus (s.cfg.carrierOol0 + c)
    let OFF := fun c j => s.cfg.oolBus (s.cfg.carrierOol0 + C + c * K + j)
    ∃ k m, agentTimes .host k s = .next { s with
        mem := m,
        chanP := { s.chanP with active := true, conblkAd := cd 0, phase := .fetch [] },
        pacerP := { s.pacerP with configured := true, fill := 0, period := n },
        trace := s.trace ++ [Event.reset .P, Event.arm .P (cd 0)],
        host := { s.host with todo := ts, ret := .done, carrierRunning := true } } ∧
      (∀ c, c < C → m.word (ON c) = some 0#32 ∧
        descAt m (cd (c * (1 + 2 * K)))
          ⟨0x04000008#32, ON c, s.cfg.gpset0, 4#32, 0#32, next (c * (1 + 2 * K))⟩ ∧
        ∀ j, j < K → m.word (OFF c j) = some 0#32 ∧
          descAt m (cd (c * (1 + 2 * K) + 1 + 2 * j))
            ⟨tiPace s.cfg.permapP, s.cfg.zw, s.cfg.fifoP, 4#32, 0#32, next (c * (1 + 2 * K) + 1 + 2 * j)⟩ ∧
          descAt m (cd (c * (1 + 2 * K) + 2 + 2 * j))
            ⟨0x04000008#32, OFF c j, s.cfg.gpclr0, 4#32, 0#32, next (c * (1 + 2 * K) + 2 + 2 * j)⟩) ∧
      m.word s.cfg.zw = s.mem.word s.cfg.zw ∧
      ∀ x, (∀ q, q < N → x < (cd q).toNat ∨ (cd q).toNat + 32 ≤ x) →
        (∀ c, c < C → (x < (ON c).toNat ∨ (ON c).toNat + 4 ≤ x) ∧
          ∀ j, j < K → x < (OFF c j).toNat ∨ (OFF c j).toNat + 4 ≤ x) → m.byte x = s.mem.byte x

/-- 42 R218; 41 R193, R194: a live table update, done by the host alone, is a LOAD of the word and a STORE of it with
the mask set or cleared, and changes nothing else. -/
def Obligations.TableUpdateRewritesOneWord : Prop :=
  ∀ (s : State) (a mask v : Word) (setBits : Bool) (ts : List HostTask), a.toNat % 4 = 0 → s.cfg.inMem a = true →
    s.mem.word a = some v → s.host.todo = .tableUpdate a mask setBits :: ts →
    ∃ m, wordStored s.mem a (if setBits then v ||| mask else v &&& ~~~mask) m ∧
      agentTimes .host 3 s = .next { s with mem := m, host := { s.host with todo := ts, ret := .word v } }

end
end

