-- ==== Sys2Proof/Laws/State.lean ====
section
/-!
SUPPORT. The value of every field of State after every plain update: one lemma per field per update.
-/
namespace Sys2Proof.Machine

/-! ### State.setMem -/

@[simp] theorem State.setMem_cfg (s : State) (m : Memory) : (s.setMem m).cfg = s.cfg := rfl
@[simp] theorem State.setMem_chanP (s : State) (m : Memory) : (s.setMem m).chanP = s.chanP := rfl
@[simp] theorem State.setMem_chanS (s : State) (m : Memory) : (s.setMem m).chanS = s.chanS := rfl
@[simp] theorem State.setMem_pacerP (s : State) (m : Memory) : (s.setMem m).pacerP = s.pacerP := rfl
@[simp] theorem State.setMem_pacerS (s : State) (m : Memory) : (s.setMem m).pacerS = s.pacerS := rfl
@[simp] theorem State.setMem_gpioOut (s : State) (m : Memory) : (s.setMem m).gpioOut = s.gpioOut := rfl
@[simp] theorem State.setMem_timer (s : State) (m : Memory) : (s.setMem m).timer = s.timer := rfl
@[simp] theorem State.setMem_mem (s : State) (m : Memory) : (s.setMem m).mem = m := rfl
@[simp] theorem State.setMem_host (s : State) (m : Memory) : (s.setMem m).host = s.host := rfl
@[simp] theorem State.setMem_trace (s : State) (m : Memory) : (s.setMem m).trace = s.trace := rfl
@[simp] theorem State.setMem_refused (s : State) (m : Memory) : (s.setMem m).refused = s.refused := rfl
@[simp] theorem State.setMem_sched (s : State) (m : Memory) : (s.setMem m).sched = s.sched := rfl
@[simp] theorem State.setMem_cur (s : State) (m : Memory) : (s.setMem m).cur = s.cur := rfl
@[simp] theorem State.setMem_draws (s : State) (m : Memory) : (s.setMem m).draws = s.draws := rfl
@[simp] theorem State.setMem_chan (s : State) (m : Memory) (x : ChanId) : (s.setMem m).chan x = s.chan x := by cases x <;> rfl
@[simp] theorem State.setMem_pacer (s : State) (m : Memory) (x : ChanId) : (s.setMem m).pacer x = s.pacer x := by cases x <;> rfl

/-! ### State.setGpio -/

@[simp] theorem State.setGpio_cfg (s : State) (v : Word) : (s.setGpio v).cfg = s.cfg := rfl
@[simp] theorem State.setGpio_chanP (s : State) (v : Word) : (s.setGpio v).chanP = s.chanP := rfl
@[simp] theorem State.setGpio_chanS (s : State) (v : Word) : (s.setGpio v).chanS = s.chanS := rfl
@[simp] theorem State.setGpio_pacerP (s : State) (v : Word) : (s.setGpio v).pacerP = s.pacerP := rfl
@[simp] theorem State.setGpio_pacerS (s : State) (v : Word) : (s.setGpio v).pacerS = s.pacerS := rfl
@[simp] theorem State.setGpio_gpioOut (s : State) (v : Word) : (s.setGpio v).gpioOut = v := rfl
@[simp] theorem State.setGpio_timer (s : State) (v : Word) : (s.setGpio v).timer = s.timer := rfl
@[simp] theorem State.setGpio_mem (s : State) (v : Word) : (s.setGpio v).mem = s.mem := rfl
@[simp] theorem State.setGpio_host (s : State) (v : Word) : (s.setGpio v).host = s.host := rfl
@[simp] theorem State.setGpio_trace (s : State) (v : Word) : (s.setGpio v).trace = s.trace := rfl
@[simp] theorem State.setGpio_refused (s : State) (v : Word) : (s.setGpio v).refused = s.refused := rfl
@[simp] theorem State.setGpio_sched (s : State) (v : Word) : (s.setGpio v).sched = s.sched := rfl
@[simp] theorem State.setGpio_cur (s : State) (v : Word) : (s.setGpio v).cur = s.cur := rfl
@[simp] theorem State.setGpio_draws (s : State) (v : Word) : (s.setGpio v).draws = s.draws := rfl
@[simp] theorem State.setGpio_chan (s : State) (v : Word) (x : ChanId) : (s.setGpio v).chan x = s.chan x := by cases x <;> rfl
@[simp] theorem State.setGpio_pacer (s : State) (v : Word) (x : ChanId) : (s.setGpio v).pacer x = s.pacer x := by cases x <;> rfl

/-! ### State.setTimer -/

@[simp] theorem State.setTimer_cfg (s : State) (v : Word) : (s.setTimer v).cfg = s.cfg := rfl
@[simp] theorem State.setTimer_chanP (s : State) (v : Word) : (s.setTimer v).chanP = s.chanP := rfl
@[simp] theorem State.setTimer_chanS (s : State) (v : Word) : (s.setTimer v).chanS = s.chanS := rfl
@[simp] theorem State.setTimer_pacerP (s : State) (v : Word) : (s.setTimer v).pacerP = s.pacerP := rfl
@[simp] theorem State.setTimer_pacerS (s : State) (v : Word) : (s.setTimer v).pacerS = s.pacerS := rfl
@[simp] theorem State.setTimer_gpioOut (s : State) (v : Word) : (s.setTimer v).gpioOut = s.gpioOut := rfl
@[simp] theorem State.setTimer_timer (s : State) (v : Word) : (s.setTimer v).timer = v := rfl
@[simp] theorem State.setTimer_mem (s : State) (v : Word) : (s.setTimer v).mem = s.mem := rfl
@[simp] theorem State.setTimer_host (s : State) (v : Word) : (s.setTimer v).host = s.host := rfl
@[simp] theorem State.setTimer_trace (s : State) (v : Word) : (s.setTimer v).trace = s.trace := rfl
@[simp] theorem State.setTimer_refused (s : State) (v : Word) : (s.setTimer v).refused = s.refused := rfl
@[simp] theorem State.setTimer_sched (s : State) (v : Word) : (s.setTimer v).sched = s.sched := rfl
@[simp] theorem State.setTimer_cur (s : State) (v : Word) : (s.setTimer v).cur = s.cur := rfl
@[simp] theorem State.setTimer_draws (s : State) (v : Word) : (s.setTimer v).draws = s.draws := rfl
@[simp] theorem State.setTimer_chan (s : State) (v : Word) (x : ChanId) : (s.setTimer v).chan x = s.chan x := by cases x <;> rfl
@[simp] theorem State.setTimer_pacer (s : State) (v : Word) (x : ChanId) : (s.setTimer v).pacer x = s.pacer x := by cases x <;> rfl

/-! ### State.log -/

@[simp] theorem State.log_cfg (s : State) (e : Event) : (s.log e).cfg = s.cfg := rfl
@[simp] theorem State.log_chanP (s : State) (e : Event) : (s.log e).chanP = s.chanP := rfl
@[simp] theorem State.log_chanS (s : State) (e : Event) : (s.log e).chanS = s.chanS := rfl
@[simp] theorem State.log_pacerP (s : State) (e : Event) : (s.log e).pacerP = s.pacerP := rfl
@[simp] theorem State.log_pacerS (s : State) (e : Event) : (s.log e).pacerS = s.pacerS := rfl
@[simp] theorem State.log_gpioOut (s : State) (e : Event) : (s.log e).gpioOut = s.gpioOut := rfl
@[simp] theorem State.log_timer (s : State) (e : Event) : (s.log e).timer = s.timer := rfl
@[simp] theorem State.log_mem (s : State) (e : Event) : (s.log e).mem = s.mem := rfl
@[simp] theorem State.log_host (s : State) (e : Event) : (s.log e).host = s.host := rfl
@[simp] theorem State.log_trace (s : State) (e : Event) : (s.log e).trace = s.trace ++ [e] := rfl
@[simp] theorem State.log_refused (s : State) (e : Event) : (s.log e).refused = s.refused := rfl
@[simp] theorem State.log_sched (s : State) (e : Event) : (s.log e).sched = s.sched := rfl
@[simp] theorem State.log_cur (s : State) (e : Event) : (s.log e).cur = s.cur := rfl
@[simp] theorem State.log_draws (s : State) (e : Event) : (s.log e).draws = s.draws := rfl
@[simp] theorem State.log_chan (s : State) (e : Event) (x : ChanId) : (s.log e).chan x = s.chan x := by cases x <;> rfl
@[simp] theorem State.log_pacer (s : State) (e : Event) (x : ChanId) : (s.log e).pacer x = s.pacer x := by cases x <;> rfl

/-! ### State.drawn -/

@[simp] theorem State.drawn_cfg (s : State) : (s.drawn).cfg = s.cfg := rfl
@[simp] theorem State.drawn_chanP (s : State) : (s.drawn).chanP = s.chanP := rfl
@[simp] theorem State.drawn_chanS (s : State) : (s.drawn).chanS = s.chanS := rfl
@[simp] theorem State.drawn_pacerP (s : State) : (s.drawn).pacerP = s.pacerP := rfl
@[simp] theorem State.drawn_pacerS (s : State) : (s.drawn).pacerS = s.pacerS := rfl
@[simp] theorem State.drawn_gpioOut (s : State) : (s.drawn).gpioOut = s.gpioOut := rfl
@[simp] theorem State.drawn_timer (s : State) : (s.drawn).timer = s.timer := rfl
@[simp] theorem State.drawn_mem (s : State) : (s.drawn).mem = s.mem := rfl
@[simp] theorem State.drawn_host (s : State) : (s.drawn).host = s.host := rfl
@[simp] theorem State.drawn_trace (s : State) : (s.drawn).trace = s.trace := rfl
@[simp] theorem State.drawn_refused (s : State) : (s.drawn).refused = s.refused := rfl
@[simp] theorem State.drawn_sched (s : State) : (s.drawn).sched = s.sched := rfl
@[simp] theorem State.drawn_cur (s : State) : (s.drawn).cur = s.cur := rfl
@[simp] theorem State.drawn_draws (s : State) : (s.drawn).draws = s.draws + 1 := rfl
@[simp] theorem State.drawn_chan (s : State) (x : ChanId) : (s.drawn).chan x = s.chan x := by cases x <;> rfl
@[simp] theorem State.drawn_pacer (s : State) (x : ChanId) : (s.drawn).pacer x = s.pacer x := by cases x <;> rfl

/-! ### State.refuse -/

@[simp] theorem State.refuse_cfg (s : State) : (s.refuse).cfg = s.cfg := rfl
@[simp] theorem State.refuse_chanP (s : State) : (s.refuse).chanP = s.chanP := rfl
@[simp] theorem State.refuse_chanS (s : State) : (s.refuse).chanS = s.chanS := rfl
@[simp] theorem State.refuse_pacerP (s : State) : (s.refuse).pacerP = s.pacerP := rfl
@[simp] theorem State.refuse_pacerS (s : State) : (s.refuse).pacerS = s.pacerS := rfl
@[simp] theorem State.refuse_gpioOut (s : State) : (s.refuse).gpioOut = s.gpioOut := rfl
@[simp] theorem State.refuse_timer (s : State) : (s.refuse).timer = s.timer := rfl
@[simp] theorem State.refuse_mem (s : State) : (s.refuse).mem = s.mem := rfl
@[simp] theorem State.refuse_host (s : State) : (s.refuse).host = s.host := rfl
@[simp] theorem State.refuse_trace (s : State) : (s.refuse).trace = s.trace := rfl
@[simp] theorem State.refuse_refused (s : State) : (s.refuse).refused = true := rfl
@[simp] theorem State.refuse_sched (s : State) : (s.refuse).sched = s.sched := rfl
@[simp] theorem State.refuse_cur (s : State) : (s.refuse).cur = s.cur := rfl
@[simp] theorem State.refuse_draws (s : State) : (s.refuse).draws = s.draws := rfl
@[simp] theorem State.refuse_chan (s : State) (x : ChanId) : (s.refuse).chan x = s.chan x := by cases x <;> rfl
@[simp] theorem State.refuse_pacer (s : State) (x : ChanId) : (s.refuse).pacer x = s.pacer x := by cases x <;> rfl

/-! ### State.setCur -/

@[simp] theorem State.setCur_cfg (s : State) (ch : ChanId) : (s.setCur ch).cfg = s.cfg := rfl
@[simp] theorem State.setCur_chanP (s : State) (ch : ChanId) : (s.setCur ch).chanP = s.chanP := rfl
@[simp] theorem State.setCur_chanS (s : State) (ch : ChanId) : (s.setCur ch).chanS = s.chanS := rfl
@[simp] theorem State.setCur_pacerP (s : State) (ch : ChanId) : (s.setCur ch).pacerP = s.pacerP := rfl
@[simp] theorem State.setCur_pacerS (s : State) (ch : ChanId) : (s.setCur ch).pacerS = s.pacerS := rfl
@[simp] theorem State.setCur_gpioOut (s : State) (ch : ChanId) : (s.setCur ch).gpioOut = s.gpioOut := rfl
@[simp] theorem State.setCur_timer (s : State) (ch : ChanId) : (s.setCur ch).timer = s.timer := rfl
@[simp] theorem State.setCur_mem (s : State) (ch : ChanId) : (s.setCur ch).mem = s.mem := rfl
@[simp] theorem State.setCur_host (s : State) (ch : ChanId) : (s.setCur ch).host = s.host := rfl
@[simp] theorem State.setCur_trace (s : State) (ch : ChanId) : (s.setCur ch).trace = s.trace := rfl
@[simp] theorem State.setCur_refused (s : State) (ch : ChanId) : (s.setCur ch).refused = s.refused := rfl
@[simp] theorem State.setCur_sched (s : State) (ch : ChanId) : (s.setCur ch).sched = s.sched := rfl
@[simp] theorem State.setCur_cur (s : State) (ch : ChanId) : (s.setCur ch).cur = ch := rfl
@[simp] theorem State.setCur_draws (s : State) (ch : ChanId) : (s.setCur ch).draws = s.draws := rfl
@[simp] theorem State.setCur_chan (s : State) (ch : ChanId) (x : ChanId) : (s.setCur ch).chan x = s.chan x := by cases x <;> rfl
@[simp] theorem State.setCur_pacer (s : State) (ch : ChanId) (x : ChanId) : (s.setCur ch).pacer x = s.pacer x := by cases x <;> rfl

/-! ### State.setRet -/

@[simp] theorem State.setRet_cfg (s : State) (r : Ret) : (s.setRet r).cfg = s.cfg := rfl
@[simp] theorem State.setRet_chanP (s : State) (r : Ret) : (s.setRet r).chanP = s.chanP := rfl
@[simp] theorem State.setRet_chanS (s : State) (r : Ret) : (s.setRet r).chanS = s.chanS := rfl
@[simp] theorem State.setRet_pacerP (s : State) (r : Ret) : (s.setRet r).pacerP = s.pacerP := rfl
@[simp] theorem State.setRet_pacerS (s : State) (r : Ret) : (s.setRet r).pacerS = s.pacerS := rfl
@[simp] theorem State.setRet_gpioOut (s : State) (r : Ret) : (s.setRet r).gpioOut = s.gpioOut := rfl
@[simp] theorem State.setRet_timer (s : State) (r : Ret) : (s.setRet r).timer = s.timer := rfl
@[simp] theorem State.setRet_mem (s : State) (r : Ret) : (s.setRet r).mem = s.mem := rfl
@[simp] theorem State.setRet_host (s : State) (r : Ret) : (s.setRet r).host = { s.host with ret := r } := rfl
@[simp] theorem State.setRet_trace (s : State) (r : Ret) : (s.setRet r).trace = s.trace := rfl
@[simp] theorem State.setRet_refused (s : State) (r : Ret) : (s.setRet r).refused = s.refused := rfl
@[simp] theorem State.setRet_sched (s : State) (r : Ret) : (s.setRet r).sched = s.sched := rfl
@[simp] theorem State.setRet_cur (s : State) (r : Ret) : (s.setRet r).cur = s.cur := rfl
@[simp] theorem State.setRet_draws (s : State) (r : Ret) : (s.setRet r).draws = s.draws := rfl
@[simp] theorem State.setRet_chan (s : State) (r : Ret) (x : ChanId) : (s.setRet r).chan x = s.chan x := by cases x <;> rfl
@[simp] theorem State.setRet_pacer (s : State) (r : Ret) (x : ChanId) : (s.setRet r).pacer x = s.pacer x := by cases x <;> rfl

/-! ### State.setTodo -/

@[simp] theorem State.setTodo_cfg (s : State) (ts : List HostTask) : (s.setTodo ts).cfg = s.cfg := rfl
@[simp] theorem State.setTodo_chanP (s : State) (ts : List HostTask) : (s.setTodo ts).chanP = s.chanP := rfl
@[simp] theorem State.setTodo_chanS (s : State) (ts : List HostTask) : (s.setTodo ts).chanS = s.chanS := rfl
@[simp] theorem State.setTodo_pacerP (s : State) (ts : List HostTask) : (s.setTodo ts).pacerP = s.pacerP := rfl
@[simp] theorem State.setTodo_pacerS (s : State) (ts : List HostTask) : (s.setTodo ts).pacerS = s.pacerS := rfl
@[simp] theorem State.setTodo_gpioOut (s : State) (ts : List HostTask) : (s.setTodo ts).gpioOut = s.gpioOut := rfl
@[simp] theorem State.setTodo_timer (s : State) (ts : List HostTask) : (s.setTodo ts).timer = s.timer := rfl
@[simp] theorem State.setTodo_mem (s : State) (ts : List HostTask) : (s.setTodo ts).mem = s.mem := rfl
@[simp] theorem State.setTodo_host (s : State) (ts : List HostTask) : (s.setTodo ts).host = { s.host with todo := ts } := rfl
@[simp] theorem State.setTodo_trace (s : State) (ts : List HostTask) : (s.setTodo ts).trace = s.trace := rfl
@[simp] theorem State.setTodo_refused (s : State) (ts : List HostTask) : (s.setTodo ts).refused = s.refused := rfl
@[simp] theorem State.setTodo_sched (s : State) (ts : List HostTask) : (s.setTodo ts).sched = s.sched := rfl
@[simp] theorem State.setTodo_cur (s : State) (ts : List HostTask) : (s.setTodo ts).cur = s.cur := rfl
@[simp] theorem State.setTodo_draws (s : State) (ts : List HostTask) : (s.setTodo ts).draws = s.draws := rfl
@[simp] theorem State.setTodo_chan (s : State) (ts : List HostTask) (x : ChanId) : (s.setTodo ts).chan x = s.chan x := by cases x <;> rfl
@[simp] theorem State.setTodo_pacer (s : State) (ts : List HostTask) (x : ChanId) : (s.setTodo ts).pacer x = s.pacer x := by cases x <;> rfl

/-! ### State.setBuild -/

@[simp] theorem State.setBuild_cfg (s : State) (b : Build) : (s.setBuild b).cfg = s.cfg := rfl
@[simp] theorem State.setBuild_chanP (s : State) (b : Build) : (s.setBuild b).chanP = s.chanP := rfl
@[simp] theorem State.setBuild_chanS (s : State) (b : Build) : (s.setBuild b).chanS = s.chanS := rfl
@[simp] theorem State.setBuild_pacerP (s : State) (b : Build) : (s.setBuild b).pacerP = s.pacerP := rfl
@[simp] theorem State.setBuild_pacerS (s : State) (b : Build) : (s.setBuild b).pacerS = s.pacerS := rfl
@[simp] theorem State.setBuild_gpioOut (s : State) (b : Build) : (s.setBuild b).gpioOut = s.gpioOut := rfl
@[simp] theorem State.setBuild_timer (s : State) (b : Build) : (s.setBuild b).timer = s.timer := rfl
@[simp] theorem State.setBuild_mem (s : State) (b : Build) : (s.setBuild b).mem = s.mem := rfl
@[simp] theorem State.setBuild_host (s : State) (b : Build) : (s.setBuild b).host = { s.host with build := b } := rfl
@[simp] theorem State.setBuild_trace (s : State) (b : Build) : (s.setBuild b).trace = s.trace := rfl
@[simp] theorem State.setBuild_refused (s : State) (b : Build) : (s.setBuild b).refused = s.refused := rfl
@[simp] theorem State.setBuild_sched (s : State) (b : Build) : (s.setBuild b).sched = s.sched := rfl
@[simp] theorem State.setBuild_cur (s : State) (b : Build) : (s.setBuild b).cur = s.cur := rfl
@[simp] theorem State.setBuild_draws (s : State) (b : Build) : (s.setBuild b).draws = s.draws := rfl
@[simp] theorem State.setBuild_chan (s : State) (b : Build) (x : ChanId) : (s.setBuild b).chan x = s.chan x := by cases x <;> rfl
@[simp] theorem State.setBuild_pacer (s : State) (b : Build) (x : ChanId) : (s.setBuild b).pacer x = s.pacer x := by cases x <;> rfl

/-! ### State.setWaves -/

@[simp] theorem State.setWaves_cfg (s : State) (w : List (Nat × WaveRange)) : (s.setWaves w).cfg = s.cfg := rfl
@[simp] theorem State.setWaves_chanP (s : State) (w : List (Nat × WaveRange)) : (s.setWaves w).chanP = s.chanP := rfl
@[simp] theorem State.setWaves_chanS (s : State) (w : List (Nat × WaveRange)) : (s.setWaves w).chanS = s.chanS := rfl
@[simp] theorem State.setWaves_pacerP (s : State) (w : List (Nat × WaveRange)) : (s.setWaves w).pacerP = s.pacerP := rfl
@[simp] theorem State.setWaves_pacerS (s : State) (w : List (Nat × WaveRange)) : (s.setWaves w).pacerS = s.pacerS := rfl
@[simp] theorem State.setWaves_gpioOut (s : State) (w : List (Nat × WaveRange)) : (s.setWaves w).gpioOut = s.gpioOut := rfl
@[simp] theorem State.setWaves_timer (s : State) (w : List (Nat × WaveRange)) : (s.setWaves w).timer = s.timer := rfl
@[simp] theorem State.setWaves_mem (s : State) (w : List (Nat × WaveRange)) : (s.setWaves w).mem = s.mem := rfl
@[simp] theorem State.setWaves_host (s : State) (w : List (Nat × WaveRange)) : (s.setWaves w).host = { s.host with waves := w } := rfl
@[simp] theorem State.setWaves_trace (s : State) (w : List (Nat × WaveRange)) : (s.setWaves w).trace = s.trace := rfl
@[simp] theorem State.setWaves_refused (s : State) (w : List (Nat × WaveRange)) : (s.setWaves w).refused = s.refused := rfl
@[simp] theorem State.setWaves_sched (s : State) (w : List (Nat × WaveRange)) : (s.setWaves w).sched = s.sched := rfl
@[simp] theorem State.setWaves_cur (s : State) (w : List (Nat × WaveRange)) : (s.setWaves w).cur = s.cur := rfl
@[simp] theorem State.setWaves_draws (s : State) (w : List (Nat × WaveRange)) : (s.setWaves w).draws = s.draws := rfl
@[simp] theorem State.setWaves_chan (s : State) (w : List (Nat × WaveRange)) (x : ChanId) : (s.setWaves w).chan x = s.chan x := by cases x <;> rfl
@[simp] theorem State.setWaves_pacer (s : State) (w : List (Nat × WaveRange)) (x : ChanId) : (s.setWaves w).pacer x = s.pacer x := by cases x <;> rfl

/-! ### State.setCarrier -/

@[simp] theorem State.setCarrier_cfg (s : State) (b : Bool) : (s.setCarrier b).cfg = s.cfg := rfl
@[simp] theorem State.setCarrier_chanP (s : State) (b : Bool) : (s.setCarrier b).chanP = s.chanP := rfl
@[simp] theorem State.setCarrier_chanS (s : State) (b : Bool) : (s.setCarrier b).chanS = s.chanS := rfl
@[simp] theorem State.setCarrier_pacerP (s : State) (b : Bool) : (s.setCarrier b).pacerP = s.pacerP := rfl
@[simp] theorem State.setCarrier_pacerS (s : State) (b : Bool) : (s.setCarrier b).pacerS = s.pacerS := rfl
@[simp] theorem State.setCarrier_gpioOut (s : State) (b : Bool) : (s.setCarrier b).gpioOut = s.gpioOut := rfl
@[simp] theorem State.setCarrier_timer (s : State) (b : Bool) : (s.setCarrier b).timer = s.timer := rfl
@[simp] theorem State.setCarrier_mem (s : State) (b : Bool) : (s.setCarrier b).mem = s.mem := rfl
@[simp] theorem State.setCarrier_host (s : State) (b : Bool) : (s.setCarrier b).host = { s.host with carrierRunning := b } := rfl
@[simp] theorem State.setCarrier_trace (s : State) (b : Bool) : (s.setCarrier b).trace = s.trace := rfl
@[simp] theorem State.setCarrier_refused (s : State) (b : Bool) : (s.setCarrier b).refused = s.refused := rfl
@[simp] theorem State.setCarrier_sched (s : State) (b : Bool) : (s.setCarrier b).sched = s.sched := rfl
@[simp] theorem State.setCarrier_cur (s : State) (b : Bool) : (s.setCarrier b).cur = s.cur := rfl
@[simp] theorem State.setCarrier_draws (s : State) (b : Bool) : (s.setCarrier b).draws = s.draws := rfl
@[simp] theorem State.setCarrier_chan (s : State) (b : Bool) (x : ChanId) : (s.setCarrier b).chan x = s.chan x := by cases x <;> rfl
@[simp] theorem State.setCarrier_pacer (s : State) (b : Bool) (x : ChanId) : (s.setCarrier b).pacer x = s.pacer x := by cases x <;> rfl

/-! ### State.setChan -/

@[simp] theorem State.setChan_cfg (s : State) (ch : ChanId) (c : Channel) : (s.setChan ch c).cfg = s.cfg := by cases ch <;> rfl
@[simp] theorem State.setChan_pacerP (s : State) (ch : ChanId) (c : Channel) : (s.setChan ch c).pacerP = s.pacerP := by cases ch <;> rfl
@[simp] theorem State.setChan_pacerS (s : State) (ch : ChanId) (c : Channel) : (s.setChan ch c).pacerS = s.pacerS := by cases ch <;> rfl
@[simp] theorem State.setChan_gpioOut (s : State) (ch : ChanId) (c : Channel) : (s.setChan ch c).gpioOut = s.gpioOut := by cases ch <;> rfl
@[simp] theorem State.setChan_timer (s : State) (ch : ChanId) (c : Channel) : (s.setChan ch c).timer = s.timer := by cases ch <;> rfl
@[simp] theorem State.setChan_mem (s : State) (ch : ChanId) (c : Channel) : (s.setChan ch c).mem = s.mem := by cases ch <;> rfl
@[simp] theorem State.setChan_host (s : State) (ch : ChanId) (c : Channel) : (s.setChan ch c).host = s.host := by cases ch <;> rfl
@[simp] theorem State.setChan_trace (s : State) (ch : ChanId) (c : Channel) : (s.setChan ch c).trace = s.trace := by cases ch <;> rfl
@[simp] theorem State.setChan_refused (s : State) (ch : ChanId) (c : Channel) : (s.setChan ch c).refused = s.refused := by cases ch <;> rfl
@[simp] theorem State.setChan_sched (s : State) (ch : ChanId) (c : Channel) : (s.setChan ch c).sched = s.sched := by cases ch <;> rfl
@[simp] theorem State.setChan_cur (s : State) (ch : ChanId) (c : Channel) : (s.setChan ch c).cur = s.cur := by cases ch <;> rfl
@[simp] theorem State.setChan_draws (s : State) (ch : ChanId) (c : Channel) : (s.setChan ch c).draws = s.draws := by cases ch <;> rfl
@[simp] theorem State.setChan_pacer (s : State) (ch : ChanId) (c : Channel) (x : ChanId) : (s.setChan ch c).pacer x = s.pacer x := by cases ch <;> cases x <;> rfl
@[simp] theorem State.setChan_chan_self (s : State) (ch : ChanId) (c : Channel) : (s.setChan ch c).chan ch = c := by cases ch <;> rfl
theorem State.setChan_chan (s : State) (ch x : ChanId) (c : Channel) : (s.setChan ch c).chan x = if x = ch then c else s.chan x := by cases ch <;> cases x <;> rfl
theorem State.setChan_chan_of_ne (s : State) (ch : ChanId) (x : ChanId) (c : Channel) (h : x ≠ ch) : (s.setChan ch c).chan x = s.chan x := by rw [State.setChan_chan, if_neg h]
theorem State.setChan_chanP (s : State) (ch : ChanId) (c : Channel) : (s.setChan ch c).chanP = if ch = .P then c else s.chanP := by cases ch <;> rfl
theorem State.setChan_chanS (s : State) (ch : ChanId) (c : Channel) : (s.setChan ch c).chanS = if ch = .S then c else s.chanS := by cases ch <;> rfl

/-! ### State.setPacer -/

@[simp] theorem State.setPacer_cfg (s : State) (ch : ChanId) (c : Pacer) : (s.setPacer ch c).cfg = s.cfg := by cases ch <;> rfl
@[simp] theorem State.setPacer_chanP (s : State) (ch : ChanId) (c : Pacer) : (s.setPacer ch c).chanP = s.chanP := by cases ch <;> rfl
@[simp] theorem State.setPacer_chanS (s : State) (ch : ChanId) (c : Pacer) : (s.setPacer ch c).chanS = s.chanS := by cases ch <;> rfl
@[simp] theorem State.setPacer_gpioOut (s : State) (ch : ChanId) (c : Pacer) : (s.setPacer ch c).gpioOut = s.gpioOut := by cases ch <;> rfl
@[simp] theorem State.setPacer_timer (s : State) (ch : ChanId) (c : Pacer) : (s.setPacer ch c).timer = s.timer := by cases ch <;> rfl
@[simp] theorem State.setPacer_mem (s : State) (ch : ChanId) (c : Pacer) : (s.setPacer ch c).mem = s.mem := by cases ch <;> rfl
@[simp] theorem State.setPacer_host (s : State) (ch : ChanId) (c : Pacer) : (s.setPacer ch c).host = s.host := by cases ch <;> rfl
@[simp] theorem State.setPacer_trace (s : State) (ch : ChanId) (c : Pacer) : (s.setPacer ch c).trace = s.trace := by cases ch <;> rfl
@[simp] theorem State.setPacer_refused (s : State) (ch : ChanId) (c : Pacer) : (s.setPacer ch c).refused = s.refused := by cases ch <;> rfl
@[simp] theorem State.setPacer_sched (s : State) (ch : ChanId) (c : Pacer) : (s.setPacer ch c).sched = s.sched := by cases ch <;> rfl
@[simp] theorem State.setPacer_cur (s : State) (ch : ChanId) (c : Pacer) : (s.setPacer ch c).cur = s.cur := by cases ch <;> rfl
@[simp] theorem State.setPacer_draws (s : State) (ch : ChanId) (c : Pacer) : (s.setPacer ch c).draws = s.draws := by cases ch <;> rfl
@[simp] theorem State.setPacer_chan (s : State) (ch : ChanId) (c : Pacer) (x : ChanId) : (s.setPacer ch c).chan x = s.chan x := by cases ch <;> cases x <;> rfl
@[simp] theorem State.setPacer_pacer_self (s : State) (ch : ChanId) (c : Pacer) : (s.setPacer ch c).pacer ch = c := by cases ch <;> rfl
theorem State.setPacer_pacer (s : State) (ch x : ChanId) (c : Pacer) : (s.setPacer ch c).pacer x = if x = ch then c else s.pacer x := by cases ch <;> cases x <;> rfl
theorem State.setPacer_pacer_of_ne (s : State) (ch : ChanId) (x : ChanId) (c : Pacer) (h : x ≠ ch) : (s.setPacer ch c).pacer x = s.pacer x := by rw [State.setPacer_pacer, if_neg h]
theorem State.setPacer_pacerP (s : State) (ch : ChanId) (c : Pacer) : (s.setPacer ch c).pacerP = if ch = .P then c else s.pacerP := by cases ch <;> rfl
theorem State.setPacer_pacerS (s : State) (ch : ChanId) (c : Pacer) : (s.setPacer ch c).pacerS = if ch = .S then c else s.pacerS := by cases ch <;> rfl

/-! ### State.setPhase -/

@[simp] theorem State.setPhase_cfg (s : State) (ch : ChanId) (p : Phase) : (s.setPhase ch p).cfg = s.cfg := by cases ch <;> rfl
@[simp] theorem State.setPhase_pacerP (s : State) (ch : ChanId) (p : Phase) : (s.setPhase ch p).pacerP = s.pacerP := by cases ch <;> rfl
@[simp] theorem State.setPhase_pacerS (s : State) (ch : ChanId) (p : Phase) : (s.setPhase ch p).pacerS = s.pacerS := by cases ch <;> rfl
@[simp] theorem State.setPhase_gpioOut (s : State) (ch : ChanId) (p : Phase) : (s.setPhase ch p).gpioOut = s.gpioOut := by cases ch <;> rfl
@[simp] theorem State.setPhase_timer (s : State) (ch : ChanId) (p : Phase) : (s.setPhase ch p).timer = s.timer := by cases ch <;> rfl
@[simp] theorem State.setPhase_mem (s : State) (ch : ChanId) (p : Phase) : (s.setPhase ch p).mem = s.mem := by cases ch <;> rfl
@[simp] theorem State.setPhase_host (s : State) (ch : ChanId) (p : Phase) : (s.setPhase ch p).host = s.host := by cases ch <;> rfl
@[simp] theorem State.setPhase_trace (s : State) (ch : ChanId) (p : Phase) : (s.setPhase ch p).trace = s.trace := by cases ch <;> rfl
@[simp] theorem State.setPhase_refused (s : State) (ch : ChanId) (p : Phase) : (s.setPhase ch p).refused = s.refused := by cases ch <;> rfl
@[simp] theorem State.setPhase_sched (s : State) (ch : ChanId) (p : Phase) : (s.setPhase ch p).sched = s.sched := by cases ch <;> rfl
@[simp] theorem State.setPhase_cur (s : State) (ch : ChanId) (p : Phase) : (s.setPhase ch p).cur = s.cur := by cases ch <;> rfl
@[simp] theorem State.setPhase_draws (s : State) (ch : ChanId) (p : Phase) : (s.setPhase ch p).draws = s.draws := by cases ch <;> rfl
@[simp] theorem State.setPhase_pacer (s : State) (ch : ChanId) (p : Phase) (x : ChanId) : (s.setPhase ch p).pacer x = s.pacer x := by cases ch <;> cases x <;> rfl
@[simp] theorem State.setPhase_chan_self (s : State) (ch : ChanId) (p : Phase) : (s.setPhase ch p).chan ch = { s.chan ch with phase := p } := by cases ch <;> rfl
theorem State.setPhase_chan_of_ne (s : State) (ch x : ChanId) (p : Phase) (h : x ≠ ch) : (s.setPhase ch p).chan x = s.chan x := State.setChan_chan_of_ne s ch x _ h

@[simp] theorem State.chan_P (s : State) : s.chan .P = s.chanP := rfl
@[simp] theorem State.chan_S (s : State) : s.chan .S = s.chanS := rfl
@[simp] theorem State.pacer_P (s : State) : s.pacer .P = s.pacerP := rfl
@[simp] theorem State.pacer_S (s : State) : s.pacer .S = s.pacerS := rfl

end Sys2Proof.Machine
end

