-- ==== Sys2Proof/Laws/Memory.lean ====
section
/-!
SUPPORT. Sorted tables and memory: read after write, writes leave every other place alone, every operation keeps the
canonical form, and the words of memory.
-/
namespace Sys2Proof

/-- Little-endian assembly takes a word's bytes back to the word (20 R76). -/
theorem wordOfBytes_bytes (v : Word) :
    wordOfBytes (v.extractLsb' 0 8) (v.extractLsb' 8 8) (v.extractLsb' 16 8) (v.extractLsb' 24 8) = v := by
  unfold wordOfBytes
  ext i hi
  simp only [BitVec.getElem_append, BitVec.getElem_extractLsb']
  split_ifs <;> simp [BitVec.getLsbD_eq_getElem (w := 32) (by omega : i < 32)] <;>
    (rw [← BitVec.getLsbD_eq_getElem (by omega)]; congr 1; omega)

/-- A word as the number its bytes make. -/
theorem wordOfBytes_toNat (b0 b1 b2 b3 : Byte) :
    (wordOfBytes b0 b1 b2 b3).toNat = b3.toNat * 2 ^ 24 + b2.toNat * 2 ^ 16 + b1.toNat * 2 ^ 8 + b0.toNat := by
  have e : (wordOfBytes b0 b1 b2 b3).toNat = (b3 ++ b2 ++ b1 ++ b0).toNat := rfl
  rw [e, BitVec.toNat_append, BitVec.toNat_append, BitVec.toNat_append,
    ← Nat.shiftLeft_add_eq_or_of_lt b0.isLt, ← Nat.shiftLeft_add_eq_or_of_lt b1.isLt,
    ← Nat.shiftLeft_add_eq_or_of_lt b2.isLt]
  simp only [Nat.shiftLeft_eq]
  omega

/-- The bytes of an assembled word are the bytes it was made of. -/
theorem bytes_wordOfBytes (b0 b1 b2 b3 : Byte) :
    (wordOfBytes b0 b1 b2 b3).extractLsb' 0 8 = b0 ∧ (wordOfBytes b0 b1 b2 b3).extractLsb' 8 8 = b1 ∧
    (wordOfBytes b0 b1 b2 b3).extractLsb' 16 8 = b2 ∧ (wordOfBytes b0 b1 b2 b3).extractLsb' 24 8 = b3 := by
  have h0 := b0.isLt
  have h1 := b1.isLt
  have h2 := b2.isLt
  have h3 := b3.isLt
  refine ⟨?_, ?_, ?_, ?_⟩ <;> apply BitVec.eq_of_toNat_eq <;>
    rw [BitVec.extractLsb'_toNat, wordOfBytes_toNat, Nat.shiftRight_eq_div_pow] <;> omega

/-- The low two bits are zero exactly for a multiple of 4. -/
theorem extract_low2_eq_zero_iff (a : Word) : a.extractLsb' 0 2 = 0#2 ↔ a.toNat % 4 = 0 := by
  rw [← BitVec.toNat_inj]; simp [BitVec.extractLsb'_toNat]

/-- The low five bits are zero exactly for a multiple of 32. -/
theorem extract_low5_eq_zero_iff (a : Word) : a.extractLsb' 0 5 = 0#5 ↔ a.toNat % 32 = 0 := by
  rw [← BitVec.toNat_inj]; simp [BitVec.extractLsb'_toNat]

namespace Machine

/-! ### Tables -/

section Tables
variable {α : Type}

theorem Table.get_set_self (m : List (Nat × α)) (k : Nat) (v : α) : Table.get (Table.set m k v) k = some v := by
  induction m with
  | nil => simp [Table.set, Table.get]
  | cons e t ih =>
    obtain ⟨k', v'⟩ := e
    unfold Table.set
    split_ifs with h1 h2
    · simp [Table.get]
    · simp [Table.get]
    · simp [Table.get, h2, ih]

theorem Table.get_set_of_ne (m : List (Nat × α)) {k j : Nat} (v : α) (h : j ≠ k) :
    Table.get (Table.set m k v) j = Table.get m j := by
  induction m with
  | nil => simp [Table.set, Table.get, h]
  | cons e t ih =>
    obtain ⟨k', v'⟩ := e
    unfold Table.set
    split_ifs with h1 h2
    · simp [Table.get, h]
    · subst h2; simp [Table.get, h]
    · simp [Table.get, ih]

theorem Table.get_set (m : List (Nat × α)) (k j : Nat) (v : α) :
    Table.get (Table.set m k v) j = if j = k then some v else Table.get m j := by
  by_cases h : j = k
  · subst h; simp [Table.get_set_self]
  · simp [h, Table.get_set_of_ne]

theorem Table.risingAbove_set {b : Nat} (m : List (Nat × α)) (k : Nat) (v : α) (hb : b < k)
    (h : Table.risingAbove b m = true) : Table.risingAbove b (Table.set m k v) = true := by
  induction m generalizing b with
  | nil => simp [Table.set, Table.risingAbove, hb]
  | cons e t ih =>
    obtain ⟨k', v'⟩ := e
    simp only [Table.risingAbove, Bool.and_eq_true, decide_eq_true_eq] at h
    unfold Table.set
    split_ifs with h1 h2
    · simp [Table.risingAbove, hb, h1, h.2]
    · subst h2; simp [Table.risingAbove, hb, h.2]
    · simp [Table.risingAbove, h.1, ih (by omega : k' < k) h.2]

theorem Table.rising_set (m : List (Nat × α)) (k : Nat) (v : α) (h : Table.rising m = true) :
    Table.rising (Table.set m k v) = true := by
  cases m with
  | nil => simp [Table.set, Table.rising, Table.risingAbove]
  | cons e t =>
    obtain ⟨k', v'⟩ := e
    simp only [Table.rising] at h
    unfold Table.set
    split_ifs with h1 h2
    · simp [Table.rising, Table.risingAbove, h1, h]
    · subst h2; simp [Table.rising, h]
    · simp [Table.rising, Table.risingAbove_set t k v (by omega) h]

theorem Table.mem_set {m : List (Nat × α)} {k : Nat} {v : α} {e : Nat × α} (h : e ∈ Table.set m k v) :
    e = (k, v) ∨ e ∈ m := by
  induction m with
  | nil => simpa [Table.set] using h
  | cons e' t ih =>
    obtain ⟨k', v'⟩ := e'
    unfold Table.set at h
    split_ifs at h with h1 h2
    · simpa using h
    · rcases List.mem_cons.1 h with h | h
      · exact .inl h
      · exact .inr (List.mem_cons_of_mem _ h)
    · rcases List.mem_cons.1 h with h | h
      · exact .inr (h ▸ List.mem_cons_self)
      · exact (ih h).imp id (List.mem_cons_of_mem _)

/-- Below the lowest key nothing is listed. -/
theorem Table.get_of_risingAbove {b : Nat} {m : List (Nat × α)} (h : Table.risingAbove b m = true) {k : Nat}
    (hk : k ≤ b) : Table.get m k = none := by
  induction m generalizing b with
  | nil => rfl
  | cons e t ih =>
    obtain ⟨k', v'⟩ := e
    simp only [Table.risingAbove, Bool.and_eq_true, decide_eq_true_eq] at h
    simp [Table.get, show k ≠ k' by omega, ih h.2 (by omega)]

/-- Setting the value that is already there changes nothing of a table in canonical form. -/
theorem Table.set_get_eq {m : List (Nat × α)} (h : Table.rising m = true) {k : Nat} {v : α}
    (hv : Table.get m k = some v) : Table.set m k v = m := by
  induction m with
  | nil => simp [Table.get] at hv
  | cons e t ih =>
    obtain ⟨k', v'⟩ := e
    have ht : Table.rising t = true := by
      cases t with
      | nil => rfl
      | cons e2 t2 =>
        obtain ⟨k2, v2⟩ := e2
        simp only [Table.rising, Table.risingAbove, Bool.and_eq_true] at h ⊢
        exact h.2
    unfold Table.set
    split_ifs with h1 h2
    · rw [Table.get, if_neg (by omega), Table.get_of_risingAbove (b := k') h (by omega)] at hv
      cases hv
    · rw [Table.get, if_pos h2] at hv
      cases hv; rw [h2]
    · rw [Table.get, if_neg h2] at hv
      rw [ih ht hv]

end Tables

/-! ### Memory -/

/-- A write changes its four bytes and no other (20 R80, R81). -/
theorem Memory.byte_writeWord (m : Memory) (a v : Word) (x : Nat) :
    (m.writeWord a v).byte x =
      if x = a.toNat then some (v.extractLsb' 0 8)
      else if x = a.toNat + 1 then some (v.extractLsb' 8 8)
      else if x = a.toNat + 2 then some (v.extractLsb' 16 8)
      else if x = a.toNat + 3 then some (v.extractLsb' 24 8)
      else m.byte x := by
  unfold Memory.byte Memory.writeWord
  simp only [Table.get_set]
  split_ifs <;> first | rfl | omega

/-- Every byte outside the four written reads as before. -/
theorem Memory.byte_writeWord_of_outside (m : Memory) (a v : Word) {x : Nat}
    (h : x < a.toNat ∨ a.toNat + 4 ≤ x) : (m.writeWord a v).byte x = m.byte x := by
  rw [Memory.byte_writeWord]
  split_ifs <;> first | omega | rfl

/-- A read after a write to the same word gives the word written. -/
theorem Memory.word_writeWord_self (m : Memory) (a v : Word) : (m.writeWord a v).word a = some v := by
  unfold Memory.word
  simp [Memory.byte_writeWord, wordOfBytes_bytes]

/-- A write leaves every other word alone. -/
theorem Memory.word_writeWord_of_apart (m : Memory) {a b : Word} (v : Word)
    (h : b.toNat + 4 ≤ a.toNat ∨ a.toNat + 4 ≤ b.toNat) : (m.writeWord a v).word b = m.word b := by
  unfold Memory.word
  rw [Memory.byte_writeWord_of_outside _ _ _ (by omega), Memory.byte_writeWord_of_outside _ _ _ (by omega),
    Memory.byte_writeWord_of_outside _ _ _ (by omega), Memory.byte_writeWord_of_outside _ _ _ (by omega)]

/-- Two word-aligned addresses that differ name words with no byte in common. -/
theorem aligned_apart {a b : Word} (ha : wordAligned a = true) (hb : wordAligned b = true) (h : b ≠ a) :
    b.toNat + 4 ≤ a.toNat ∨ a.toNat + 4 ≤ b.toNat := by
  simp only [wordAligned, decide_eq_true_eq, extract_low2_eq_zero_iff] at ha hb
  have : b.toNat ≠ a.toNat := fun e => h (BitVec.eq_of_toNat_eq e)
  omega

/-- A write to an aligned word, as every other aligned word reads it. -/
theorem Memory.word_writeWord (m : Memory) {a b : Word} (v : Word) (ha : wordAligned a = true)
    (hb : wordAligned b = true) : (m.writeWord a v).word b = if b = a then some v else m.word b := by
  by_cases h : b = a
  · subst h; simp [Memory.word_writeWord_self]
  · rw [if_neg h, Memory.word_writeWord_of_apart _ _ (aligned_apart ha hb h)]

/-- A word read is the word of the four bytes. -/
theorem Memory.word_eq_some_iff (m : Memory) (a v : Word) :
    m.word a = some v ↔ ∃ b0 b1 b2 b3, m.byte a.toNat = some b0 ∧ m.byte (a.toNat + 1) = some b1 ∧
      m.byte (a.toNat + 2) = some b2 ∧ m.byte (a.toNat + 3) = some b3 ∧ wordOfBytes b0 b1 b2 b3 = v := by
  unfold Memory.word
  rcases m.byte a.toNat with _ | b0 <;> rcases m.byte (a.toNat + 1) with _ | b1 <;>
    rcases m.byte (a.toNat + 2) with _ | b2 <;> rcases m.byte (a.toNat + 3) with _ | b3 <;> simp

/-! ### The canonical form -/

theorem Memory.wf_iff (m : Memory) : m.wf = true ↔ Table.rising m = true ∧ ∀ e ∈ m, e.1 < 2 ^ 32 := by
  simp [Memory.wf]

/-- Setting one byte below 2^32 keeps the canonical form. -/
theorem Memory.wf_set {m : Memory} (h : m.wf = true) (k : Nat) (b : Byte) (hk : k < 2 ^ 32) :
    Memory.wf (Table.set m k b) = true := by
  rw [Memory.wf_iff] at h ⊢
  refine ⟨Table.rising_set m k b h.1, fun e he => ?_⟩
  rcases Table.mem_set he with rfl | he
  · exact hk
  · exact h.2 e he

/-- Writing a word at an aligned address keeps the canonical form. -/
theorem Memory.wf_writeWord {m : Memory} (h : m.wf = true) (a v : Word) (ha : wordAligned a = true) :
    (m.writeWord a v).wf = true := by
  simp only [wordAligned, decide_eq_true_eq, extract_low2_eq_zero_iff] at ha
  have := a.isLt
  unfold Memory.writeWord
  exact Memory.wf_set (Memory.wf_set (Memory.wf_set (Memory.wf_set h _ _ (by omega)) _ _ (by omega)) _ _ (by omega))
    _ _ (by omega)

/-- Memory right after reset is in canonical form. -/
theorem Memory.wf_reset : State.reset.mem.wf = true := by decide

/-- Writing back the word that is there changes nothing of a memory in canonical form. -/
theorem Memory.writeWord_same {m : Memory} (h : m.wf = true) {a v : Word} (hv : m.word a = some v) :
    m.writeWord a v = m := by
  obtain ⟨b0, b1, b2, b3, h0, h1, h2, h3, rfl⟩ := (Memory.word_eq_some_iff m a v).1 hv
  obtain ⟨e0, e1, e2, e3⟩ := bytes_wordOfBytes b0 b1 b2 b3
  have hr := ((Memory.wf_iff m).1 h).1
  unfold Memory.writeWord
  rw [e0, e1, e2, e3, Table.set_get_eq hr h0, Table.set_get_eq hr h1, Table.set_get_eq hr h2, Table.set_get_eq hr h3]

end Machine
end Sys2Proof
end

