-- ==== Sys2Proof/Laws/Map.lean ====
section
/-!
SUPPORT. What 00 R9's constraints say of addresses: which are memory, which are aligned, and which words have no byte in
common.
-/
namespace Sys2Proof

/-! ### The address map -/

theorem Config.inMem_iff (c : Config) (a : Word) : c.inMem a = true ↔
    (∃ p ∈ c.pageBus, p.toNat ≤ a.toNat ∧ a.toNat < p.toNat + 4096) ∨
    (∃ b ∈ c.chainCbBus, b.toNat ≤ a.toNat ∧ a.toNat < b.toNat + 32) ∨
    (c.chainOolBase.toNat ≤ a.toNat ∧ a.toNat < c.chainOolBase.toNat + 4 * c.chainOol) := by
  simp only [Config.inMem, Config.inArena, Config.inChainSlot, Config.inChainOol, Bool.or_eq_true, List.any_eq_true,
    Bool.and_eq_true, decide_eq_true_eq, or_assoc]
  simp only [pageSize]

theorem Config.fetchable_iff (c : Config) (a : Word) : c.fetchable a = true ↔
    (∃ p ∈ c.pageBus, p.toNat ≤ a.toNat ∧ a.toNat + 32 ≤ p.toNat + 4096) ∨ a ∈ c.chainCbBus := by
  simp only [Config.fetchable, Bool.or_eq_true, List.any_eq_true, Bool.and_eq_true, decide_eq_true_eq, exists_eq_right]
  simp only [pageSize]

theorem allDistinct_iff {α : Type} [DecidableEq α] (l : List α) : allDistinct l = true ↔ l.Nodup := by
  induction l with
  | nil => simp [allDistinct]
  | cons x xs ih =>
    simp only [allDistinct, Bool.and_eq_true, List.all_eq_true, decide_eq_true_eq, ih, List.nodup_cons, ne_eq,
      and_congr_left_iff]
    exact fun _ => ⟨fun h hx => h x hx rfl, fun h y hy e => h (e ▸ hy)⟩

theorem apart_iff (a la b lb : Nat) : apart a la b lb = true ↔ a + la ≤ b ∨ b + lb ≤ a := by simp [apart]

/-- 00 R9's constraints, one by one. -/
structure Config.Meets (c : Config) : Prop where
  pages : c.pageBus ≠ []
  cbsPos : 1 ≤ c.cbsPerPage
  oolPos : 1 ≤ c.oolPerPage
  fits : 32 * c.cbsPerPage + 4 * c.oolPerPage ≤ 4096
  page : ∀ p ∈ c.pageBus, p.toNat % 4096 = 0 ∧ p ≠ 0#32
  pagesNodup : c.pageBus.Nodup
  slots : c.chainCbBus ≠ []
  chainOolPos : 1 ≤ c.chainOol
  slot : ∀ b ∈ c.chainCbBus, b.toNat % 32 = 0 ∧ b ≠ 0#32
  slotsNodup : c.chainCbBus.Nodup
  oolAligned : c.chainOolBase.toNat % 4 = 0
  oolNonzero : c.chainOolBase ≠ 0#32
  oolEnd : c.chainOolBase.toNat + 4 * c.chainOol ≤ 2 ^ 32
  slotOol : ∀ b ∈ c.chainCbBus,
    b.toNat + 32 ≤ c.chainOolBase.toNat ∨ c.chainOolBase.toNat + 4 * c.chainOol ≤ b.toNat
  slotPage : ∀ b ∈ c.chainCbBus, ∀ p ∈ c.pageBus, b.toNat + 32 ≤ p.toNat ∨ p.toNat + 4096 ≤ b.toNat
  pageOol : ∀ p ∈ c.pageBus,
    p.toNat + 4096 ≤ c.chainOolBase.toNat ∨ c.chainOolBase.toNat + 4 * c.chainOol ≤ p.toNat
  peripheral : ∀ a ∈ c.peripherals, a.toNat % 4 = 0 ∧ a ≠ 0#32 ∧ c.inMem a = false
  peripheralsNodup : c.peripherals.Nodup
  permaps : c.permapP ≠ c.permapS
  radix : 2 ≤ c.blockLength
  digits : 1 ≤ c.blocks
  depth : 1 ≤ c.maxLoopDepth
  pulses : 1 ≤ c.maxPulses
  waves : 1 ≤ c.maxWaves
  wavesMax : c.maxWaves ≤ 65536
  slotsPos : 1 ≤ c.carrierSlots
  depthP : 1 ≤ c.pacerDepthP
  depthS : 1 ≤ c.pacerDepthS
  channels : c.chP ≠ c.chS
  carrierCb : c.carrierCb0 + c.carrierCbs ≤ c.pageBus.length * c.cbsPerPage
  carrierOolFits : c.carrierOol0 + c.carrierOol ≤ c.pageBus.length * c.oolPerPage
  zeroWord : ∃ m, m < c.pageBus.length * c.oolPerPage ∧ c.zw = c.oolBus m ∧
    (m < c.carrierOol0 ∨ c.carrierOol0 + c.carrierOol ≤ m)

theorem Config.meets {c : Config} (h : c.ok = true) : c.Meets := by
  simp only [Config.ok, Config.arenaOk, Config.chainOk, Config.peripheralsOk, Config.limitsOk, Config.reservedOk,
    Bool.and_eq_true, Bool.or_eq_true, decide_eq_true_eq, List.all_eq_true, List.any_eq_true, allDistinct_iff, apart_iff,
    List.mem_range, Bool.not_eq_true'] at h
  simp only [pageSize] at h
  obtain ⟨⟨⟨⟨a, b⟩, p⟩, l⟩, r⟩ := h
  obtain ⟨⟨⟨⟨⟨a1, a2⟩, a3⟩, a4⟩, a5⟩, a6⟩ := a
  obtain ⟨⟨⟨⟨⟨⟨⟨⟨b1, b2⟩, b3⟩, b4⟩, b5⟩, b6⟩, b7⟩, b8⟩, b9⟩ := b
  obtain ⟨⟨p1, p2⟩, p3⟩ := p
  obtain ⟨⟨⟨⟨⟨⟨⟨⟨⟨l1, l2⟩, l3⟩, l4⟩, l5⟩, l6⟩, l7⟩, l8⟩, l9⟩, l10⟩ := l
  obtain ⟨⟨r1, r2⟩, m, r3, r4, r5⟩ := r
  exact {
    pages := a1, cbsPos := a2, oolPos := a3, fits := a4, page := a5, pagesNodup := a6, slots := b1, chainOolPos := b2
    slot := b3, slotsNodup := b4, oolAligned := b5, oolNonzero := b6, oolEnd := b7, slotOol := fun x hx => (b8 x hx).1
    slotPage := fun x hx => (b8 x hx).2, pageOol := b9
    peripheral := fun x hx => ⟨(p1 x hx).1.1, (p1 x hx).1.2, (p1 x hx).2⟩, peripheralsNodup := p2, permaps := p3
    radix := l1, digits := l2, depth := l3, pulses := l4, waves := l5, wavesMax := l6, slotsPos := l7, depthP := l8
    depthS := l9, channels := l10, carrierCb := r1, carrierOolFits := r2, zeroWord := ⟨m, r3, r4, r5⟩ }

section
variable {c : Config} (h : c.Meets)
include h

/-- The four bytes of a memory word lie in memory together. -/
theorem Config.Meets.inMem_of_word {a b : Word} (ha : c.inMem a = true) (hb : b.toNat / 4 = a.toNat / 4) :
    c.inMem b = true := by
  rw [Config.inMem_iff] at ha ⊢
  rcases ha with ⟨p, hp, h1, h2⟩ | ⟨p, hp, h1, h2⟩ | ⟨h1, h2⟩
  · have := (h.page p hp).1
    exact .inl ⟨p, hp, by omega, by omega⟩
  · have := (h.slot p hp).1
    exact .inr (.inl ⟨p, hp, by omega, by omega⟩)
  · have := h.oolAligned
    exact .inr (.inr ⟨by omega, by omega⟩)

theorem Config.Meets.page_pos {p : Word} (hp : p ∈ c.pageBus) : 4096 ≤ p.toNat ∧ p.toNat + 4096 ≤ 2 ^ 32 := by
  have ⟨h1, h2⟩ := h.page p hp
  have : p.toNat ≠ 0 := fun e => h2 (BitVec.eq_of_toNat_eq e)
  have := p.isLt
  omega

theorem Config.Meets.slot_pos {p : Word} (hp : p ∈ c.chainCbBus) : 32 ≤ p.toNat ∧ p.toNat + 32 ≤ 2 ^ 32 := by
  have ⟨h1, h2⟩ := h.slot p hp
  have : p.toNat ≠ 0 := fun e => h2 (BitVec.eq_of_toNat_eq e)
  have := p.isLt
  omega

theorem Config.Meets.inMem_zero : c.inMem 0#32 = false := by
  rw [← Bool.not_eq_true, Config.inMem_iff]
  rintro (⟨p, hp, h1, -⟩ | ⟨p, hp, h1, -⟩ | ⟨h1, -⟩)
  · have := (h.page_pos hp).1; simp at h1; omega
  · have := (h.slot_pos hp).1; simp at h1; omega
  · exact h.oolNonzero (BitVec.eq_of_toNat_eq (by simpa using h1))

/-- The 32 bytes of a descriptor address lie in memory and do not wrap. -/
theorem Config.Meets.fetchable_words {a : Word} (hf : c.fetchable a = true) :
    a.toNat + 32 ≤ 2 ^ 32 ∧ a ≠ 0#32 ∧ ∀ x : Word, a.toNat ≤ x.toNat → x.toNat < a.toNat + 32 → c.inMem x = true := by
  rw [Config.fetchable_iff] at hf
  rcases hf with ⟨p, hp, h1, h2⟩ | hf
  · have := h.page_pos hp
    refine ⟨by omega, fun e => ?_, fun x h3 h4 => ?_⟩
    · subst e; simp at h1; omega
    · rw [Config.inMem_iff]; exact .inl ⟨p, hp, by omega, by omega⟩
  · have := h.slot_pos hf
    refine ⟨by omega, (h.slot a hf).2, fun x h3 h4 => ?_⟩
    rw [Config.inMem_iff]; exact .inr (.inl ⟨a, hf, by omega, by omega⟩)

/-! ### Regions of the peripheral registers -/

omit h in
theorem Config.region_memory {a : Word} (ha : c.inMem a = true) : c.region a = .memory := by
  simp [Config.region, ha]

theorem Config.Meets.notMem {a : Word} (ha : a ∈ c.peripherals) : c.inMem a = false := (h.peripheral a ha).2.2

theorem Config.Meets.region_gpset : c.region c.gpset0 = .gpset := by
  simp [Config.region, h.notMem (a := c.gpset0) (by simp [Config.peripherals])]

theorem Config.Meets.distinct : c.gpset0 ≠ c.gpclr0 ∧ c.gpset0 ≠ c.gplev0 ∧ c.gpset0 ≠ c.timerLo ∧ c.gpset0 ≠ c.fifoP ∧
    c.gpset0 ≠ c.fifoS ∧ c.gpclr0 ≠ c.gplev0 ∧ c.gpclr0 ≠ c.timerLo ∧ c.gpclr0 ≠ c.fifoP ∧ c.gpclr0 ≠ c.fifoS ∧
    c.gplev0 ≠ c.timerLo ∧ c.gplev0 ≠ c.fifoP ∧ c.gplev0 ≠ c.fifoS ∧ c.timerLo ≠ c.fifoP ∧ c.timerLo ≠ c.fifoS ∧
    c.fifoP ≠ c.fifoS := by
  have := h.peripheralsNodup
  simp only [Config.peripherals, List.nodup_cons, List.mem_cons, List.not_mem_nil, not_or, or_false] at this
  tauto

theorem Config.Meets.region_gpclr : c.region c.gpclr0 = .gpclr := by
  have hd := h.distinct
  simp [Config.region, h.notMem (a := c.gpclr0) (by simp [Config.peripherals]), hd.1.symm]

theorem Config.Meets.region_fifo (pc : ChanId) : c.region (match pc with | .P => c.fifoP | .S => c.fifoS) = .fifo pc := by
  obtain ⟨d1, d2, d3, d4, d5, d6, d7, d8, d9, d10, d11, d12, d13, d14, d15⟩ := h.distinct
  cases pc
  · simp [Config.region, h.notMem (a := c.fifoP) (by simp [Config.peripherals]), d4.symm, d8.symm]
  · simp [Config.region, h.notMem (a := c.fifoS) (by simp [Config.peripherals]), d5.symm, d9.symm, d15.symm]

theorem Config.Meets.region_gplev : c.region c.gplev0 = .gplev := by
  obtain ⟨d1, d2, d3, d4, d5, d6, d7, d8, d9, d10, d11, d12, d13, d14, d15⟩ := h.distinct
  simp [Config.region, h.notMem (a := c.gplev0) (by simp [Config.peripherals]), d2.symm, d6.symm, d11, d12]

theorem Config.Meets.region_timer : c.region c.timerLo = .timer := by
  obtain ⟨d1, d2, d3, d4, d5, d6, d7, d8, d9, d10, d11, d12, d13, d14, d15⟩ := h.distinct
  simp [Config.region, h.notMem (a := c.timerLo) (by simp [Config.peripherals]), d3.symm, d7.symm, d10.symm, d13, d14]

theorem Config.Meets.wordAligned_peripheral {a : Word} (ha : a ∈ c.peripherals) : Machine.wordAligned a = true := by
  simp [Machine.wordAligned, extract_low2_eq_zero_iff, (h.peripheral a ha).1]

/-! ### Arena positions (20 R73) and chain positions (44 R270) -/

omit h in
theorem Config.page_mem {p : Nat} (hp : p < c.pageBus.length) : c.page p ∈ c.pageBus := by
  simp [Config.page, hp]

omit h in
theorem Config.div_lt {n k : Nat} (hk : 1 ≤ k) (hn : n < c.pageBus.length * k) : n / k < c.pageBus.length :=
  (Nat.div_lt_iff_lt_mul (by omega)).2 hn

theorem Config.Meets.cbBus_toNat {n : Nat} (hn : n < c.pageBus.length * c.cbsPerPage) :
    (c.cbBus n).toNat = (c.page (n / c.cbsPerPage)).toNat + 32 * (n % c.cbsPerPage) := by
  have hp := h.page_pos (Config.page_mem (Config.div_lt h.cbsPos hn))
  have hm := Nat.mod_lt n (show c.cbsPerPage > 0 from h.cbsPos)
  have := h.fits
  unfold Config.cbBus
  rw [BitVec.toNat_add, BitVec.toNat_ofNat, Nat.mod_eq_of_lt (by omega : 32 * (n % c.cbsPerPage) < 2 ^ 32),
    Nat.mod_eq_of_lt (by omega)]

theorem Config.Meets.oolBus_toNat {m : Nat} (hm : m < c.pageBus.length * c.oolPerPage) :
    (c.oolBus m).toNat = (c.page (m / c.oolPerPage)).toNat + 32 * c.cbsPerPage + 4 * (m % c.oolPerPage) := by
  have hp := h.page_pos (Config.page_mem (Config.div_lt h.oolPos hm))
  have hk := Nat.mod_lt m (show c.oolPerPage > 0 from h.oolPos)
  have := h.fits
  unfold Config.oolBus
  rw [BitVec.toNat_add, BitVec.toNat_ofNat,
    Nat.mod_eq_of_lt (by omega : 32 * c.cbsPerPage + 4 * (m % c.oolPerPage) < 2 ^ 32), Nat.mod_eq_of_lt (by omega),
    Nat.add_assoc]

/-- Descriptor positions are descriptor addresses. -/
theorem Config.Meets.cbBus_fetchable {n : Nat} (hn : n < c.pageBus.length * c.cbsPerPage) :
    c.fetchable (c.cbBus n) = true ∧ (c.cbBus n).toNat % 32 = 0 := by
  have hm := Config.page_mem (Config.div_lt h.cbsPos hn)
  have hp := h.page _ hm
  have hl := Nat.mod_lt n (show c.cbsPerPage > 0 from h.cbsPos)
  have e := h.cbBus_toNat hn
  have := h.fits
  refine ⟨(c.fetchable_iff _).2 (.inl ⟨_, hm, by omega, by omega⟩), by omega⟩

theorem Config.Meets.oolBus_mem {m : Nat} (hm : m < c.pageBus.length * c.oolPerPage) :
    c.inMem (c.oolBus m) = true ∧ (c.oolBus m).toNat % 4 = 0 := by
  have hm' := Config.page_mem (Config.div_lt h.oolPos hm)
  have hp := h.page _ hm'
  have hl := Nat.mod_lt m (show c.oolPerPage > 0 from h.oolPos)
  have e := h.oolBus_toNat hm
  have := h.fits
  refine ⟨(c.inMem_iff _).2 (.inl ⟨_, hm', by omega, by omega⟩), by omega⟩

theorem Config.Meets.zw_mem : c.inMem c.zw = true ∧ c.zw.toNat % 4 = 0 := by
  obtain ⟨m, hm, e, -⟩ := h.zeroWord
  rw [e]; exact h.oolBus_mem hm

omit h in
theorem Config.chainCb_mem {i : Nat} (hi : i < c.chainCbBus.length) : c.chainCb i ∈ c.chainCbBus := by
  simp [Config.chainCb, hi]

theorem Config.Meets.chainCb_fetchable {i : Nat} (hi : i < c.chainCbBus.length) :
    c.fetchable (c.chainCb i) = true ∧ (c.chainCb i).toNat % 32 = 0 :=
  ⟨(c.fetchable_iff _).2 (.inr (Config.chainCb_mem hi)), (h.slot _ (Config.chainCb_mem hi)).1⟩

theorem Config.Meets.chainCo_toNat {m : Nat} (hm : m < c.chainOol) :
    (c.chainCo m).toNat = c.chainOolBase.toNat + 4 * m := by
  have := h.oolEnd
  unfold Config.chainCo
  rw [BitVec.toNat_add, BitVec.toNat_ofNat, Nat.mod_eq_of_lt (by omega : 4 * m < 2 ^ 32), Nat.mod_eq_of_lt (by omega)]

theorem Config.Meets.chainCo_mem {m : Nat} (hm : m < c.chainOol) :
    c.inMem (c.chainCo m) = true ∧ (c.chainCo m).toNat % 4 = 0 := by
  have e := h.chainCo_toNat hm
  have := h.oolAligned
  exact ⟨(c.inMem_iff _).2 (.inr (.inr ⟨by omega, by omega⟩)), by omega⟩

/-! ### Words with no byte in common -/

/-- Two pages of the arena are the same page or apart. -/
theorem Config.Meets.pages_apart {p q : Word} (hp : p ∈ c.pageBus) (hq : q ∈ c.pageBus) :
    p = q ∨ p.toNat + 4096 ≤ q.toNat ∨ q.toNat + 4096 ≤ p.toNat := by
  have h1 := (h.page p hp).1
  have h2 := (h.page q hq).1
  by_cases e : p.toNat = q.toNat
  · exact .inl (BitVec.eq_of_toNat_eq e)
  · omega

theorem Config.Meets.page_inj {i j : Nat} (hi : i < c.pageBus.length) (hj : j < c.pageBus.length)
    (e : c.page i = c.page j) : i = j := by
  simp only [Config.page, hi, hj, List.getElem?_eq_getElem, Option.getD_some] at e
  exact (List.Nodup.getElem_inj_iff h.pagesNodup).1 e

/-- Two descriptor positions of the arena are apart. -/
theorem Config.Meets.cbBus_apart {n k : Nat} (hn : n < c.pageBus.length * c.cbsPerPage)
    (hk : k < c.pageBus.length * c.cbsPerPage) (hne : n ≠ k) :
    (c.cbBus n).toNat + 32 ≤ (c.cbBus k).toNat ∨ (c.cbBus k).toNat + 32 ≤ (c.cbBus n).toNat := by
  have d1 := Config.div_lt h.cbsPos hn
  have d2 := Config.div_lt h.cbsPos hk
  rw [h.cbBus_toNat hn, h.cbBus_toNat hk]
  have m1 := Nat.mod_lt n (show c.cbsPerPage > 0 from h.cbsPos)
  have m2 := Nat.mod_lt k (show c.cbsPerPage > 0 from h.cbsPos)
  have := h.fits
  rcases h.pages_apart (Config.page_mem d1) (Config.page_mem d2) with e | e
  · have e' := h.page_inj d1 d2 e
    rw [e]
    have : n % c.cbsPerPage ≠ k % c.cbsPerPage := fun e2 => hne (by
      rw [← Nat.div_add_mod n c.cbsPerPage, ← Nat.div_add_mod k c.cbsPerPage, e', e2])
    omega
  · omega

/-- Two OOL positions of the arena are apart. -/
theorem Config.Meets.oolBus_apart {n k : Nat} (hn : n < c.pageBus.length * c.oolPerPage)
    (hk : k < c.pageBus.length * c.oolPerPage) (hne : n ≠ k) :
    (c.oolBus n).toNat + 4 ≤ (c.oolBus k).toNat ∨ (c.oolBus k).toNat + 4 ≤ (c.oolBus n).toNat := by
  have d1 := Config.div_lt h.oolPos hn
  have d2 := Config.div_lt h.oolPos hk
  rw [h.oolBus_toNat hn, h.oolBus_toNat hk]
  have m1 := Nat.mod_lt n (show c.oolPerPage > 0 from h.oolPos)
  have m2 := Nat.mod_lt k (show c.oolPerPage > 0 from h.oolPos)
  have := h.fits
  rcases h.pages_apart (Config.page_mem d1) (Config.page_mem d2) with e | e
  · have e' := h.page_inj d1 d2 e
    rw [e]
    have : n % c.oolPerPage ≠ k % c.oolPerPage := fun e2 => hne (by
      rw [← Nat.div_add_mod n c.oolPerPage, ← Nat.div_add_mod k c.oolPerPage, e', e2])
    omega
  · omega

/-- A descriptor position and an OOL position of the arena are apart. -/
theorem Config.Meets.cbBus_oolBus_apart {n k : Nat} (hn : n < c.pageBus.length * c.cbsPerPage)
    (hk : k < c.pageBus.length * c.oolPerPage) :
    (c.cbBus n).toNat + 32 ≤ (c.oolBus k).toNat ∨ (c.oolBus k).toNat + 4 ≤ (c.cbBus n).toNat := by
  have d1 := Config.div_lt h.cbsPos hn
  have d2 := Config.div_lt h.oolPos hk
  rw [h.cbBus_toNat hn, h.oolBus_toNat hk]
  have m1 := Nat.mod_lt n (show c.cbsPerPage > 0 from h.cbsPos)
  have m2 := Nat.mod_lt k (show c.oolPerPage > 0 from h.oolPos)
  have := h.fits
  rcases h.pages_apart (Config.page_mem d1) (Config.page_mem d2) with e | e
  · rw [e]; omega
  · omega

/-- Two chain slots are apart. -/
theorem Config.Meets.chainCb_apart {i j : Nat} (hi : i < c.chainCbBus.length) (hj : j < c.chainCbBus.length)
    (hne : i ≠ j) :
    (c.chainCb i).toNat + 32 ≤ (c.chainCb j).toNat ∨ (c.chainCb j).toNat + 32 ≤ (c.chainCb i).toNat := by
  have h1 := (h.slot _ (Config.chainCb_mem hi)).1
  have h2 := (h.slot _ (Config.chainCb_mem hj)).1
  have : (c.chainCb i).toNat ≠ (c.chainCb j).toNat := fun e => hne (by
    have e := BitVec.eq_of_toNat_eq e
    simp only [Config.chainCb, hi, hj, List.getElem?_eq_getElem, Option.getD_some] at e
    exact (List.Nodup.getElem_inj_iff h.slotsNodup).1 e)
  omega

/-- A chain slot and a chain OOL word are apart. -/
theorem Config.Meets.chainCb_chainCo_apart {i m : Nat} (hi : i < c.chainCbBus.length) (hm : m < c.chainOol) :
    (c.chainCb i).toNat + 32 ≤ (c.chainCo m).toNat ∨ (c.chainCo m).toNat + 4 ≤ (c.chainCb i).toNat := by
  have h1 := h.slotOol _ (Config.chainCb_mem hi)
  rw [h.chainCo_toNat hm]
  omega

end

end Sys2Proof
end

