-- ==== Sys2Proof/Laws/Decode.lean ====
section
/-!
SUPPORT. What decoding says of the words: an admitted TI is the word of its fields, a length without reserved bits is the
word of its beat count, and a decoded instruction's descriptor is the descriptor decoded.
-/
namespace Sys2Proof

/-- A bit of a word as arithmetic. -/
theorem getLsbD_eq_decide {w : Nat} (x : BitVec w) (k : Nat) : x.getLsbD k = decide (x.toNat / 2 ^ k % 2 = 1) := by
  rw [BitVec.getLsbD, Nat.testBit_eq_decide_div_mod_eq]

/-- A field of a word as arithmetic. -/
theorem extract_toNat {w : Nat} (x : BitVec w) (lo len : Nat) :
    (x.extractLsb' lo len).toNat = x.toNat / 2 ^ lo % 2 ^ len := by
  rw [BitVec.extractLsb'_toNat, Nat.shiftRight_eq_div_pow]

/-- TXFR_LEN of n words, as a number. -/
theorem lenWord_toNat (n : BitVec 28) : (lenWord n).toNat = 4 * n.toNat := by
  have e : (lenWord n).toNat = (0#2 ++ n ++ 0#2).toNat := rfl
  rw [e, BitVec.toNat_append, BitVec.toNat_append, ← Nat.shiftLeft_add_eq_or_of_lt (0#2).isLt]
  simp [Nat.shiftLeft_eq]; omega

/-- A TXFR_LEN that passes 30 R122 step 5 is the word of its beat count. -/
theorem lenWord_of_checked {len : Word} (h1 : len.extractLsb' 30 2 = 0#2) (h2 : len.extractLsb' 0 2 = 0#2) :
    lenWord (len.extractLsb' 2 28) = len := by
  have e1 := congrArg BitVec.toNat h1
  have e2 := congrArg BitVec.toNat h2
  have := len.isLt
  simp only [extract_toNat] at e1 e2
  apply BitVec.eq_of_toNat_eq
  rw [lenWord_toNat, extract_toNat]
  simp at e1 e2
  omega

/-- The word of TI fields, as a number. -/
theorem XferTI.word_toNat (f : XferTI) :
    f.word.toNat = f.noWide.toNat * 2 ^ 26 + f.waits.toNat * 2 ^ 21 + f.permap.toNat * 2 ^ 16 +
      f.burst.toNat * 2 ^ 12 + f.srcInc.toNat * 2 ^ 8 + f.destDreq.toNat * 2 ^ 6 + f.destInc.toNat * 2 ^ 4 + 8 := by
  have e : f.word.toNat = (0#5 ++ BitVec.ofBool f.noWide ++ f.waits ++ f.permap ++ f.burst ++ 0#3 ++
    BitVec.ofBool f.srcInc ++ 0#1 ++ BitVec.ofBool f.destDreq ++ 0#1 ++ BitVec.ofBool f.destInc ++ 1#1 ++
    0#3).toNat := rfl
  rw [e]
  simp only [BitVec.toNat_append, BitVec.toNat_ofBool]
  rw [← Nat.shiftLeft_add_eq_or_of_lt (0#3).isLt, ← Nat.shiftLeft_add_eq_or_of_lt (1#1).isLt,
    ← Nat.shiftLeft_add_eq_or_of_lt f.destInc.toNat_lt, ← Nat.shiftLeft_add_eq_or_of_lt (0#1).isLt,
    ← Nat.shiftLeft_add_eq_or_of_lt f.destDreq.toNat_lt, ← Nat.shiftLeft_add_eq_or_of_lt (0#1).isLt,
    ← Nat.shiftLeft_add_eq_or_of_lt f.srcInc.toNat_lt, ← Nat.shiftLeft_add_eq_or_of_lt (0#3).isLt,
    ← Nat.shiftLeft_add_eq_or_of_lt f.burst.isLt, ← Nat.shiftLeft_add_eq_or_of_lt f.permap.isLt,
    ← Nat.shiftLeft_add_eq_or_of_lt f.waits.isLt, ← Nat.shiftLeft_add_eq_or_of_lt f.noWide.toNat_lt]
  simp [Nat.shiftLeft_eq]
  omega

/-- A bit of a word, as a number. -/
theorem toNat_getLsbD {w : Nat} (x : BitVec w) (k : Nat) : (x.getLsbD k).toNat = x.toNat / 2 ^ k % 2 := by
  rw [getLsbD_eq_decide]
  rcases Nat.mod_two_eq_zero_or_one (x.toNat / 2 ^ k) with h | h <;> simp [h]

/-- The fields of 30 R111 make up a number whose other bits are as 30 R116 asks. -/
theorem admitted_fields (x : Nat) (hl : x < 2 ^ 32) (h0 : x % 2 = 0) (h1 : x / 2 % 2 = 0) (h2 : x / 4 % 2 = 0)
    (h3 : x / 8 % 2 = 1) (h5 : x / 32 % 2 = 0) (h7 : x / 128 % 2 = 0) (h9 : x / 512 % 2 = 0)
    (h10 : x / 1024 % 2 = 0) (h11 : x / 2048 % 2 = 0) (h27 : x / 134217728 % 32 = 0) :
    x / 67108864 % 2 * 67108864 + x / 2097152 % 32 * 2097152 + x / 65536 % 32 * 65536 + x / 4096 % 16 * 4096 +
      x / 256 % 2 * 256 + x / 64 % 2 * 64 + x / 16 % 2 * 16 + 8 = x := by
  have e1 : x / 4 = x / 2 / 2 := by omega
  have e2 : x / 8 = x / 4 / 2 := by omega
  have e3 : x / 16 = x / 8 / 2 := by omega
  have e4 : x / 32 = x / 16 / 2 := by omega
  have e5 : x / 64 = x / 32 / 2 := by omega
  have e6 : x / 128 = x / 64 / 2 := by omega
  have e7 : x / 256 = x / 128 / 2 := by omega
  have e8 : x / 512 = x / 256 / 2 := by omega
  have e9 : x / 1024 = x / 512 / 2 := by omega
  have e10 : x / 2048 = x / 1024 / 2 := by omega
  have e11 : x / 4096 = x / 2048 / 2 := by omega
  have e12 : x / 65536 = x / 4096 / 16 := by omega
  have e13 : x / 2097152 = x / 65536 / 32 := by omega
  have e14 : x / 67108864 = x / 2097152 / 32 := by omega
  have e15 : x / 134217728 = x / 67108864 / 2 := by omega
  generalize x / 134217728 = y27 at *
  generalize x / 67108864 = y26 at *
  generalize x / 2097152 = y21 at *
  generalize x / 65536 = y16 at *
  generalize x / 4096 = y12 at *
  generalize x / 2048 = y11 at *
  generalize x / 1024 = y10 at *
  generalize x / 512 = y9 at *
  generalize x / 256 = y8 at *
  generalize x / 128 = y7 at *
  generalize x / 64 = y6 at *
  generalize x / 32 = y5 at *
  generalize x / 16 = y4 at *
  generalize x / 8 = y3 at *
  generalize x / 4 = y2 at *
  omega

/-- An admitted TI is the word of its free fields (30 R111, R116). -/
theorem XferTI.word_ofWord {c : Config} {ti : Word} (h : c.admittedTI ti = true) : (XferTI.ofWord ti).word = ti := by
  unfold Config.admittedTI at h
  simp only [Bool.and_eq_true, Bool.not_eq_true', decide_eq_true_eq, Bool.or_eq_true] at h
  obtain ⟨⟨⟨⟨⟨⟨⟨⟨⟨⟨h0, h1⟩, h2⟩, h3⟩, h5⟩, h7⟩, h9⟩, h10⟩, h11⟩, h27⟩, -⟩ := h
  have h27 := congrArg BitVec.toNat h27
  rw [extract_toNat] at h27
  have bit : ∀ k b, ti.getLsbD k = b → ti.toNat / 2 ^ k % 2 = b.toNat := fun k b hb => by rw [← toNat_getLsbD, hb]
  apply BitVec.eq_of_toNat_eq
  rw [XferTI.word_toNat]
  simp only [XferTI.ofWord, toNat_getLsbD, extract_toNat]
  exact admitted_fields ti.toNat ti.isLt (by simpa using bit 0 _ h0) (by simpa using bit 1 _ h1)
    (by simpa using bit 2 _ h2) (by simpa using bit 3 _ h3) (by simpa using bit 5 _ h5) (by simpa using bit 7 _ h7)
    (by simpa using bit 9 _ h9) (by simpa using bit 10 _ h10) (by simpa using bit 11 _ h11) (by simpa using h27)

/-- 30 R122 steps 4 to 8, all passed. -/
theorem Desc.check_eq_none_iff (c : Config) (d : Desc) :
    d.check c = none ↔ c.admittedTI d.ti = true ∧ d.txfrLen.extractLsb' 30 2 = 0#2 ∧
      d.txfrLen.extractLsb' 0 2 = 0#2 ∧ d.sourceAd.extractLsb' 0 2 = 0#2 ∧ d.destAd.extractLsb' 0 2 = 0#2 ∧
      d.nextconbk.extractLsb' 0 5 = 0#5 ∧ d.overlaps c = false := by
  unfold Desc.check
  split_ifs <;> simp_all <;> tauto

/-- The instruction decoded is the class of the descriptor, and the checks pass. -/
theorem decodeDesc_eq_ok_iff (c : Config) (d : Desc) (i : Instr) :
    decodeDesc c d = .ok i ↔ d.check c = none ∧ d.classify c = i := by
  unfold decodeDesc
  split <;> rename_i h <;> simp [h]

/-- The XFER name keeps every word of an admitted descriptor. -/
theorem Desc.asXfer_desc {c : Config} {d : Desc} (h : d.check c = none) : d.asXfer.desc c = some d := by
  rw [Desc.check_eq_none_iff] at h
  simp only [Desc.asXfer, Instr.desc, descXfer, XferTI.word_ofWord h.1, lenWord_of_checked h.2.1 h.2.2.1]

/-- A decoded instruction's descriptor is the descriptor decoded: its name drops no word (30 R120). -/
theorem decodeDesc_desc {c : Config} {d : Desc} {i : Instr} (h : decodeDesc c d = .ok i) : i.desc c = some d := by
  rw [decodeDesc_eq_ok_iff] at h
  obtain ⟨h, rfl⟩ := h
  have hx := Desc.asXfer_desc h
  rw [Desc.check_eq_none_iff] at h
  obtain ⟨ti, src, dst, len, stride, next⟩ := d
  have hl := lenWord_of_checked h.2.1 h.2.2.1
  simp only at hl
  unfold Desc.classify
  split_ifs with h1 h2 h3 h4
  · unfold Desc.classifyNormal
    simp only at h1
    obtain ⟨rfl, rfl⟩ := h1
    split_ifs <;> simp_all [Instr.desc, descSet, descClr, descLev, descTick, descNop, descLink, descCopy]
  · simp_all [Instr.desc, descPaceP]
  · simp_all [Instr.desc, descPaceS]
  · simp_all [Instr.desc, descCopyN]
  · exact hx

/-- A decoded instruction is a descriptor. -/
theorem Instr.kind_of_desc {c : Config} {i : Instr} {d : Desc} (h : i.desc c = some d) : i.kind = .descriptor := by
  cases i <;> first | rfl | cases h

end Sys2Proof
end

