-- ==== Sys2Proof/Laws/Engine.lean ====
section
/-!
SUPPORT. What the shared operations can do: taking a fault, bus reads and writes, one engine step per phase, host memory
accesses, and `exec` of a descriptor as one engine step.
-/
namespace Sys2Proof.Machine

/-! ### Taking a fault (60 R330) -/

@[simp] theorem State.raise_cfg (s : State) (ch : ChanId) (r : FaultReason) : (s.raise ch r).cfg = s.cfg := by
  unfold State.raise; split <;> simp

@[simp] theorem State.raise_mem (s : State) (ch : ChanId) (r : FaultReason) : (s.raise ch r).mem = s.mem := by
  unfold State.raise; split <;> simp

@[simp] theorem State.raise_gpioOut (s : State) (ch : ChanId) (r : FaultReason) :
    (s.raise ch r).gpioOut = s.gpioOut := by
  unfold State.raise; split <;> simp

@[simp] theorem State.raise_pacer (s : State) (ch : ChanId) (r : FaultReason) (x : ChanId) :
    (s.raise ch r).pacer x = s.pacer x := by
  unfold State.raise; split <;> simp

@[simp] theorem State.raise_pacerP (s : State) (ch : ChanId) (r : FaultReason) : (s.raise ch r).pacerP = s.pacerP := by
  unfold State.raise; split <;> simp

@[simp] theorem State.raise_pacerS (s : State) (ch : ChanId) (r : FaultReason) : (s.raise ch r).pacerS = s.pacerS := by
  unfold State.raise; split <;> simp

@[simp] theorem State.raise_host (s : State) (ch : ChanId) (r : FaultReason) : (s.raise ch r).host = s.host := by
  unfold State.raise; split <;> simp

@[simp] theorem State.raise_timer (s : State) (ch : ChanId) (r : FaultReason) : (s.raise ch r).timer = s.timer := by
  unfold State.raise; split <;> simp

@[simp] theorem State.raise_trace (s : State) (ch : ChanId) (r : FaultReason) :
    (s.raise ch r).trace = s.trace ++ [.fault ch r] := by
  unfold State.raise; split <;> simp

@[simp] theorem State.raise_draws (s : State) (ch : ChanId) (r : FaultReason) : (s.raise ch r).draws = s.draws := by
  unfold State.raise; split <;> simp

@[simp] theorem State.raise_sched (s : State) (ch : ChanId) (r : FaultReason) : (s.raise ch r).sched = s.sched := by
  unfold State.raise; split <;> simp

@[simp] theorem State.raise_cur (s : State) (ch : ChanId) (r : FaultReason) : (s.raise ch r).cur = s.cur := by
  unfold State.raise; split <;> simp

theorem State.raise_refused (s : State) (ch : ChanId) (r : FaultReason) :
    (s.raise ch r).refused = (s.refused || decide (r = .unadmitted)) := by
  unfold State.raise; split <;> simp_all

@[simp] theorem State.raise_chan_self (s : State) (ch : ChanId) (r : FaultReason) :
    (s.raise ch r).chan ch = { s.chan ch with fault := some r } := by
  unfold State.raise; split <;> simp

theorem State.raise_chan_of_ne (s : State) (ch x : ChanId) (r : FaultReason) (h : x ≠ ch) :
    (s.raise ch r).chan x = s.chan x := by
  unfold State.raise; split <;> simp [State.setChan_chan_of_ne _ _ _ _ h]

/-! ### Bus accesses (20 R80, R81) -/

/-- What a bus read that answers can be: a memory word, the GPIO levels, or the timer. -/
theorem State.busRead_ok {s t : State} {a v : Word} (h : s.busRead a = .ok (v, t)) :
    wordAligned a = true ∧
    ((s.cfg.region a = .memory ∧ s.mem.word a = some v ∧ t = s) ∨
     (s.cfg.region a = .gplev ∧ v = s.levels (Config.freeLevels s.draws) ∧ t = s.drawn) ∨
     (s.cfg.region a = .timer ∧ v = Config.freeTimer s.draws ∧ t = (s.setTimer v).drawn)) := by
  unfold State.busRead at h
  split at h
  · cases h
  · rename_i ha
    refine ⟨by simpa using ha, ?_⟩
    split at h
    · split at h
      · simp_all
      · cases h
    · simp_all
    · cases h; simp_all
    all_goals cases h

/-- A bus read never answers F_UNADMITTED. -/
theorem State.busRead_error {s : State} {a : Word} {r : FaultReason} (h : s.busRead a = .error r) :
    r ≠ .unadmitted := by
  unfold State.busRead at h
  split at h
  · cases h; decide
  · split at h
    · split at h <;> cases h
      decide
    · cases h
    · cases h
    all_goals cases h; decide

/-- What a bus write that answers can be: a memory word, a GPIO set or clear, or one more word in a pacer FIFO. -/
theorem State.busWrite_ok {s t : State} {ch : ChanId} {a v : Word} (h : s.busWrite ch a v = .ok t) :
    wordAligned a = true ∧
    ((s.cfg.region a = .memory ∧ t = s.setMem (s.mem.writeWord a v)) ∨
     (s.cfg.region a = .gpset ∧ t = s.gpioSet (.chan ch) v) ∨
     (s.cfg.region a = .gpclr ∧ t = s.gpioClr (.chan ch) v) ∨
     (∃ pc, s.cfg.region a = .fifo pc ∧ (s.pacer pc).fill ≠ s.cfg.pacerDepth pc ∧
        t = s.setPacer pc { s.pacer pc with fill := (s.pacer pc).fill + 1 })) := by
  unfold State.busWrite at h
  split at h
  · cases h
  · rename_i ha
    refine ⟨by simpa using ha, ?_⟩
    split at h
    · simp_all
    · simp_all
    · simp_all
    · rename_i pc hr
      split at h
      · cases h
      · rename_i hf
        cases h
        exact .inr (.inr (.inr ⟨pc, hr, hf, rfl⟩))
    all_goals simp_all

/-- A bus write never answers F_UNADMITTED. -/
theorem State.busWrite_error {s : State} {ch : ChanId} {a v : Word} {r : FaultReason}
    (h : s.busWrite ch a v = .error r) : r ≠ .unadmitted := by
  unfold State.busWrite at h
  split at h
  · cases h; decide
  · split at h
    · cases h
    · cases h
    · cases h
    · split at h <;> cases h; decide
    all_goals cases h; decide

theorem State.busRead_memory {s : State} {a v : Word} (ha : wordAligned a = true) (hr : s.cfg.inMem a = true)
    (hv : s.mem.word a = some v) : s.busRead a = .ok (v, s) := by
  simp [State.busRead, ha, Config.region, hr, hv]

theorem State.busWrite_memory {s : State} {ch : ChanId} {a v : Word} (ha : wordAligned a = true)
    (hr : s.cfg.inMem a = true) : s.busWrite ch a v = .ok (s.setMem (s.mem.writeWord a v)) := by
  simp [State.busWrite, ha, Config.region, hr]

/-! ### One engine step, by phase (40 R150 to R153) -/

theorem State.engineStep_disabled {s : State} {ch : ChanId} {d : Desc} (h : s.canStep ch = false) :
    s.engineStep ch d = s := by simp [State.engineStep, h]

theorem State.engineStep_fetch {s : State} {ch : ChanId} {d : Desc} {e : List (Nat × Option Word)}
    (h : s.canStep ch = true) (hp : (s.chan ch).phase = .fetch e) : s.engineStep ch d = s.loadDesc ch d := by
  simp [State.engineStep, h, hp]

theorem State.engineStep_read {s : State} {ch : ChanId} {d d0 : Desc} {n i : Nat} (h : s.canStep ch = true)
    (hp : (s.chan ch).phase = .exec d0 n i none) (hi : i < n) : s.engineStep ch d = s.beatRead ch d d0 n i := by
  simp [State.engineStep, h, hp, hi]

theorem State.engineStep_write {s : State} {ch : ChanId} {d d0 : Desc} {n i : Nat} {v : Word}
    (h : s.canStep ch = true) (hp : (s.chan ch).phase = .exec d0 n i (some v)) (hi : i < n) :
    s.engineStep ch d = s.beatWrite ch d d0 n i v := by
  simp [State.engineStep, h, hp, hi]

theorem State.engineStep_complete {s : State} {ch : ChanId} {d d0 : Desc} {n : Nat} (h : s.canStep ch = true)
    (hp : (s.chan ch).phase = .exec d0 n n none) : s.engineStep ch d = s.complete ch d.nextconbk := by
  simp [State.engineStep, h, hp]

/-- Everything one engine step can do. -/
theorem State.engineStep_cases (s : State) (ch : ChanId) (d : Desc) :
    (s.engineStep ch d = s) ∨
    (∃ e, s.canStep ch = true ∧ (s.chan ch).phase = .fetch e ∧ s.engineStep ch d = s.loadDesc ch d) ∨
    (∃ d0 n i, s.canStep ch = true ∧ (s.chan ch).phase = .exec d0 n i none ∧ i < n ∧
      s.engineStep ch d = s.beatRead ch d d0 n i) ∨
    (∃ d0 n i v, s.canStep ch = true ∧ (s.chan ch).phase = .exec d0 n i (some v) ∧ i < n ∧
      s.engineStep ch d = s.beatWrite ch d d0 n i v) ∨
    (∃ d0 n, s.canStep ch = true ∧ (s.chan ch).phase = .exec d0 n n none ∧
      s.engineStep ch d = s.complete ch d.nextconbk) := by
  rcases hc : s.canStep ch with _ | _
  · exact .inl (State.engineStep_disabled hc)
  · rcases hp : (s.chan ch).phase with _ | e | ⟨d0, n, i, _ | v⟩
    · left; simp [State.engineStep, hp]
    · exact .inr (.inl ⟨_, rfl, rfl, State.engineStep_fetch hc hp⟩)
    · rcases Nat.lt_trichotomy i n with hi | rfl | hi
      · exact .inr (.inr (.inl ⟨d0, n, i, rfl, rfl, hi, State.engineStep_read hc hp hi⟩))
      · exact .inr (.inr (.inr (.inr ⟨d0, i, rfl, rfl, State.engineStep_complete hc hp⟩)))
      · left; simp [State.engineStep, hp, show ¬ i < n by omega, show i ≠ n by omega]
    · by_cases hi : i < n
      · exact .inr (.inr (.inr (.inl ⟨d0, n, i, v, rfl, rfl, hi, State.engineStep_write hc hp hi⟩)))
      · left; simp [State.engineStep, hp, hi]

/-- Everything an early word read can do: nothing, or one word of the descriptor being fetched is read and kept. -/
theorem State.earlyRead_cases (s : State) (ch : ChanId) (k : Nat) :
    (s.earlyRead ch k = s) ∨
    (∃ e, s.canStep ch = true ∧ (s.chan ch).phase = .fetch e ∧ Table.get e k = none ∧
      s.earlyRead ch k = s.setPhase ch (.fetch (Table.set e k (s.descWord (s.chan ch).conblkAd k)))) := by
  unfold State.earlyRead
  split
  · exact .inl rfl
  · rename_i e hp
    split
    · rename_i h
      exact .inr ⟨e, h.1, hp, h.2, rfl⟩
    · exact .inl rfl
  · exact .inl rfl

/-! ### exec -/

/-- `exec` of a descriptor instruction is one engine step of the current channel running its descriptor. -/
theorem exec_desc {i : Instr} {s : State} {d : Desc} (h : i.desc s.cfg = some d) :
    exec i s = .next (s.engineStep s.cur d) := by
  cases i <;> simp only [Instr.desc, Option.some.injEq, reduceCtorEq] at h <;> subst h <;> rfl

/-- `exec` of a descriptor instruction that the decoder read. -/
theorem exec_decoded {d : Desc} {i : Instr} {s : State} (h : decodeDesc s.cfg d = .ok i) :
    exec i s = .next (s.engineStep s.cur d) := exec_desc (decodeDesc_desc h)

/-- Emission of one opcode: a rejection, or cursors advanced and STOREs waiting. -/
theorem State.emitOp_cases (s : State) (adv : Except HostReject Build) (stores : List HostTask) :
    (∃ e, guardOp s.cfg s.host.build adv = .error e ∧ s.emitOp adv stores = .next (s.reject e)) ∨
    (∃ b, guardOp s.cfg s.host.build adv = .ok b ∧ s.emitOp adv stores = .next ((s.setBuild b).pushTasks stores)) := by
  unfold State.emitOp
  split <;> rename_i x h
  · exact .inl ⟨x, h, rfl⟩
  · exact .inr ⟨x, h, rfl⟩

/-- Every instruction has a meaning: `exec` answers a next state. -/
theorem exec_total (i : Instr) (s : State) : ∃ t, exec i s = .next t := by
  rcases hd : i.desc s.cfg with _ | d
  · have emit : ∀ adv stores, ∃ t, s.emitOp adv stores = .next t := fun adv stores => by
      rcases s.emitOp_cases adv stores with ⟨e, -, h⟩ | ⟨b, -, h⟩ <;> exact ⟨_, h⟩
    cases i <;> simp only [Instr.desc, reduceCtorEq] at hd <;> simp only [exec]
    case playWave id => exact emit _ _
    case delayMicros n => exact emit _ _
    case loopBegin => exact emit _ _
    case loopEnd k => exact emit _ _
    case repeatForever => exact emit _ _
    case pacerCfg t => unfold execPacerCfg; split <;> exact ⟨_, rfl⟩
    case waveclk => unfold execWaveclk; split <;> exact ⟨_, rfl⟩
    case stop ch => cases ch <;> exact ⟨_, rfl⟩
    all_goals exact ⟨_, rfl⟩
  · exact ⟨_, exec_desc hd⟩

end Sys2Proof.Machine
end

