-- ==== Sys2Proof/Laws/Runs.lean ====
section
/-!
SUPPORT. Runs of one agent with no other in between: the steps of one descriptor, beat by beat, and the host's STOREs,
for the statements about `execTimes`, `agentTimes` and `oneBeat`.
-/
namespace Sys2Proof.Machine

/-- Whether a channel can step rests on its registers alone. -/
theorem State.canStep_congr {s t : State} {c : ChanId} (h : t.chan c = s.chan c) : t.canStep c = s.canStep c := by
  unfold State.canStep; rw [h]

/-- A channel that can step still can in any phase but idle. -/
theorem State.canStep_setPhase {s : State} {c : ChanId} {p : Phase} (h : s.canStep c = true) (hp : p ≠ .idle) :
    (s.setPhase c p).canStep c = true := by
  simp only [State.canStep, Bool.and_eq_true, decide_eq_true_eq, State.setPhase_chan_self] at h ⊢
  exact ⟨h.1, hp⟩

/-- The later phase written stands. -/
theorem State.setPhase_setPhase (s : State) (c : ChanId) (p q : Phase) : (s.setPhase c p).setPhase c q =
    s.setPhase c q := by
  cases c <;> rfl

/-- The phase written is the phase read. -/
theorem State.phase_setPhase (s : State) (c : ChanId) (p : Phase) : ((s.setPhase c p).chan c).phase = p := by simp

/-- A bus read does not look at a phase. -/
theorem State.busRead_setPhase (s : State) (c : ChanId) (p : Phase) (a : Word) :
    (s.setPhase c p).busRead a = match s.busRead a with
      | .ok (v, t) => .ok (v, t.setPhase c p)
      | .error r => .error r := by
  unfold State.busRead
  simp only [State.setPhase_cfg, State.setPhase_mem, State.setPhase_draws]
  split_ifs
  · rfl
  · split <;> try rfl
    · split <;> rfl
    · cases c <;> rfl
    · cases c <;> rfl

/-- A bus write does not look at a phase. -/
theorem State.busWrite_setPhase (s : State) (c x : ChanId) (p : Phase) (a v : Word) :
    (s.setPhase c p).busWrite x a v = match s.busWrite x a v with
      | .ok t => .ok (t.setPhase c p)
      | .error r => .error r := by
  unfold State.busWrite
  simp only [State.setPhase_cfg, State.setPhase_mem, State.setPhase_pacer]
  split_ifs
  · rfl
  · split <;> try rfl
    · cases c <;> rfl
    · cases c <;> rfl
    · cases c <;> rfl
    · split_ifs
      · rfl
      · rename_i pc _ _; cases c <;> cases pc <;> rfl

/-- What a bus read leaves unchanged. -/
theorem State.busRead_keeps {s t : State} {a v : Word} (h : s.busRead a = .ok (v, t)) :
    t.cfg = s.cfg ∧ (∀ c, t.chan c = s.chan c) ∧ t.cur = s.cur ∧ (∀ pc, t.pacer pc = s.pacer pc) ∧
      t.mem = s.mem ∧ t.gpioOut = s.gpioOut ∧ t.trace = s.trace ∧
      t.host = s.host ∧ t.refused = s.refused ∧ t.sched = s.sched := by
  rcases State.busRead_ok h with ⟨-, ⟨-, -, rfl⟩ | ⟨-, -, rfl⟩ | ⟨-, -, rfl⟩⟩ <;> simp

/-- What a bus write leaves unchanged. -/
theorem State.busWrite_keeps {s t : State} {ch : ChanId} {a v : Word} (h : s.busWrite ch a v = .ok t) :
    t.cfg = s.cfg ∧ (∀ c, t.chan c = s.chan c) ∧ t.cur = s.cur := by
  rcases State.busWrite_ok h with ⟨-, ⟨-, rfl⟩ | ⟨-, rfl⟩ | ⟨-, rfl⟩ | ⟨pc, -, -, rfl⟩⟩ <;>
    simp [State.gpioSet, State.gpioClr]

/-- A beat that reads memory is no sample. -/
theorem State.isSample_memory {s : State} {a b : Word} (h : s.cfg.inMem a = true) : s.isSample a b = false := by
  simp [State.isSample, Config.region_memory h]

/-- The four steps of a one-beat descriptor, from its read and its write. -/
theorem oneBeat_intro {i : Instr} {d : Desc} {s r t u : State} {v : Word} (hd : i.desc s.cfg = some d)
    (hr : s.atFetch) (hb : d.beats = 1) (hD : d.destDreq = false) (hread : s.busRead (d.srcAt 0) = .ok (v, r))
    (hwrite : r.busWrite s.cur (d.dstAt 0) v = .ok u)
    (ht : t = if r.isSample (d.srcAt 0) (d.dstAt 0) then u.log (.sample s.cur (d.dstAt 0) v) else u) :
    oneBeat i d s r t v := by
  obtain ⟨hc, e0, hp⟩ := hr
  obtain ⟨k1, k2, k3, -⟩ := State.busRead_keeps hread
  obtain ⟨w1, w2, w3⟩ := State.busWrite_keeps hwrite
  have tc : t.cfg = s.cfg ∧ (∀ c, t.chan c = s.chan c) ∧ t.cur = s.cur := by
    subst ht; split_ifs <;> simp [w1, w2, w3, k1, k2, k3]
  refine ⟨?_, ?_, ?_, ?_⟩
  · rw [exec_desc hd, State.engineStep_fetch hc hp, State.loadDesc, if_neg (by omega), hb]
  · have hc' := State.canStep_setPhase (s := s) (c := s.cur) (p := .exec d 1 0 none) hc (by simp)
    rw [exec_desc (d := d) (by simpa using hd), State.setPhase_cur,
        State.engineStep_read hc' (State.phase_setPhase _ _ _) (by omega), State.beatRead,
      State.busRead_setPhase, hread]
    simp only [State.setPhase_setPhase]
  · have hc0 : r.canStep s.cur = true := by rw [State.canStep_congr (k2 s.cur)]; exact hc
    have hc' := State.canStep_setPhase (s := r) (c := s.cur) (p := .exec d 1 0 (some v)) hc0 (by simp)
    rw [exec_desc (d := d) (by simpa [k1] using hd), State.setPhase_cur, k3,
        State.engineStep_write hc' (State.phase_setPhase _ _ _) (by omega), State.beatWrite,
      if_neg (by simp [hD]), State.busWrite_setPhase, hwrite]
    simp only []
    subst ht
    have e : (r.setPhase s.cur (Phase.exec d 1 0 (some v))).isSample (d.srcAt 0) (d.dstAt 0) = r.isSample (d.srcAt 0) (d.dstAt 0) := by
      simp [State.isSample]
    rw [e]
    split_ifs
    · congr 1; cases s.cur <;> rfl
    · rw [State.setPhase_setPhase]
  · have hc0 : t.canStep s.cur = true := by rw [State.canStep_congr (tc.2.1 s.cur)]; exact hc
    have hc' := State.canStep_setPhase (s := t) (c := s.cur) (p := .exec d 1 1 none) hc0 (by simp)
    rw [exec_desc (d := d) (by simpa [tc.1] using hd), State.setPhase_cur, tc.2.2,
        State.engineStep_complete hc' (State.phase_setPhase _ _ _), State.complete]
    have e := tc.2.1 s.cur
    unfold Channel.completed
    split_ifs <;> (generalize s.cur = c at *; cases c <;> simp_all [State.setChan, State.setPhase, State.chan])

/-- Runs of one descriptor instruction compose. -/
theorem execTimes_trans {i : Instr} {a b : Nat} {s t : State} (h : execTimes i a s = .next t) :
    execTimes i (a + b) s = execTimes i b t := by
  induction a generalizing s with
  | zero => cases h; simp
  | succ a ih =>
    rw [Nat.add_right_comm]
    simp only [execTimes] at h ⊢
    split at h
    · exact ih h
    · cases h
    · cases h

/-- The two steps of one beat. -/
theorem beat_pair {i : Instr} {d : Desc} {s r u : State} {n k : Nat} {v : Word} {c : ChanId} (hcur : s.cur = c)
    (hd : i.desc s.cfg = some d) (hc : s.canStep c = true) (hk : k < n)
    (hread : s.busRead (d.srcAt k) = .ok (v, r)) (hD : ¬ (d.destDreq = true ∧ r.dreq (d.pacerOf r.cfg) = false))
    (hw : r.busWrite c (d.dstAt k) v = .ok u) (hs : r.isSample (d.srcAt k) (d.dstAt k) = false) :
    execTimes i 2 (s.setPhase c (.exec d n k none)) = .next (u.setPhase c (.exec d n (k + 1) none)) := by
  obtain ⟨k1, k2, k3, -⟩ := State.busRead_keeps hread
  have c1 : (s.setPhase c (.exec d n k none)).canStep c = true := State.canStep_setPhase hc (by simp)
  have hc0 : r.canStep c = true := by rw [State.canStep_congr (k2 c)]; exact hc
  have c2 : (r.setPhase c (.exec d n k (some v))).canStep c = true := State.canStep_setPhase hc0 (by simp)
  simp only [execTimes]
  rw [exec_desc (d := d) (by simpa using hd), State.setPhase_cur, hcur,
      State.engineStep_read c1 (State.phase_setPhase _ _ _) hk, State.beatRead,
    State.busRead_setPhase, hread]
  simp only [State.setPhase_setPhase]
  rw [exec_desc (d := d) (by simpa [k1] using hd), State.setPhase_cur, k3, hcur,
      State.engineStep_write c2 (State.phase_setPhase _ _ _) hk, State.beatWrite]
  have e : (r.setPhase c (Phase.exec d n k (some v))).isSample (d.srcAt k) (d.dstAt k) = false := by
      simpa [State.isSample] using hs
  have e2 : ∀ pc, (r.setPhase c (Phase.exec d n k (some v))).dreq pc = r.dreq pc := by intro pc; simp [State.dreq]
  rw [if_neg (by simpa [e2] using hD), State.busWrite_setPhase, hw]
  simp only [e, State.setPhase_setPhase, Bool.false_eq_true, if_false]

/-- The step that completes a descriptor. -/
theorem complete_step {i : Instr} {d : Desc} {s : State} {n : Nat} {c : ChanId} (hcur : s.cur = c)
    (hd : i.desc s.cfg = some d) (hc : s.canStep c = true) :
    execTimes i 1 (s.setPhase c (.exec d n n none)) = .next (s.setChan c ((s.chan c).completed d.nextconbk)) := by
  have c1 : (s.setPhase c (.exec d n n none)).canStep c = true := State.canStep_setPhase hc (by simp)
  simp only [execTimes]
  rw [exec_desc (d := d) (by simpa using hd), State.setPhase_cur, hcur,
      State.engineStep_complete c1 (State.phase_setPhase _ _ _), State.complete]
  unfold Channel.completed
  split_ifs <;> (cases c <;> simp_all [State.setChan, State.setPhase, State.chan])

/-- The steps of the first m beats, from the states S k before each beat. -/
theorem beats_run {i : Instr} {d : Desc} {S : Nat → State} {n : Nat} {c : ChanId} (hcur : ∀ k, (S k).cur = c)
    (hd : ∀ k, i.desc (S k).cfg = some d) (hc : ∀ k, (S k).canStep c = true)
    (hb : ∀ k, k < n → ∃ v, (S k).busRead (d.srcAt k) = .ok (v,
        S k) ∧ (S k).busWrite c (d.dstAt k) v = .ok (S (k + 1)))
    (hD : ∀ k, k < n → ¬ (d.destDreq = true ∧ (S k).dreq (d.pacerOf (S k).cfg) = false))
    (hs : ∀ k, k < n → (S k).isSample (d.srcAt k) (d.dstAt k) = false) (m : Nat) (hm : m ≤ n) :
    execTimes i (2 * m) ((S 0).setPhase c (.exec d n 0 none)) = .next ((S m).setPhase c (.exec d n m none)) := by
  induction m with
  | zero => rfl
  | succ m ih =>
    rw [show 2 * (m + 1) = 2 * m + 2 by ring, execTimes_trans (ih (by omega))]
    obtain ⟨v, h1, h2⟩ := hb m (by omega)
    exact beat_pair (hcur m) (hd m) (hc m) (by omega) h1 (hD m (by omega)) h2 (hs m (by omega))

/-- All steps of a descriptor of n beats, from FETCH to COMPLETE. -/
theorem desc_run {i : Instr} {d : Desc} {S : Nat → State} {n : Nat} {c : ChanId} (hcur : ∀ k, (S k).cur = c)
    (hd : ∀ k, i.desc (S k).cfg = some d) (hc : ∀ k, (S k).canStep c = true) {e : List (Nat × Option Word)}
    (hp : ((S 0).chan c).phase = .fetch e)
    (hn : d.beats = n) (hn0 : n ≠ 0)
    (hb : ∀ k, k < n → ∃ v, (S k).busRead (d.srcAt k) = .ok (v,
        S k) ∧ (S k).busWrite c (d.dstAt k) v = .ok (S (k + 1)))
    (hD : ∀ k, k < n → ¬ (d.destDreq = true ∧ (S k).dreq (d.pacerOf (S k).cfg) = false))
    (hs : ∀ k, k < n → (S k).isSample (d.srcAt k) (d.dstAt k) = false) :
    execTimes i (2 * n + 2) (S 0) = .next ((S n).setChan c (((S n).chan c).completed d.nextconbk)) := by
  have h1 : execTimes i 1 (S 0) = .next ((S 0).setPhase c (.exec d n 0 none)) := by
    simp only [execTimes]
    rw [exec_desc (hd 0), hcur 0, State.engineStep_fetch (hc 0) hp, State.loadDesc, if_neg (by omega), hn]
  rw [show 2 * n + 2 = 1 + (2 * n + 1) by ring, execTimes_trans h1,
      execTimes_trans (beats_run hcur hd hc hb hD hs n le_rfl)]
  exact complete_step (hcur n) (hd n) (hc n)

/-- Turns of one agent compose. -/
theorem agentTimes_trans {g : Agent} {a b : Nat} {s t : State} (h : agentTimes g a s = .next t) :
    agentTimes g (a + b) s = agentTimes g b t := by
  induction a generalizing s with
  | zero => cases h; simp
  | succ a ih =>
    rw [Nat.add_right_comm]
    simp only [agentTimes] at h ⊢
    split at h
    · exact ih h
    · cases h
    · cases h

/-- The host's turn with an instruction waiting. -/
theorem host_instr {s : State} {i : Instr} {ts : List HostTask} (h : s.host.todo = .instr i :: ts)
    (hk : i.kind ≠ .descriptor) :
    s.agentStep .host = exec i (s.setTodo ts) := by
  simp [State.agentStep, State.hostStep, h, hk]

/-- The host's turn with a STORE waiting that may be made. -/
theorem host_store {s : State} {a v : Word} {ts : List HostTask} (h : s.host.todo = .instr (.store a v) :: ts)
    (hr : s.hostReaches a = true) : agentTimes .host 1 s = .next { s with mem := s.mem.writeWord a v, host :=
        { s.host with todo := ts } } := by
  have this : (s.setTodo ts).hostReaches a = true := hr
  have e : exec (.store a v) (s.setTodo ts) = .next ((s.setTodo ts).setMem ((s.setTodo ts).mem.writeWord a v)) := by
    show Host.Outcome.next _ = _; unfold State.hostStore; rw [if_pos this]
  simp only [agentTimes, host_instr h (by simp [Instr.kind] : (Instr.store a v).kind ≠ .descriptor), e]
  rfl

/-- STOREs of (address, value) pairs. -/
def storeTasks (l : List (Word × Word)) : List HostTask := l.map fun p => .instr (.store p.1 p.2)

/-- Memory after writing (address, value) pairs in order. -/
def Memory.writeAll (m : Memory) (l : List (Word × Word)) : Memory := l.foldl (fun m p => m.writeWord p.1 p.2) m

/-- The turns of the host that make a list of STOREs. -/
theorem stores_run {s : State} {l : List (Word × Word)} {ts : List HostTask} (h : s.host.todo = storeTasks l ++ ts)
    (hr : ∀ p ∈ l, s.hostReaches p.1 = true) :
    agentTimes .host l.length s =
      .next { s with mem := Memory.writeAll s.mem l, host := { s.host with todo := ts } } := by
  induction l generalizing s with
  | nil => simp [storeTasks] at h; simp [agentTimes, Memory.writeAll, ← h]
  | cons p l ih =>
    rw [List.length_cons, Nat.add_comm, agentTimes_trans (host_store (ts := storeTasks l ++ ts) h (hr p (by simp)))]
    let t : State := { s with mem := s.mem.writeWord p.1 p.2, host := { s.host with todo := storeTasks l ++ ts } }
    exact ih (s := t) rfl fun q hq => hr q (by simp [hq])

/-- The pairs a list of words is stored as. -/
def wordPairs : Word → List Word → List (Word × Word)
  | _, [] => []
  | a, w :: ws => (a, w) :: wordPairs (a + 4#32) ws

/-- `storeWords` as a list of pairs. -/
theorem storeWords_eq (a : Word) (ws : List Word) : storeWords a ws = storeTasks (wordPairs a ws) := by
  induction ws generalizing a with
  | nil => rfl
  | cons w ws ih => simp [storeWords, wordPairs, storeTasks, ih]

/-- The pairs of a list of words, by position. -/
theorem wordPairs_get (a : Word) (ws : List Word) : wordPairs a ws =
    (List.range ws.length).map fun k => (a + BitVec.ofNat 32 (4 * k), ws.getD k 0#32) := by
  induction ws generalizing a with
  | nil => rfl
  | cons w ws ih =>
    rw [wordPairs, ih, List.length_cons, List.range_succ_eq_map]
    simp only [List.map_cons, List.map_map]
    congr 1
    · simp
    · apply List.map_congr_left; intro k _; simp
      rw [BitVec.add_assoc]; congr 1
      apply BitVec.eq_of_toNat_eq; simp; omega

/-- Lists of writes compose. -/
theorem Memory.writeAll_append (m : Memory) (l k : List (Word × Word)) : Memory.writeAll m (l ++ k) =
    Memory.writeAll (Memory.writeAll m l) k := by simp [Memory.writeAll]

/-- Lists of STOREs compose. -/
theorem storeTasks_append (l k : List (Word × Word)) : storeTasks (l ++ k) = storeTasks l ++ storeTasks k :=
    by simp [storeTasks]

/-- A word that is written, and only ever with v, reads as v afterwards. -/
theorem Memory.writeAll_word {m : Memory} {l : List (Word × Word)} {a v : Word} (ha : wordAligned a = true)
    (hl : ∀ p ∈ l, wordAligned p.1 = true) (h : (∃ p ∈ l, p.1 = a) ∨ m.word a = some v) (hv : ∀ p ∈ l,
        p.1 = a → p.2 = v) :
    (Memory.writeAll m l).word a = some v := by
  induction l generalizing m with
  | nil =>
    rcases h with ⟨p, hp, -⟩ | h
    · cases hp
    · exact h
  | cons q l ih =>
    refine ih (fun p hp => hl p (by simp [hp])) ?_ (fun p hp => hv p (by simp [hp]))
    rw [Memory.word_writeWord _ _ (hl q (by simp)) ha]
    by_cases e : a = q.1
    · right; rw [if_pos e, hv q (by simp) e.symm]
    · rw [if_neg e]
      rcases h with ⟨p, hp, e'⟩ | h
      · rcases List.mem_cons.1 hp with rfl | hp
        · exact absurd e'.symm e
        · exact .inl ⟨p, hp, e'⟩
      · exact .inr h

/-- A word no pair names reads as before. -/
theorem Memory.writeAll_word_of_not {m : Memory} {l : List (Word × Word)} {a : Word} (ha : wordAligned a = true)
    (hl : ∀ p ∈ l, wordAligned p.1 = true) (hv : ∀ p ∈ l, p.1 ≠ a) : (Memory.writeAll m l).word a = m.word a := by
  induction l generalizing m with
  | nil => rfl
  | cons q l ih =>
    show (Memory.writeAll (m.writeWord q.1 q.2) l).word a = _
    rw [ih (fun p hp => hl p (by simp [hp])) (fun p hp => hv p (by simp [hp])), Memory.word_writeWord _ _
        (hl q (by simp)) ha,
      if_neg (fun e => hv q (by simp) e.symm)]

/-- A byte outside every pair's word reads as before. -/
theorem Memory.writeAll_byte {m : Memory} {l : List (Word × Word)} {x : Nat} (h : ∀ p ∈ l,
    x < p.1.toNat ∨ p.1.toNat + 4 ≤ x) : (Memory.writeAll m l).byte x = m.byte x := by
  induction l generalizing m with
  | nil => rfl
  | cons q l ih =>
    show (Memory.writeAll (m.writeWord q.1 q.2) l).byte x = _
    rw [ih (fun p hp => h p (by simp [hp])), Memory.byte_writeWord_of_outside _ _ _ (h q (by simp))]

/-- A turn of a channel is a step of its descriptor's instruction. -/
theorem chan_one {s : State} {ch : ChanId} {d : Desc} {i : Instr} (hc : s.canStep ch = true)
    (hf : ∀ e, (s.chan ch).phase = .fetch e → s.fetchDesc e (s.chan ch).conblkAd = .ok d)
    (hl : ∀ d0 n j h, (s.chan ch).phase = .exec d0 n j h → d0 = d) (hi : decodeDesc s.cfg d = .ok i) :
    agentTimes (.chan ch) 1 s = execTimes i 1 (s.setCur ch) := by
  have hc' : (s.setCur ch).canStep ch = true := hc
  have h : s.agentStep (.chan ch) = exec i (s.setCur ch) := by
    show s.chanStep ch = _
    unfold State.chanStep
    simp only []
    rw [if_neg (by simp [hc'])]
    split
    · rename_i hp
      have hp : (s.chan ch).phase = .idle := hp
      simp [State.canStep, hp] at hc
    · rename_i e hp
      have hfi : (s.setCur ch).fetchInstr e ((s.setCur ch).chan ch).conblkAd = .ok i := by
        have : (s.setCur ch).fetchDesc e ((s.setCur ch).chan ch).conblkAd = .ok d := hf e hp
        unfold State.fetchInstr; rw [this]; exact hi
      rw [hfi]
    · rename_i d0 n j hh hp
      have := hl _ _ _ _ hp
      subst this
      have : decodeDesc (s.setCur ch).cfg d0 = .ok i := hi
      rw [this]
  simp only [agentTimes, execTimes, h]

end Sys2Proof.Machine
end

