-- ==== Sys2Proof/Laws/Chain.lean ====
section
/-!
SUPPORT. The chain engine's stores as lists of (address, value) pairs: of a descriptor, of a Counter,
    of one opcode and of
a program, where they go, and that no two parts of a chain meet (44 R270 to R299).
-/
namespace Sys2Proof.Machine

/-- The words of a descriptor. -/
theorem Desc.words_length (d : Desc) : d.words.length = 8 := rfl

/-- The pairs a descriptor at a is stored as (30 R110). -/
def descPairs (a : Word) (d : Desc) : List (Word × Word) := wordPairs a d.words

/-- `storeDesc` as a list of pairs. -/
theorem storeDesc_eq (a : Word) (d : Desc) : storeDesc a d = storeTasks (descPairs a d) := storeWords_eq _ _

/-- The pairs of a descriptor: word k at a + 4k. -/
theorem mem_descPairs {a : Word} {d : Desc} {p : Word × Word} : p ∈ descPairs a d ↔ ∃ k, k < 8 ∧ p.1 =
    a + BitVec.ofNat 32 (4 * k) ∧ d.words[k]? = some p.2 := by
  rw [descPairs, wordPairs_get, Desc.words_length]
  simp only [List.mem_map, List.mem_range]
  constructor
  · rintro ⟨k, hk, rfl⟩
    refine ⟨k, hk, rfl, ?_⟩
    rw [List.getElem?_eq_getElem (by rw [Desc.words_length]; omega)]
    simp only [List.getD]; rw [List.getElem?_eq_getElem (by rw [Desc.words_length]; omega)]; rfl
  · rintro ⟨k, hk, h1, h2⟩
    refine ⟨k, hk, ?_⟩
    rcases p with ⟨x, y⟩
    simp only at h1 h2
    simp [h1, List.getD, h2]

/-- The address of word k of a descriptor that does not wrap. -/
theorem descWord_toNat {a : Word} (h : a.toNat + 32 ≤ 2^32) {k : Nat} (hk : k < 8) :
    (a + BitVec.ofNat 32 (4 * k)).toNat = a.toNat + 4 * k := by
  rw [BitVec.toNat_add, BitVec.toNat_ofNat]; omega

/-- A descriptor stored at a chain slot stands there. -/
theorem chainCb_descAt {c : Config} (M : c.Meets) {i : Nat} (hi : i < c.chainCbBus.length) (m : Memory) (d : Desc) :
    descAt (Memory.writeAll m (descPairs (c.chainCb i) d)) (c.chainCb i) d := by
  obtain ⟨f1, f2⟩ := M.chainCb_fetchable hi
  obtain ⟨g1, g2, g3⟩ := M.fetchable_words f1
  have al : ∀ k, k < 8 → wordAligned (c.chainCb i + BitVec.ofNat 32 (4 * k)) = true := by
    intro k hk; have := descWord_toNat g1 hk
    simp only [wordAligned, decide_eq_true_eq, extract_low2_eq_zero_iff]; omega
  intro k hk
  obtain ⟨v, hv⟩ : ∃ v, d.words[k]? = some v := ⟨_, List.getElem?_eq_getElem (by rw [Desc.words_length]; omega)⟩
  rw [hv]
  refine Memory.writeAll_word (al k hk) ?_ (.inl ⟨(c.chainCb i + BitVec.ofNat 32 (4 * k), v), mem_descPairs.2 ⟨k, hk,
      rfl, hv⟩, rfl⟩) ?_
  · intro p hp; obtain ⟨k', hk', e, -⟩ := mem_descPairs.1 hp; rw [e]; exact al k' hk'
  · intro p hp e
    obtain ⟨k', hk', e', e2⟩ := mem_descPairs.1 hp
    have h1 := descWord_toNat g1 hk
    have h2 := descWord_toNat g1 hk'
    rw [← e', e] at h2
    obtain rfl : k' = k := by omega
    rw [hv] at e2; exact (Option.some.inj e2).symm

/-! ### The Counter as a list of pairs (44 R298, R299) -/

/-- The pairs of the working and pristine arrays. -/
def counterArrayPairs (c : Config) (q m : Nat) (R : Word) (v : Nat) : List (Word × Word) :=
  (List.range c.blocks).flatMap fun d =>
    wordPairs (c.counterW m d 0) (c.digitArray q R v d) ++ wordPairs (c.counterP m d 0) (c.digitArray q R v d)

/-- The descriptors of a Counter with their slots. -/
def counterDescs (c : Config) (q m : Nat) (R X : Word) (v : Nat) : List (Word × Desc) :=
  ((List.range c.blocks).flatMap fun d => c.digitDescs q m R v d) ++ [c.exitDesc q m X]

/-- The pairs of the descriptors of a Counter. -/
def counterDescPairs (c : Config) (q m : Nat) (R X : Word) (v : Nat) : List (Word × Word) :=
    (counterDescs c q m R X v).flatMap fun p => descPairs p.1 p.2

/-- `counterTasks` as a list of pairs. -/
theorem counterTasks_eq (c : Config) (q m : Nat) (R X : Word) (v : Nat) : counterTasks c q m R X v =
    storeTasks (counterArrayPairs c q m R v ++ counterDescPairs c q m R X v) := by
  rw [storeTasks_append]; unfold counterTasks counterArrayPairs counterDescPairs counterDescs
  congr 1
  · simp only [storeTasks, List.map_flatMap, List.map_append]
    congr 1; funext d; rw [storeWords_eq, storeWords_eq]; rfl
  · simp only [storeTasks, List.map_flatMap]
    congr 1

/-- The initial word i of digit d's arrays. -/
def counterInit (c : Config) (q : Nat) (R : Word) (v d i : Nat) : Word :=
  if i < c.blockLength ∧ i = c.digit v d then c.borrow q d else R

/-- The pairs of a list of words. -/
theorem mem_wordPairs {a : Word} {ws : List Word} {p : Word × Word} : p ∈ wordPairs a ws ↔
    ∃ k, k < ws.length ∧ p = (a + BitVec.ofNat 32 (4 * k), ws.getD k 0#32) := by
  rw [wordPairs_get]; simp only [List.mem_map, List.mem_range]
  constructor
  · rintro ⟨k, hk, rfl⟩; exact ⟨k, hk, rfl⟩
  · rintro ⟨k, hk, rfl⟩; exact ⟨k, hk, rfl⟩

/-- Chain OOL positions are a word apart. -/
theorem chainCo_add (c : Config) (n k : Nat) : c.chainCo n + BitVec.ofNat 32 (4 * k) = c.chainCo (n + k) := by
  unfold Config.chainCo
  rw [BitVec.add_assoc]; congr 1; apply BitVec.eq_of_toNat_eq; simp; omega

/-- The pairs of the arrays: working (e = 0) and pristine (e = 1) word i of digit d. -/
theorem mem_counterArrayPairs {c : Config} {q m : Nat} {R : Word} {v : Nat} {p : Word × Word} :
    p ∈ counterArrayPairs c q m R v ↔
    ∃ d i e, d < c.blocks ∧ i ≤ c.blockLength ∧ e < 2 ∧
      p = (c.chainCo (m + (e * c.blocks + d) * (c.blockLength + 1) + i), counterInit c q R v d i) := by
  have hlen : ∀ d, (c.digitArray q R v d).length = c.blockLength + 1 := by intro d; simp [Config.digitArray]
  have hget : ∀ d k, k < c.blockLength + 1 → (c.digitArray q R v d).getD k 0#32 = counterInit c q R v d k := by
    intro d k hk; simp [Config.digitArray, List.getD, hk, counterInit]
  simp only [counterArrayPairs, List.mem_flatMap, List.mem_range, List.mem_append, mem_wordPairs, hlen]
  constructor
  · rintro ⟨d, hd, ⟨k, hk, rfl⟩ | ⟨k, hk, rfl⟩⟩
    · refine ⟨d, k, 0, hd, by omega, by omega, ?_⟩
      rw [hget d k hk]; simp only [Config.counterW, chainCo_add]; congr 2; ring
    · refine ⟨d, k, 1, hd, by omega, by omega, ?_⟩
      rw [hget d k hk]; simp only [Config.counterP, chainCo_add]; congr 2; ring
  · rintro ⟨d, i, e, hd, hi, he, rfl⟩
    refine ⟨d, hd, ?_⟩
    have : e = 0 ∨ e = 1 := by omega
    rcases this with rfl | rfl
    · left; refine ⟨i, by omega, ?_⟩
      rw [hget d i (by omega)]; simp only [Config.counterW, chainCo_add]; congr 2; ring
    · right; refine ⟨i, by omega, ?_⟩
      rw [hget d i (by omega)]; simp only [Config.counterP, chainCo_add]; congr 2; ring

/-- A word of a Counter's arrays lies in the 2B(L + 1) words it takes. -/
theorem counter_index_lt {B L d i e : Nat} (hd : d < B) (hi : i ≤ L) (he : e < 2) :
    (e * B + d) * (L + 1) + i < 2 * B * (L + 1) := by
  have h1 : (e * B + d + 1) * (L + 1) ≤ 2 * B * (L + 1) := Nat.mul_le_mul_right _ (by
    have : e = 0 ∨ e = 1 := by omega
    rcases this with rfl | rfl <;> omega)
  rw [Nat.add_mul, Nat.one_mul] at h1
  omega

/-- Words of a Counter's arrays at one position belong to one digit and index. -/
theorem counter_index_inj {B L d i e d' i' e' : Nat} (hd : d < B) (hi : i ≤ L) (he : e < 2) (hd' : d' < B)
    (hi' : i' ≤ L) (he' : e' < 2)
    (h : (e * B + d) * (L + 1) + i = (e' * B + d') * (L + 1) + i') : d = d' ∧ i = i' := by
  have h1 := congrArg (· / (L + 1)) h
  have h2 := congrArg (· % (L + 1)) h
  simp only [Nat.mul_comm _ (L + 1)] at h1 h2
  rw [Nat.mul_add_div (by omega), Nat.mul_add_div (by omega), Nat.div_eq_of_lt (by omega),
      Nat.div_eq_of_lt (by omega)] at h1
  rw [Nat.mul_add_mod, Nat.mul_add_mod, Nat.mod_eq_of_lt (by omega), Nat.mod_eq_of_lt (by omega)] at h2
  have a : e = 0 ∨ e = 1 := by omega
  have b : e' = 0 ∨ e' = 1 := by omega
  rcases a with rfl | rfl <;> rcases b with rfl | rfl <;> omega

/-- The descriptor of a Counter at offset j: branch write, save and rotate of digit j / 3, or E. -/
def counterDescAt (c : Config) (q m : Nat) (R X : Word) (v j : Nat) : Desc :=
  if j = 3 * c.blocks then (c.exitDesc q m X).2 else
  if j % 3 = 0 then descCopy (c.counterW m (j / 3) 0)
      (c.chainCb (q + 3 * (j / 3) + 2) + 0x14#32) 0#32 (c.chainCb (q + 3 * (j / 3) + 1))
  else if j % 3 = 1 then descCopy (c.counterW m (j / 3) 0)
      (c.counterW m (j / 3) c.blockLength) 0#32 (c.chainCb (q + 3 * (j / 3) + 2))
  else descCopyWords (c.counterW m (j / 3) 1) (c.counterW m (j / 3) 0) c.blockLength
      (if 0 = c.digit v (j / 3) then c.borrow q (j / 3) else R)

/-- The descriptors of a Counter by offset. -/
theorem mem_counterDescs {c : Config} {q m : Nat} {R X : Word} {v : Nat} {p : Word × Desc} :
    p ∈ counterDescs c q m R X v ↔
    ∃ j, j ≤ 3 * c.blocks ∧ p = (c.chainCb (q + j), counterDescAt c q m R X v j) := by
  simp only [counterDescs, List.mem_append, List.mem_flatMap, List.mem_range, Config.digitDescs,
      List.mem_cons, List.not_mem_nil, or_false]
  constructor
  · rintro (⟨d, hd, rfl | rfl | rfl⟩ | rfl)
    · refine ⟨3 * d, by omega, ?_⟩
      unfold counterDescAt; rw [if_neg (by omega), if_pos (by omega), show 3 * d / 3 = d by omega]
    · refine ⟨3 * d + 1, by omega, ?_⟩
      unfold counterDescAt; rw [if_neg (by omega), if_neg (by omega), if_pos (by omega), show (3 * d + 1) / 3 = d by omega]; rfl
    · refine ⟨3 * d + 2, by omega, ?_⟩
      refine Prod.ext rfl ?_
      show descCopyWords _ _ _ _ = counterDescAt c q m R X v (3 * d + 2)
      symm
      unfold counterDescAt; rw [if_neg (by omega), if_neg (by omega), if_neg (by omega), show (3 * d + 2) / 3 = d by omega]
    · exact ⟨3 * c.blocks, le_rfl, by unfold counterDescAt; rw [if_pos rfl]; rfl⟩
  · rintro ⟨j, hj, rfl⟩
    by_cases h : j = 3 * c.blocks
    · subst h; right; unfold counterDescAt; rw [if_pos rfl]; rfl
    · left; refine ⟨j / 3, by omega, ?_⟩
      have : j % 3 = 0 ∨ j % 3 = 1 ∨ j % 3 = 2 := by omega
      unfold counterDescAt; rw [if_neg h]
      rcases this with e | e | e
      · left; rw [if_pos e, show q + 3 * (j / 3) = q + j by omega]
      · right; left; rw [if_neg (by omega), if_pos e, show q + 3 * (j / 3) + 1 = q + j by omega]
      · right; right; rw [if_neg (by omega), if_neg (by omega), show q + 3 * (j / 3) + 2 = q + j by omega]

/-! ### Stores into the chain region (44 R270) -/

/-- Every pair is an aligned memory word of the chain region. -/
def ChainStores (c : Config) (l : List (Word × Word)) : Prop :=
  ∀ p ∈ l, p.1.toNat % 4 = 0 ∧ c.inMem p.1 = true ∧
    ∀ x : Nat, (∀ a ∈ c.chainCbBus, x < a.toNat ∨ a.toNat + 32 ≤ x) →
        (x < c.chainOolBase.toNat ∨ c.chainOolBase.toNat + 4 * c.chainOol ≤ x) → x < p.1.toNat ∨ p.1.toNat + 4 ≤ x

/-- A descriptor at a chain slot. -/
theorem ChainStores.desc {c : Config} (M : c.Meets) {i : Nat} (hi : i < c.chainCbBus.length) (d : Desc) :
    ChainStores c (descPairs (c.chainCb i) d) := by
  intro p hp
  obtain ⟨k, hk, h1, -⟩ := mem_descPairs.1 hp
  obtain ⟨f1, f2⟩ := M.chainCb_fetchable hi
  obtain ⟨g1, g2, g3⟩ := M.fetchable_words f1
  have := descWord_toNat g1 hk
  rw [h1]
  refine ⟨by omega, g3 _ (by omega) (by omega), ?_⟩
  intro x hx _
  have := hx _ (Config.chainCb_mem hi)
  omega

/-- The NEXTCONBK word of a chain slot. -/
theorem ChainStores.next {c : Config} (M : c.Meets) {i : Nat} (hi : i < c.chainCbBus.length) (v : Word) :
    ChainStores c [(c.chainCb i + 0x14#32, v)] := by
  intro p hp
  rw [List.mem_singleton] at hp; subst hp
  obtain ⟨f1, f2⟩ := M.chainCb_fetchable hi
  obtain ⟨g1, g2, g3⟩ := M.fetchable_words f1
  have := descWord_toNat g1 (k := 5) (by omega)
  have : (c.chainCb i + 0x14#32).toNat = (c.chainCb i).toNat + 20 := this
  simp only
  refine ⟨by omega, g3 _ (by omega) (by omega), ?_⟩
  intro x hx _
  have := hx _ (Config.chainCb_mem hi)
  omega

/-- A chain OOL word. -/
theorem ChainStores.ool {c : Config} (M : c.Meets) {m : Nat} (hm : m < c.chainOol) (v : Word) :
    ChainStores c [(c.chainCo m, v)] := by
  intro p hp
  rw [List.mem_singleton] at hp; subst hp
  refine ⟨(M.chainCo_mem hm).2, (M.chainCo_mem hm).1, ?_⟩
  intro x _ hx
  simp only
  rw [M.chainCo_toNat hm]; omega

/-- Two lists. -/
theorem ChainStores.append {c : Config} {l k : List (Word × Word)} (h1 : ChainStores c l) (h2 : ChainStores c k) :
    ChainStores c (l ++ k) := by
  intro p hp; rcases List.mem_append.1 hp with h | h; exact h1 p h; exact h2 p h

/-- A Counter. -/
theorem ChainStores.counter {c : Config} (M : c.Meets) {q m : Nat} {R X : Word} {v : Nat}
    (hq : q + 3 * c.blocks + 1 ≤ c.chainCbBus.length)
    (hm : m + 2 * c.blocks * (c.blockLength + 1) ≤ c.chainOol) :
        ChainStores c (counterArrayPairs c q m R v ++ counterDescPairs c q m R X v) := by
  refine ChainStores.append ?_ ?_
  · intro p hp
    obtain ⟨d, i, e, h1, h2, h3, rfl⟩ := mem_counterArrayPairs.1 hp
    have := counter_index_lt h1 h2 h3
    exact ChainStores.ool M (by omega) _ _ (List.mem_singleton.2 rfl)
  · intro p hp
    simp only [counterDescPairs, List.mem_flatMap] at hp
    obtain ⟨p', hp', hp⟩ := hp
    obtain ⟨j, hj, rfl⟩ := mem_counterDescs.1 hp'
    exact ChainStores.desc M (by omega) _ p hp

/-- Words of chain descriptors at one address are one word. -/
theorem chainCb_word_inj {c : Config} (M : c.Meets) {i j k l : Nat} (hi : i < c.chainCbBus.length)
    (hj : j < c.chainCbBus.length) (hk : k < 8) (hl : l < 8)
    (h : c.chainCb i + BitVec.ofNat 32 (4 * k) = c.chainCb j + BitVec.ofNat 32 (4 * l)) : i = j ∧ k = l := by
  have h1 := descWord_toNat (M.fetchable_words (M.chainCb_fetchable hi).1).1 hk
  have h2 := descWord_toNat (M.fetchable_words (M.chainCb_fetchable hj).1).1 hl
  rw [h] at h1
  have : i = j := by
    by_contra hne
    have := M.chainCb_apart hi hj hne
    omega
  subst this
  exact ⟨rfl, by omega⟩

/-- No word of a chain descriptor is a chain OOL word. -/
theorem chainCb_word_ne_chainCo {c : Config} (M : c.Meets) {i n k : Nat} (hi : i < c.chainCbBus.length)
    (hn : n < c.chainOol) (hk : k < 8) : c.chainCb i + BitVec.ofNat 32 (4 * k) ≠ c.chainCo n := by
  intro h
  have h1 := descWord_toNat (M.fetchable_words (M.chainCb_fetchable hi).1).1 hk
  have := M.chainCb_chainCo_apart hi hn
  rw [h] at h1; omega

/-- Chain OOL positions at one address are one. -/
theorem chainCo_inj {c : Config} (M : c.Meets) {n k : Nat} (hn : n < c.chainOol) (hk : k < c.chainOol)
    (h : c.chainCo n = c.chainCo k) : n = k := by
  have h1 := M.chainCo_toNat hn
  have h2 := M.chainCo_toNat hk
  rw [h] at h1; omega

/-- Addresses of stores into the chain region are aligned. -/
theorem ChainStores.aligned {c : Config} {l : List (Word × Word)} (h : ChainStores c l) : ∀ p ∈ l, wordAligned p.1 =
    true := fun p hp => by
  simp only [wordAligned, decide_eq_true_eq, extract_low2_eq_zero_iff]; exact (h p hp).1

/-! ### One opcode (44 R274 to R291) -/

/-- What validation keeps of the builder: room for the tail, open heads below the cursor, innermost highest. -/
def Build.good (c : Config) (b : Build) : Prop := b.q + 1 ≤ c.chainCbBus.length ∧ b.m ≤ c.chainOol ∧
    (∀ h ∈ b.openHeads, h < b.q) ∧ b.openHeads.Pairwise (· > ·)

/-- The pairs an opcode is stored as at the builder's cursors. -/
def opPairs (c : Config) (waves : List (Nat × WaveRange)) (b : Build) : Instr → List (Word × Word)
  | .playWave id => match liveWave c waves id with
    | none => []
    | some r => (c.chainCo b.m, c.chainCb (b.q + 1)) :: descPairs (c.chainCb b.q) (descLink (c.chainCo b.m)
        (c.cbBus r.topCB) 0#32 (c.cbBus r.bottomCB))
  | .delayMicros n => if 0 < n then descPairs (c.chainCb b.q) (descPaceSWords c n (c.chainCb (b.q + 1))) else []
  | .loopBegin => descPairs (c.chainCb b.q) (descNop c 0#32 (c.chainCb (b.q + 1)))
  | .loopEnd k => match b.openHeads with
    | [] => []
    | h :: _ => if k = 0 then [(c.chainCb h + 0x14#32, c.chainCb b.q)] else if k = 1 then []
      else counterArrayPairs c b.q b.m (c.chainCb h) (k - 1) ++ counterDescPairs c b.q b.m (c.chainCb h)
          (c.chainCb (b.q + 3 * c.blocks + 1)) (k - 1)
  | _ => []

/-- A chain opcode that validation admits puts its pairs on the host's task list. -/
theorem exec_opPairs {s : State} {i : Instr} {b' : Build} (hk : i.kind = .chain)
    (h : advanceOp s.cfg s.host.waves s.host.build i = .ok b') :
    exec i s = .next ((s.setBuild b').pushTasks (storeTasks (opPairs s.cfg s.host.waves s.host.build i))) := by
  have em : ∀ adv stores, guardOp s.cfg s.host.build adv = .ok b' → s.emitOp adv stores =
      .next ((s.setBuild b').pushTasks stores) := by
    intro adv stores h; simp [State.emitOp, h]
  cases i <;> simp only [Instr.kind, reduceCtorEq] at hk <;> simp only [advanceOp] at h <;> simp only [exec]
  case playWave id =>
    unfold execPlayWave; rw [em _ _ h]; congr 2
    rcases hl : liveWave s.cfg s.host.waves id with _ | r <;> simp [playWaveTasks, opPairs, hl, storeTasks,
        storeDesc_eq]
  case delayMicros n =>
    unfold execDelayMicros; rw [em _ _ h]; congr 2
    by_cases hn : 0 < n <;> simp [delayMicrosTasks, opPairs, hn, storeTasks, storeDesc_eq]
  case loopBegin => unfold execLoopBegin; rw [em _ _ h]; simp only [loopBeginTasks, opPairs, storeDesc_eq]
  case loopEnd k =>
    unfold execLoopEnd; rw [em _ _ h]; congr 2
    rcases ho : s.host.build.openHeads with _ | ⟨hd, rest⟩
    · simp [loopEndTasks, opPairs, ho, storeTasks]
    · simp only [loopEndTasks, opPairs, ho]
      split_ifs
      · rfl
      · rfl
      · rw [counterTasks_eq]
  case repeatForever => unfold execRepeatForever; rw [em _ _ h]; rfl

/-- What an admitted opcode does: where its stores go, and how the cursors and open heads move. -/
structure OpOk (c : Config) (b b' : Build) (i : Instr) (l : List (Word × Word)) : Prop where
  cs : ChainStores c l
  good : Build.good c b'
  q : b.q ≤ b'.q
  m : b.m ≤ b'.m
  heads : ∀ h ∈ b'.openHeads, h ∈ b.openHeads ∨ b.q ≤ h
  whr : ∀ p ∈ l, (∃ j k, b.q ≤ j ∧ j < b'.q ∧ k < 8 ∧ p.1 = c.chainCb j + BitVec.ofNat 32 (4 * k)) ∨ (∃ n, b.m ≤ n ∧
      n < b'.m ∧ p.1 = c.chainCo n) ∨
    (i = .loopEnd 0 ∧ ∃ h, b.openHeads.head? = some h ∧ p = (c.chainCb h + 0x14#32, c.chainCb b.q))
  popped : ∀ k h, i = .loopEnd k → b.openHeads.head? = some h → h ∉ b'.openHeads

/-- Every admitted opcode does so. -/
theorem opOk {c : Config} (M : c.Meets) {waves : List (Nat × WaveRange)} {b b' : Build} {i : Instr} (hk : i.kind =
    .chain)
    (hg : Build.good c b) (h : advanceOp c waves b i = .ok b') : OpOk c b b' i (opPairs c waves b i) := by
  obtain ⟨g1, g2, g3, g4⟩ := hg
  have gd : ∀ adv : Except HostReject Build, guardOp c b adv = .ok b' → adv = .ok b' ∧
      b'.q + 1 ≤ c.chainCbBus.length ∧ b'.m ≤ c.chainOol := by
    intro adv h
    unfold guardOp at h
    split at h
    · cases h
    · split at h
      · cases h
      · split at h
        · cases h
        · cases h; exact ⟨rfl, by omega, by omega⟩
  have dw : ∀ (j : Nat) (d : Desc) p, p ∈ descPairs (c.chainCb j) d → ∃ k, k < 8 ∧ p.1 =
      c.chainCb j + BitVec.ofNat 32 (4 * k) := by
    intro j d p hp; obtain ⟨k, hk, e, -⟩ := mem_descPairs.1 hp; exact ⟨k, hk, e⟩
  cases i <;> simp only [Instr.kind, reduceCtorEq] at hk <;> simp only [advanceOp] at h <;> obtain ⟨ha, h2, h3⟩ :=
      gd _ h
  case playWave id =>
    unfold advPlayWave at ha; split at ha <;> cases ha
    rename_i r hr
    simp only at h2 h3
    have e : opPairs c waves b (.playWave id) = (c.chainCo b.m, c.chainCb (b.q + 1)) :: descPairs (c.chainCb b.q)
        (descLink (c.chainCo b.m) (c.cbBus r.topCB) 0#32 (c.cbBus r.bottomCB)) := by simp [opPairs, hr]
    rw [e]
    refine ⟨ChainStores.append (l := [_]) (ChainStores.ool M (by omega) _) (ChainStores.desc M (by omega) _), ⟨h2,
        h3, fun h hh => by have := g3 h hh; simp only; omega, g4⟩, by simp, by simp, fun h hh => .inl hh, ?_, by simp⟩
    intro p hp
    rcases List.mem_cons.1 hp with rfl | hp
    · right; left; exact ⟨b.m, le_rfl, by simp, rfl⟩
    · obtain ⟨k, hk, e⟩ := dw _ _ _ hp
      left; exact ⟨b.q, k, le_rfl, by simp, hk, e⟩
  case delayMicros n =>
    unfold advDelayMicros at ha
    split_ifs at ha with a1 a2 <;> cases ha
    · simp only at h2 h3
      have e : opPairs c waves b (.delayMicros n) = descPairs (c.chainCb b.q)
          (descPaceSWords c n (c.chainCb (b.q + 1))) := by simp [opPairs, a2]
      rw [e]
      refine ⟨ChainStores.desc M (by omega) _, ⟨h2, h3, fun h hh => by have := g3 h hh; simp only; omega, g4⟩,
          by simp, by simp, fun h hh => .inl hh, ?_, by simp⟩
      intro p hp
      obtain ⟨k, hk, e⟩ := dw _ _ _ hp
      left; exact ⟨b.q, k, le_rfl, by simp, hk, e⟩
    · have e : opPairs c waves b (.delayMicros n) = [] := by simp [opPairs, a2]
      rw [e]
      exact ⟨(fun p hp => nomatch hp), ⟨h2, h3, g3, g4⟩, le_rfl, le_rfl, fun h hh => .inl hh,
          (fun p hp => nomatch hp), by simp⟩
  case loopBegin =>
    unfold advLoopBegin at ha; split_ifs at ha; cases ha
    simp only at h2 h3
    refine ⟨ChainStores.desc M (by omega) _, ⟨h2, h3, ?_, ?_⟩, by simp, by simp, ?_, ?_, by simp⟩
    · intro h hh
      rcases List.mem_cons.1 hh with rfl | hh
      · simp
      · have := g3 h hh; simp only; omega
    · exact List.pairwise_cons.2 ⟨fun h hh => g3 h hh, g4⟩
    · intro h hh
      rcases List.mem_cons.1 hh with rfl | hh
      · exact .inr le_rfl
      · exact .inl hh
    · intro p hp
      obtain ⟨k, hk, e⟩ := dw _ _ _ hp
      left; exact ⟨b.q, k, le_rfl, by simp, hk, e⟩
  case loopEnd k =>
    unfold advLoopEnd at ha
    rcases ho : b.openHeads with _ | ⟨hd, rest⟩
    · rw [ho] at ha; cases ha
    · rw [ho] at ha g4
      have hhd : hd < b.q := g3 hd (by rw [ho]; simp)
      have hrest : ∀ x ∈ rest, x < b.q := fun x hx => g3 x (by rw [ho]; exact List.mem_cons_of_mem _ hx)
      obtain ⟨g5, g6⟩ := List.pairwise_cons.1 g4
      have hpop : hd ∉ rest := fun hh => by have := g5 hd hh; omega
      simp only at ha
      by_cases hk2 : 2 ≤ k
      · split_ifs at ha with a1 a2
        cases ha
        simp only at h2 h3
        have e : opPairs c waves b (.loopEnd k) = counterArrayPairs c b.q b.m (c.chainCb hd)
            (k - 1) ++ counterDescPairs c b.q b.m (c.chainCb hd) (c.chainCb (b.q + 3 * c.blocks + 1)) (k - 1) := by
          simp only [opPairs, ho]; rw [if_neg (by omega), if_neg (by omega)]
        rw [e]
        refine ⟨ChainStores.counter M (by omega) (by omega), ⟨h2, h3, fun h hh => by
          have := hrest h hh; simp only; omega, g6⟩, by simp, by simp,
            fun h hh => .inl (by rw [ho]; exact List.mem_cons_of_mem _ hh), ?_, ?_⟩
        · intro p hp
          rcases List.mem_append.1 hp with hp | hp
          · obtain ⟨d, i, e, h1, h2, h3, rfl⟩ := mem_counterArrayPairs.1 hp
            right; left
            have := counter_index_lt (L := c.blockLength) h1 h2 h3
            exact ⟨_, by omega, by simp only; omega, rfl⟩
          · simp only [counterDescPairs, List.mem_flatMap] at hp
            obtain ⟨p', hp', hp⟩ := hp
            obtain ⟨j, hj, rfl⟩ := mem_counterDescs.1 hp'
            obtain ⟨k', hk', e⟩ := dw _ _ _ hp
            left; exact ⟨b.q + j, k', by omega, by simp only; omega, hk', e⟩
        · intro k' h _ e; rw [ho] at e; cases e; exact hpop
      · have hb : b' = { b with openHeads := rest } := by split_ifs at ha; cases ha; rfl
        subst hb
        have hgood : Build.good c { b with openHeads := rest } := ⟨h2, h3, hrest, g6⟩
        by_cases hk0 : k = 0
        · subst hk0
          have e : opPairs c waves b (.loopEnd 0) = [(c.chainCb hd + 0x14#32, c.chainCb b.q)] := by simp [opPairs, ho]
          rw [e]
          refine ⟨ChainStores.next M (by omega) _, hgood, le_rfl, le_rfl,
              fun h hh => .inl (by rw [ho]; exact List.mem_cons_of_mem _ hh), ?_, ?_⟩
          · intro p hp; rw [List.mem_singleton] at hp; subst hp
            right; right; exact ⟨rfl, hd, by rw [ho]; rfl, rfl⟩
          · intro k' h _ e; rw [ho] at e; cases e; exact hpop
        · have e : opPairs c waves b (.loopEnd k) = [] := by simp only [opPairs, ho]; rw [if_neg hk0, if_pos (by omega)]
          rw [e]
          refine ⟨(fun p hp => nomatch hp), hgood, le_rfl, le_rfl,
              fun h hh => .inl (by rw [ho]; exact List.mem_cons_of_mem _ hh), (fun p hp => nomatch hp), ?_⟩
          intro k' h _ e; rw [ho] at e; cases e; exact hpop
  case repeatForever =>
    unfold advRepeatForever at ha; cases ha
    exact ⟨(fun p hp => nomatch hp), ⟨h2, h3, g3, g4⟩, le_rfl, le_rfl, fun h hh => .inl hh, (fun p hp => nomatch hp),
        by simp⟩

/-! ### A program (44 R271 to R274) -/

/-- The pairs a program is stored as. -/
def itemPairs (c : Config) (waves : List (Nat × WaveRange)) : Build → List ChainItem → List (Word × Word)
  | _, [] => []
  | b, x :: xs => (match x.opcode with | some i => opPairs c waves b i | none => []) ++
      (match advanceItem c waves b x with | .ok b' => itemPairs c waves b' xs | .error _ => [])

/-- A program item stands for a chain opcode. -/
theorem opcode_chain {x : ChainItem} {i : Instr} (h : x.opcode = some i) : i.kind = .chain := by
  cases x with
  | word w =>
    have h : decodeChain w = some i := h
    unfold decodeChain at h
    split_ifs at h <;> cases h <;> rfl
  | op j => simp only [ChainItem.opcode] at h; split_ifs at h with hk; cases h; exact hk

/-- An admitted item is an admitted opcode. -/
theorem advanceItem_ok {c : Config} {waves : List (Nat × WaveRange)} {b b' : Build} {x : ChainItem}
    (h : advanceItem c waves b x = .ok b') :
    ∃ i, x.opcode = some i ∧ advanceOp c waves b i = .ok b' := by
  unfold advanceItem at h; split at h
  · cases h
  · rename_i i hi; exact ⟨i, hi, h⟩

/-- A program by its first item. -/
theorem advanceItems_cons {c : Config} {waves : List (Nat × WaveRange)} {b b'' : Build} {x : ChainItem}
    {xs : List ChainItem}
    (h : advanceItems c waves b (x :: xs) = .ok b'') : ∃ i b', x.opcode = some i ∧ advanceOp c waves b i = .ok b' ∧
        advanceItem c waves b x = .ok b' ∧
      advanceItems c waves b' xs = .ok b'' ∧ itemPairs c waves b (x :: xs) =
          opPairs c waves b i ++ itemPairs c waves b' xs := by
  simp only [advanceItems] at h
  split at h
  · cases h
  · rename_i b' hb
    obtain ⟨i, hi, ha⟩ := advanceItem_ok hb
    exact ⟨i, b', hi, ha, hb, h, by simp only [itemPairs, hi, hb]⟩

/-- A program by any item. -/
theorem items_split {c : Config} {waves : List (Nat × WaveRange)} {x : ChainItem} {post : List ChainItem} {b1 b'' :
    Build} : ∀ (pre : List ChainItem) (b : Build),
    advanceItems c waves b (pre ++ x :: post) = .ok b'' → advanceItems c waves b pre = .ok b1 →
    ∃ i b2, x.opcode = some i ∧ advanceOp c waves b1 i = .ok b2 ∧ advanceItem c waves b1 x = .ok b2 ∧
        advanceItems c waves b2 post = .ok b'' ∧
      itemPairs c waves b (pre ++ x :: post) =
          itemPairs c waves b pre ++ (opPairs c waves b1 i ++ itemPairs c waves b2 post) := by
  intro pre
  induction pre with
  | nil =>
    intro b h h1
    cases h1
    obtain ⟨i, b', a1, a2, a3, a4, a5⟩ := advanceItems_cons h
    exact ⟨i, b', a1, a2, a3, a4, by simpa [itemPairs] using a5⟩
  | cons y ys ih =>
    intro b h h1
    obtain ⟨i, b', a1, a2, a3, a4, a5⟩ := advanceItems_cons (xs := ys ++ x :: post) h
    obtain ⟨i', b3, c1, c2, c3, c4, c5⟩ := advanceItems_cons h1
    rw [a3] at c3; cases c3
    rw [a1] at c1; cases c1
    obtain ⟨j, b2, d1, d2, d3, d4, d5⟩ := ih b' a4 c4
    refine ⟨j, b2, d1, d2, d3, d4, ?_⟩
    show itemPairs c waves b (y :: (ys ++ x :: post)) = _
    rw [a5, d5, c5, List.append_assoc]

/-- Where a program's stores go, and that its builder stays good. -/
theorem items_where {c : Config} (M : c.Meets) {waves : List (Nat × WaveRange)} : ∀ (xs : List ChainItem) (b b' :
    Build), Build.good c b → advanceItems c waves b xs = .ok b' →
    Build.good c b' ∧ b.q ≤ b'.q ∧ b.m ≤ b'.m ∧ ChainStores c (itemPairs c waves b xs) ∧
    ∀ p ∈ itemPairs c waves b xs, (∃ j k, b.q ≤ j ∧ j < b'.q ∧ k < 8 ∧ p.1 = c.chainCb j + BitVec.ofNat 32 (4 * k)) ∨
        (∃ n, b.m ≤ n ∧ n < b'.m ∧ p.1 = c.chainCo n) ∨
      (∃ h ∈ b.openHeads, p.1 = c.chainCb h + 0x14#32 ∧ ∃ pre x post e, xs = pre ++ x :: post ∧
          advanceItems c waves b pre = .ok e ∧
        x.opcode = some (.loopEnd 0) ∧ e.openHeads.head? = some h) := by
  intro xs
  induction xs with
  | nil => intro b b' hg h; cases h; exact ⟨hg, le_rfl, le_rfl, (fun p hp => nomatch hp), (fun p hp => nomatch hp)⟩
  | cons x xs ih =>
    intro b b'' hg h
    obtain ⟨i, b', a1, a2, a3, a4, a5⟩ := advanceItems_cons h
    have ok := opOk M (opcode_chain a1) hg a2
    obtain ⟨e1, e2, e3, e4, e5⟩ := ih b' b'' ok.good a4
    have hq := ok.q
    have hm := ok.m
    rw [a5]
    refine ⟨e1, by omega, by omega, ChainStores.append ok.cs e4, ?_⟩
    intro p hp
    rcases List.mem_append.1 hp with hp | hp
    · rcases ok.whr p hp with ⟨j, k, h1, h2, h3, h4⟩ | ⟨n, h1, h2, h3⟩ | ⟨rfl, h, h1, rfl⟩
      · exact .inl ⟨j, k, h1, by omega, h3, h4⟩
      · exact .inr (.inl ⟨n, h1, by omega, h3⟩)
      · refine .inr (.inr ⟨h, List.mem_of_mem_head? (by rw [h1]; rfl), rfl, [], x, xs, b, rfl, rfl, a1, h1⟩)
    · rcases e5 p hp with ⟨j, k, h1, h2, h3, h4⟩ | ⟨n, h1, h2, h3⟩ | ⟨h, h1, h2, pre, y, post, e, h3, h4, h5, h6⟩
      · exact .inl ⟨j, k, by omega, h2, h3, h4⟩
      · exact .inr (.inl ⟨n, by omega, h2, h3⟩)
      · rcases ok.heads h h1 with hh | hh
        · refine .inr (.inr ⟨h, hh, h2, x :: pre, y, post, e, by rw [h3]; rfl, ?_, h5, h6⟩)
          simp only [advanceItems, a3]; exact h4
        · have := ok.good.2.2.1 h h1
          exact .inl ⟨h, 5, hh, by omega, by omega, h2⟩

/-- The builder starts good. -/
theorem Build.good_init {c : Config} (M : c.Meets) : Build.good c Build.init := by
  have hl : 1 ≤ c.chainCbBus.length := by
    rcases h : c.chainCbBus with _ | _
    · exact absurd h M.slots
    · simp
  exact ⟨hl, Nat.zero_le _, (fun p hp => nomatch hp), .nil⟩

end Sys2Proof.Machine
end

