-- ==== Sys2Proof/Laws/PerInstr.lean ====
section
/-!
SUPPORT. Statements about every instruction as syntax, one lemma per constructor.
-/
namespace Sys2Proof.Laws.EncodeShape
open Sys2Proof

/-- An instruction has the number of words of its format in spec/opcode_table.json: eight for a transfer descriptor
(30 R110), one for a chain opcode (30 R130), none for a host step. -/
def Statement (i : Instr) : Prop :=
  ∀ c : Config, (encode c i).length = match i.kind with
    | .descriptor => 8
    | .chain => 1
    | .host => 0

theorem set (m : Word) (stride : Word) (next : Word) : Statement (.set m stride next) := fun _ => rfl
theorem clr (m : Word) (stride : Word) (next : Word) : Statement (.clr m stride next) := fun _ => rfl
theorem lev (cell : Word) (stride : Word) (next : Word) : Statement (.lev cell stride next) := fun _ => rfl
theorem tick (cell : Word) (stride : Word) (next : Word) : Statement (.tick cell stride next) := fun _ => rfl
theorem paceP (t : BitVec 28) (stride : Word) (next : Word) : Statement (.paceP t stride next) := fun _ => rfl
theorem paceS (t : BitVec 28) (stride : Word) (next : Word) : Statement (.paceS t stride next) := fun _ => rfl
theorem copy (src : Word) (dst : Word) (stride : Word) (next : Word) : Statement (.copy src dst stride next) := fun _ => rfl
theorem copyN (src : Word) (dst : Word) (w : BitVec 28) (stride : Word) (next : Word) : Statement (.copyN src dst w stride next) := fun _ => rfl
theorem xfer (f : XferTI) (src : Word) (dst : Word) (n : BitVec 28) (stride : Word) (next : Word) : Statement (.xfer f src dst n stride next) := fun _ => rfl
theorem nop (stride : Word) (next : Word) : Statement (.nop stride next) := fun _ => rfl
theorem link (cell : Word) (t : Word) (stride : Word) (next : Word) : Statement (.link cell t stride next) := fun _ => rfl
theorem playWave (id : Nat) : Statement (.playWave id) := fun _ => rfl
theorem delayMicros (n : Nat) : Statement (.delayMicros n) := fun _ => rfl
theorem loopBegin : Statement .loopBegin := fun _ => rfl
theorem loopEnd (k : Nat) : Statement (.loopEnd k) := fun _ => rfl
theorem repeatForever : Statement .repeatForever := fun _ => rfl
theorem arm (ch : ChanId) (a : Word) : Statement (.arm ch a) := fun _ => rfl
theorem reset (ch : ChanId) : Statement (.reset ch) := fun _ => rfl
theorem busy (ch : ChanId) : Statement (.busy ch) := fun _ => rfl
theorem store (a : Word) (v : Word) : Statement (.store a v) := fun _ => rfl
theorem load (a : Word) : Statement (.load a) := fun _ => rfl
theorem pacerCfg (t : Nat) : Statement (.pacerCfg t) := fun _ => rfl
theorem waveclk : Statement .waveclk := fun _ => rfl
theorem gpioSet (v : Word) : Statement (.gpioSet v) := fun _ => rfl
theorem gpioClr (v : Word) : Statement (.gpioClr v) := fun _ => rfl
theorem stop (ch : ChanId) : Statement (.stop ch) := fun _ => rfl
theorem csread (ch : ChanId) : Statement (.csread ch) := fun _ => rfl

end Sys2Proof.Laws.EncodeShape
end

