-- ==== Sys2Proof/Laws/Steps.lean ====
section
/-!
SUPPORT. Everything a step can do, said once: a property that every named operation keeps, every step keeps.
-/
namespace Sys2Proof.Machine

/-- A property of states that each operation a step is made of keeps. Each field gives what is known where the step
makes that operation. -/
structure KeptByOps (Inv : State → Prop) : Prop where
  sched : ∀ {s : State} (l : List Agent), Inv s → Inv { s with sched := l }
  drawn : ∀ {s : State}, Inv s → Inv s.drawn
  cur : ∀ {s : State} (ch : ChanId), Inv s → Inv (s.setCur ch)
  todo : ∀ {s : State} (ts : List HostTask), Inv s → Inv (s.setTodo ts)
  ret : ∀ {s : State} (r : Ret), Inv s → Inv (s.setRet r)
  build : ∀ {s : State} (b : Build), Inv s → Inv (s.setBuild b)
  register : ∀ {s : State} (id : Nat) (r : WaveRange), s.cfg.admitsRange s.host.waves id r = true → Inv s →
    Inv (s.setWaves (Table.set s.host.waves id r))
  delete : ∀ {s : State} (id : Nat) (r : WaveRange), Table.get s.host.waves id = some r → Inv s →
    Inv (s.setWaves (Table.set s.host.waves id { r with deleted := true }))
  carrier : ∀ {s : State} (b : Bool), Inv s → Inv (s.setCarrier b)
  refuse : ∀ {s : State}, Inv s → Inv s.refuse
  tick : ∀ {s : State} (pc : ChanId), s.tickEnabled pc = true → Inv s → Inv (s.pacerTick pc)
  raise : ∀ {s : State} (ch : ChanId) (r : FaultReason), s.canStep ch = true → Inv s → Inv (s.raise ch r)
  early : ∀ {s : State} (ch : ChanId) (e : List (Nat × Option Word)) (k : Fin 8), s.canStep ch = true →
    (s.chan ch).phase = .fetch e → Table.get e k = none → Inv s →
    Inv (s.setPhase ch (.fetch (Table.set e k (s.descWord (s.chan ch).conblkAd k))))
  load : ∀ {s : State} (ch : ChanId) (e : List (Nat × Option Word)) (d : Desc) (i : Instr), s.canStep ch = true →
    (s.chan ch).phase = .fetch e → s.fetchDesc e (s.chan ch).conblkAd = .ok d → decodeDesc s.cfg d = .ok i → Inv s → Inv (s.loadDesc ch d)
  read : ∀ {s t : State} (ch : ChanId) (d : Desc) (n i : Nat) (v : Word), s.canStep ch = true →
    (s.chan ch).phase = .exec d n i none → i < n → s.busRead (d.srcAt i) = .ok (v, t) → Inv s →
    Inv (t.setPhase ch (.exec d n i (some v)))
  write : ∀ {s t : State} (ch : ChanId) (d : Desc) (n i : Nat) (v : Word), s.canStep ch = true →
    (s.chan ch).phase = .exec d n i (some v) → i < n → s.busWrite ch (d.dstAt i) v = .ok t → Inv s →
    Inv ((if s.isSample (d.srcAt i) (d.dstAt i) then t.log (.sample ch (d.dstAt i) v) else t).setPhase ch
      (.exec d n (i + 1) none))
  complete : ∀ {s : State} (ch : ChanId) (d : Desc) (n : Nat), s.canStep ch = true →
    (s.chan ch).phase = .exec d n n none → Inv s → Inv (s.complete ch d.nextconbk)
  reset : ∀ {s : State} (ch : ChanId), Inv s → Inv (s.resetChan ch)
  stopped : ∀ {s : State} (ch : ChanId), Inv s → Inv (s.log (.stop ch))
  arm : ∀ {s : State} (ch : ChanId) (a : Word), Inv s → Inv (s.armChan ch a)
  pause : ∀ {s : State} (ch : ChanId), Inv s → Inv (s.setChan ch { s.chan ch with active := false })
  resume : ∀ {s : State} (ch : ChanId), (s.chan ch).phase ≠ .idle → Inv s →
    Inv (s.setChan ch { s.chan ch with active := true })
  store : ∀ {s : State} (a v : Word), wordAligned a = true → s.cfg.inMem a = true → Inv s →
    Inv (s.setMem (s.mem.writeWord a v))
  gpioSet : ∀ {s : State} (v : Word), Inv s → Inv (s.gpioSet .host v)
  gpioClr : ∀ {s : State} (v : Word), Inv s → Inv (s.gpioClr .host v)
  configureP : ∀ {s : State} (t : Nat), Inv s → Inv (s.configurePacer .P t)
  waveClock : ∀ {s : State}, s.host.waveClockReady = false → Inv s → Inv s.takeWaveClock

variable {Inv : State → Prop}

/-- One engine step of a channel on the descriptor it has fetched or loaded. -/
theorem KeptByOps.engineStep (k : KeptByOps Inv) {s : State} (ch : ChanId) (d : Desc) (i : Instr)
    (hf : ∀ e, (s.chan ch).phase = .fetch e → s.fetchDesc e (s.chan ch).conblkAd = .ok d)
    (hl : ∀ d0 n j h, (s.chan ch).phase = .exec d0 n j h → d0 = d) (hi : decodeDesc s.cfg d = .ok i) (h : Inv s) :
    Inv (s.engineStep ch d) := by
  rcases s.engineStep_cases ch d with e | ⟨w, hc, hp, e⟩ | ⟨d0, n, j, hc, hp, hj, e⟩ | ⟨d0, n, j, v, hc, hp, hj, e⟩ |
    ⟨d0, n, hc, hp, e⟩ <;> rw [e]
  · exact h
  · exact k.load ch w d i hc hp (hf w hp) hi h
  · obtain rfl := hl _ _ _ _ hp
    unfold State.beatRead
    split
    · rename_i v t hr
      exact k.read ch _ n j v hc hp hj hr h
    · exact k.raise ch _ hc h
  · obtain rfl := hl _ _ _ _ hp
    unfold State.beatWrite
    split
    · exact h
    · split
      · rename_i t hw
        exact k.write ch _ n j v hc hp hj hw h
      · exact k.raise ch _ hc h
  · obtain rfl := hl _ _ _ _ hp
    exact k.complete ch _ n hc hp h

/-- A channel's turn. -/
theorem KeptByOps.chanStep (k : KeptByOps Inv) {s t : State} (ch : ChanId) (h : Inv s) (hs : s.chanStep ch = .next t) :
    Inv t := by
  have hc := k.cur ch h
  have hcur : (s.setCur ch).cur = ch := rfl
  unfold State.chanStep at hs
  generalize s.setCur ch = u at hs hc hcur
  subst hcur
  simp only at hs
  split at hs
  · cases hs; exact hc
  · rename_i hcan
    split at hs
    · cases hs; exact hc
    · rename_i e hp
      split at hs
      · rename_i i hi
        unfold State.fetchInstr at hi
        split at hi
        · rename_i d hd
          rw [exec_decoded hi] at hs
          cases hs
          exact k.engineStep _ d i (fun e' h' => by rw [hp] at h'; cases h'; exact hd) (fun d0 n j x hx => by rw [hp] at hx; cases hx) hi hc
        · cases hi
      · cases hs; exact k.raise _ _ (by simpa using hcan) hc
    · rename_i d n j x hp
      split at hs
      · rename_i i hi
        rw [exec_decoded hi] at hs
        cases hs
        exact k.engineStep _ d i (fun _ hx => by rw [hp] at hx; cases hx)
          (fun d0 n' j' x' hx => by rw [hp] at hx; cases hx; rfl) hi hc
      · cases hs; exact k.raise _ _ (by simpa using hcan) hc

theorem KeptByOps.hostStore (k : KeptByOps Inv) {s : State} (a v : Word) (h : Inv s) : Inv (s.hostStore a v) := by
  unfold State.hostStore State.hostReaches
  split
  · rename_i ha
    rw [Bool.and_eq_true] at ha
    exact k.store a v ha.1 ha.2 h
  · exact k.refuse h

theorem KeptByOps.emitOp (k : KeptByOps Inv) {s t : State} (adv : Except HostReject Build) (stores : List HostTask)
    (h : Inv s) (hs : s.emitOp adv stores = .next t) : Inv t := by
  rcases s.emitOp_cases adv stores with ⟨e, -, he⟩ | ⟨b, -, he⟩ <;> rw [he] at hs <;> cases hs
  · exact k.ret _ h
  · exact k.todo _ (k.build b h)

/-- A host step or chain opcode. -/
theorem KeptByOps.execHost (k : KeptByOps Inv) {s t : State} (i : Instr) (hk : i.kind ≠ .descriptor) (h : Inv s)
    (hs : exec i s = .next t) : Inv t := by
  cases i <;> simp only [Instr.kind, ne_eq, not_true_eq_false, reduceCtorEq, not_false_eq_true] at hk <;>
    simp only [exec] at hs
  case playWave => exact k.emitOp _ _ h hs
  case delayMicros => exact k.emitOp _ _ h hs
  case loopBegin => exact k.emitOp _ _ h hs
  case loopEnd => exact k.emitOp _ _ h hs
  case repeatForever => exact k.emitOp _ _ h hs
  case arm ch a => cases hs; exact k.arm ch a h
  case reset ch => cases hs; exact k.reset ch h
  case busy ch => cases hs; exact k.ret _ h
  case store a v => cases hs; exact k.hostStore a v h
  case load a =>
    cases hs
    unfold State.hostLoad
    split
    · split
      · exact k.ret _ h
      · exact k.drawn (k.ret _ h)
    · exact k.refuse (k.ret _ h)
  case pacerCfg tickMicros =>
    unfold execPacerCfg at hs
    split at hs <;> cases hs
    · exact k.ret _ h
    · exact k.configureP _ h
  case waveclk =>
    unfold execWaveclk at hs
    split at hs <;> cases hs
    · exact h
    · rename_i hr; exact k.waveClock (by simpa using hr) h
  case gpioSet v => cases hs; exact k.gpioSet v h
  case gpioClr v => cases hs; exact k.gpioClr v h
  case stop ch =>
    cases ch <;> cases hs
    · exact k.carrier _ (k.stopped _ (k.reset _ h))
    · exact k.stopped _ (k.reset _ h)
  case csread ch => cases hs; exact k.drawn (k.ret _ h)

theorem KeptByOps.csWrite (k : KeptByOps Inv) {s : State} (ch : ChanId) (v : Word) (h : Inv s) :
    Inv (s.csWrite ch v) := by
  unfold State.csWrite
  split
  · exact k.refuse h
  · split
    · exact k.reset ch h
    · split
      · exact k.pause ch h
      · rename_i hp
        rcases v.getLsbD 0 with _ | _
        · exact k.pause ch h
        · exact k.resume ch hp h

/-- A host task that is no instruction. -/
theorem KeptByOps.runTask (k : KeptByOps Inv) {s : State} (x : HostTask) (h : Inv s) : Inv (s.runTask x) := by
  cases x <;> simp only [State.runTask]
  case instr => exact h
  case word => exact h
  case tail => exact k.todo _ h
  case carrierStarted => exact k.carrier _ h
  case checkSize e f =>
    unfold State.checkSize
    split
    · exact h
    · exact k.refuse (k.todo _ (k.ret _ h))
  case register id r =>
    unfold State.registerWave
    split
    · rename_i ha; exact k.ret _ (k.register id r ha h)
    · exact k.refuse h
  case rmwStore a m b =>
    unfold State.rmwStore
    split
    · exact k.hostStore _ _ h
    all_goals exact h
  case ret r => exact k.ret _ h
  case csWrite ch v => exact k.csWrite ch v h
  case narrowAccess => exact k.refuse h
  case loadedRegAccess => exact k.refuse h
  case start a b =>
    unfold State.carrierStart
    split
    · exact k.ret _ h
    · exact k.todo _ h
  case compile p m a =>
    unfold State.compileWave
    split
    · exact k.ret _ h
    · split
      · exact k.ret _ h
      · split
        · exact k.todo _ h
        · exact k.refuse h
  case play id m =>
    unfold State.play
    split
    · exact k.ret _ h
    · exact k.todo _ h
  case submit p =>
    unfold State.submit
    split
    · exact k.ret _ h
    · exact k.todo _ (k.build _ h)
  case delete id =>
    unfold State.deleteWave
    split
    · rename_i r hr; exact k.ret _ (k.delete id r hr h)
    · exact k.ret _ h
  case info id => exact k.ret _ h
  case tableUpdate a m b => exact k.todo _ h

/-- The host's turn. -/
theorem KeptByOps.hostStep (k : KeptByOps Inv) {s t : State} (h : Inv s) (hs : s.hostStep = .next t) : Inv t := by
  unfold State.hostStep at hs
  split at hs
  · cases hs; exact h
  · split at hs
    · cases hs; exact k.refuse (k.todo _ h)
    · rename_i hk; exact k.execHost _ hk (k.todo _ h) hs
  · split at hs
    · rename_i w rest _ i hi
      refine k.execHost i ?_ (k.todo _ h) hs
      unfold decodeChain at hi
      split_ifs at hi <;> cases hi <;> simp [Instr.kind]
    · cases hs; exact k.ret _ (k.todo _ h)
  · cases hs; exact k.runTask _ (k.todo _ h)

/-- A property that every operation keeps, every step keeps. -/
theorem KeptByOps.step (k : KeptByOps Inv) {s t : State} (h : Inv s) (hs : step s = .next t) : Inv t := by
  have ht : Inv s.takeTurn.2 := by
    unfold State.takeTurn
    split
    · exact k.sched _ h
    · exact k.drawn h
  unfold Machine.step State.agentStep at hs
  split at hs
  · exact k.hostStep ht hs
  · exact k.chanStep _ ht hs
  · rename_i ch x _
    cases hs
    rcases s.takeTurn.2.earlyRead_cases ch x with he | ⟨e, hc, hp, hg, he⟩ <;> rw [he]
    · exact ht
    · exact k.early ch e x hc hp hg ht
  · rename_i pc _
    cases hs
    rcases he : s.takeTurn.2.tickEnabled pc with _ | _
    · unfold State.pacerTick; rw [he]; exact ht
    · exact k.tick pc he ht

end Sys2Proof.Machine
end

