-- ==== Sys2Proof/Laws/Waves.lean ====
section
/-!
SUPPORT. What the registry's conditions on a range say of its positions (43 R240), and where the stores of a compile go
(43 R242, R243).
-/
namespace Sys2Proof

/-- Spans are apart where no position is in both. -/
theorem spansApart_iff (a n b m : Nat) :
    spansApart a n b m = true ↔ ∀ k, ¬ ((a ≤ k ∧ k < a + n) ∧ (b ≤ k ∧ k < b + m)) := by
  simp only [spansApart, apart, Bool.or_eq_true, decide_eq_true_eq]
  constructor
  · intro h k; omega
  · intro h
    by_contra h'
    exact h (max a b) (by omega)

/-- What a span of OOL positions in the wave part is. -/
theorem Config.oolSpan_iff (c : Config) (a n : Nat) : c.oolSpanInWavePart a n = true ↔
    ∀ k, a ≤ k → k < a + n → k < c.pageBus.length * c.oolPerPage ∧ c.oolBus k ≠ c.zw ∧
      (k < c.carrierOol0 ∨ c.carrierOol0 + c.carrierOol ≤ k) := by
  simp only [Config.oolSpanInWavePart, Bool.or_eq_true, Bool.and_eq_true, decide_eq_true_eq, spansApart_iff,
    List.all_eq_true, List.mem_range]
  constructor
  · rintro (rfl | ⟨⟨h1, h2⟩, h3⟩) k ha hk
    · omega
    · have h3 := h3 (k - a) (by omega)
      rw [show a + (k - a) = k by omega] at h3
      refine ⟨by omega, h3, ?_⟩
      have := h2 k
      omega
  · intro h
    by_cases hn : n = 0
    · exact .inl hn
    · refine .inr ⟨⟨?_, ?_⟩, fun k hk => (h (a + k) (by omega) (by omega)).2.1⟩
      · have := (h (a + n - 1) (by omega) (by omega)).1; omega
      · rintro k ⟨⟨h1, h2⟩, h3⟩
        have := (h k h1 h2).2.2
        omega

namespace Machine

/-- The top cells lie in the span from `topBase`. -/
theorem WaveRange.oolAt_span {r : WaveRange} {n : Nat} (h : r.oolAt n) :
    (r.bottomOOL ≤ n ∧ n < r.bottomOOL + r.oolBottomCount) ∨ (r.topBase ≤ n ∧ n < r.topBase + r.oolTopCount) := by
  unfold WaveRange.oolAt at h
  unfold WaveRange.topBase
  omega

/-- Everything `rangeOk` says of a range. -/
theorem rangeOk_positions {c : Config} {r : WaveRange} (h : c.rangeOk r = true) :
    1 ≤ r.cbCount ∧ r.topCB = r.bottomCB + r.cbCount - 1 ∧ r.oolTopCount ≤ r.topOOL + 1 ∧
    (∀ n, r.cbAt n → n < c.pageBus.length * c.cbsPerPage ∧ (n < c.carrierCb0 ∨ c.carrierCb0 + c.carrierCbs ≤ n)) ∧
    (∀ n, r.oolAt n → n < c.pageBus.length * c.oolPerPage ∧ c.oolBus n ≠ c.zw ∧
      (n < c.carrierOol0 ∨ c.carrierOol0 + c.carrierOol ≤ n)) ∧
    ∀ n, ¬ ((r.bottomOOL ≤ n ∧ n < r.bottomOOL + r.oolBottomCount) ∧ (n ≤ r.topOOL ∧
        r.topOOL < n + r.oolTopCount)) := by
  simp only [Config.rangeOk, Config.cbSpanInWavePart, Bool.and_eq_true, decide_eq_true_eq, spansApart_iff,
    Config.oolSpan_iff] at h
  obtain ⟨⟨⟨⟨⟨⟨h1, h2⟩, h3, h4⟩, h5⟩, h6⟩, h7⟩, h8⟩ := h
  refine ⟨h1, by omega, h6, ?_, ?_, ?_⟩
  · intro n hn
    have := h4 n
    unfold WaveRange.cbAt at hn
    omega
  · intro n hn
    exact (WaveRange.oolAt_span hn).elim (fun hn => h5 n hn.1 hn.2) (fun hn => h7 n hn.1 hn.2)
  · intro n hn
    have := h8 n
    unfold WaveRange.topBase at this
    omega

/-- Ranges that are apart share no position. -/
theorem WaveRange.apartFrom_positions {r q : WaveRange} (h : r.apartFrom q = true) (n : Nat) :
    ¬ (r.cbAt n ∧ q.cbAt n) ∧ ¬ (r.oolAt n ∧ q.oolAt n) := by
  simp only [WaveRange.apartFrom, Bool.and_eq_true, spansApart_iff] at h
  obtain ⟨⟨⟨⟨h1, h2⟩, h3⟩, h4⟩, h5⟩ := h
  refine ⟨h1 n, fun h => ?_⟩
  rcases WaveRange.oolAt_span h.1 with a | a <;> rcases WaveRange.oolAt_span h.2 with b | b
  · exact h2 n ⟨a, b⟩
  · exact h3 n ⟨a, b⟩
  · exact h4 n ⟨a, b⟩
  · exact h5 n ⟨a, b⟩

/-- What the registry may hand back. -/
theorem admitsRange_iff (c : Config) (waves : List (Nat × WaveRange)) (id : Nat) (r : WaveRange) :
    c.admitsRange waves id r = true ↔ id < c.maxWaves ∧ r.deleted = false ∧ c.rangeOk r = true ∧
      ∀ p ∈ waves, p.2.deleted = false → p.1 ≠ id ∧ r.apartFrom p.2 = true := by
  simp only [Config.admitsRange, Bool.and_eq_true, decide_eq_true_eq, Bool.not_eq_true', List.all_eq_true,
      Bool.or_eq_true]
  constructor
  · rintro ⟨⟨⟨h1, h2⟩, h3⟩, h4⟩
    exact ⟨h1, h2, h3, fun p hp hd => (h4 p hp).resolve_left (by simp [hd])⟩
  · rintro ⟨h1, h2, h3, h4⟩
    refine ⟨⟨⟨h1, h2⟩, h3⟩, fun p hp => ?_⟩
    rcases hd : p.2.deleted with _ | _
    · exact .inr (h4 p hp hd)
    · exact .inl rfl

/-! ### The stores of a compile -/

/-- OOL positions at one address are one. -/
theorem oolBus_inj {c : Config} (M : c.Meets) {n k : Nat} (hn : n < c.pageBus.length * c.oolPerPage)
    (hk : k < c.pageBus.length * c.oolPerPage) (h : c.oolBus n = c.oolBus k) : n = k := by
  by_contra hne
  have := M.oolBus_apart hn hk hne
  rw [h] at this; omega

/-- The pairs one transfer is stored as, at counters q, b and t (43 R243). -/
def opEmitPairs (c : Config) (r : WaveRange) (q b t : Nat) (next : Word) : PulseOp → List (Word × Word)
  | .set v => [(c.wbo r b, v)] ++ descPairs (c.wcb r q) (descSet c (c.wbo r b) 0#32 next)
  | .clr v => [(c.wbo r b, v)] ++ descPairs (c.wcb r q) (descClr c (c.wbo r b) 0#32 next)
  | .lev => [(c.wto r t, 0#32)] ++ descPairs (c.wcb r q) (descLev c (c.wto r t) 0#32 next)
  | .tick => [(c.wto r t, 0#32)] ++ descPairs (c.wcb r q) (descTick c (c.wto r t) 0#32 next)
  | .pace d => descPairs (c.wcb r q) (descPaceSWords c d.toNat next)

/-- Bottom OOL words a transfer takes. -/
def PulseOp.bottoms : PulseOp → Nat | .set _ | .clr _ => 1 | _ => 0

/-- Top cells a transfer takes. -/
def PulseOp.tops : PulseOp → Nat | .lev | .tick => 1 | _ => 0

/-- The pairs the transfers are stored as. -/
def emitPairs (c : Config) (r : WaveRange) (last : Word) : List PulseOp → Nat → Nat → Nat → List (Word × Word)
  | [], _, _, _ => []
  | op :: ops, q, b, t =>
    opEmitPairs c r q b t (if ops = [] then last else c.wcb r (q + 1)) op ++
      emitPairs c r last ops (q + 1) (b + op.bottoms) (t + op.tops)

/-- The STOREs `emitOps` emits, as a list of pairs. -/
theorem emitOps_pairs (c : Config) (r : WaveRange) (last : Word) (ops : List PulseOp) (q b t : Nat) :
    (emitOps c r last ops q b t).1 = storeTasks (emitPairs c r last ops q b t) := by
  induction ops generalizing q b t with
  | nil => rfl
  | cons o ops ih =>
    cases o <;> simp only [emitOps, emitPairs, opEmitPairs, PulseOp.bottoms, PulseOp.tops, ih, storeTasks_append,
        storeDesc_eq] <;> simp [storeTasks]

/-- Bottom OOL words the transfers take. -/
def bottomSum (ops : List PulseOp) : Nat := (ops.map PulseOp.bottoms).sum

/-- Top cells the transfers take. -/
def topSum (ops : List PulseOp) : Nat := (ops.map PulseOp.tops).sum

/-- The counters `emitOps` ends at. -/
theorem emitOps_counts (c : Config) (r : WaveRange) (last : Word) (ops : List PulseOp) (q b t : Nat) :
    (emitOps c r last ops q b t).2 = ⟨q + ops.length, b + bottomSum ops, t + topSum ops⟩ := by
  induction ops generalizing q b t with
  | nil => rfl
  | cons o ops ih => cases o <;> simp [emitOps, ih, bottomSum, topSum, PulseOp.bottoms, PulseOp.tops] <;> omega

/-- Where a store of a compile goes: word k of the wave's descriptor q, bottom OOL word b, or top cell t. -/
inductive Spot where
  | cb (q k : Nat)
  | bo (b : Nat)
  | to (t : Nat)

/-- Its address. -/
def Spot.addr (c : Config) (r : WaveRange) : Spot → Word
  | .cb q k => c.wcb r q + BitVec.ofNat 32 (4 * k)
  | .bo b => c.wbo r b
  | .to t => c.wto r t

/-- It lies in the range. -/
def Spot.ok (r : WaveRange) : Spot → Prop
  | .cb q k => q < r.cbCount ∧ k < 8
  | .bo b => b < r.oolBottomCount
  | .to t => t < r.oolTopCount

/-- Spots of the range are aligned memory words, different spots have different addresses, and each lies in the range's
bytes. -/
structure WaveRange.SpotsOk (c : Config) (r : WaveRange) : Prop where
  al : ∀ p : Spot, p.ok r → (p.addr c r).toNat % 4 = 0 ∧ c.inMem (p.addr c r) = true
  inj : ∀ p p' : Spot, p.ok r → p'.ok r → p.addr c r = p'.addr c r → p = p'
  fr : ∀ p : Spot, p.ok r → ∀ x : Nat, (∀ n, r.cbAt n → x < (c.cbBus n).toNat ∨ (c.cbBus n).toNat + 32 ≤ x) →
          (∀ n, r.oolAt n → x < (c.oolBus n).toNat ∨ (c.oolBus n).toNat + 4 ≤ x) → x < (p.addr c r).toNat ∨
              (p.addr c r).toNat + 4 ≤ x

/-- A range that `rangeOk` admits has good spots. -/
theorem spotsOk_of_rangeOk {c : Config} (M : c.Meets) {r : WaveRange} (h : c.rangeOk r = true) :
    WaveRange.SpotsOk c r := by
  obtain ⟨h1, h2, h3, h4, h5, h6⟩ := rangeOk_positions h
  have hcb : ∀ q, q < r.cbCount → r.bottomCB + q < c.pageBus.length * c.cbsPerPage := fun q hq => (h4 _ ⟨by omega,
      by omega⟩).1
  have hbo : ∀ b, b < r.oolBottomCount → r.bottomOOL + b < c.pageBus.length * c.oolPerPage :=
      fun b hb => (h5 _ (.inl ⟨by omega, by omega⟩)).1
  have hto : ∀ t, t < r.oolTopCount → r.topOOL - t < c.pageBus.length * c.oolPerPage :=
      fun t ht => (h5 _ (.inr ⟨by omega, by omega⟩)).1
  have off : ∀ q k, q < r.cbCount → k < 8 → (c.wcb r q + BitVec.ofNat 32 (4 * k)).toNat =
      (c.cbBus (r.bottomCB + q)).toNat + 4 * k := fun q k hq hk =>
    descWord_toNat (M.fetchable_words (M.cbBus_fetchable (hcb q hq)).1).1 hk
  refine ⟨?_, ?_, ?_⟩
  · rintro (⟨q, k⟩ | b | t) hp
    · obtain ⟨hq, hk⟩ := hp
      obtain ⟨f1, f2⟩ := M.cbBus_fetchable (hcb q hq)
      obtain ⟨g1, g2, g3⟩ := M.fetchable_words f1
      have := off q k hq hk
      simp only [Spot.addr]
      exact ⟨by omega, g3 _ (by omega) (by omega)⟩
    · have := M.oolBus_mem (hbo b hp); exact ⟨this.2, this.1⟩
    · have := M.oolBus_mem (hto t hp); exact ⟨this.2, this.1⟩
  · have mix : ∀ q k n, q < r.cbCount → k < 8 → n < c.pageBus.length * c.oolPerPage →
      c.wcb r q + BitVec.ofNat 32 (4 * k) ≠ c.oolBus n := by
      intro q k n hq hk hn e
      have h1 := off q k hq hk
      have h2 := M.cbBus_oolBus_apart (hcb q hq) hn
      rw [e] at h1; omega
    rintro (⟨q, k⟩ | b | t) (⟨q', k'⟩ | b' | t') hp hp' e
    · obtain ⟨hq, hk⟩ := hp
      obtain ⟨hq', hk'⟩ := hp'
      have a1 := off q k hq hk
      have a2 := off q' k' hq' hk'
      simp only [Spot.addr] at e
      rw [e] at a1
      have : q = q' := by
        by_contra hne
        have := M.cbBus_apart (hcb q hq) (hcb q' hq') (by omega)
        omega
      subst this
      obtain rfl : k = k' := by omega
      rfl
    · exact absurd e (mix q k _ hp.1 hp.2 (hbo b' hp'))
    · exact absurd e (mix q k _ hp.1 hp.2 (hto t' hp'))
    · exact absurd e.symm (mix q' k' _ hp'.1 hp'.2 (hbo b hp))
    · have := oolBus_inj M (hbo b hp) (hbo b' hp') e
      obtain rfl : b = b' := by omega
      rfl
    · have := oolBus_inj M (hbo b hp) (hto t' hp') e
      have hb : b < r.oolBottomCount := hp
      have ht : t' < r.oolTopCount := hp'
      exact absurd ⟨⟨by omega, by omega⟩, by omega, by omega⟩ (h6 (r.bottomOOL + b))
    · exact absurd e.symm (mix q' k' _ hp'.1 hp'.2 (hto t hp))
    · have := oolBus_inj M (hto t hp) (hbo b' hp') e
      have hb : b' < r.oolBottomCount := hp'
      have ht : t < r.oolTopCount := hp
      exact absurd ⟨⟨by omega, by omega⟩, by omega, by omega⟩ (h6 (r.bottomOOL + b'))
    · have := oolBus_inj M (hto t hp) (hto t' hp') e
      have hb : t' < r.oolTopCount := hp'
      have ht : t < r.oolTopCount := hp
      obtain rfl : t = t' := by omega
      rfl
  · rintro (⟨q, k⟩ | b | t) hp x hx hy
    · have := off q k hp.1 hp.2
      have := hx (r.bottomCB + q) ⟨by omega, by have := hp.1; omega⟩
      have := hp.2
      simp only [Spot.addr]; omega
    · exact hy (r.bottomOOL + b) (.inl ⟨by omega, by have : b < _ := hp; omega⟩)
    · have ht : t < r.oolTopCount := hp
      exact hy (r.topOOL - t) (.inr ⟨by omega, by omega⟩)

/-- Where the stores of one transfer go. -/
theorem opEmit_where {c : Config} {r : WaveRange} {q b t : Nat} {next : Word} {op : PulseOp} {p : Word × Word}
    (h : p ∈ opEmitPairs c r q b t next op) :
    (∃ k, k < 8 ∧ p.1 = (Spot.cb q k).addr c r) ∨ (PulseOp.bottoms op = 1 ∧ p.1 = (Spot.bo b).addr c r) ∨
        (PulseOp.tops op = 1 ∧ p.1 = (Spot.to t).addr c r) := by
  have dw : ∀ d, p ∈ descPairs (c.wcb r q) d → ∃ k, k < 8 ∧ p.1 = (Spot.cb q k).addr c r := by
    intro d hp; obtain ⟨k, hk, e, -⟩ := mem_descPairs.1 hp; exact ⟨k, hk, e⟩
  cases op <;> simp only [opEmitPairs, List.mem_append, List.mem_singleton] at h
  · rcases h with rfl | h; exact .inr (.inl ⟨rfl, rfl⟩); exact .inl (dw _ h)
  · rcases h with rfl | h; exact .inr (.inl ⟨rfl, rfl⟩); exact .inl (dw _ h)
  · rcases h with rfl | h; exact .inr (.inr ⟨rfl, rfl⟩); exact .inl (dw _ h)
  · rcases h with rfl | h; exact .inr (.inr ⟨rfl, rfl⟩); exact .inl (dw _ h)
  · exact .inl (dw _ h)

/-- Where the stores of the transfers go. -/
theorem emit_where {c : Config} {r : WaveRange} {last : Word} {p : Word × Word} (ops : List PulseOp) (q b t : Nat)
    (h : p ∈ emitPairs c r last ops q b t) :
    (∃ q' k, q ≤ q' ∧ q' < q + ops.length ∧ k < 8 ∧ p.1 = (Spot.cb q' k).addr c r) ∨ (∃ b', b ≤ b' ∧
        b' < b + bottomSum ops ∧ p.1 = (Spot.bo b').addr c r) ∨
      (∃ t', t ≤ t' ∧ t' < t + topSum ops ∧ p.1 = (Spot.to t').addr c r) := by
  induction ops generalizing q b t with
  | nil => cases h
  | cons o ops ih =>
    simp only [bottomSum, topSum, List.map_cons, List.sum_cons, List.length_cons] at *
    rcases List.mem_append.1 h with h | h
    · rcases opEmit_where h with ⟨k, hk, e⟩ | ⟨h1, e⟩ | ⟨h1, e⟩
      · exact .inl ⟨q, k, le_rfl, by omega, hk, e⟩
      · exact .inr (.inl ⟨b, le_rfl, by omega, e⟩)
      · exact .inr (.inr ⟨t, le_rfl, by omega, e⟩)
    · rcases ih _ _ _ h with ⟨q', k, h1, h2, h3, e⟩ | ⟨b', h1, h2, e⟩ | ⟨t', h1, h2, e⟩
      · exact .inl ⟨q', k, by omega, by omega, h3, e⟩
      · exact .inr (.inl ⟨b', by omega, by omega, e⟩)
      · exact .inr (.inr ⟨t', by omega, by omega, e⟩)

/-- Every store goes to a spot of the range. -/
theorem emit_spot {c : Config} {r : WaveRange} {last : Word} {p : Word × Word} {ops : List PulseOp} {q b t : Nat}
    (hq : q + ops.length ≤ r.cbCount) (hb : b + bottomSum ops ≤ r.oolBottomCount) (ht : t + topSum ops ≤ r.oolTopCount)
    (h : p ∈ emitPairs c r last ops q b t) : ∃ s : Spot, s.ok r ∧ p.1 = s.addr c r := by
  rcases emit_where ops q b t h with ⟨q', k, h1, h2, h3, e⟩ | ⟨b', h1, h2, e⟩ | ⟨t', h1, h2, e⟩
  · exact ⟨.cb q' k, ⟨by omega, h3⟩, e⟩
  · exact ⟨.bo b', by show b' < _; omega, e⟩
  · exact ⟨.to t', by show t' < _; omega, e⟩

/-- One transfer stores one value at an address. -/
theorem opEmit_unique {c : Config} {r : WaveRange} (G : WaveRange.SpotsOk c r) {q b t : Nat} {next : Word}
    {op : PulseOp} (hq : q < r.cbCount)
    (hb : b + PulseOp.bottoms op ≤ r.oolBottomCount) (ht : t + PulseOp.tops op ≤ r.oolTopCount) {p p' : Word × Word}
    (h : p ∈ opEmitPairs c r q b t next op) (h' : p' ∈ opEmitPairs c r q b t next op) (e : p'.1 = p.1) : p'.2 =
        p.2 := by
  have dd : ∀ d, p ∈ descPairs (c.wcb r q) d → p' ∈ descPairs (c.wcb r q) d → p'.2 = p.2 := by
    intro d h h'
    obtain ⟨k, hk, e1, e2⟩ := mem_descPairs.1 h
    obtain ⟨k', hk', e1', e2'⟩ := mem_descPairs.1 h'
    have := G.inj (.cb q k') (.cb q k) ⟨hq, hk'⟩ ⟨hq, hk⟩ (e1'.symm.trans (e.trans e1))
    cases this
    rw [e2] at e2'; exact (Option.some.inj e2').symm
  have dm : ∀ d (s : Spot), s.ok r → (∀ k, s ≠ .cb q k) → ∀ p : Word × Word, p ∈ descPairs (c.wcb r q) d →
      p.1 ≠ s.addr c r := by
    intro d s hs hne p h e
    obtain ⟨k, hk, e1, -⟩ := mem_descPairs.1 h
    exact hne k (G.inj s (.cb q k) hs ⟨hq, hk⟩ (e.symm.trans e1))
  have hbo : PulseOp.bottoms op = 1 → (Spot.bo b).ok r := fun h => by show b < _; omega
  have hto : PulseOp.tops op = 1 → (Spot.to t).ok r := fun h => by show t < _; omega
  cases op <;> simp only [opEmitPairs, List.mem_append, List.mem_singleton] at h h'
  · rcases h with rfl | h <;> rcases h' with rfl | h'
    · rfl
    · exact absurd e (dm _ (.bo b) (hbo rfl) (by intro k; nofun) _ h')
    · exact absurd e.symm (dm _ (.bo b) (hbo rfl) (by intro k; nofun) _ h)
    · exact dd _ h h'
  · rcases h with rfl | h <;> rcases h' with rfl | h'
    · rfl
    · exact absurd e (dm _ (.bo b) (hbo rfl) (by intro k; nofun) _ h')
    · exact absurd e.symm (dm _ (.bo b) (hbo rfl) (by intro k; nofun) _ h)
    · exact dd _ h h'
  · rcases h with rfl | h <;> rcases h' with rfl | h'
    · rfl
    · exact absurd e (dm _ (.to t) (hto rfl) (by intro k; nofun) _ h')
    · exact absurd e.symm (dm _ (.to t) (hto rfl) (by intro k; nofun) _ h)
    · exact dd _ h h'
  · rcases h with rfl | h <;> rcases h' with rfl | h'
    · rfl
    · exact absurd e (dm _ (.to t) (hto rfl) (by intro k; nofun) _ h')
    · exact absurd e.symm (dm _ (.to t) (hto rfl) (by intro k; nofun) _ h)
    · exact dd _ h h'
  · exact dd _ h h'

/-- The transfers store one value at an address. -/
theorem emit_unique {c : Config} {r : WaveRange} (G : WaveRange.SpotsOk c r) {last : Word} (ops : List PulseOp)
    (q b t : Nat)
    (hq : q + ops.length ≤ r.cbCount) (hb : b + bottomSum ops ≤ r.oolBottomCount)
        (ht : t + topSum ops ≤ r.oolTopCount) {p p' : Word × Word}
    (h : p ∈ emitPairs c r last ops q b t) (h' : p' ∈ emitPairs c r last ops q b t) (e : p'.1 = p.1) : p'.2 = p.2 := by
  induction ops generalizing q b t with
  | nil => cases h
  | cons o ops ih =>
    simp only [bottomSum, topSum, List.map_cons, List.sum_cons, List.length_cons] at hq hb ht
    have no : ∀ p p' : Word × Word, p ∈ opEmitPairs c r q b t (if ops = [] then last else c.wcb r (q + 1)) o →
        p' ∈ emitPairs c r last ops (q + 1) (b + PulseOp.bottoms o) (t + PulseOp.tops o) → p'.1 ≠ p.1 := by
      intro p p' h h' e
      have hw := emit_where ops _ _ _ h'
      simp only [bottomSum, topSum] at hw
      rcases opEmit_where h with ⟨k, hk, e1⟩ | ⟨h1, e1⟩ | ⟨h1, e1⟩ <;>
      rcases hw with ⟨q', k', a1, a2, a3, e2⟩ | ⟨b', a1, a2, e2⟩ | ⟨t', a1, a2, e2⟩
      · cases G.inj (.cb q k) (.cb q' k') ⟨by omega, hk⟩ ⟨by omega, a3⟩ (e1.symm.trans (e.symm.trans e2)); omega
      · cases G.inj (.cb q k) (.bo b') ⟨by omega, hk⟩ (by show b' < _; omega) (e1.symm.trans (e.symm.trans e2))
      · cases G.inj (.cb q k) (.to t') ⟨by omega, hk⟩ (by show t' < _; omega) (e1.symm.trans (e.symm.trans e2))
      · cases G.inj (.bo b) (.cb q' k') (by show b < _; omega) ⟨by omega, a3⟩ (e1.symm.trans (e.symm.trans e2))
      · cases G.inj (.bo b) (.bo b') (by show b < _; omega) (by show b' < _; omega)
          (e1.symm.trans (e.symm.trans e2)); omega
      · cases G.inj (.bo b) (.to t') (by show b < _; omega) (by show t' < _; omega) (e1.symm.trans (e.symm.trans e2))
      · cases G.inj (.to t) (.cb q' k') (by show t < _; omega) ⟨by omega, a3⟩ (e1.symm.trans (e.symm.trans e2))
      · cases G.inj (.to t) (.bo b') (by show t < _; omega) (by show b' < _; omega) (e1.symm.trans (e.symm.trans e2))
      · cases G.inj (.to t) (.to t') (by show t < _; omega) (by show t' < _; omega)
          (e1.symm.trans (e.symm.trans e2)); omega
    rcases List.mem_append.1 h with h | h <;> rcases List.mem_append.1 h' with h' | h'
    · exact opEmit_unique G (by omega) (by omega) (by omega) h h' e
    · exact absurd e (no _ _ h h')
    · exact absurd e.symm (no _ _ h' h)
    · exact ih _ _ _ (by omega) (by simp only [bottomSum]; omega) (by simp only [topSum]; omega) h h'

end Machine
end Sys2Proof
end

