-- ==== Sys2Proof/Tests/Slice0.lean ====
section
/-!
SUPPORT. Tests of the model, and for each statement with hypotheses a state that meets them. Expected results are the
vectors (V), programs (P) and rules (R) of spec/ each test names; all under CFG-X of spec/95_test_vectors.md section 0.
-/
namespace Sys2Proof.Tests
open Sys2Proof.Machine

set_option Elab.async false

/-! ### Small states -/

/-- CFG-X. -/
abbrev cfgX : Config := Config.example

/-- The next state of an outcome. -/
def nextOf : Host.Outcome State Fault Refusal → Option State
  | .next s => some s
  | .fault _ => none
  | .refused _ => none

/-- The launch state with words stored. -/
def withWords (ws : List (Word × Word)) : State :=
  State.reset.setMem (ws.foldl (fun m p => Memory.writeWord m p.1 p.2) State.reset.mem)

/-- ChanS current, active at 0x00102000 in phase p, with words stored. -/
def onS (p : Phase) (ws : List (Word × Word)) : State :=
  { withWords ws with chanS := ⟨true, 0x00102000#32, p, none⟩, cur := .S }

/-- ChanS about to fetch. -/
theorem onS_atFetch (early : List (Nat × Option Word)) (ws : List (Word × Word)) : (onS (.fetch early) ws).atFetch :=
  ⟨rfl, early, rfl⟩

/-- A state of ChanS fetching the descriptor of the given words at 0x00102000. -/
def fetching (d : Desc) : State :=
  onS (.fetch []) ((List.range 8).map fun k => (0x00102000#32 + BitVec.ofNat 32 (4 * k), (d.words[k]?).getD 0#32))

/-- The arena word X of the vectors: OOL position 0 of page 2. -/
abbrev X : Word := 0x00102800#32

/-- The host with tasks to do. -/
def hostWith (ts : List HostTask) : State := State.reset.setTodo ts

/-- Waves a and b of P2 and P3, and a deleted third (95 V80 ff.). -/
def wavesAB : List (Nat × WaveRange) :=
  [(0, ⟨64, 70, 512, 1023, 7, 4, 0, false⟩), (1, ⟨71, 74, 516, 1022, 4, 2, 0, false⟩),
   (2, ⟨75, 76, 518, 1021, 2, 1, 0, true⟩)]

/-- The builder at given cursors, with waves a and b present. -/
def building (b : Build) : State := (State.reset.setBuild b).setWaves wavesAB

/-! ### Well-formedness: one ill-formed term for each check -/

/-- 30 R120: the mask word of SET lies in memory. -/
theorem test_ill_set_mask : (Instr.set cfgX.gpset0 0#32 0#32).wellFormed cfgX = false := by decide +kernel
/-- 30 R120: the mask word of CLR lies in memory. -/
theorem test_ill_clr_mask : (Instr.clr 0x100#32 0#32 0#32).wellFormed cfgX = false := by decide +kernel
/-- 30 R120: the cell of LEV lies in memory. -/
theorem test_ill_lev_cell : (Instr.lev cfgX.timerLo 0#32 0#32).wellFormed cfgX = false := by decide +kernel
/-- 30 R120: the cell of TICK lies in memory. -/
theorem test_ill_tick_cell : (Instr.tick 0#32 0#32 0#32).wellFormed cfgX = false := by decide +kernel
/-- 30 R117: NEXTCONBK is a multiple of 32. -/
theorem test_ill_next : (Instr.paceP 1#28 0#32 0x00102010#32).wellFormed cfgX = false := by decide +kernel
/-- 20 R78: operand addresses are word aligned. -/
theorem test_ill_align : (Instr.set 0x00102802#32 0#32 0#32).wellFormed cfgX = false := by decide +kernel
/-- 30 R122 step 8: no beat reads what an earlier beat wrote. -/
theorem test_ill_overlap : (Instr.copyN X (X + 4#32) 2#28 0#32 0#32).wellFormed cfgX = false := by decide +kernel
/-- 30 R135: a COPY of ZW onto ZW is named NOP, one onto a NEXTCONBK word LINK. -/
theorem test_ill_copy : (Instr.copy cfgX.zw cfgX.zw 0#32 0#32).wellFormed cfgX = false ∧
    (Instr.copy X 0x00102034#32 0#32 0#32).wellFormed cfgX = false := by decide +kernel
/-- 30 R120: COPY.N has more than one word. -/
theorem test_ill_copyN : (Instr.copyN X (X + 64#32) 1#28 0#32 0#32).wellFormed cfgX = false := by decide +kernel
/-- 30 R116: a paced XFER names PERMAP_P or PERMAP_S; 30 R120: an XFER is no other class. -/
theorem test_ill_xfer :
    (Instr.xfer ⟨false, true, false, 0#4, 0#5, 0#5, true⟩ X cfgX.gpset0 1#28 0#32 0#32).wellFormed cfgX = false ∧
    (Instr.xfer (XferTI.ofWord tiNormal) X cfgX.gpset0 1#28 0#32 0#32).wellFormed cfgX = false := by decide +kernel
/-- 30 R135: LINK writes a descriptor's NEXTCONBK word. -/
theorem test_ill_link : (Instr.link X 0x00102801#32 0#32 0#32).wellFormed cfgX = false := by decide +kernel
/-- NOP in a configuration whose ZW lies in no memory. -/
theorem test_ill_nop : (Instr.nop 0#32 0#32).wellFormed { cfgX with zw := 0#32 } = false := by decide +kernel
/-- 30 R130: the operand fields of chain opcodes are 16 and 28 bits. -/
theorem test_ill_chain : (Instr.playWave 65536).wellFormed cfgX = false ∧
    (Instr.delayMicros 0x10000000).wellFormed cfgX = false ∧
    (Instr.loopEnd 0x10000000).wellFormed cfgX = false := by decide +kernel
/-- 41 R193 to R195: host accesses are aligned words of memory, a period is at least 1. -/
theorem test_ill_host : (Instr.store cfgX.gpset0 1#32).wellFormed cfgX = false ∧
    (Instr.load 0x00102802#32).wellFormed cfgX = false ∧ (Instr.pacerCfg 0).wellFormed cfgX = false := by decide +kernel

/-! ### Decoding words written out from the spec -/

/-- The decoder on eight words. -/
def decodeWords (ws : List Word) : Except DecodeError (Instr × List Byte) := decode cfgX (ws.flatMap wordBytes)

/-- P1 cd(0). -/
theorem test_decode_set : decodeWords [0x04000008#32, 0x00100804#32, 0x7E20001C#32, 4#32, 0#32, 0x00100020#32, 0#32,
    0#32] = .ok (.set 0x00100804#32 0#32 0x00100020#32, []) := by decide +kernel
/-- P1 cd(2). -/
theorem test_decode_clr : decodeWords [0x04000008#32, 0x00100808#32, 0x7E200028#32, 4#32, 0#32, 0x00100060#32, 0#32,
    0#32] = .ok (.clr 0x00100808#32 0#32 0x00100060#32, []) := by decide +kernel
/-- 30 R133: LEV reads GPLEV0. -/
theorem test_decode_lev : decodeWords [0x04000008#32, 0x7E200034#32, 0x00102804#32, 4#32, 0#32, 0#32, 0#32, 0#32] =
    .ok (.lev 0x00102804#32 0#32 0#32, []) := by decide +kernel
/-- 30 R133: TICK reads TIMER_LO. -/
theorem test_decode_tick : decodeWords [0x04000008#32, 0x7E003004#32, 0x00102804#32, 4#32, 0#32, 0#32, 0#32, 0#32] =
    .ok (.tick 0x00102804#32 0#32 0#32, []) := by decide +kernel
/-- P1 cd(1). -/
theorem test_decode_paceP : decodeWords [0x04020048#32, 0x00100800#32, 0x7E203004#32, 4#32, 0#32, 0x00100040#32, 0#32,
    0#32] = .ok (.paceP 1#28 0#32 0x00100040#32, []) := by decide +kernel
/-- P2, the second descriptor: PACE_S 100. -/
theorem test_decode_paceS : decodeWords [0x04050048#32, 0x00100800#32, 0x7E20C018#32, 0x190#32, 0#32, 0x00101040#32,
    0#32, 0#32] = .ok (.paceS 100#28 0#32 0x00101040#32, []) := by decide +kernel
/-- P3 CH(3), save 0. -/
theorem test_decode_copy : decodeWords [0x04000008#32, 0x00181004#32, 0x00181014#32, 4#32, 0#32, 0x00180080#32, 0#32,
    0#32] = .ok (.copy 0x00181004#32 0x00181014#32 0#32 0x00180080#32, []) := by decide +kernel
/-- P3 CH(4), rotate 0. -/
theorem test_decode_copyN : decodeWords [0x04000118#32, 0x00181008#32, 0x00181004#32, 0x10#32, 0#32, 0x00180000#32,
    0#32, 0#32] = .ok (.copyN 0x00181008#32 0x00181004#32 4#28 0#32 0x00180000#32, []) := by decide +kernel
/-- V13: the timing fields make SET's operands an XFER. -/
theorem test_decode_xfer : decodeWords [0x07E0F008#32, 0x00102800#32, 0x7E20001C#32, 4#32, 0#32, 0#32, 0#32, 0#32] =
    .ok (.xfer ⟨false, false, false, 15#4, 0#5, 31#5, true⟩ 0x00102800#32 0x7E20001C#32 1#28 0#32 0#32, []) := by
  decide +kernel
/-- P3 CH(0), the loop head. -/
theorem test_decode_nop : decodeWords [0x04000008#32, 0x00100800#32, 0x00100800#32, 4#32, 0#32, 0x00180020#32, 0#32,
    0#32] = .ok (.nop 0#32 0x00180020#32, []) := by decide +kernel
/-- P5 A: a COPY onto B's NEXTCONBK word, B at 0x00102020. -/
theorem test_decode_link : decodeWords [0x04000008#32, 0x00102800#32, 0x00102034#32, 4#32, 0#32, 0x00102020#32, 0#32,
    0#32] = .ok (.link 0x00102800#32 0x00102020#32 0#32 0x00102020#32, []) := by decide +kernel
/-- V15: STRIDE is kept and words 6 and 7 are ignored. -/
theorem test_decode_ignored : decodeWords [0x04000008#32, 0x00102800#32, 0x7E20001C#32, 4#32, 0xFFFF0004#32, 0#32,
    0x12345678#32, 0xFFFFFFFF#32] = .ok (.set 0x00102800#32 0xFFFF0004#32 0#32, []) := by decide +kernel
/-- Fewer than 32 bytes are no descriptor. -/
theorem test_decode_truncated : decode cfgX (List.replicate 31 0#8) = .error .truncated := by decide +kernel
/-- The chain-opcode table of spec/95_test_vectors.md. -/
theorem test_decode_chain : [0x10000003#32, 0x20000064#32, 0x2FFFFFFF#32, 0x30000000#32, 0x40000005#32,
      0x50000000#32].map decodeChain =
    [some (.playWave 3), some (.delayMicros 100), some (.delayMicros 268435455), some .loopBegin, some (.loopEnd 5),
      some .repeatForever] := by decide +kernel
/-- The words of the same table that are badOpcode, and V90. -/
theorem test_decode_chain_bad : [0x10010000#32, 0x00000000#32, 0x60000000#32, 0x30000001#32].map decodeChain =
    [none, none, none, none] := by decide +kernel
/-- 30 R130: the encoder writes the words of P4. -/
theorem test_encode_chain : [Instr.playWave 0, .loopBegin, .playWave 1, .loopEnd 5, .repeatForever].flatMap
    (encode cfgX) = [0x10000000#32, 0x30000000#32, 0x10000001#32, 0x40000005#32, 0x50000000#32] := by decide +kernel
/-- The opcode table's TI word with operand words of zeros is an XFER of no words (log 30). -/
theorem test_table_word : decodeTableWord 32 0x04000008 =
    some (.xfer (XferTI.ofWord tiNormal) 0#32 0#32 0#28 0#32 0#32) ∧
    decodeTableWord 32 0x40000005 = some (.loopEnd 5) := by decide +kernel
/-- The table's words run as the first instruction after reset: the XFER is loaded, the LoopEnd is rejected. -/
theorem test_fetch_word :
    ((nextOf (step (State.reset.withFetchWord 32 0x04000008))).map fun s => decide (s.chanS.phase = .fetch [])) =
      some false ∧
    ((nextOf (step (State.reset.withFetchWord 32 0x40000005))).map fun s => s.host.ret) =
      some (.rejected .badLoop) := by decide +kernel

/-! ### Fetch checks (V1 to V10, V12) -/

/-- V2, V3: addresses outside memory, and words nothing has written. -/
theorem test_fetch_address : State.reset.fetchInstr [] 0x20#32 = .error .unmapped ∧
    State.reset.fetchInstr [] 0x00102000#32 = .error .unwritten ∧
    State.reset.fetchInstr [] 0x00102010#32 = .error .misaligned := by decide +kernel
/-- The fault of fetching a descriptor at 0x00102000. -/
def fetchOf (d : Desc) : Except FaultReason Instr := (fetching d).fetchInstr [] 0x00102000#32
/-- V4, V5, V12: TI words outside the admitted subset, before any other check. -/
theorem test_fetch_ti : fetchOf ⟨0x04000009#32, X, 0x7E20001C#32, 4#32, 0#32, 0#32⟩ = .error .unadmitted ∧
    fetchOf ⟨0x04000009#32, X, 0x7E20001C#32, 6#32, 0#32, 0#32⟩ = .error .unadmitted ∧
    fetchOf ⟨0x04000048#32, X, 0x7E20001C#32, 4#32, 0#32, 0#32⟩ = .error .unadmitted := by decide +kernel
/-- V6, V7: lengths. -/
theorem test_fetch_length : fetchOf ⟨0x04000008#32, X, 0x7E20001C#32, 6#32, 0#32, 0#32⟩ = .error .badLength ∧
    fetchOf ⟨0x04000008#32, X, 0x7E20001C#32, 0x40000004#32, 0#32, 0#32⟩ = .error .badLength := by decide +kernel
/-- 30 R135, 00 R11: a COPY of 2^28 words has LENGTH 2^30, which FETCH refuses. -/
theorem test_fetch_long_copy : descCopyWords X X (2 ^ 28) 0#32 = ⟨0x04000118#32, X, X, 0x40000000#32, 0#32, 0#32⟩ ∧
    fetchOf (descCopyWords (X + 4#32) X (2 ^ 28) 0#32) = .error .badLength := by decide +kernel
/-- V8, V9: operand and NEXTCONBK alignment. -/
theorem test_fetch_align : fetchOf ⟨0x04000008#32, 0x00102802#32, 0x7E20001C#32, 4#32, 0#32, 0#32⟩ =
      .error .misaligned ∧
    fetchOf ⟨0x04000008#32, X, 0x7E20001C#32, 4#32, 0#32, 0x00102010#32⟩ = .error .misaligned := by decide +kernel
/-- V10, V11: overlap refused one way and admitted the other. -/
theorem test_fetch_overlap : fetchOf ⟨0x04000118#32, X, X + 4#32, 8#32, 0#32, 0#32⟩ = .error .overlap ∧
    fetchOf ⟨0x04000118#32, X + 4#32, X, 12#32, 0#32, 0#32⟩ = .ok (.copyN (X + 4#32) X 3#28 0#32 0#32) := by
  decide +kernel

/-- The state with its next turn given to agent a. -/
def turn (a : Agent) (s : State) : State := (nextOf (s.agentStep a)).getD s

/-- 20 R83, 93 U29: word 5 is read before the host stores words 1 and 5, so the fetch sees the old word 5 and the new
word 1; a fetch that reads nothing early sees both new. -/
theorem test_fetch_mixture :
    [[Agent.early .S 5], []].map (fun before =>
      (((before.foldl (fun s a => turn a s) (fetching (descSet cfgX X 0#32 0#32))).hostStore 0x00102014#32
        0x00102040#32).hostStore 0x00102004#32 (X + 4#32) |> turn (.chan .S)).chanS.phase) =
    [.exec ⟨0x04000008#32, X + 4#32, 0x7E20001C#32, 4#32, 0#32, 0#32⟩ 1 0 none,
     .exec ⟨0x04000008#32, X + 4#32, 0x7E20001C#32, 4#32, 0#32, 0x00102040#32⟩ 1 0 none] := by decide +kernel
/-- 20 R83: a word read early before anything was stored there is still unwritten at the fetch (30 R122 step 3). -/
theorem test_fetch_early_unwritten : ((turn (.early .S 0) (onS (.fetch []) [])).hostStore 0x00102000#32 tiNormal).chanS =
      ⟨true, 0x00102000#32, .fetch [(0, none)], none⟩ ∧
    (fetching (descSet cfgX X 0#32 0#32)).fetchInstr [(0, none)] 0x00102000#32 = .error .unwritten := by decide +kernel

/-! ### Descriptor steps -/

/-- One step of ChanS running instruction i whose beat k of n holds word v. -/
def writing (i : Instr) (n k : Nat) (v : Word) (s : State) : Option State :=
  nextOf (exec i (s.setPhase .S (.exec ((i.desc cfgX).getD ⟨0, 0, 0, 0, 0, 0⟩) n k (some v))))

/-- One step of ChanS running instruction i, about to read beat k of n. -/
def reading (i : Instr) (n k : Nat) (s : State) : Option State :=
  nextOf (exec i (s.setPhase .S (.exec ((i.desc cfgX).getD ⟨0, 0, 0, 0, 0, 0⟩) n k none)))

/-- V30. -/
theorem test_set : ((writing (.set X 0#32 0#32) 1 0 3#32 { onS .idle [] with gpioOut := 4#32, trace := [] }).map fun s =>
    (s.gpioOut, s.trace)) = some (7#32, [.gpioSet (.chan .S) 3#32]) := by decide +kernel
/-- V31: a zero mask is still recorded. -/
theorem test_set_zero : ((writing (.set X 0#32 0#32) 1 0 0#32 { onS .idle [] with gpioOut := 4#32, trace := [] }).map
    fun s => (s.gpioOut, s.trace)) = some (4#32, [.gpioSet (.chan .S) 0#32]) := by decide +kernel
/-- V32. -/
theorem test_clr : ((writing (.clr X 0#32 0#32) 1 0 1#32 { onS .idle [] with gpioOut := 7#32, trace := [] }).map fun s =>
    (s.gpioOut, s.trace)) = some (6#32, [.gpioClr (.chan .S) 1#32]) := by decide +kernel
/-- V36, the write: the sample is stored and recorded. -/
theorem test_lev : ((writing (.lev X 0#32 0#32) 1 0 5#32 { onS .idle [] with trace := [] }).map fun s =>
    (s.mem.word X, s.trace)) = some (some 5#32, [.sample .S X 5#32]) := by decide +kernel
/-- V37, the write. -/
theorem test_tick : ((writing (.tick X 0#32 0#32) 1 0 0x0001F3A0#32 { onS .idle [] with trace := [] }).map fun s =>
    (s.mem.word X, s.trace)) = some (some 0x0001F3A0#32, [.sample .S X 0x0001F3A0#32]) := by decide +kernel
/-- V37, the read: the timer holds what was drawn. -/
theorem test_tick_read : ((reading (.tick X 0#32 0#32) 1 0 (onS .idle [])).map fun s => s.draws) = some 1 := by
  decide +kernel
/-- V38: a full pacer holds the write; with room the word goes in. -/
theorem test_paceP : ((writing (.paceP 1#28 0#32 0#32) 1 0 0#32
      { onS .idle [] with pacerP := ⟨true, 2, 0, 10⟩ }).map fun s => s.pacerP.fill) = some 2 ∧
    ((writing (.paceP 1#28 0#32 0#32) 1 0 0#32 { onS .idle [] with pacerP := ⟨true, 1, 0, 10⟩ }).map fun s =>
      (s.pacerP.fill, decide (s.chanS.phase = .exec (descPaceP cfgX 1#28 0#32 0#32) 1 1 none))) = some (2, true) := by
  decide +kernel
/-- V39a: PacerS unconfigured, the channel holds, busy and without a fault. -/
theorem test_paceS : ((writing (.paceS 1#28 0#32 0#32) 1 0 0#32 (onS .idle [])).map fun s =>
    (decide (s.chanS = (onS (.exec (descPaceS cfgX 1#28 0#32 0#32) 1 0 (some 0#32)) []).chanS), s.pacerS.fill)) =
      some (true, 0) := by decide +kernel
/-- V39c: COPY X onto X. -/
theorem test_copy : ((writing (.copy X X 0#32 0#32) 1 0 7#32 (onS .idle [(X, 7#32)])).map fun s =>
    decide (s.mem = (onS .idle [(X, 7#32)]).mem)) = some true := by decide +kernel
/-- V27, beat 1: source and destination move by 4. -/
theorem test_copyN_read : ((reading (.copyN X (X + 0x1000#32) 2#28 0#32 0#32) 2 1
      (onS .idle [(X, 5#32), (X + 4#32, 6#32)])).map fun s =>
    decide (s.chanS.phase = .exec (descCopyN X (X + 0x1000#32) 2#28 0#32 0#32) 2 1 (some 6#32))) = some true := by
  decide +kernel
/-- V27, beat 1: the write. -/
theorem test_copyN_write : ((writing (.copyN X (X + 0x1000#32) 2#28 0#32 0#32) 2 1 6#32 (onS .idle [])).map fun s =>
    s.mem.word (X + 0x1004#32)) = some (some 6#32) := by decide +kernel
/-- V13: an XFER of SET's operands has SET's effect. -/
theorem test_xfer : ((writing (.xfer ⟨false, false, false, 15#4, 0#5, 31#5, true⟩ X cfgX.gpset0 1#28 0#32 0#32) 1 0 9#32
    { onS .idle [] with gpioOut := 4#32 }).map fun s => s.gpioOut) = some 0xD#32 := by decide +kernel
/-- V14, beat 1 of an XFER that moves its source only. -/
theorem test_xfer_src : ((reading (.xfer ⟨false, false, true, 0#4, 0#5, 0#5, true⟩ X cfgX.gpset0 2#28 0#32 0#32) 2 1
      (onS .idle [(X, 1#32), (X + 4#32, 2#32)])).map fun s => s.chanS.phase) =
    some (.exec ⟨0x04000108#32, X, 0x7E20001C#32, 8#32, 0#32, 0#32⟩ 2 1 (some 2#32)) := by decide +kernel
/-- V39d: NOP links. -/
theorem test_nop : ((nextOf (exec (.nop 0#32 0x00102040#32) (onS (.exec (descNop cfgX 0#32 0x00102040#32) 1 1 none)
    []))).map fun s => s.chanS) = some ⟨true, 0x00102040#32, .fetch [], none⟩ := by decide +kernel
/-- P5 C: COMPLETE with NEXTCONBK = 0 ends the chain. -/
theorem test_set_ends : ((nextOf (exec (.set X 0#32 0#32) (onS (.exec (descSet cfgX X 0#32 0#32) 1 1 none) []))).map
    fun s => s.chanS) = some ⟨false, 0#32, .idle, none⟩ := by decide +kernel
/-- V39e: LINK rewrites T's NEXTCONBK word. -/
theorem test_link : ((writing (.link X 0x00102020#32 0#32 0#32) 1 0 0x00102040#32 (onS .idle [])).map fun s =>
    s.mem.word 0x00102034#32) = some (some 0x00102040#32) := by decide +kernel
/-- V20, V24, V25: what a beat may not read. -/
theorem test_read_faults :
    [reading (.xfer (XferTI.ofWord tiNormal) cfgX.gpset0 X 1#28 0#32 0#32) 1 0 (onS .idle []),
     reading (.xfer (XferTI.ofWord tiNormal) 0xFFFFFFFC#32 X 1#28 0#32 0#32) 1 0 (onS .idle []),
     reading (.copy X (X + 0x1000#32) 0#32 0#32) 1 0 (onS .idle [])].map (fun o => o.map fun s => s.chanS.fault) =
    [some (some .writeOnly), some (some .unmapped), some (some .unwritten)] := by decide +kernel
/-- V21 to V23, V26: what a beat may not write; the held word stays. -/
theorem test_write_faults :
    [writing (.xfer (XferTI.ofWord tiNormal) X cfgX.gplev0 1#28 0#32 0#32) 1 0 1#32 (onS .idle []),
     writing (.xfer (XferTI.ofWord tiNormal) X cfgX.timerLo 1#28 0#32 0#32) 1 0 1#32 (onS .idle []),
     writing (.xfer (XferTI.ofWord tiNormal) X 0x100#32 1#28 0#32 0#32) 1 0 1#32 (onS .idle []),
     writing (.xfer (XferTI.ofWord tiNormal) cfgX.zw cfgX.fifoS 3#28 0#32 0#32) 3 2 1#32
       { onS .idle [] with pacerS := ⟨false, 2, 0, 0⟩ }].map (fun o => o.map fun s => s.chanS.fault) =
    [some (some .readOnly), some (some .readOnly), some (some .unmapped), some (some .fifoOverflow)] := by
  decide +kernel

/-! ### Host steps -/

/-- The state after one instruction of the host. -/
def host (i : Instr) (s : State) : Option State := nextOf (exec i s)

/-- V50. -/
theorem test_arm_zero : ((host (.arm .S 0#32) State.reset).map fun s => (s.chanS, s.trace)) =
    some (Channel.launch, [.reset .P, .reset .S, .arm .S 0#32]) := by decide +kernel
/-- V51. -/
theorem test_arm_busy : ((host (.arm .S 0x00101000#32) (onS (.fetch []) [])).map fun s => (s.refused, s.chanS.conblkAd)) =
    some (true, 0x00102000#32) := by decide +kernel
/-- V52. -/
theorem test_reset : ((host (.reset .S) (onS (.exec (descCopyN X X 3#28 0#32 0#32) 3 1 (some 1#32)) [])).map fun s =>
    decide (s.chanS = Channel.launch) && decide (s.mem = State.reset.mem)) = some true := by decide +kernel
/-- V53: a fault outlives RESET. -/
theorem test_busy : ((host (.busy .S) { State.reset with chanS := ⟨true, 0x00102010#32, .fetch [], some .misaligned⟩ }).map
    fun s => s.host.ret) = some (.flag true) ∧
    ((host (.reset .S) { State.reset with chanS := ⟨true, 0x00102010#32, .fetch [], some .misaligned⟩ }).map
      fun s => (s.isBusy .S, s.chanS.fault)) = some (false, some .misaligned) := by decide +kernel
/-- V58, and 20 R76: little-endian. -/
theorem test_store : ((host (.store 0x7E20001C#32 1#32) State.reset).map fun s => (s.refused, s.gpioOut)) =
      some (true, 0#32) ∧
    ((host (.store X 0x04000008#32) State.reset).map fun s => (s.mem.byte X.toNat, s.mem.byte (X.toNat + 3))) =
      some (some 8#8, some 4#8) := by decide +kernel
/-- 41 R194; V59: an unwritten word refuses nothing. -/
theorem test_load : ((host (.load X) (onS .idle [(X, 7#32)])).map fun s => s.host.ret) = some (.word 7#32) ∧
    ((host (.load X) State.reset).map fun s => (s.refused, s.draws)) = some (false, 1) := by decide +kernel
/-- 41 R195; P1: PACER_CFG(P, 10). -/
theorem test_pacerCfg : ((host (.pacerCfg 10) { State.reset with pacerP := ⟨true, 2, 5, 3⟩ }).map fun s => s.pacerP) =
    some ⟨true, 0, 5, 10⟩ := by decide +kernel
/-- V56: only the first WAVECLK is recorded. -/
theorem test_waveclk : ((host .waveclk State.reset).map fun s => (s.pacerS.configured, s.trace)) =
      some (true, [.reset .P, .reset .S, .waveClock]) ∧
    (((host .waveclk State.reset).bind (host .waveclk)).map fun s => s.trace) =
      some [.reset .P, .reset .S, .waveClock] := by decide +kernel
/-- 41 R197. -/
theorem test_gpio : ((host (.gpioSet 3#32) { State.reset with gpioOut := 4#32 }).map fun s => s.gpioOut) =
      some 7#32 ∧
    ((host (.gpioClr 5#32) { State.reset with gpioOut := 7#32 }).map fun s => s.gpioOut) = some 2#32 := by
  decide +kernel
/-- V59a. -/
theorem test_stop : ((host (.stop .P) ({ State.reset with
        chanP := ⟨true, 0x00100000#32, .fetch [], none⟩, trace := [] }.setCarrier true)).map
      fun s => (s.chanP, s.host.carrierRunning, s.trace)) =
    some (Channel.launch, false, [.reset .P, .stop .P]) := by decide +kernel
/-- V54. -/
theorem test_csread : ((host (.csread .S) (onS (.fetch []) [])).map fun s => s.draws) = some 1 ∧
    (csValue true 0#32).getLsbD 0 = true ∧ (csValue true 0xFFFFFFFF#32).getLsbD 31 = false := by decide +kernel
/-- V55, and 10 R34: bit 31 resets, bit 0 alone is ACTIVE. -/
theorem test_csWrite : ((onS (.fetch []) []).csWrite .S 2#32).refused = true ∧
    ((onS (.fetch []) []).csWrite .S 0x80000000#32).chanS = Channel.launch ∧
    ((onS (.fetch []) []).csWrite .S 0#32).chanS.active = false := by decide +kernel

/-! ### Chain opcodes -/

/-- P3 CH(1): LNK of PlayWave(1) at q = 1, m = 0. -/
theorem test_playWave : ((host (.playWave 1) (building ⟨1, 0, 0, [0], false⟩)).map fun s => (s.host.build, s.host.todo)) =
    some (⟨2, 1, 0, [0], false⟩, .instr (.store 0x00181000#32 0x00180040#32) :: storeWords 0x00180020#32
      [0x04000008#32, 0x00181000#32, 0x00101154#32, 4#32, 0#32, 0x001010E0#32, 0#32, 0#32]) := by decide +kernel
/-- 95 V84 ff.: a deleted wave and an id out of range are badWaveId. -/
theorem test_playWave_bad : [2, 3, 16].map (fun id => (host (.playWave id) (building Build.init)).map fun s =>
    s.host.ret) = List.replicate 3 (some (.rejected .badWaveId)) := by decide +kernel
/-- P3 CH(9): DelayMicros(10) at q = 9. -/
theorem test_delayMicros : ((host (.delayMicros 10) (building ⟨9, 21, 1, [], false⟩)).map fun s => s.host.todo) =
    some (storeWords 0x00180120#32
      [0x04050048#32, 0x00100800#32, 0x7E20C018#32, 0x28#32, 0#32, 0x00180140#32, 0#32, 0#32]) := by decide +kernel
/-- V93, and V96's DelayMicros(0). -/
theorem test_delayMicros_edge :
    ((host (.delayMicros 0x10000000) (building Build.init)).map fun s => s.host.ret) =
      some (.rejected .delayTooLong) ∧
    ((host (.delayMicros 0) (building Build.init)).map fun s => (s.host.todo, s.host.build)) =
      some ([], Build.init) := by decide +kernel
/-- P3 CH(0): the loop head. -/
theorem test_loopBegin : ((host .loopBegin (building Build.init)).map fun s => (s.host.build, s.host.todo)) =
    some (⟨1, 0, 0, [0], false⟩, storeWords 0x00180000#32
      [0x04000008#32, 0x00100800#32, 0x00100800#32, 4#32, 0#32, 0x00180020#32, 0#32, 0#32]) := by decide +kernel
/-- V86: the fifth LoopBegin. -/
theorem test_loopBegin_deep : ((host .loopBegin (building ⟨4, 0, 0, [3, 2, 1, 0], false⟩)).map fun s => s.host.ret) =
    some (.rejected .nestingTooDeep) := by decide +kernel
/-- P3: the Counter of LoopEnd(3) at q = 2, m = 1, every word. -/
theorem test_loopEnd_counter : ((host (.loopEnd 3) (building ⟨2, 1, 0, [0], false⟩)).map fun s =>
    (s.host.build, decide (s.host.todo =
      storeWords 0x00181004#32 [0x00180000#32, 0x00180000#32, 0x001800A0#32, 0x00180000#32, 0x00180000#32] ++
      storeWords 0x0018102C#32 [0x00180000#32, 0x00180000#32, 0x001800A0#32, 0x00180000#32, 0x00180000#32] ++
      storeWords 0x00181018#32 [0x00180100#32, 0x00180000#32, 0x00180000#32, 0x00180000#32, 0x00180000#32] ++
      storeWords 0x00181040#32 [0x00180100#32, 0x00180000#32, 0x00180000#32, 0x00180000#32, 0x00180000#32] ++
      storeWords 0x00180040#32 [0x04000008#32, 0x00181004#32, 0x00180094#32, 4#32, 0#32, 0x00180060#32, 0#32, 0#32] ++
      storeWords 0x00180060#32 [0x04000008#32, 0x00181004#32, 0x00181014#32, 4#32, 0#32, 0x00180080#32, 0#32, 0#32] ++
      storeWords 0x00180080#32 [0x04000118#32, 0x00181008#32, 0x00181004#32, 0x10#32, 0#32, 0x00180000#32, 0#32,
        0#32] ++
      storeWords 0x001800A0#32 [0x04000008#32, 0x00181018#32, 0x001800F4#32, 4#32, 0#32, 0x001800C0#32, 0#32, 0#32] ++
      storeWords 0x001800C0#32 [0x04000008#32, 0x00181018#32, 0x00181028#32, 4#32, 0#32, 0x001800E0#32, 0#32, 0#32] ++
      storeWords 0x001800E0#32 [0x04000118#32, 0x0018101C#32, 0x00181018#32, 0x10#32, 0#32, 0x00180100#32, 0#32,
        0#32] ++
      storeWords 0x00180100#32 [0x04000118#32, 0x0018102C#32, 0x00181004#32, 0x28#32, 0#32, 0x00180120#32, 0#32,
        0#32]))) = some (⟨9, 21, 1, [], false⟩, true) := by decide +kernel
/-- V60: LoopEnd(0) stores CH(0)+0x14 = CH(2). -/
theorem test_loopEnd_zero : ((host (.loopEnd 0) (building ⟨2, 1, 0, [0], false⟩)).map fun s => s.host.todo) =
    some [.instr (.store 0x00180014#32 0x00180040#32)] := by decide +kernel
/-- V98, V99: T's NEXT with RepeatForever and a loop open; V94: without. -/
theorem test_repeatForever :
    ((host .repeatForever (building ⟨2, 1, 0, [1], false⟩)).map fun s => tailNext cfgX s.host.build) =
      some 0x00180020#32 ∧
    tailNext cfgX ⟨8, 20, 1, [0], true⟩ = 0x00180000#32 ∧ tailNext cfgX Build.init = 0#32 := by decide +kernel
/-- V86 to V95: what validation rejects and admits. -/
theorem test_validate :
    [[.op .loopBegin, .op (.loopEnd 17)], [.word 0x60000000#32], [.word 0x30000001#32],
     [.word 0x50000000#32, .word 0x60000000#32], [.op .repeatForever, .op (.delayMicros 1)], [.op (.loopEnd 2)],
     [.op .loopBegin]].map (fun p => match validate cfgX wavesAB p with | .ok _ => none | .error e => some e) =
    [some .badLoopCount, some .badOpcode, some .badOpcode, some .badOpcode, some .mustBeLast, some .badLoop,
     some .badLoop] := by decide +kernel
/-- E7, V94, V96: descriptors (with T) and OOL words of accepted programs. -/
theorem test_validate_sizes :
    [[.word 0x10000000#32, .word 0x30000000#32, .word 0x10000001#32, .word 0x40000005#32, .word 0x50000000#32], [],
     [.op (.playWave 0), .op (.delayMicros 0), .op (.playWave 1)]].map
      (fun p => match validate cfgX wavesAB p with | .ok b => some (b.q + 1, b.m, b.counters) | .error _ => none) =
    [some (11, 22, 1), some (1, 0, 0), some (3, 2, 0)] := by decide +kernel
/-- V92: the fifth Counter. -/
theorem test_validate_counters :
    (match validate cfgX [] ((List.replicate 5 [.op .loopBegin, .op (.loopEnd 2)]).flatten) with
      | .ok _ => none | .error e => some e) = some .chainTooBig := by decide +kernel

/-! ### Procedures -/

/-- V40 to V43: (cbCount, oolBottomCount, oolTopCount). -/
theorem test_estimate :
    [[⟨1#32, 0#32, 100#32, false, false⟩, ⟨0#32, 1#32, 200#32, false, false⟩, ⟨2#32, 1#32, 50#32, false, false⟩],
     [⟨0#32, 0#32, 10#32, false, false⟩], [⟨0#32, 0#32, 0#32, true, true⟩],
     [⟨0xF#32, 0xF0#32, 5#32, true, false⟩, ⟨0#32, 0#32, 5#32, false, true⟩]].map estimate =
    [⟨7, 4, 0⟩, ⟨1, 0, 0⟩, ⟨3, 0, 2⟩, ⟨6, 2, 2⟩] := by decide +kernel
/-- P2: every word compile stores. -/
theorem test_emit : (emitWave cfgX [⟨1#32, 0#32, 100#32, false, false⟩, ⟨0#32, 1#32, 200#32, false, false⟩,
      ⟨2#32, 1#32, 50#32, false, false⟩] .oneShot ⟨64, 70, 512, 1023, 7, 4, 0, false⟩).1 =
    .instr (.store 0x00101800#32 1#32) :: storeWords 0x00101000#32
      [0x04000008#32, 0x00101800#32, 0x7E20001C#32, 4#32, 0#32, 0x00101020#32, 0#32, 0#32] ++
    (storeWords 0x00101020#32
      [0x04050048#32, 0x00100800#32, 0x7E20C018#32, 0x190#32, 0#32, 0x00101040#32, 0#32, 0#32] ++
    (.instr (.store 0x00101804#32 1#32) :: storeWords 0x00101040#32
      [0x04000008#32, 0x00101804#32, 0x7E200028#32, 4#32, 0#32, 0x00101060#32, 0#32, 0#32] ++
    (storeWords 0x00101060#32
      [0x04050048#32, 0x00100800#32, 0x7E20C018#32, 0x320#32, 0#32, 0x00101080#32, 0#32, 0#32] ++
    (.instr (.store 0x00101808#32 2#32) :: storeWords 0x00101080#32
      [0x04000008#32, 0x00101808#32, 0x7E20001C#32, 4#32, 0#32, 0x001010A0#32, 0#32, 0#32] ++
    (.instr (.store 0x0010180C#32 1#32) :: storeWords 0x001010A0#32
      [0x04000008#32, 0x0010180C#32, 0x7E200028#32, 4#32, 0#32, 0x001010C0#32, 0#32, 0#32] ++
    storeWords 0x001010C0#32
      [0x04050048#32, 0x00100800#32, 0x7E20C018#32, 0xC8#32, 0#32, 0#32, 0#32, 0#32]))))) := by decide +kernel
/-- V42: the cells wto(r, 0) and wto(r, 1), going down. -/
theorem test_emit_cells : ((emitWave cfgX [⟨0#32, 0#32, 0#32, true, true⟩] .oneShot
      ⟨64, 66, 512, 1023, 3, 0, 2, false⟩).1.filter fun t => match t with
        | .instr (.store a _) => decide (0x00101800 ≤ a.toNat) && decide (a.toNat < 0x00102000) | _ => false) =
    [.instr (.store 0x00101FFC#32 0#32), .instr (.store 0x00101FF8#32 0#32)] := by decide +kernel
/-- P1: the five carrier descriptors. -/
theorem test_carrier : (List.range 5).map (fun q => (cfgX.carrierCd q, cfgX.carrierDesc 1 q)) =
    [(0x00100000#32, ⟨0x04000008#32, 0x00100804#32, 0x7E20001C#32, 4#32, 0#32, 0x00100020#32⟩),
     (0x00100020#32, ⟨0x04020048#32, 0x00100800#32, 0x7E203004#32, 4#32, 0#32, 0x00100040#32⟩),
     (0x00100040#32, ⟨0x04000008#32, 0x00100808#32, 0x7E200028#32, 4#32, 0#32, 0x00100060#32⟩),
     (0x00100060#32, ⟨0x04020048#32, 0x00100800#32, 0x7E203004#32, 4#32, 0#32, 0x00100080#32⟩),
     (0x00100080#32, ⟨0x04000008#32, 0x0010080C#32, 0x7E200028#32, 4#32, 0#32, 0x00100000#32⟩)] := by decide +kernel
/-- V71 to V76. -/
theorem test_carrier_rejects : [(false, 10, 0), (false, 0, 1), (false, 10, 13), (false, 10, 21), (false, 10, 12),
      (true, 10, 0)].map (fun p => carrierReject cfgX p.1 p.2.1 p.2.2) =
    [some .badCarrierArgs, some .badCarrierArgs, some .carrierTooBig, some .carrierTooBig, none,
     some .carrierAlreadyStarted] := by decide +kernel
/-- V44 to V48: compile's rejections, in order. -/
theorem test_compile_rejects :
    [[], List.replicate 65 ⟨1#32, 0#32, 0x10000000#32, false, false⟩, [⟨1#32, 0#32, 0x10000000#32, false, false⟩],
     [⟨1#32, 0#32, 0x0FFFFFFF#32, false, false⟩]].map (compileReject cfgX) =
    [some .emptyWave, some .tooManyPulses, some .delayTooLong, none] := by decide +kernel

/-- A range admitted beside waves a and b, and each condition of 43 R240, 00 R9 and 20 R72 broken in turn: no
descriptor, a wrong topCB, the carrier region's last descriptor, past the arena's last descriptor, ZW, the carrier's
last OOL word, past the arena's last OOL word, a descriptor, an OOL word and a top cell of wave b, an id past
maxWaves, wave a's id. -/
theorem test_admits : ([(3, ⟨75, 77, 518, 1021, 3, 1, 1, false⟩), (3, ⟨75, 74, 518, 1021, 0, 1, 0, false⟩),
      (3, ⟨75, 78, 518, 1021, 3, 1, 0, false⟩), (3, ⟨63, 63, 518, 1021, 1, 1, 0, false⟩),
      (3, ⟨255, 256, 518, 1021, 2, 1, 0, false⟩), (3, ⟨75, 75, 0, 1021, 1, 1, 0, false⟩),
      (3, ⟨75, 75, 63, 1021, 1, 1, 0, false⟩), (3, ⟨75, 75, 2047, 1021, 1, 2, 0, false⟩),
      (3, ⟨74, 74, 518, 1021, 1, 1, 0, false⟩), (3, ⟨75, 75, 517, 1021, 1, 1, 0, false⟩),
      (3, ⟨75, 75, 518, 517, 1, 0, 1, false⟩), (16, ⟨75, 77, 518, 1021, 3, 1, 1, false⟩),
      (0, ⟨75, 77, 518, 1021, 3, 1, 1, false⟩)] : List (Nat × WaveRange)).map
        (fun p => cfgX.admitsRange wavesAB p.1 p.2) = true :: List.replicate 12 false := by decide +kernel
/-- 43 R241, R254: compile's last line registers the range and returns the id; delete marks it, and then it is no wave
to play. -/
theorem test_registry :
    (let s := State.reset.registerWave 0 ⟨64, 70, 512, 1023, 7, 4, 0, false⟩
     (s.host.ret, s.host.waves, decide ((s.deleteWave 0).mem = s.mem), (s.deleteWave 0).host.waves,
       ((s.deleteWave 0).play 0 .oneShot).host.ret)) =
    (.waveId 0, [(0, ⟨64, 70, 512, 1023, 7, 4, 0, false⟩)], true, [(0, ⟨64, 70, 512, 1023, 7, 4, 0, true⟩)],
      .rejected .badWaveId) := by decide +kernel

/-! ### Reset and boot -/

/-- 70 R371, R372: boot from power-on gives the launch state, and carrier start is the host's first procedure. -/
theorem test_boot : ((nextOf (boot ⟨true, true, true, 10, 1, [.play 0 .oneShot]⟩ (State.powerOn cfgX
      ⟨true, 0x00100000#32, .fetch [], some .overlap⟩ Channel.launch 5#32))).map fun s =>
      (s.setTodo [], s.host.todo)) =
    some (State.launch cfgX 5#32, [.start 10 1, .play 0 .oneShot]) := by decide +kernel

/-- 10 R50; 70 R371: launch leaves ZW = 0 and nothing else written, both channels idle and not faulted. -/
theorem test_reset_state : State.reset.mem.wf = true ∧ State.reset.mem.word 0x00100800#32 = some 0#32 ∧
    State.reset.mem.length = 4 ∧ State.reset.ended .P = true ∧ State.reset.ended .S = true ∧
    cfgX.ok = true := by decide +kernel

/-! ### Witnesses: states and operands that meet the hypotheses of each statement -/

/-- A host step or chain opcode's task run by the host on top of a state. -/
def waiting (s : State) (x : HostTask) : State := s.setTodo [x]

/-- A step of a state answers something. -/
def steps (s : State) : Bool := (nextOf (step s)).isSome

/-- DescriptorRoundTrip: every class has a well-formed member, the lengths at both ends of their range. -/
theorem test_witness_descriptors : cfgX.ok = true ∧ [Instr.set X 0xFFFFFFFF#32 0x00102020#32, .clr X 0#32 0#32,
      .lev X 0#32 0#32, .tick X 0#32 0#32, .paceP 0#28 0#32 0#32, .paceS 0xFFFFFFF#28 0#32 0#32, .copy X X 0#32 0#32,
      .copyN (X + 4#32) X 2#28 0#32 0#32, .xfer ⟨true, true, true, 15#4, 5#5, 31#5, false⟩ X 0#32 3#28 0#32 0#32,
      .xfer (XferTI.ofWord tiNormal) 0#32 0#32 0#28 0#32 0#32, .nop 0#32 0xFFFFFFE0#32,
      .link X 0x00180000#32 0#32 0#32].all (fun i => decide (i.kind = .descriptor) && i.wellFormed cfgX) = true := by
  decide +kernel
/-- DecodedInstructionKeepsItsWords: words that decode, words 6 and 7 not zero. -/
theorem test_witness_decoded : (match decodeWords [0x04000008#32, X, cfgX.gpset0, 4#32, 0#32, 0#32, 6#32, 7#32] with
    | .ok _ => true | .error _ => false) = true := by decide +kernel
/-- ChainOpcodeRoundTrip: operands at the ends of their fields. -/
theorem test_witness_chain : [Instr.playWave 0, .playWave 65535, .delayMicros 0, .delayMicros 0xFFFFFFF, .loopBegin,
    .loopEnd 0xFFFFFFF, .repeatForever].all (fun i => decide (i.kind = .chain) && i.wellFormed cfgX) = true ∧
    decodeChain 0x1000FFFF#32 = some (.playWave 65535) := by decide +kernel
/-- ReservedChainWordsAreRejected: a valid beginning and a word of no opcode after it. -/
theorem test_witness_reserved : (match advanceItems cfgX wavesAB Build.init [.op .loopBegin] with
    | .ok _ => true | .error _ => false) = true ∧ decodeChain 0x60000000#32 = none := by decide +kernel
/-- FetchChecksInOrder: an address of each kind, the last of a page and of the chain region among them. -/
theorem test_witness_fetch_address : (0x00102010#32 : Word).toNat % 32 ≠ 0 ∧
    ((∀ p ∈ cfgX.pageBus, ¬ (p.toNat ≤ (0x20#32 : Word).toNat ∧ (0x20#32 : Word).toNat + 32 ≤ p.toNat + 4096)) ∧
      0x20#32 ∉ cfgX.chainCbBus) ∧
    (∃ p ∈ cfgX.pageBus, p.toNat ≤ (0x00102FE0#32 : Word).toNat ∧ (0x00102FE0#32 : Word).toNat + 32 ≤ p.toNat + 4096) ∧
    0x001807E0#32 ∈ cfgX.chainCbBus := by
  refine ⟨by decide, ⟨fun p hp => ?_, by decide +kernel⟩, ⟨0x00102000#32, by decide, by decide⟩, by decide +kernel⟩
  simp only [Config.example, List.mem_cons, List.not_mem_nil, or_false] at hp
  rcases hp with rfl | rfl | rfl | rfl <;> decide
/-- FetchChecksInOrder: unwritten and wholly written descriptors. -/
theorem test_witness_fetch_words :
    (∃ k, k < 8 ∧ State.reset.mem.word (0x00102000#32 + BitVec.ofNat 32 (4 * k)) = none) ∧
    ∀ k, k < 8 → (fetching ⟨1#32, 2#32, 3#32, 4#32, 5#32, 6#32⟩).mem.word (0x00102000#32 + BitVec.ofNat 32 (4 * k)) =
      [1#32, 2#32, 3#32, 4#32, 5#32, 6#32, 0#32, 0#32][k]? := by decide +kernel
/-- FetchChecksInOrder: two words with a beat that reads what an earlier one wrote, and one word without. -/
theorem test_witness_overlap :
    (∃ i j, i < j ∧ j < Desc.beats ⟨0x04000118#32, X, X + 4#32, 8#32, 0#32, 0#32⟩ ∧
      Desc.dstAt ⟨0x04000118#32, X, X + 4#32, 8#32, 0#32, 0#32⟩ i =
        Desc.srcAt ⟨0x04000118#32, X, X + 4#32, 8#32, 0#32, 0#32⟩ j ∧
      cfgX.inMem (Desc.dstAt ⟨0x04000118#32, X, X + 4#32, 8#32, 0#32, 0#32⟩ i) = true) ∧
    ¬ ∃ i j, i < j ∧ j < Desc.beats ⟨0x04000118#32, X, X + 4#32, 4#32, 0#32, 0#32⟩ ∧
      Desc.dstAt ⟨0x04000118#32, X, X + 4#32, 4#32, 0#32, 0#32⟩ i =
        Desc.srcAt ⟨0x04000118#32, X, X + 4#32, 4#32, 0#32, 0#32⟩ j ∧
      cfgX.inMem (Desc.dstAt ⟨0x04000118#32, X, X + 4#32, 4#32, 0#32, 0#32⟩ i) = true := by
  refine ⟨⟨0, 1, by decide +kernel⟩, ?_⟩
  rintro ⟨i, j, h1, h2, -⟩
  have e : Desc.beats ⟨0x04000118#32, X, X + 4#32, 4#32, 0#32, 0#32⟩ = 1 := by decide
  omega
/-- TurnRunsDecodedInstruction; FailingStepTakesTheFault, ChannelStepsExactlyWhenEnabled: a channel about to fetch a
descriptor that decodes, one in its beats, and host tasks. -/
theorem test_witness_turn :
    (fetching (descSet cfgX X 0#32 0#32)).canStep .S = true ∧
    (match (fetching (descSet cfgX X 0#32 0#32)).fetchInstr [] 0x00102000#32 with
      | .ok i => decide (i = .set X 0#32 0#32) | .error _ => false) = true ∧
    (onS (.exec (descSet cfgX X 0#32 0#32) 1 0 none) []).canStep .S = true ∧
    (match decodeDesc cfgX (descSet cfgX X 0#32 0#32) with | .ok _ => true | .error _ => false) = true ∧
    Table.get ([] : List (Nat × Option Word)) 7 = none ∧
    (onS (.fetch [(7, none)]) []).canStep .S = true ∧ Table.get [(7, (none : Option Word))] 7 ≠ none ∧
    State.reset.canStep .S = false ∧
    (Instr.arm .S 0#32).kind ≠ .descriptor ∧ decodeChain 0x30000000#32 = some .loopBegin := by decide +kernel
/-- ChannelStepsExactlyWhenEnabled, ChannelRegistersStayConsistent: registers that fit together, idle on ChanP and on
the last beat's write, held on a pacer, on ChanS. -/
theorem test_witness_consistent :
    (onS (.exec (descPaceS cfgX 3#28 0#32 0#32) 3 2 (some 0#32)) []).channelsConsistent ∧
    (onS (.exec (descPaceS cfgX 3#28 0#32 0#32) 3 2 (some 0#32)) []).enabled (.chan .S) = false ∧
    (onS (.fetch []) []).channelsConsistent ∧ (onS (.fetch []) []).enabled (.chan .S) = true := by
  refine ⟨⟨⟨by decide, by decide⟩, ?_⟩, by decide +kernel, ⟨⟨by decide, by decide⟩, ?_⟩, by decide +kernel⟩
  · refine ⟨by decide, by decide, by decide +kernel, by decide +kernel, .inl (by decide +kernel), by decide, ?_⟩
    intro; decide
  · exact ⟨by decide, by decide, by decide⟩
/-- FailingStepTakesTheFault: each of the three failures. -/
theorem test_witness_faults :
    ((onS (.fetch []) []).canStep .S = true ∧ (match (onS (.fetch []) []).fetchInstr [] 0x00102000#32 with
      | .ok _ => false | .error r => decide (r = .unwritten)) = true) ∧
    ((descCopy X X 0#32 0#32).check cfgX = none ∧ (match (onS (.fetch []) []).busRead X with
      | .ok _ => false | .error r => decide (r = .unwritten)) = true) ∧
    (Desc.check cfgX ⟨tiNormal, X, cfgX.timerLo, 4#32, 0#32, 0#32⟩ = none ∧
      (Desc.destDreq ⟨tiNormal, X, cfgX.timerLo, 4#32, 0#32, 0#32⟩) = false ∧
      (match (onS (.fetch []) []).busWrite .S cfgX.timerLo 1#32 with
        | .ok _ => false | .error r => decide (r = .readOnly)) = true) := by decide +kernel
/-- FaultsAreSticky, RefusedIsSetAndKept: a faulted channel and a refused run, which step. -/
theorem test_witness_sticky :
    (let s := { onS (.fetch []) [] with
       chanS := ⟨true, 0x00102000#32, .fetch [], some .misaligned⟩, sched := [.chan .S], refused := true }
     s.chanS.fault = some .misaligned ∧ s.refused = true ∧ steps s = true) ∧
    (X ≠ 0#32) ∧ ((onS (.fetch []) []).chan .S).active = true ∧ (0x00102802#32 : Word).toNat % 4 ≠ 0 ∧
    cfgX.inMem cfgX.gpset0 = false ∧ (2#32 : Word).extractLsb' 1 30 ≠ 0#30 ∧
    (⟨1, 0, 0⟩ : WaveSize) ≠ ⟨0, 0, 0⟩ := by decide +kernel
/-- ResetStopsOneChannel: CS writes with bit 31 set, and with bit 31 clear and ACTIVE set and clear. -/
theorem test_witness_csWrite : [0x80000001#32, 0x80000000#32, 1#32, 0#32].map (fun v : Word =>
      (v.extractLsb' 1 30, v.getLsbD 31)) = [(0#30, true), (0#30, true), (0#30, false), (0#30, false)] ∧
    (waiting (onS (.fetch []) []) (.csWrite .S 1#32)).host.todo = [.csWrite .S 1#32] := by decide
/-- BusReadFollowsRegions, BusWriteFollowsRegions: an address of each kind, and a pacer full and not full. -/
theorem test_witness_bus : cfgX.ok = true ∧ (0x00102802#32 : Word).toNat % 4 ≠ 0 ∧
    (0x00103FFC#32 : Word).toNat % 4 = 0 ∧ cfgX.inMem 0x00103FFC#32 = true ∧
    State.reset.mem.word 0x00103FFC#32 = none ∧ State.reset.mem.word cfgX.zw = some 0#32 ∧
    cfgX.gplev0.toNat % 4 = 0 ∧ cfgX.timerLo.toNat % 4 = 0 ∧ cfgX.fifoP.toNat % 4 = 0 ∧ cfgX.fifoS.toNat % 4 = 0 ∧
    cfgX.gpset0.toNat % 4 = 0 ∧ cfgX.gpclr0.toNat % 4 = 0 ∧
    (cfgX.inMem 0xFFFFFFFC#32 = false ∧ 0xFFFFFFFC#32 ∉ cfgX.peripherals) ∧
    State.reset.pacerP.fill ≠ cfgX.pacerDepth .P ∧
    ({ State.reset with pacerS := ⟨true, 2, 0, 1⟩ }.pacer .S).fill = cfgX.pacerDepth .S := by decide +kernel
/-- DescriptorPhases, DescriptorStepFrame: the five phases of a channel that can step. -/
theorem test_witness_phases :
    (Instr.set X 0#32 0#32).desc cfgX = some (descSet cfgX X 0#32 0#32) ∧
    (fetching (descSet cfgX X 0#32 0#32)).canStep .S = true ∧ (descSet cfgX X 0#32 0#32).beats ≠ 0 ∧
    (match (onS (.fetch []) [(X, 3#32)]).busRead X with | .ok _ => true | .error _ => false) = true ∧
    (match (onS (.fetch []) []).busWrite .S X 3#32 with | .ok _ => true | .error _ => false) = true ∧
    (descSet cfgX X 0#32 0#32).destDreq = false ∧ (descPaceS cfgX 1#28 0#32 0#32).destDreq = true ∧
    State.reset.pacerS.configured = false ∧
    (nextOf (exec (.set X 0#32 0#32) (onS (.exec (descSet cfgX X 0#32 0#32) 1 0 (some 1#32)) []))).isSome = true := by
  decide +kernel
/-- ZeroLengthDrawsItsBeatCount: PACE_S 0, and PACE_S 1 as the same descriptor with LENGTH = 4. -/
theorem test_witness_zero_length :
    (Instr.paceS 0#28 0#32 0#32).desc cfgX = some (descPaceS cfgX 0#28 0#32 0#32) ∧
    (descPaceS cfgX 0#28 0#32 0#32).beats = 0 ∧ (onS (.fetch []) []).atFetch ∧
    (Instr.paceS 1#28 0#32 0#32).desc cfgX = some { descPaceS cfgX 0#28 0#32 0#32 with txfrLen := 4#32 } ∧
    ∀ e, ((onS (.exec (descPaceS cfgX 0#28 0#32 0#32) 1 0 none) []).chan .S).phase ≠ .fetch e :=
  ⟨by decide, by decide, onS_atFetch _ _, by decide, fun _ => nofun⟩
/-- SetAndClrDriveTheLatch, LevAndTickSample, CopyAndNopMoveOneWord, LinkWritesTheNextWord: a channel at fetch whose
operands are memory words. -/
theorem test_witness_one_beat : (onS (.fetch []) [(X, 3#32)]).atFetch ∧ cfgX.ok = true ∧ cfgX.inMem X = true ∧
    X.toNat % 4 = 0 ∧ (onS (.fetch []) [(X, 3#32)]).mem.word X = some 3#32 ∧
    (onS (.fetch []) [(X, 3#32)]).mem.wf = true ∧ (onS (.fetch []) [(X, 3#32)]).mem.word cfgX.zw = some 0#32 ∧
    cfgX.isDescSlot 0x00102020#32 = true := ⟨onS_atFetch _ _, by decide +kernel⟩
/-- LevAndTickSample's clause on all lines outputs: a configuration with that mask. -/
theorem test_witness_all_outputs :
    ({ cfgX with outputMask := 0xFFFFFFFF#32 } : Config).ok = true := by decide +kernel
/-- PaceFillsItsPacer: each phase, and a configured pacer with room for exactly the words. -/
theorem test_witness_pace : (2#28 : BitVec 28) ≠ 0#28 ∧ (onS (.fetch []) []).mem.word cfgX.zw = some 0#32 ∧
    (onS (.fetch []) []).atFetch ∧
    (onS (.exec (descPaceS cfgX 2#28 0#32 0#32) 2 1 none) []).ready (.exec (paceDesc cfgX .S 2#28 0#32 0#32) 2 1 none) ∧
    (onS (.exec (descPaceS cfgX 2#28 0#32 0#32) 2 1 (some 0#32)) []).ready
      (.exec (paceDesc cfgX .S 2#28 0#32 0#32) 2 1 (some 0#32)) ∧
    (onS (.exec (descPaceS cfgX 2#28 0#32 0#32) 2 2 none) []).ready (.exec (paceDesc cfgX .S 2#28 0#32 0#32) 2 2 none) ∧
    (let s := { onS (.fetch []) [] with pacerS := ⟨true, 0, 0, 1⟩ }
     (s.pacer .S).configured = true ∧ (s.pacer .S).fill + 2 ≤ cfgX.pacerDepth .S) := by
  refine ⟨by decide, by decide +kernel, onS_atFetch _ _, ⟨by decide, by decide⟩, ⟨by decide, by decide⟩,
    ⟨by decide, by decide⟩, by decide⟩
/-- CopyNMovesABlock: V11's overlapping ranges. -/
theorem test_witness_copyN : Desc.check cfgX ⟨0x04000118#32, X + 4#32, X, lenWord 3#28, 0#32, 0#32⟩ = none ∧
    (∀ k, k < (3#28 : BitVec 28).toNat → cfgX.inMem (X + 4#32 + BitVec.ofNat 32 (4 * k)) = true ∧
      cfgX.inMem (X + BitVec.ofNat 32 (4 * k)) = true ∧
      (onS (.fetch []) [(X + 4#32, 2#32), (X + 8#32, 3#32), (X + 12#32, 4#32)]).mem.word
        (X + 4#32 + BitVec.ofNat 32 (4 * k)) = some (BitVec.ofNat 32 (k + 2))) := by decide +kernel
/-- XferOrsEachWordIntoTheLatch: V14's two words. -/
theorem test_witness_xfer : (2#28 : BitVec 28) ≠ 0#28 ∧ ∀ k, k < (2#28 : BitVec 28).toNat →
    cfgX.inMem (X + BitVec.ofNat 32 (4 * k)) = true ∧
    (onS (.fetch []) [(X, 1#32), (X + 4#32, 2#32)]).mem.word (X + BitVec.ofNat 32 (4 * k)) = some (BitVec.ofNat 32 (k + 1)) := by
  decide +kernel
/-- The invariants: the reset state meets them, and steps on a STORE, on a WAVECLK and on a GPIO_SET. -/
theorem test_witness_invariants :
    [HostTask.instr (.store X 1#32), .instr .waveclk, .instr (.gpioSet 1#32)].all
      (fun x => steps { waiting State.reset x with sched := [.host] }) = true ∧
    State.reset.mem.wf = true ∧ State.reset.pacersConsistent ∧ State.reset.waveClockConsistent ∧
    State.reset.gpioOut = replay 0#32 State.reset.trace := by
  refine ⟨by decide +kernel, by decide +kernel, ?_, ⟨by decide, by decide⟩, by decide⟩
  intro pc; cases pc <;> exact ⟨by decide, by decide⟩
/-- WaveRangesStayApart: a registry that holds waves a and b of P3. -/
theorem test_witness_wavesOk : (State.reset.setWaves (wavesAB.take 2)).wavesOk := by
  have ok : ∀ id r, Table.get (wavesAB.take 2) id = some r → id < cfgX.maxWaves ∧ cfgX.rangeOk r = true ∧
      (id = 0 ∧ r = ⟨64, 70, 512, 1023, 7, 4, 0, false⟩ ∨ id = 1 ∧ r = ⟨71, 74, 516, 1022, 4, 2, 0, false⟩) := by
    intro id r h
    simp only [wavesAB, List.take, Table.get] at h
    split at h <;> rename_i e
    · simp at e h; subst e; subst h; decide +kernel
    · split at h <;> rename_i e
      · simp at e h; subst e; subst h; decide +kernel
      · simp at h
  refine ⟨by decide, fun id r h => ?_, fun i j r q hij hi hj _ _ n => ?_⟩
  · obtain ⟨h1, h2, -⟩ := ok id r h
    obtain ⟨a, b, -, d, e, -⟩ := rangeOk_positions h2
    exact ⟨h1, a, b, d, e⟩
  · obtain ⟨-, -, ⟨rfl, rfl⟩ | ⟨rfl, rfl⟩⟩ := ok i r hi <;> obtain ⟨-, -, ⟨rfl, rfl⟩ | ⟨rfl, rfl⟩⟩ := ok j q hj <;>
      first
        | exact absurd rfl hij
        | exact WaveRange.apartFrom_positions (by decide) n
/-- MemoryStaysInItsRegions: a state whose memory holds one whole word of the arena. -/
theorem test_witness_regions : State.reset.memoryInRegions := by
  intro a h
  have : a = 0x00100800 ∨ a = 0x00100801 ∨ a = 0x00100802 ∨ a = 0x00100803 := by
    by_contra h'
    push Not at h'
    simp [State.reset, State.launch, Memory.byte, Table.get, Config.example, h'] at h
  rcases this with rfl | rfl | rfl | rfl <;> exact ⟨by decide, by decide +kernel, by decide +kernel⟩
/-- PacerTickDrainsOneWord: a pacer that ticks and one that does not. -/
theorem test_witness_pacer : ({ State.reset with pacerP := ⟨true, 1, 0, 10⟩ }.tickEnabled .P) = true ∧
    State.reset.tickEnabled .P = false := by decide +kernel
/-- ArmStartsAnIdleChannel, StoreAndLoadOneWord, PacersAreConfigured, HostStepFrame: an idle channel and one that is
not, a word written and one not, the clock not started and started, the least period. -/
theorem test_witness_host : (State.reset.chan .S).active = false ∧ (State.reset.chan .S).phase = .idle ∧
    ((onS (.fetch []) []).chan .S).phase ≠ .idle ∧ State.reset.mem.word X = none ∧
    (onS .idle [(X, 7#32)]).mem.word X = some 7#32 ∧ State.reset.host.waveClockReady = false ∧
    State.reset.takeWaveClock.host.waveClockReady = true ∧ 1 ≤ 1 ∧ (Instr.stop .P).kind = .host := by decide +kernel
/-- EightStoresBuildADescriptor: a chain slot and the host with the eight STOREs waiting. -/
theorem test_witness_stores : (0x001807E0#32 : Word).toNat % 32 = 0 ∧ cfgX.fetchable 0x001807E0#32 = true ∧
    (hostWith (storeDesc 0x001807E0#32 (descNop cfgX 0#32 0#32))).host.todo =
      storeDesc 0x001807E0#32 (descNop cfgX 0#32 0#32) ++ [] := by decide +kernel
/-- StraightOpcodesEmit: a live wave, the last positions of the chain region, delays at both ends. -/
theorem test_witness_straight : (building ⟨62, 255, 0, [0], false⟩).host.build = ⟨62, 255, 0, [0], false⟩ ∧
    1 < cfgX.maxWaves ∧ Table.get wavesAB 1 = some ⟨71, 74, 516, 1022, 4, 2, 0, false⟩ ∧
    62 + 2 ≤ cfgX.chainCbBus.length ∧ 255 + 1 ≤ cfgX.chainOol ∧ 2 ^ 28 - 1 < 2 ^ 28 ∧
    [0].length ≠ cfgX.maxLoopDepth := by decide +kernel
/-- LoopEndEmits: k at both ends of the Counter's range, at the last positions that hold one. -/
theorem test_witness_loopEnd : (building ⟨56, 236, 3, [0], false⟩).host.build = ⟨56, 236, 3, [0], false⟩ ∧
    2 ≤ 16 ∧ 16 ≤ cfgX.blockLength ^ cfgX.blocks ∧ 3 + 1 ≤ cfgX.maxCounters ∧
    56 + 3 * cfgX.blocks + 2 ≤ cfgX.chainCbBus.length ∧
    236 + 2 * cfgX.blocks * (cfgX.blockLength + 1) ≤ cfgX.chainOol := by decide +kernel
/-- RepeatForeverClosesTheGraph: the three tails, at the last position. -/
theorem test_witness_tail : 63 + 1 ≤ cfgX.chainCbBus.length ∧
    (waiting (building ⟨63, 0, 0, [], false⟩) .tail).host.build.seenRepeat = false ∧
    (building ⟨63, 0, 0, [], true⟩).host.build.openHeads = [] ∧
    (building ⟨63, 0, 0, [5, 2], true⟩).host.build.openHeads = [5] ++ [2] := by decide +kernel
/-- ChainOpcodesEmitOrReject: the limits reached and the loops closed. -/
theorem test_witness_chain_rejects : Instr.loopBegin.kind = .chain ∧ cfgX.maxWaves ≤ 16 ∧
    Table.get wavesAB 3 = none ∧ (∃ r, Table.get wavesAB 2 = some r ∧ r.deleted = true) ∧
    [3, 2, 1, 0].length = cfgX.maxLoopDepth ∧ cfgX.blockLength ^ cfgX.blocks < 17 ∧ cfgX.maxCounters < 4 + 1 ∧
    cfgX.chainCbBus.length < 57 + 3 * cfgX.blocks + 2 ∧
    cfgX.chainOol < 237 + 2 * cfgX.blocks * (cfgX.blockLength + 1) ∧ cfgX.chainCbBus.length < 63 + 2 ∧
    cfgX.chainOol < 256 + 1 ∧ 0 < cfgX.maxWaves ∧ (0 : Nat) < 1 ∧ 1 < 2 ^ 28 ∧
    Table.get wavesAB 0 = some ⟨64, 70, 512, 1023, 7, 4, 0, false⟩ := by
  refine ⟨rfl, by decide, by decide, ⟨_, rfl, rfl⟩, ?_⟩
  decide
/-- CounterIsLaidOut: P3's Counter. -/
theorem test_witness_counter : 2 + 3 * cfgX.blocks + 1 ≤ cfgX.chainCbBus.length ∧
    1 + 2 * cfgX.blocks * (cfgX.blockLength + 1) ≤ cfgX.chainOol ∧
    (hostWith (counterTasks cfgX 2 1 0x00180000#32 0x00180120#32 2)).host.todo =
      counterTasks cfgX 2 1 0x00180000#32 0x00180120#32 2 ++ [] :=
  ⟨by decide, by decide, (List.append_nil _).symm⟩
/-- CounterIsLaidOut, the length clause: the configuration in which a rotate has 2^28 words. -/
theorem test_witness_long_counter :
    let c := { cfgX with blockLength := 2 ^ 28, blocks := 1, chainOolBase := 0x7F000000#32, chainOol := 2 ^ 29 + 2 }
    c.ok = true ∧ 0 + 3 * c.blocks + 1 ≤ c.chainCbBus.length ∧
    0 + 2 * c.blocks * (c.blockLength + 1) ≤ c.chainOol ∧ 2 ^ 28 ≤ c.blockLength := by decide +kernel
/-- P3's digit 0 as built, ChanS at G_0. -/
def digitZero : State :=
  { withWords (((List.range 8).map fun k => (0x00180040#32 + BitVec.ofNat 32 (4 * k),
        ([0x04000008#32, 0x00181004#32, 0x00180094#32, 4#32, 0#32, 0x00180060#32, 0#32, 0#32][k]?).getD 0#32)) ++
      ((List.range 8).map fun k => (0x00180060#32 + BitVec.ofNat 32 (4 * k),
        ([0x04000008#32, 0x00181004#32, 0x00181014#32, 4#32, 0#32, 0x00180080#32, 0#32, 0#32][k]?).getD 0#32)) ++
      ((List.range 8).map fun k => (0x00180080#32 + BitVec.ofNat 32 (4 * k),
        ([0x04000118#32, 0x00181008#32, 0x00181004#32, 0x10#32, 0#32, 0x00180000#32, 0#32, 0#32][k]?).getD 0#32)) ++
      ((List.range 5).map fun k => (0x00181004#32 + BitVec.ofNat 32 (4 * k),
        ([0x00180000#32, 0x00180000#32, 0x001800A0#32, 0x00180000#32, 0x00180000#32][k]?).getD 0#32))) with
    chanS := ⟨true, 0x00180040#32, .fetch [], none⟩ }
/-- CounterDigitTurnsAndBranches: digit 0 of P3's Counter. -/
theorem test_witness_digit : digitZero.cfg.ok = true ∧ digitZero.canStep .S = true ∧
    digitZero.chanS.conblkAd = cfgX.chainCb (2 + 3 * 0) ∧ 0 < cfgX.blocks ∧ cfgX.blockLength < 2 ^ 28 ∧
    (∀ k, k < 8 → digitZero.mem.word (cfgX.chainCb (2 + 3 * 0) + BitVec.ofNat 32 (4 * k)) =
      (Desc.words ⟨0x04000008#32, cfgX.chainCo (1 + 0 * 5 + 0), cfgX.chainCb (2 + 3 * 0 + 2) + 0x14#32, 4#32, 0#32,
        cfgX.chainCb (2 + 3 * 0 + 1)⟩)[k]?) ∧
    (∀ k, k < 8 → digitZero.mem.word (cfgX.chainCb (2 + 3 * 0 + 1) + BitVec.ofNat 32 (4 * k)) =
      (Desc.words ⟨0x04000008#32, cfgX.chainCo (1 + 0 * 5 + 0), cfgX.chainCo (1 + 0 * 5 + 4), 4#32, 0#32,
        cfgX.chainCb (2 + 3 * 0 + 2)⟩)[k]?) ∧
    (∀ k, k < 8 → digitZero.mem.word (cfgX.chainCb (2 + 3 * 0 + 2) + BitVec.ofNat 32 (4 * k)) =
      (Desc.words ⟨0x04000118#32, cfgX.chainCo (1 + 0 * 5 + 1), cfgX.chainCo (1 + 0 * 5 + 0), BitVec.ofNat 32 16, 0#32,
        0x00180000#32⟩)[k]?) ∧
    (∀ i, i ≤ 4 → digitZero.mem.word (cfgX.chainCo (1 + 0 * 5 + i)) =
      some (if i = 2 then 0x001800A0#32 else 0x00180000#32)) ∧
    (0x00180000#32 : Word).toNat % 32 = 0 ∧ (0x00180000#32 : Word) ≠ 0#32 := by decide +kernel
/-- ValidProgramsHaveTheirSize, SubmitBuildsAndArmsTheChain: P4's program. -/
theorem test_witness_submit : (match validate cfgX wavesAB [.word 0x10000000#32, .word 0x30000000#32,
      .word 0x10000001#32, .word 0x40000005#32, .word 0x50000000#32] with
    | .ok b => decide (b = ⟨10, 22, 1, [], true⟩) | .error _ => false) = true := by decide +kernel
/-- SubmitBuildsAndArmsTheChain, the clauses of `chainAt`: where P4's program and one with a LoopEnd(0) reach each
opcode that emits. -/
theorem test_witness_reaches :
    (∃ b, reaches cfgX wavesAB [.op .loopBegin, .op (.playWave 1), .op (.delayMicros 7), .op (.loopEnd 0)] b
      (.loopEnd 0) ∧ b.openHeads.head? = some 0) ∧
    (∃ b, reaches cfgX wavesAB [.op .loopBegin, .op (.playWave 1), .op (.delayMicros 7)] b (.delayMicros 7)) ∧
    (∃ b, reaches cfgX wavesAB [.op .loopBegin, .op (.playWave 1), .op (.loopEnd 5)] b (.loopEnd 5) ∧
      b.openHeads.head? = some 0) ∧
    (∃ b, reaches cfgX wavesAB [.word 0x10000000#32, .word 0x30000000#32] b .loopBegin) ∧
    ∃ b, reaches cfgX wavesAB [.word 0x10000000#32] b (.playWave 0) := by
  refine ⟨⟨_, ⟨[_, _, _], _, [], rfl, rfl, rfl⟩, rfl⟩, ⟨_, [_, _], _, [], rfl, rfl, rfl⟩,
    ⟨_, ⟨[_, _], _, [], rfl, rfl, rfl⟩, rfl⟩, ⟨_, [_], _, [], rfl, rfl, rfl⟩, ⟨_, [], _, [], rfl, rfl, rfl⟩⟩
/-- RejectedProceduresChangeNothing, submit's clause: a program that validation rejects. -/
theorem test_witness_rejected : (match validate cfgX wavesAB [.op (.playWave 2)] with
    | .ok _ => false | .error e => decide (e = .badWaveId)) = true := by decide +kernel
/-- RejectedProceduresChangeNothing: a first item rejected after a valid beginning, and a LoopBegin left open (V81). -/
theorem test_witness_rejected_items :
    (match advanceItems cfgX wavesAB Build.init [.op .loopBegin] with
      | .ok b => decide (b.openHeads ≠ []) && !b.seenRepeat &&
          (match advanceItem cfgX wavesAB b (.op (.loopEnd 17)) with
            | .ok _ => false | .error e => decide (e = .badLoopCount))
      | .error _ => false) = true := by decide +kernel
/-- WaveRegistryFollowsTheProcedures: P2's wave a is admitted and has the size asked for, a range in the carrier region
is not admitted, and ids the registry knows and does not. -/
theorem test_witness_registry :
    (let pulses := [⟨1#32, 0#32, 100#32, false, false⟩, ⟨0#32, 1#32, 200#32, false, false⟩,
       ⟨2#32, 1#32, 50#32, false, false⟩]
     pulses ≠ [] ∧ pulses.length ≤ cfgX.maxPulses ∧ (∀ p ∈ pulses, p.delay.toNat < 2 ^ 28) ∧
     compileReject cfgX pulses = none ∧
     (WaveRange.hasSize ⟨64, 70, 512, 1023, 7, 4, 0, false⟩ (estimate pulses) &&
       cfgX.admitsRange [] 0 ⟨64, 70, 512, 1023, 7, 4, 0, false⟩) = true ∧
     (WaveRange.hasSize ⟨0, 6, 512, 1023, 7, 4, 0, false⟩ (estimate pulses) &&
       cfgX.admitsRange [] 0 ⟨0, 6, 512, 1023, 7, 4, 0, false⟩) = false) ∧
    Table.get wavesAB 0 ≠ none ∧ Table.get wavesAB 3 = none := by decide +kernel
/-- PlayArmsTheWave: wave a of P2. -/
theorem test_witness_play : (waiting (State.reset.setWaves wavesAB) (.play 0 .oneShot)).host.todo = [.play 0 .oneShot] ∧
    0 < cfgX.maxWaves ∧ Table.get wavesAB 0 = some ⟨64, 70, 512, 1023, 7, 4, 0, false⟩ ∧
    64 < cfgX.pageBus.length * cfgX.cbsPerPage ∧ 70 < cfgX.pageBus.length * cfgX.cbsPerPage := by decide +kernel
/-- CarrierStartBuildsItsCycle: V75, the largest carrier of CFG-X. -/
theorem test_witness_carrier : (waiting State.reset (.start 10 12)).host.todo = [.start 10 12] ∧
    State.reset.host.carrierRunning = false ∧ 12 * (1 + 2 * cfgX.carrierSlots) ≤ cfgX.carrierCbs ∧
    12 * (1 + cfgX.carrierSlots) ≤ cfgX.carrierOol := by decide +kernel
/-- TableUpdateRewritesOneWord: a table word in memory. -/
theorem test_witness_table : (0x00100800#32 : Word).toNat % 4 = 0 ∧ cfgX.inMem 0x00100800#32 = true ∧
    (waiting State.reset (.tableUpdate 0x00100800#32 1#32 true)).mem.word 0x00100800#32 = some 0#32 := by
  decide +kernel
/-- BootReachesTheLaunchState: a boot that succeeds, with arguments carrier start accepts at the largest carrier (V75),
and the two that fail. -/
theorem test_witness_boot : ([⟨true, true, true, 10, 12, []⟩, ⟨false, true, true, 10, 12, []⟩,
      ⟨true, false, true, 10, 12, []⟩, ⟨true, true, false, 10, 12, []⟩] : List BootInput).map (fun b =>
        (b.regsMap, b.memLocks, b.withinHorizon)) =
      [(true, true, true), (false, true, true), (true, false, true), (true, true, false)] ∧
    (10 ≠ 0 ∧ 12 ≠ 0 ∧ 12 * (1 + 2 * cfgX.carrierSlots) ≤ cfgX.carrierCbs ∧
      12 * (1 + cfgX.carrierSlots) ≤ cfgX.carrierOol) := by decide +kernel

end Sys2Proof.Tests
end

namespace Sys2Proof.Machine

/-! ### The operations a step is made of, field by field

What GPIO writes, pacer configuration, RESET, ARM, FETCH's load and COMPLETE leave unchanged (10 R38, R39; 40 R151,
R153; 41 R190, R191, R195, R196). -/

@[simp] theorem State.gpioSet_mem (s : State) (x : Source) (v : Word) : (s.gpioSet x v).mem = s.mem := rfl
@[simp] theorem State.gpioClr_mem (s : State) (x : Source) (v : Word) : (s.gpioClr x v).mem = s.mem := rfl

@[simp] theorem State.configurePacer_cfg (s : State) (pc : ChanId) (n : Nat) :
    (s.configurePacer pc n).cfg = s.cfg := by simp [State.configurePacer]
@[simp] theorem State.configurePacer_mem (s : State) (pc : ChanId) (n : Nat) :
    (s.configurePacer pc n).mem = s.mem := by simp [State.configurePacer]
@[simp] theorem State.configurePacer_chan (s : State) (pc : ChanId) (n : Nat) (ch : ChanId) :
    (s.configurePacer pc n).chan ch = s.chan ch := by simp [State.configurePacer]

@[simp] theorem State.resetChan_mem (s : State) (ch : ChanId) : (s.resetChan ch).mem = s.mem := by
  simp [State.resetChan]

@[simp] theorem State.armChan_mem (s : State) (ch : ChanId) (a : Word) : (s.armChan ch a).mem = s.mem := by
  unfold State.armChan; split_ifs <;> simp

@[simp] theorem State.loadDesc_mem (s : State) (ch : ChanId) (d : Desc) : (s.loadDesc ch d).mem = s.mem := by
  unfold State.loadDesc; split_ifs <;> simp

@[simp] theorem State.complete_mem (s : State) (ch : ChanId) (a : Word) : (s.complete ch a).mem = s.mem := by
  unfold State.complete; split_ifs <;> simp

theorem State.chanIdle_iff (s : State) (ch : ChanId) :
    s.chanIdle ch = true ↔ (s.chan ch).active = false ∧ (s.chan ch).phase = .idle := by simp [State.chanIdle]

/-! ### Pacer ticks (10 R44) -/

theorem State.tickEnabled_iff (s : State) (pc : ChanId) :
    s.tickEnabled pc = true ↔ (s.pacer pc).configured = true ∧ 0 < (s.pacer pc).fill := by simp [State.tickEnabled]

theorem State.pacerTick_of_enabled {s : State} {pc : ChanId} (h : s.tickEnabled pc = true) :
    s.pacerTick pc = (s.setPacer pc
      { s.pacer pc with fill := (s.pacer pc).fill - 1, ticks := (s.pacer pc).ticks + 1 }).log (.tick pc) := if_pos h

theorem State.pacerTick_of_disabled {s : State} {pc : ChanId} (h : ¬ s.tickEnabled pc = true) : s.pacerTick pc = s :=
  if_neg h

/-- Recording an event and writing a pacer commute. -/
theorem State.log_setPacer (s : State) (e : Event) (pc : ChanId) (p : Pacer) :
    (s.log e).setPacer pc p = (s.setPacer pc p).log e := by cases pc <;> rfl

/-- Settles O36, by whether the tick is enabled. -/
theorem pacerTickDrainsOneWord : Obligations.PacerTickDrainsOneWord := by
  intro s pc
  rw [← State.tickEnabled_iff]
  refine ⟨fun h => ?_, fun h => congrArg Host.Outcome.next (State.pacerTick_of_disabled h)⟩
  exact congrArg Host.Outcome.next ((State.pacerTick_of_enabled h).trans (s.log_setPacer _ _ _).symm)

/-! ### Memory keeps its canonical form (log 11; 20 R76, R82) -/

/-- A bus write goes to an aligned address, so it keeps the canonical form. -/
theorem State.busWrite_wf {s t : State} {ch : ChanId} {a v : Word} (h : s.mem.wf = true)
    (hw : s.busWrite ch a v = .ok t) : t.mem.wf = true := by
  obtain ⟨ha, ⟨-, rfl⟩ | ⟨-, rfl⟩ | ⟨-, rfl⟩ | ⟨pc, -, -, rfl⟩⟩ := State.busWrite_ok hw
  · exact Memory.wf_writeWord h a v ha
  · simpa using h
  · simpa using h
  · simpa using h

/-- The operations that write memory are the aligned stores of a beat and of the host. -/
theorem memoryWf_kept : KeptByOps fun s => s.mem.wf = true where
  sched _ h := h
  drawn h := h
  cur _ h := h
  todo _ h := h
  ret _ h := h
  build _ h := h
  register _ _ _ h := h
  delete _ _ _ h := h
  carrier _ h := h
  refuse h := h
  tick pc ht h := by simpa [State.pacerTick_of_enabled ht] using h
  raise ch r _ h := by simpa using h
  early ch e k _ _ _ h := by simpa using h
  load ch e d i _ _ _ _ h := by simpa using h
  read ch d n i v _ _ _ hr h := by
    obtain ⟨-, -, -, -, hm, -⟩ := State.busRead_keeps hr
    simpa [hm] using h
  write ch d n i v _ _ _ hw h := by
    have := State.busWrite_wf h hw
    split_ifs <;> simpa
  complete ch d n _ _ h := by simpa using h
  reset ch h := by simpa using h
  stopped _ h := h
  arm ch a h := by simpa using h
  pause ch h := by simpa using h
  resume ch _ h := by simpa using h
  store a v ha _ h := Memory.wf_writeWord h a v ha
  gpioSet _ h := h
  gpioClr _ h := h
  configureP t h := by simpa using h
  waveClock _ h := h

/-- Settles O28: every operation a step is made of keeps the form. -/
theorem memoryStaysCanonical : Obligations.MemoryStaysCanonical := fun _ _ => memoryWf_kept.step

/-! ### Pacers (10 R42, R44; 20 R81) -/

/-- Only the pacers, the depths and the ticks recorded matter. -/
theorem State.pacersConsistent.of_eq {s t : State} (h : s.pacersConsistent) (hc : t.cfg = s.cfg)
    (hp : ∀ pc, t.pacer pc = s.pacer pc) (ht : ∀ pc, t.trace.count (.tick pc) = s.trace.count (.tick pc)) :
    t.pacersConsistent := fun pc => by rw [hc, hp, ht]; exact h pc

theorem State.pacersConsistent.log {s : State} (h : s.pacersConsistent) {e : Event} (he : ∀ pc, e ≠ .tick pc) :
    (s.log e).pacersConsistent :=
  h.of_eq rfl (by simp) fun pc => by simp [he pc]

theorem State.pacersConsistent.setChan {s : State} (h : s.pacersConsistent) (ch : ChanId) (c : Channel) :
    (s.setChan ch c).pacersConsistent := h.of_eq (by simp) (by simp) (by simp)

/-- A pacer may be given any fill within its depth, its tick count unchanged. -/
theorem State.pacersConsistent.setPacer {s : State} (h : s.pacersConsistent) {pc : ChanId} {p : Pacer}
    (hf : p.fill ≤ s.cfg.pacerDepth pc) (ht : p.ticks = (s.pacer pc).ticks) : (s.setPacer pc p).pacersConsistent := by
  intro x
  rw [State.setPacer_pacer, State.setPacer_cfg, State.setPacer_trace]
  split_ifs with hx
  · subst hx; exact ⟨hf, ht.trans (h x).2⟩
  · exact h x

theorem State.pacersConsistent.configurePacer {s : State} (h : s.pacersConsistent) (pc : ChanId) (n : Nat) :
    (s.configurePacer pc n).pacersConsistent := h.setPacer (Nat.zero_le _) rfl

/-- A tick lowers one fill, and counts and records itself. -/
theorem State.pacersConsistent.pacerTick {s : State} (h : s.pacersConsistent) {pc : ChanId}
    (ht : s.tickEnabled pc = true) : (s.pacerTick pc).pacersConsistent := by
  intro x
  obtain ⟨hf, hn⟩ := h x
  rw [State.pacerTick_of_enabled ht]
  by_cases hx : x = pc
  · subst hx; simp [hn]; omega
  · simp [State.setPacer_pacer_of_ne _ _ _ _ hx, Ne.symm hx, hf, hn]

/-- A write to a FIFO answers only where the FIFO is not full (20 R81). -/
theorem State.pacersConsistent.busWrite {s t : State} {ch : ChanId} {a v : Word} (h : s.pacersConsistent)
    (hw : s.busWrite ch a v = .ok t) : t.pacersConsistent := by
  obtain ⟨-, ⟨-, rfl⟩ | ⟨-, rfl⟩ | ⟨-, rfl⟩ | ⟨pc, -, hfull, rfl⟩⟩ := State.busWrite_ok hw
  · exact h
  · exact State.pacersConsistent.log (s := s.setGpio _) h nofun
  · exact State.pacersConsistent.log (s := s.setGpio _) h nofun
  · exact h.setPacer (Nat.lt_of_le_of_ne (h pc).1 hfull) rfl

theorem pacersConsistent_kept : KeptByOps State.pacersConsistent where
  sched _ h := h
  drawn h := h
  cur _ h := h
  todo _ h := h
  ret _ h := h
  build _ h := h
  register _ _ _ h := h
  delete _ _ _ h := h
  carrier _ h := h
  refuse h := h
  tick _ ht h := h.pacerTick ht
  raise ch r _ h := h.of_eq (by simp) (by simp) (by simp)
  early ch _ _ _ _ _ h := h.setChan ch _
  load ch _ _ _ _ _ _ _ h := by
    unfold State.loadDesc
    split_ifs <;> exact h.setChan ch _
  read ch d n i v _ _ _ hr h := by
    obtain ⟨hcfg, -, -, hpacer, -, -, htrace, -⟩ := State.busRead_keeps hr
    exact (h.of_eq hcfg hpacer fun pc => by rw [htrace]).setChan ch _
  write ch d n i v _ _ _ hw h := by
    have ht := h.busWrite hw
    split_ifs
    · exact (ht.log (e := .sample ch _ v) nofun).setChan ch _
    · exact ht.setChan ch _
  complete ch _ _ _ _ h := by
    unfold State.complete
    split_ifs <;> exact h.setChan ch _
  reset ch h := (h.setChan ch _).log nofun
  stopped _ h := h.log nofun
  arm ch a h := by
    unfold State.armChan
    split_ifs
    · exact (h.setChan ch _).log nofun
    · exact (h.setChan ch _).log nofun
    · exact h
  pause ch h := h.setChan ch _
  resume ch _ h := h.setChan ch _
  store _ _ _ _ h := h
  gpioSet v h := State.pacersConsistent.log (s := State.setGpio _ _) h nofun
  gpioClr v h := State.pacersConsistent.log (s := State.setGpio _ _) h nofun
  configureP t h := h.configurePacer .P t
  waveClock _ h := State.pacersConsistent.log (h.configurePacer .S 1) nofun

/-- Settles O30: every operation a step is made of keeps the pacers within their depths. -/
theorem pacersStayWithinDepth : Obligations.PacersStayWithinDepth := fun _ _ => pacersConsistent_kept.step

/-! ### Channel registers (10 R32, R33; 40 R151 to R154) -/

section
variable {cfg : Config} {c : Channel}

theorem Channel.consistent_idle (hp : c.phase = .idle) :
    c.consistent cfg ↔ c.conblkAd = 0#32 ∧ c.active = false := by simp only [Channel.consistent, hp]

theorem Channel.consistent_fetch {e : List (Nat × Option Word)} (hp : c.phase = .fetch e) :
    c.consistent cfg ↔ c.conblkAd ≠ 0#32 ∧ Table.rising e = true ∧ ∀ x ∈ e, x.1 < 8 := by
  simp only [Channel.consistent, hp]

theorem Channel.consistent_exec {d : Desc} {n i : Nat} {v : Option Word} (hp : c.phase = .exec d n i v) :
    c.consistent cfg ↔ c.conblkAd ≠ 0#32 ∧ c.conblkAd.toNat % 32 = 0 ∧ cfg.fetchable c.conblkAd = true ∧
      d.check cfg = none ∧ (n = d.beats ∨ (d.beats = 0 ∧ n = 1)) ∧ i ≤ n ∧ (v ≠ none → i < n) := by
  simp only [Channel.consistent, hp]

/-- ACTIVE may be written where the channel is not idle, and cleared anywhere (10 R34). -/
theorem Channel.consistent.setActive (h : c.consistent cfg) {b : Bool} (hb : b = true → c.phase ≠ .idle) :
    Channel.consistent cfg { c with active := b } := by
  rcases hp : c.phase with _ | e | ⟨d, n, i, v⟩
  · have hb' : b = false := by simpa [hp] using hb
    exact (Channel.consistent_idle rfl).2 ⟨((Channel.consistent_idle hp).1 h).1, hb'⟩
  · exact (Channel.consistent_fetch rfl).2 ((Channel.consistent_fetch hp).1 h)
  · exact (Channel.consistent_exec rfl).2 ((Channel.consistent_exec hp).1 h)

/-- The early words stay those of one descriptor (20 R83; log 12). -/
theorem Channel.consistent.earlyWord (h : c.consistent cfg) {e : List (Nat × Option Word)} (hp : c.phase = .fetch e)
    (k : Fin 8) (w : Option Word) : Channel.consistent cfg { c with phase := .fetch (Table.set e k w) } := by
  obtain ⟨ha, hr, hk⟩ := (Channel.consistent_fetch hp).1 h
  refine (Channel.consistent_fetch rfl).2 ⟨ha, Table.rising_set e k w hr, fun x hx => ?_⟩
  rcases Table.mem_set hx with rfl | hx
  · exact k.isLt
  · exact hk x hx

/-- Within one descriptor a beat moves the index and the held word alone (40 R152). -/
theorem Channel.consistent.beat (h : c.consistent cfg) {d : Desc} {n i j : Nat} {v w : Option Word}
    (hp : c.phase = .exec d n i v) (hj : j ≤ n) (hw : w ≠ none → j < n) :
    Channel.consistent cfg { c with phase := .exec d n j w } := by
  obtain ⟨hne, hal, hft, hck, hn, -, -⟩ := (Channel.consistent_exec hp).1 h
  exact (Channel.consistent_exec rfl).2 ⟨hne, hal, hft, hck, hn, hj, hw⟩

end

/-- A descriptor that FETCH loads stands at a fetchable multiple of 32 (30 R122 steps 1 and 2). -/
theorem State.fetchDesc_ok {s : State} {e : List (Nat × Option Word)} {a : Word} {d : Desc}
    (h : s.fetchDesc e a = .ok d) : a.toNat % 32 = 0 ∧ s.cfg.fetchable a = true := by
  unfold State.fetchDesc at h
  split_ifs at h with hal hft
  exact ⟨(extract_low5_eq_zero_iff a).1 (not_not.1 hal), by simpa using hft⟩

/-- What the decoder names passes the checks (30 R122 steps 4 to 8). -/
theorem check_of_decodeDesc {c : Config} {d : Desc} {i : Instr} (h : decodeDesc c d = .ok i) : d.check c = none := by
  unfold decodeDesc at h
  split at h
  · cases h
  · assumption

theorem State.channelsConsistent_iff (s : State) :
    s.channelsConsistent ↔ ∀ ch, (s.chan ch).consistent s.cfg :=
  ⟨fun h ch => by cases ch; exacts [h.1, h.2], fun h => ⟨h .P, h .S⟩⟩

theorem State.channelsConsistent.chan {s : State} (h : s.channelsConsistent) (ch : ChanId) :
    (s.chan ch).consistent s.cfg := s.channelsConsistent_iff.1 h ch

/-- Only the channels and the configuration matter. -/
theorem State.channelsConsistent.of_eq {s t : State} (h : s.channelsConsistent) (hc : t.cfg = s.cfg)
    (hch : ∀ ch, t.chan ch = s.chan ch) : t.channelsConsistent :=
  t.channelsConsistent_iff.2 fun ch => by rw [hc, hch]; exact h.chan ch

theorem State.channelsConsistent.setChan {s : State} (h : s.channelsConsistent) (ch : ChanId) {c : Channel}
    (hc : c.consistent s.cfg) : (s.setChan ch c).channelsConsistent := by
  cases ch
  · exact ⟨hc, h.2⟩
  · exact ⟨h.1, hc⟩

/-- FETCH loads a checked descriptor with its beat count, or with a drawn one where LENGTH is 0 (40 R151, R154). -/
theorem State.channelsConsistent.loadDesc {s : State} (h : s.channelsConsistent) {ch : ChanId}
    {e : List (Nat × Option Word)} {d : Desc} (hp : (s.chan ch).phase = .fetch e)
    (hf : s.fetchDesc e (s.chan ch).conblkAd = .ok d) (hd : d.check s.cfg = none) :
    (s.loadDesc ch d).channelsConsistent := by
  obtain ⟨hal, hft⟩ := State.fetchDesc_ok hf
  have hne := ((Channel.consistent_fetch hp).1 (h.chan ch)).1
  have loaded : ∀ n, (n = d.beats ∨ (d.beats = 0 ∧ n = 1)) → (s.setPhase ch (.exec d n 0 none)).channelsConsistent :=
    fun n hn => h.setChan ch ((Channel.consistent_exec rfl).2 ⟨hne, hal, hft, hd, hn, Nat.zero_le n, by simp⟩)
  unfold State.loadDesc
  split_ifs with hb hdraw
  · exact loaded 1 (.inr ⟨hb, rfl⟩)
  · exact loaded 0 (.inl hb.symm)
  · exact loaded d.beats (.inl rfl)

/-- COMPLETE goes idle at NEXTCONBK 0 and else to the fetch of the next descriptor (40 R153). -/
theorem State.channelsConsistent.complete {s : State} (h : s.channelsConsistent) (ch : ChanId) (next : Word) :
    (s.complete ch next).channelsConsistent := by
  unfold State.complete
  split_ifs with hn
  · exact h.setChan ch ((Channel.consistent_idle rfl).2 ⟨hn, rfl⟩)
  · exact h.setChan ch ((Channel.consistent_fetch rfl).2 ⟨hn, rfl, by simp⟩)

/-- ARM starts an idle channel only (41 R190). -/
theorem State.channelsConsistent.armChan {s : State} (h : s.channelsConsistent) (ch : ChanId) (a : Word) :
    (s.armChan ch a).channelsConsistent := by
  unfold State.armChan
  split_ifs with hi ha
  · obtain ⟨hact, hp⟩ := (s.chanIdle_iff ch).1 hi
    exact h.setChan ch ((Channel.consistent_idle (c := { s.chan ch with conblkAd := a }) hp).2 ⟨ha, hact⟩)
  · exact h.setChan ch ((Channel.consistent_fetch rfl).2 ⟨ha, rfl, by simp⟩)
  · exact h

theorem channelsConsistent_kept : KeptByOps State.channelsConsistent where
  sched _ h := h
  drawn h := h
  cur _ h := h
  todo _ h := h
  ret _ h := h
  build _ h := h
  register _ _ _ h := h
  delete _ _ _ h := h
  carrier _ h := h
  refuse h := h
  tick pc ht h := by
    rw [State.pacerTick_of_enabled ht]
    exact h.of_eq (by simp) (by simp)
  raise ch r _ h := by
    unfold State.raise
    split_ifs <;> exact h.setChan ch (h.chan ch)
  early ch _ k _ hp _ h := h.setChan ch ((h.chan ch).earlyWord hp k _)
  load ch _ _ _ _ hp hf hi h := h.loadDesc hp hf (check_of_decodeDesc hi)
  read ch d n i v _ hp hi hr h := by
    obtain ⟨hcfg, hchan, -⟩ := State.busRead_keeps hr
    have ht := h.of_eq hcfg hchan
    exact ht.setChan ch ((ht.chan ch).beat (by rw [hchan, hp]) hi.le fun _ => hi)
  write ch d n i v _ hp hi hw h := by
    obtain ⟨hcfg, hchan, -⟩ := State.busWrite_keeps hw
    have ht := h.of_eq hcfg hchan
    have hb := (ht.chan ch).beat (by rw [hchan, hp]) (w := none) hi (by simp)
    split_ifs
    · exact State.channelsConsistent.setChan (s := State.log _ _) ht ch (by simpa using hb)
    · exact ht.setChan ch hb
  complete ch d _ _ _ h := h.complete ch d.nextconbk
  reset ch h := h.setChan ch ((Channel.consistent_idle rfl).2 ⟨rfl, rfl⟩)
  stopped _ h := h
  arm ch a h := h.armChan ch a
  pause ch h := h.setChan ch ((h.chan ch).setActive (by simp))
  resume ch hp h := h.setChan ch ((h.chan ch).setActive fun _ => hp)
  store _ _ _ _ h := h
  gpioSet _ h := h
  gpioClr _ h := h
  configureP t h := h.of_eq (by simp) (by simp)
  waveClock _ h := h

/-- Settles O27: every operation a step is made of keeps the channel registers consistent. -/
theorem channelRegistersStayConsistent : Obligations.ChannelRegistersStayConsistent :=
  fun _ _ => channelsConsistent_kept.step

/-! ### The launch state (10 R50; 70 R371, R372) -/

theorem State.launch_channelsConsistent (c : Config) (g : Word) : (State.launch c g).channelsConsistent :=
  ⟨⟨rfl, rfl⟩, ⟨rfl, rfl⟩⟩

theorem State.launch_pacersConsistent (c : Config) (g : Word) : (State.launch c g).pacersConsistent := by
  rintro (_ | _) <;> exact ⟨Nat.zero_le _, rfl⟩

theorem State.launch_waveClockConsistent (c : Config) (g : Word) : (State.launch c g).waveClockConsistent :=
  ⟨rfl, rfl⟩

/-- No wave is registered at launch. -/
theorem State.launch_wavesOk (c : Config) (g : Word) : (State.launch c g).wavesOk :=
  ⟨rfl, nofun, nofun⟩

/-- At launch the bytes of ZW are written and no other. -/
theorem State.launch_byte_isSome_iff (c : Config) (g : Word) (a : Nat) :
    ((State.launch c g).mem.byte a).isSome = true ↔ c.zw.toNat ≤ a ∧ a < c.zw.toNat + 4 := by
  simp only [State.launch, Memory.byte, Table.get]
  split_ifs <;> simp <;> omega

/-- ZW is one word of the arena, so launch memory is whole words of the regions (00 R9). -/
theorem State.launch_memoryInRegions {c : Config} (h : c.ok = true) (g : Word) :
    (State.launch c g).memoryInRegions := by
  obtain ⟨hmem, hal⟩ := (Config.meets h).zw_mem
  intro a ha
  obtain ⟨hlo, hhi⟩ := (State.launch_byte_isSome_iff c g a).1 ha
  have hlt : a < 2 ^ 32 := by have := c.zw.isLt; omega
  refine ⟨hlt, (Config.meets h).inMem_of_word hmem ?_, fun j hj => ?_⟩
  · rw [BitVec.toNat_ofNat, Nat.mod_eq_of_lt hlt]; omega
  · exact (State.launch_byte_isSome_iff c g _).2 ⟨by omega, by omega⟩

/-- CFG-X meets the constraints of 00 R9. -/
theorem exampleConfig_ok : Config.example.ok = true := by decide +kernel

/-- Settles O34: reset is the launch state of CFG-X, which meets the constraints of 00 R9. -/
theorem resetMeetsTheInvariants : Obligations.ResetMeetsTheInvariants :=
  ⟨State.launch_channelsConsistent _ _, Memory.wf_reset, State.launch_memoryInRegions exampleConfig_ok _,
    State.launch_pacersConsistent _ _, State.launch_waveClockConsistent _ _, State.launch_wavesOk _ _,
    exampleConfig_ok, fun _ => rfl⟩

end Sys2Proof.Machine

namespace Sys2Proof.Machine

/-! ### Memory stays in its regions (20 R71, R72, R82; 41 R193) -/

theorem wordAligned_iff (a : Word) : wordAligned a = true ↔ a.toNat % 4 = 0 := by
  simp [wordAligned, extract_low2_eq_zero_iff]

@[simp] theorem State.resetChan_cfg (s : State) (ch : ChanId) : (s.resetChan ch).cfg = s.cfg := by
  simp [State.resetChan]

@[simp] theorem State.armChan_cfg (s : State) (ch : ChanId) (a : Word) : (s.armChan ch a).cfg = s.cfg := by
  unfold State.armChan; split_ifs <;> simp

@[simp] theorem State.loadDesc_cfg (s : State) (ch : ChanId) (d : Desc) : (s.loadDesc ch d).cfg = s.cfg := by
  unfold State.loadDesc; split_ifs <;> simp

@[simp] theorem State.complete_cfg (s : State) (ch : ChanId) (a : Word) : (s.complete ch a).cfg = s.cfg := by
  unfold State.complete; split_ifs <;> simp

/-- A bus write that answers leaves memory alone or stores one aligned word of a memory region (20 R81). -/
theorem State.busWrite_mem {s t : State} {ch : ChanId} {a v : Word} (hw : s.busWrite ch a v = .ok t) :
    t.mem = s.mem ∨ (wordAligned a = true ∧ s.cfg.inMem a = true ∧ t.mem = s.mem.writeWord a v) := by
  obtain ⟨ha, ⟨hr, rfl⟩ | ⟨-, rfl⟩ | ⟨-, rfl⟩ | ⟨pc, -, -, rfl⟩⟩ := State.busWrite_ok hw
  · refine .inr ⟨ha, ?_, rfl⟩
    unfold Config.region at hr
    split_ifs at hr with hm
    exact hm
  · exact .inl rfl
  · exact .inl rfl
  · exact .inl (by simp)

/-- A property of the configuration and memory alone, which a store of an aligned memory word keeps, every operation
keeps: beats and the host write memory in no other way (20 R81; 41 R193). -/
theorem KeptByOps.ofMemory {Inv : State → Prop}
    (congr : ∀ {s t : State}, t.cfg = s.cfg → t.mem = s.mem → Inv s → Inv t)
    (store : ∀ {s : State} (a v : Word), wordAligned a = true → s.cfg.inMem a = true → Inv s →
      Inv (s.setMem (s.mem.writeWord a v))) : KeptByOps Inv where
  sched _ := congr rfl rfl
  drawn := congr rfl rfl
  cur _ := congr rfl rfl
  todo _ := congr rfl rfl
  ret _ := congr rfl rfl
  build _ := congr rfl rfl
  register _ _ _ := congr rfl rfl
  delete _ _ _ := congr rfl rfl
  carrier _ := congr rfl rfl
  refuse := congr rfl rfl
  tick _ ht := by
    rw [State.pacerTick_of_enabled ht]
    exact congr (by simp) (by simp)
  raise _ _ _ := congr (by simp) (by simp)
  early _ _ _ _ _ _ := congr (by simp) (by simp)
  load _ _ _ _ _ _ _ _ := congr (by simp) (by simp)
  read ch d n i v _ _ _ hr := by
    obtain ⟨hcfg, -, -, -, hmem, -⟩ := State.busRead_keeps hr
    exact congr (by simp [hcfg]) (by simp [hmem])
  write ch d n i v _ _ _ hw h := by
    have hcfg := (State.busWrite_keeps hw).1
    rcases State.busWrite_mem hw with hmem | ⟨ha, hm, hmem⟩
    · exact congr (by split_ifs <;> simp [hcfg]) (by split_ifs <;> simp [hmem]) h
    · exact congr (by split_ifs <;> simp [hcfg]) (by split_ifs <;> simp [hmem]) (store _ v ha hm h)
  complete _ _ _ _ _ := congr (by simp) (by simp)
  reset _ := congr (by simp) (by simp)
  stopped _ := congr rfl rfl
  arm _ _ := congr (by simp) (by simp)
  pause _ := congr (by simp) (by simp)
  resume _ _ := congr (by simp) (by simp)
  store a v ha hm := store a v ha hm
  gpioSet _ := congr rfl rfl
  gpioClr _ := congr rfl rfl
  configureP _ := congr (by simp) (by simp)
  waveClock _ := congr rfl rfl

/-- After a store the bytes written are those of its word and those written before. -/
theorem Memory.byte_writeWord_isSome_iff (m : Memory) (a v : Word) (x : Nat) :
    ((m.writeWord a v).byte x).isSome = true ↔ (a.toNat ≤ x ∧ x < a.toNat + 4) ∨ (m.byte x).isSome = true := by
  by_cases hx : a.toNat ≤ x ∧ x < a.toNat + 4
  · rw [Memory.byte_writeWord]
    split_ifs <;> simp [hx]
    omega
  · rw [Memory.byte_writeWord_of_outside _ _ _ (by omega)]
    simp [hx]

/-- A store of an aligned memory word adds one whole word of its region. -/
theorem State.memoryInRegions.store {s : State} (h : s.memoryInRegions) (hc : s.cfg.ok = true) {a : Word} (v : Word)
    (ha : wordAligned a = true) (hm : s.cfg.inMem a = true) : (s.setMem (s.mem.writeWord a v)).memoryInRegions := by
  rw [wordAligned_iff] at ha
  intro x hx
  simp only [State.setMem_mem, State.setMem_cfg, Memory.byte_writeWord_isSome_iff] at hx ⊢
  rcases hx with hx | hx
  · have hlt : x < 2 ^ 32 := by have := a.isLt; omega
    refine ⟨hlt, (Config.meets hc).inMem_of_word hm ?_, fun j hj => .inl ⟨by omega, by omega⟩⟩
    rw [BitVec.toNat_ofNat, Nat.mod_eq_of_lt hlt]; omega
  · obtain ⟨hlt, hin, hword⟩ := h x hx
    exact ⟨hlt, hin, fun j hj => .inr (hword j hj)⟩

/-- That all four bytes of a stored word lie in its region rests on 00 R9's constraints, so both are kept together. -/
theorem memoryInRegions_kept : KeptByOps fun s => s.cfg.ok = true ∧ s.memoryInRegions :=
  .ofMemory (fun hcfg hmem h => by unfold State.memoryInRegions; rwa [hcfg, hmem])
    fun _ v ha hm h => ⟨h.1, h.2.store h.1 v ha hm⟩

/-- Settles O29: the operations that write memory store aligned words of the memory regions. -/
theorem memoryStaysInItsRegions : Obligations.MemoryStaysInItsRegions :=
  fun _ _ hc h hs => (memoryInRegions_kept.step ⟨hc, h⟩ hs).2

/-! ### The GPIO latch replays the trace (10 R38, R39, R41; 20 R86) -/

theorem replay_append (g : Word) (es fs : List Event) : replay g (es ++ fs) = replay (replay g es) fs := by
  induction es generalizing g with
  | nil => rfl
  | cons e es ih => cases e <;> exact ih _

/-- The latch is g with the GPIO writes of the trace applied in order. -/
def State.latchReplays (g : Word) (s : State) : Prop := s.gpioOut = replay g s.trace

section
variable {g : Word} {s t : State}

/-- Only the latch and the trace matter. -/
theorem State.latchReplays.of_eq (h : s.latchReplays g) (hg : t.gpioOut = s.gpioOut) (ht : t.trace = s.trace) :
    t.latchReplays g := by unfold State.latchReplays; rwa [hg, ht]

theorem State.latchReplays.setChan (h : s.latchReplays g) (ch : ChanId) (c : Channel) :
    (s.setChan ch c).latchReplays g := h.of_eq (by simp) (by simp)

theorem State.latchReplays.setPacer (h : s.latchReplays g) (pc : ChanId) (p : Pacer) :
    (s.setPacer pc p).latchReplays g := h.of_eq (by simp) (by simp)

/-- An event that is no GPIO write may be recorded. -/
theorem State.latchReplays.log (h : s.latchReplays g) {e : Event} (he : ∀ x, replay x [e] = x) :
    (s.log e).latchReplays g := by
  unfold State.latchReplays
  rw [State.log_trace, State.log_gpioOut, replay_append, he]
  exact h

/-- A GPSET0 write sets the lines and records it. -/
theorem State.latchReplays.gpioSet (h : s.latchReplays g) (src : Source) (v : Word) :
    (s.gpioSet src v).latchReplays g := by
  show s.gpioOut ||| v = replay g (s.trace ++ [.gpioSet src v])
  rw [replay_append, ← show s.gpioOut = replay g s.trace from h]
  rfl

/-- A GPCLR0 write clears the lines and records it. -/
theorem State.latchReplays.gpioClr (h : s.latchReplays g) (src : Source) (v : Word) :
    (s.gpioClr src v).latchReplays g := by
  show s.gpioOut &&& ~~~v = replay g (s.trace ++ [.gpioClr src v])
  rw [replay_append, ← show s.gpioOut = replay g s.trace from h]
  rfl

theorem State.latchReplays.busWrite (h : s.latchReplays g) {ch : ChanId} {a v : Word}
    (hw : s.busWrite ch a v = .ok t) : t.latchReplays g := by
  obtain ⟨-, ⟨-, rfl⟩ | ⟨-, rfl⟩ | ⟨-, rfl⟩ | ⟨pc, -, -, rfl⟩⟩ := State.busWrite_ok hw
  · exact h
  · exact h.gpioSet _ v
  · exact h.gpioClr _ v
  · exact h.setPacer pc _

theorem State.latchReplays.raise (h : s.latchReplays g) (ch : ChanId) (r : FaultReason) :
    (s.raise ch r).latchReplays g :=
  (h.log (e := .fault ch r) fun _ => rfl).of_eq (by simp) (by simp)

theorem State.latchReplays.armChan (h : s.latchReplays g) (ch : ChanId) (a : Word) :
    (s.armChan ch a).latchReplays g := by
  unfold State.armChan
  split_ifs
  · exact (h.setChan ch _).log fun _ => rfl
  · exact (h.setChan ch _).log fun _ => rfl
  · exact h

end

/-- The latch changes only where a GPIO write is recorded with it. -/
theorem latchReplays_kept (g : Word) : KeptByOps (State.latchReplays g) where
  sched _ h := h
  drawn h := h
  cur _ h := h
  todo _ h := h
  ret _ h := h
  build _ h := h
  register _ _ _ h := h
  delete _ _ _ h := h
  carrier _ h := h
  refuse h := h
  tick pc ht h := by
    rw [State.pacerTick_of_enabled ht]
    exact (h.setPacer pc _).log fun _ => rfl
  raise ch r _ h := h.raise ch r
  early ch _ _ _ _ _ h := h.setChan ch _
  load ch _ _ _ _ _ _ _ h := by
    unfold State.loadDesc
    split_ifs <;> exact h.setChan ch _
  read ch _ _ _ _ _ _ _ hr h := by
    obtain ⟨-, -, -, -, -, hgpio, htrace, -⟩ := State.busRead_keeps hr
    exact (h.of_eq hgpio htrace).setChan ch _
  write ch _ _ _ v _ _ _ hw h := by
    have ht := h.busWrite hw
    split_ifs
    · exact (ht.log (e := .sample ch _ v) fun _ => rfl).setChan ch _
    · exact ht.setChan ch _
  complete ch _ _ _ _ h := by
    unfold State.complete
    split_ifs <;> exact h.setChan ch _
  reset ch h := (h.setChan ch _).log fun _ => rfl
  stopped _ h := h.log fun _ => rfl
  arm ch a h := h.armChan ch a
  pause ch h := h.setChan ch _
  resume ch _ h := h.setChan ch _
  store _ _ _ _ h := h
  gpioSet v h := h.gpioSet .host v
  gpioClr v h := h.gpioClr .host v
  configureP _ h := h.setPacer .P _
  waveClock _ h := State.latchReplays.log (s := { State.configurePacer _ .S 1 with host := _ }) (h.setPacer .S _)
    fun _ => rfl

/-- Settles O31: every operation a step is made of keeps the latch the replay of the trace. -/
theorem latchIsTheReplayOfTheTrace : Obligations.LatchIsTheReplayOfTheTrace := fun g _ _ => (latchReplays_kept g).step

end Sys2Proof.Machine

namespace Sys2Proof

/-! ### Bus accesses by region (20 R79 to R81) -/

theorem Config.region_unmapped {c : Config} {a : Word} (hm : c.inMem a = false) (hp : a ∉ c.peripherals) :
    c.region a = .unmapped := by
  simp only [Config.peripherals, List.mem_cons, List.not_mem_nil, or_false, not_or] at hp
  simp [Config.region, hm, hp]

/-- No peripheral register is at address 0 (20 R79). -/
theorem Config.Meets.zero_notMem_peripherals {c : Config} (h : c.Meets) : 0#32 ∉ c.peripherals :=
  fun h0 => (h.peripheral _ h0).2.1 rfl

/-- The registers a channel may write and not read (20 R80). -/
theorem Config.Meets.region_writeOnly {c : Config} (h : c.Meets) {a : Word}
    (ha : a = c.gpset0 ∨ a = c.gpclr0 ∨ a = c.fifoP ∨ a = c.fifoS) :
    c.region a = .gpset ∨ c.region a = .gpclr ∨ ∃ pc, c.region a = .fifo pc := by
  rcases ha with rfl | rfl | rfl | rfl
  · exact .inl h.region_gpset
  · exact .inr (.inl h.region_gpclr)
  · exact .inr (.inr ⟨.P, h.region_fifo .P⟩)
  · exact .inr (.inr ⟨.S, h.region_fifo .S⟩)

end Sys2Proof

namespace Sys2Proof.Machine

theorem wordAligned_eq_false {a : Word} (ha : a.toNat % 4 ≠ 0) : wordAligned a = false :=
  Bool.eq_false_iff.2 fun h => ha ((wordAligned_iff a).1 h)

theorem State.busRead_misaligned {s : State} {a : Word} (ha : wordAligned a = false) :
    s.busRead a = .error .misaligned := if_pos ha

theorem State.busWrite_misaligned {s : State} {ch : ChanId} {a v : Word} (ha : wordAligned a = false) :
    s.busWrite ch a v = .error .misaligned := if_pos ha

section
variable {s : State} {ch : ChanId} {a v : Word} (ha : wordAligned a = true)
include ha

theorem State.busRead_unwritten (hr : s.cfg.inMem a = true) (hv : s.mem.word a = none) :
    s.busRead a = .error .unwritten := by
  simp [State.busRead, ha, Config.region_memory hr, hv]

theorem State.busRead_gplev (hr : s.cfg.region a = .gplev) :
    s.busRead a = .ok (s.levels (Config.freeLevels s.draws), s.drawn) := by simp [State.busRead, ha, hr]

theorem State.busRead_timer (hr : s.cfg.region a = .timer) :
    s.busRead a = .ok (Config.freeTimer s.draws, (s.setTimer (Config.freeTimer s.draws)).drawn) := by
  simp [State.busRead, ha, hr]

theorem State.busRead_writeOnly
    (hr : s.cfg.region a = .gpset ∨ s.cfg.region a = .gpclr ∨ ∃ pc, s.cfg.region a = .fifo pc) :
    s.busRead a = .error .writeOnly := by
  rcases hr with hr | hr | ⟨pc, hr⟩ <;> simp [State.busRead, ha, hr]

theorem State.busRead_unmapped (hr : s.cfg.region a = .unmapped) : s.busRead a = .error .unmapped := by
  simp [State.busRead, ha, hr]

theorem State.busWrite_gpset (hr : s.cfg.region a = .gpset) : s.busWrite ch a v = .ok (s.gpioSet (.chan ch) v) := by
  simp [State.busWrite, ha, hr]

theorem State.busWrite_gpclr (hr : s.cfg.region a = .gpclr) : s.busWrite ch a v = .ok (s.gpioClr (.chan ch) v) := by
  simp [State.busWrite, ha, hr]

theorem State.busWrite_fifo_full {pc : ChanId} (hr : s.cfg.region a = .fifo pc)
    (hf : (s.pacer pc).fill = s.cfg.pacerDepth pc) : s.busWrite ch a v = .error .fifoOverflow := by
  simp [State.busWrite, ha, hr, hf]

theorem State.busWrite_fifo {pc : ChanId} (hr : s.cfg.region a = .fifo pc)
    (hf : (s.pacer pc).fill ≠ s.cfg.pacerDepth pc) :
    s.busWrite ch a v = .ok (s.setPacer pc { s.pacer pc with fill := (s.pacer pc).fill + 1 }) := by
  simp [State.busWrite, ha, hr, hf]

theorem State.busWrite_readOnly (hr : s.cfg.region a = .gplev ∨ s.cfg.region a = .timer) :
    s.busWrite ch a v = .error .readOnly := by
  rcases hr with hr | hr <;> simp [State.busWrite, ha, hr]

theorem State.busWrite_unmapped (hr : s.cfg.region a = .unmapped) : s.busWrite ch a v = .error .unmapped := by
  simp [State.busWrite, ha, hr]

end

/-- Settles O15, region by region; the draws are the free values at the draw counter. -/
theorem busReadFollowsRegions : Obligations.BusReadFollowsRegions := by
  intro s a hc
  have M := Config.meets hc
  refine ⟨M.inMem_zero, M.zero_notMem_peripherals, fun h => State.busRead_misaligned (wordAligned_eq_false h),
    fun h => ?_⟩
  have ha := (wordAligned_iff a).2 h
  refine ⟨State.busRead_unwritten ha, fun v => State.busRead_memory ha, ?gplev, ?timer,
    fun hr => State.busRead_writeOnly ha (M.region_writeOnly hr),
    fun hm hp => State.busRead_unmapped ha (Config.region_unmapped hm hp)⟩
  case gplev =>
    rintro rfl
    exact ⟨Config.freeLevels s.draws, State.busRead_gplev ha M.region_gplev⟩
  case timer =>
    rintro rfl
    exact ⟨Config.freeTimer s.draws, State.busRead_timer ha M.region_timer⟩

/-- Settles O16, region by region. -/
theorem busWriteFollowsRegions : Obligations.BusWriteFollowsRegions := by
  intro s ch a v hc
  have M := Config.meets hc
  refine ⟨fun h => State.busWrite_misaligned (wordAligned_eq_false h), fun h => ?_⟩
  have ha := (wordAligned_iff a).2 h
  refine ⟨fun hm => ⟨s.mem.writeWord a v, State.busWrite_memory ha hm, Memory.word_writeWord_self _ a v,
      fun _ => Memory.byte_writeWord_of_outside _ a v⟩,
    ?gpset, ?gpclr, fun pc hpc => ?fifo, ?readOnly,
    fun hm hp => State.busWrite_unmapped ha (Config.region_unmapped hm hp)⟩
  case gpset =>
    rintro rfl
    exact State.busWrite_gpset ha M.region_gpset
  case gpclr =>
    rintro rfl
    exact State.busWrite_gpclr ha M.region_gpclr
  case fifo =>
    have hr : s.cfg.region a = .fifo pc := by
      subst hpc
      exact M.region_fifo pc
    exact ⟨State.busWrite_fifo_full ha hr, State.busWrite_fifo ha hr⟩
  case readOnly =>
    rintro (rfl | rfl)
    · exact State.busWrite_readOnly ha (.inl M.region_gplev)
    · exact State.busWrite_readOnly ha (.inr M.region_timer)

end Sys2Proof.Machine

namespace Sys2Proof

/-! ### Transfer information words as words of their fields (30 R111, R116, R121) -/

/-- A bit of a word, from the word as a number. -/
theorem getLsbD_of_toNat {w : Nat} {x : BitVec w} {k : Nat} {b : Bool} (h : x.toNat / 2 ^ k % 2 = b.toNat) :
    x.getLsbD k = b := by
  rw [getLsbD_eq_decide, h]
  cases b <;> rfl

/-- A field of a word has a value exactly where the word as a number says so. -/
theorem extract_eq_iff {w : Nat} (x : BitVec w) (lo len : Nat) (v : BitVec len) :
    x.extractLsb' lo len = v ↔ x.toNat / 2 ^ lo % 2 ^ len = v.toNat := by
  rw [← BitVec.toNat_inj, extract_toNat]

/-- The fields of TI_NORMAL (30 R121). -/
def XferTI.normal : XferTI := ⟨false, false, false, 0#4, 0#5, 0#5, true⟩

/-- The fields of TI_INC (30 R121). -/
def XferTI.inc : XferTI := ⟨true, false, true, 0#4, 0#5, 0#5, true⟩

/-- The fields of TI_PACE (30 R121). -/
def XferTI.pace (permap : BitVec 5) : XferTI := ⟨false, true, false, 0#4, permap, 0#5, true⟩

theorem XferTI.word_normal : XferTI.normal.word = tiNormal := by decide
theorem XferTI.word_inc : XferTI.inc.word = tiInc := by decide
theorem XferTI.word_pace (p : BitVec 5) : (XferTI.pace p).word = tiPace p := by revert p; decide

/-- Each field is below its size. -/
theorem XferTI.fields_lt (f : XferTI) : f.destInc.toNat < 2 ∧ f.destDreq.toNat < 2 ∧ f.srcInc.toNat < 2 ∧
    f.burst.toNat < 16 ∧ f.permap.toNat < 32 ∧ f.waits.toNat < 32 ∧ f.noWide.toNat < 2 :=
  ⟨Bool.toNat_lt _, Bool.toNat_lt _, Bool.toNat_lt _, f.burst.isLt, f.permap.isLt, f.waits.isLt, Bool.toNat_lt _⟩

/-- A TI word has the fields it was made of. -/
@[simp] theorem XferTI.ofWord_word (f : XferTI) : XferTI.ofWord f.word = f := by
  have hw := f.word_toNat
  have hf := f.fields_lt
  have hdi : f.word.getLsbD 4 = f.destInc := getLsbD_of_toNat (by omega)
  have hdd : f.word.getLsbD 6 = f.destDreq := getLsbD_of_toNat (by omega)
  have hsi : f.word.getLsbD 8 = f.srcInc := getLsbD_of_toNat (by omega)
  have hb : f.word.extractLsb' 12 4 = f.burst := (extract_eq_iff _ _ _ _).2 (by omega)
  have hp : f.word.extractLsb' 16 5 = f.permap := (extract_eq_iff _ _ _ _).2 (by omega)
  have hwt : f.word.extractLsb' 21 5 = f.waits := (extract_eq_iff _ _ _ _).2 (by omega)
  have hnw : f.word.getLsbD 26 = f.noWide := getLsbD_of_toNat (by omega)
  simp only [XferTI.ofWord, hdi, hdd, hsi, hb, hp, hwt, hnw]

/-- Words of different fields differ. -/
theorem XferTI.word_inj {f g : XferTI} : f.word = g.word ↔ f = g :=
  ⟨fun h => by rw [← f.ofWord_word, h, g.ofWord_word], congrArg XferTI.word⟩

/-- A TI word is admitted where the destination is unpaced or paced by one of the two pacers (30 R116). -/
theorem admittedTI_word (c : Config) (f : XferTI) :
    c.admittedTI f.word = true ↔ (f.destDreq = true → f.permap = c.permapP ∨ f.permap = c.permapS) := by
  have hw := f.word_toNat
  have hf := f.fields_lt
  have zero : ∀ k ∈ [0, 1, 2, 5, 7, 9, 10, 11], f.word.getLsbD k = false := by
    simp only [List.forall_mem_cons]
    refine ⟨?_, ?_, ?_, ?_, ?_, ?_, ?_, ?_, nofun⟩ <;>
      exact getLsbD_of_toNat (by simp only [Bool.toNat_false]; omega)
  have one : f.word.getLsbD 3 = true := getLsbD_of_toNat (by simp only [Bool.toNat_true]; omega)
  have high : f.word.extractLsb' 27 5 = 0#5 := (extract_eq_iff _ _ _ _).2 (by simp only [BitVec.toNat_ofNat]; omega)
  have hd : f.word.getLsbD 6 = f.destDreq := congrArg XferTI.destDreq f.ofWord_word
  have hp : f.word.extractLsb' 16 5 = f.permap := congrArg XferTI.permap f.ofWord_word
  simp only [List.forall_mem_cons] at zero
  obtain ⟨z0, z1, z2, z5, z7, z9, z10, z11, -⟩ := zero
  simp only [Config.admittedTI, z0, z1, z2, z5, z7, z9, z10, z11, one, high, hd, hp]
  cases f.destDreq <;> simp

/-! ### Bytes and words (20 R76; 30 R110, R118) -/

/-- Bytes of words are read back as the words. -/
theorem wordsOfBytes_flatMap (ws : List Word) : wordsOfBytes (ws.flatMap wordBytes) = ws := by
  induction ws with
  | nil => rfl
  | cons w ws ih =>
    rw [List.flatMap_cons]
    simp only [wordBytes, List.cons_append, List.nil_append, wordsOfBytes, wordOfBytes_bytes]
    exact congrArg _ ih

/-- Eight words are decoded as the descriptor in the first six, and the bytes after them are left over. -/
theorem decode_words_eq_ok_iff (c : Config) (w0 w1 w2 w3 w4 w5 w6 w7 : Word) (i : Instr) (rest tail : List Byte) :
    decode c ([w0, w1, w2, w3, w4, w5, w6, w7].flatMap wordBytes ++ rest) = .ok (i, tail) ↔
      decodeDesc c ⟨w0, w1, w2, w3, w4, w5⟩ = .ok i ∧ tail = rest := by
  have len : ([w0, w1, w2, w3, w4, w5, w6, w7].flatMap wordBytes).length = 32 := rfl
  unfold decode
  rw [List.take_left' len, List.drop_left' len, wordsOfBytes_flatMap]
  dsimp only
  rcases decodeDesc c ⟨w0, w1, w2, w3, w4, w5⟩ with r | j
  · simp
  · simp [eq_comm]

end Sys2Proof

namespace Sys2Proof

/-! ### Encoding a descriptor instruction (30 R110, R118) -/

/-- A descriptor instruction is encoded as the words of its descriptor. -/
theorem encode_of_desc {c : Config} {i : Instr} {d : Desc} (h : i.desc c = some d) : encode c i = d.words := by
  rw [encode, h]

/-- A descriptor instruction has a descriptor. -/
theorem Instr.desc_of_kind {i : Instr} (c : Config) (h : i.kind = .descriptor) : ∃ d, i.desc c = some d := by
  cases i <;> simp_all [Instr.kind, Instr.desc]

/-- Well-formedness of a descriptor instruction: its class and the checks on its descriptor. -/
theorem Instr.wellFormed_of_desc {c : Config} {i : Instr} {d : Desc} (h : i.desc c = some d) :
    i.wellFormed c = true ↔ i.inClass c = true ∧ d.check c = none := by
  simp [Instr.wellFormed, h]

/-- The beat count field of a length word is the count. -/
@[simp] theorem extract_lenWord (n : BitVec 28) : (lenWord n).extractLsb' 2 28 = n := by
  rw [extract_eq_iff, lenWord_toNat]
  have := n.isLt
  omega

/-- The length word of one beat is 4. -/
theorem lenWord_eq_four_iff (n : BitVec 28) : lenWord n = 4#32 ↔ n = 1#28 := by
  rw [← BitVec.toNat_inj, ← BitVec.toNat_inj, lenWord_toNat]
  simp

/-! ### The TI words of the classes differ (30 R121) -/

theorem tiPace_ne_tiNormal (p : BitVec 5) : tiPace p ≠ tiNormal := by
  rw [← XferTI.word_pace, ← XferTI.word_normal, Ne, XferTI.word_inj]
  simp [XferTI.pace, XferTI.normal]

theorem tiInc_ne_tiNormal : tiInc ≠ tiNormal := by decide

theorem tiInc_ne_tiPace (p : BitVec 5) : tiInc ≠ tiPace p := by
  rw [← XferTI.word_pace, ← XferTI.word_inc, Ne, XferTI.word_inj]
  simp [XferTI.pace, XferTI.inc]

theorem tiPace_inj {p q : BitVec 5} : tiPace p = tiPace q ↔ p = q := by
  rw [← XferTI.word_pace, ← XferTI.word_pace, XferTI.word_inj]
  simp [XferTI.pace]

/-! ### The class of each descriptor (30 R120) -/

/-- A memory address is no peripheral register. -/
theorem Config.Meets.inMem_ne {c : Config} (M : c.Meets) {a p : Word} (ha : c.inMem a = true)
    (hp : p ∈ c.peripherals) : a ≠ p := by
  rintro rfl
  simp [M.notMem hp] at ha

/-- Memory addresses are neither the GPIO output registers nor the sampled ones. -/
theorem Config.Meets.inMem_ne_registers {c : Config} (M : c.Meets) {a : Word} (ha : c.inMem a = true) :
    a ≠ c.gpset0 ∧ a ≠ c.gpclr0 ∧ a ≠ c.gplev0 ∧ a ≠ c.timerLo := by
  refine ⟨?_, ?_, ?_, ?_⟩ <;> exact M.inMem_ne ha (by simp [Config.peripherals])

/-- A descriptor of TI_NORMAL and one beat is named by its addresses. -/
theorem Desc.classify_normal (c : Config) (src dst stride next : Word) :
    (⟨tiNormal, src, dst, 4#32, stride, next⟩ : Desc).classify c =
      (⟨tiNormal, src, dst, 4#32, stride, next⟩ : Desc).classifyNormal c := if_pos ⟨rfl, rfl⟩

/-- A descriptor of one unpaced beat from memory to memory is a NOP, a LINK or a COPY (30 R120, R135). -/
theorem Desc.classify_memory {c : Config} (M : c.Meets) {src dst : Word} (stride next : Word)
    (hs : c.inMem src = true) (hd : c.inMem dst = true) :
    (⟨tiNormal, src, dst, 4#32, stride, next⟩ : Desc).classify c =
      if src = c.zw ∧ dst = c.zw then .nop stride next
      else if c.isNextWord dst = true then .link src (dst - 0x14#32) stride next
      else .copy src dst stride next := by
  obtain ⟨hset, hclr, -, -⟩ := M.inMem_ne_registers hd
  obtain ⟨-, -, hlev, htimer⟩ := M.inMem_ne_registers hs
  simp [Desc.classify_normal, Desc.classifyNormal, hset, hclr, hlev, htimer, hs, hd]

/-- The conditions of 30 R120's rows before XFER, the last. -/
def Desc.inNamedClass (c : Config) (d : Desc) : Prop :=
  (d.ti = tiNormal ∧ d.txfrLen = 4#32 ∧
    ((d.destAd = c.gpset0 ∧ c.inMem d.sourceAd = true) ∨ (d.destAd = c.gpclr0 ∧ c.inMem d.sourceAd = true) ∨
     (d.sourceAd = c.gplev0 ∧ c.inMem d.destAd = true) ∨ (d.sourceAd = c.timerLo ∧ c.inMem d.destAd = true) ∨
     (c.inMem d.sourceAd = true ∧ c.inMem d.destAd = true))) ∨
  (d.ti = tiPace c.permapP ∧ d.sourceAd = c.zw ∧ d.destAd = c.fifoP) ∨
  (d.ti = tiPace c.permapS ∧ d.sourceAd = c.zw ∧ d.destAd = c.fifoS) ∨
  (d.ti = tiInc ∧ 2 ≤ d.beats ∧ c.inMem d.sourceAd = true ∧ c.inMem d.destAd = true)

/-- A descriptor is named XFER exactly where no earlier row of 30 R120 names it. -/
theorem Desc.classify_eq_asXfer_iff (c : Config) (d : Desc) : d.classify c = d.asXfer ↔ ¬ d.inNamedClass c := by
  unfold Desc.classify Desc.inNamedClass
  by_cases hn : d.ti = tiNormal ∧ d.txfrLen = 4#32
  · obtain ⟨hti, hlen⟩ := hn
    have hpace : ∀ p, tiNormal ≠ tiPace p := fun p => (tiPace_ne_tiNormal p).symm
    rw [if_pos ⟨hti, hlen⟩, Desc.classifyNormal]
    split_ifs <;> simp_all [Desc.asXfer, tiInc_ne_tiNormal.symm]
  · rw [if_neg hn]
    split_ifs <;> simp_all [Desc.asXfer]

/-- The XFER name of a descriptor is well formed exactly where no earlier row of 30 R120 names it. -/
theorem inClass_asXfer_iff {c : Config} {d : Desc} (h : d.check c = none) :
    d.asXfer.inClass c = true ↔ ¬ d.inNamedClass c := by
  obtain ⟨hti, hl30, hl0, -⟩ := (Desc.check_eq_none_iff c d).1 h
  have hlen : lenWord (d.txfrLen.extractLsb' 2 28) = d.txfrLen := lenWord_of_checked hl30 hl0
  have hone : d.txfrLen.extractLsb' 2 28 = 1#28 ↔ d.txfrLen = 4#32 := by rw [← hlen, lenWord_eq_four_iff, hlen]
  simp only [Desc.asXfer, Instr.inClass, XferTI.word_ofWord hti, hone, Desc.inNamedClass, Desc.beats, Bool.and_eq_true,
    Bool.or_eq_true, Bool.not_eq_true', ← Bool.not_eq_true, decide_eq_true_eq, not_or, and_assoc, or_assoc]

theorem inClass_copy_iff (c : Config) (s d stride next : Word) : (Instr.copy s d stride next).inClass c = true ↔
    c.inMem s = true ∧ c.inMem d = true ∧ ¬ (s = c.zw ∧ d = c.zw) ∧ ¬ c.isNextWord d = true := by
  simp [Instr.inClass, and_assoc, imp_iff_not_or]

theorem inClass_link_iff (c : Config) (cell t stride next : Word) : (Instr.link cell t stride next).inClass c = true ↔
    c.inMem cell = true ∧ c.inMem (t + 0x14#32) = true ∧ c.isNextWord (t + 0x14#32) = true ∧
      ¬ (cell = c.zw ∧ t + 0x14#32 = c.zw) := by
  simp [Instr.inClass, Config.isNextWord, and_assoc, imp_iff_not_or]

/-- The descriptor of an instruction of a class is named by that instruction (30 R120). -/
theorem classify_of_inClass {c : Config} (M : c.Meets) {i : Instr} {d : Desc} (hd : i.desc c = some d)
    (hi : i.inClass c = true) (hcheck : d.check c = none) : d.classify c = i := by
  have hclass := hi
  cases i <;> simp only [Instr.desc, Option.some.injEq, reduceCtorEq] at hd <;> subst hd <;>
    simp only [Instr.inClass, Bool.and_eq_true, decide_eq_true_eq] at hi
  case set m st nx =>
    simp [descSet, Desc.classify_normal, Desc.classifyNormal, hi]
  case clr m st nx =>
    simp [descClr, Desc.classify_normal, Desc.classifyNormal, hi, M.distinct.1.symm]
  case lev cell st nx =>
    obtain ⟨hset, hclr, -, -⟩ := M.inMem_ne_registers hi
    simp [descLev, Desc.classify_normal, Desc.classifyNormal, hi, hset, hclr]
  case tick cell st nx =>
    obtain ⟨hset, hclr, -, -⟩ := M.inMem_ne_registers hi
    obtain ⟨-, -, -, -, -, -, -, -, -, hlt, -⟩ := M.distinct
    simp [descTick, Desc.classify_normal, Desc.classifyNormal, hi, hset, hclr, hlt.symm]
  case paceP t st nx =>
    simp [descPaceP, Desc.classify, tiPace_ne_tiNormal]
  case paceS t st nx =>
    simp [descPaceS, Desc.classify, tiPace_ne_tiNormal, tiPace_inj, M.permaps.symm]
  case copy s d st nx =>
    obtain ⟨hs, hd, hz, hn⟩ := (inClass_copy_iff ..).1 hclass
    rw [descCopy, Desc.classify_memory M st nx hs hd, if_neg hz, if_neg hn]
  case copyN s d w st nx =>
    obtain ⟨⟨hs, hd⟩, hw⟩ := hi
    simp [descCopyN, Desc.classify, Desc.beats, tiInc_ne_tiNormal, tiInc_ne_tiPace, hs, hd, hw]
  case xfer f s d n st nx =>
    have hx : (descXfer f s d n st nx).asXfer = .xfer f s d n st nx := by simp [descXfer, Desc.asXfer]
    rw [← hx, Desc.classify_eq_asXfer_iff, ← inClass_asXfer_iff hcheck, hx]
    exact hclass
  case nop st nx =>
    rw [descNop, Desc.classify_memory M st nx hi hi, if_pos ⟨rfl, rfl⟩]
  case link cell t st nx =>
    obtain ⟨hs, hd, hn, hz⟩ := (inClass_link_iff ..).1 hclass
    rw [descLink, Desc.classify_memory M st nx hs hd, if_neg hz, if_pos hn, BitVec.add_sub_cancel]

/-- The name of a descriptor that passes the checks is of its class (30 R120). -/
theorem inClass_classify {c : Config} {d : Desc} (h : d.check c = none) : (d.classify c).inClass c = true := by
  by_cases hx : d.classify c = d.asXfer
  · rw [hx, inClass_asXfer_iff h, ← Desc.classify_eq_asXfer_iff, hx]
  unfold Desc.classify at hx ⊢
  split_ifs at hx ⊢ with hnormal hP hS hN
  · unfold Desc.classifyNormal at hx ⊢
    split_ifs at hx ⊢ with hset hclr hlev htick hmem hzw hnext
    · exact hset.2
    · exact hclr.2
    · exact hlev.2
    · exact htick.2
    · have hz : c.inMem c.zw = true := hzw.1 ▸ hmem.1
      exact hz
    · rw [inClass_link_iff, BitVec.sub_add_cancel]
      exact ⟨hmem.1, hmem.2, hnext, hzw⟩
    · exact (inClass_copy_iff ..).2 ⟨hmem.1, hmem.2, hzw, hnext⟩
    · exact absurd rfl hx
  · rfl
  · rfl
  · obtain ⟨-, hbeats, hs, hd⟩ := hN
    simp only [Instr.inClass, hs, hd, Bool.true_and]
    exact decide_eq_true hbeats
  · exact absurd rfl hx

/-- Settles O2: the descriptor's bytes decode to its class, which is the instruction. -/
theorem descriptorRoundTrip : Obligations.DescriptorRoundTrip := by
  intro c i rest hc hk hw
  obtain ⟨d, hd⟩ := i.desc_of_kind c hk
  obtain ⟨hin, hcheck⟩ := (Instr.wellFormed_of_desc hd).1 hw
  rw [encodeBytes, encode_of_desc hd, Desc.words, decode_words_eq_ok_iff, decodeDesc_eq_ok_iff]
  exact ⟨⟨hcheck, classify_of_inClass (Config.meets hc) hd hin hcheck⟩, rfl⟩

/-- Settles O3: the name of a checked descriptor is of its class and drops no word. -/
theorem decodedInstructionKeepsItsWords : Obligations.DecodedInstructionKeepsItsWords := by
  intro c w0 w1 w2 w3 w4 w5 w6 w7 i rest tail h
  obtain ⟨hi, htail⟩ := (decode_words_eq_ok_iff ..).1 h
  have hd := decodeDesc_desc hi
  obtain ⟨hcheck, rfl⟩ := (decodeDesc_eq_ok_iff ..).1 hi
  have hwf := (Instr.wellFormed_of_desc hd).2 ⟨inClass_classify hcheck, hcheck⟩
  exact ⟨Instr.kind_of_desc hd, hwf, encode_of_desc hd, htail⟩

end Sys2Proof

namespace Sys2Proof

/-! ### Chain opcodes and their words (30 R126, R130) -/

/-- Every word is a tag and an operand field. -/
theorem Word.exists_tag (w : Word) : ∃ (tag : BitVec 4) (f : BitVec 28), w = tag ++ f := by
  have h : w.extractLsb' 28 4 ++ w.extractLsb' 0 28 = w.extractLsb' 0 32 :=
    BitVec.extractLsb'_append_extractLsb'_eq_extractLsb' rfl
  exact ⟨_, _, (h.trans BitVec.extractLsb'_eq_self).symm⟩

/-- The operand field of PlayWave: twelve zero bits and an id. -/
theorem playWaveWord_eq (x : BitVec 16) : (1#4 ++ 0#12 ++ x : Word) = 1#4 ++ (0#12 ++ x : BitVec 28) :=
  BitVec.append_assoc

/-- What a word decodes to, by its tag and operand field (30 R130). -/
theorem decodeChain_tag (tag : BitVec 4) (f : BitVec 28) : decodeChain (tag ++ f : Word) =
    if tag = 1#4 then if f.extractLsb' 16 12 = 0#12 then some (.playWave (f.extractLsb' 0 16).toNat) else none
    else if tag = 2#4 then some (.delayMicros f.toNat)
    else if tag = 3#4 then if f = 0#28 then some .loopBegin else none
    else if tag = 4#4 then some (.loopEnd f.toNat)
    else if tag = 5#4 then if f = 0#28 then some .repeatForever else none
    else none := by
  have htag : (tag ++ f : Word).extractLsb' 28 4 = tag := BitVec.extractLsb'_append_eq_left
  have hfield : (tag ++ f : Word).extractLsb' 0 28 = f := BitVec.extractLsb'_append_eq_right
  have hzeros : (tag ++ f : Word).extractLsb' 16 12 = f.extractLsb' 16 12 :=
    BitVec.extractLsb'_append_eq_of_add_le (by decide)
  have hid : (tag ++ f : Word).extractLsb' 0 16 = f.extractLsb' 0 16 :=
    BitVec.extractLsb'_append_eq_of_add_le (by decide)
  rw [decodeChain, htag, hfield, hzeros, hid]

/-- A well-formed chain opcode decodes from its word. -/
theorem decodeChain_encode {c : Config} {i : Instr} (hk : i.kind = .chain) (hw : i.wellFormed c = true) :
    ∃ w, encode c i = [w] ∧ decodeChain w = some i := by
  cases i <;> try cases hk
  case playWave id =>
    have hid : id < 65536 := by simpa [Instr.wellFormed, Instr.desc, Instr.inClass] using hw
    refine ⟨_, rfl, ?_⟩
    rw [playWaveWord_eq, decodeChain_tag, if_pos rfl, if_pos BitVec.extractLsb'_append_eq_left]
    rw [BitVec.extractLsb'_append_eq_right, BitVec.toNat_ofNat, Nat.mod_eq_of_lt hid]
  case delayMicros n =>
    have hn : n < 268435456 := by simpa [Instr.wellFormed, Instr.desc, Instr.inClass] using hw
    refine ⟨_, rfl, (decodeChain_tag _ _).trans ?_⟩
    simpa using hn
  case loopEnd k =>
    have hk : k < 268435456 := by simpa [Instr.wellFormed, Instr.desc, Instr.inClass] using hw
    refine ⟨_, rfl, (decodeChain_tag _ _).trans ?_⟩
    simpa using hk
  case loopBegin => exact ⟨_, rfl, rfl⟩
  case repeatForever => exact ⟨_, rfl, rfl⟩

/-- A word that decodes is the word of the opcode it decodes to. -/
theorem encode_of_decodeChain {c : Config} {w : Word} {i : Instr} (h : decodeChain w = some i) :
    encode c i = [w] ∧ ∀ id, i = .playWave id → id < 65536 := by
  obtain ⟨tag, f, rfl⟩ := w.exists_tag
  rw [decodeChain_tag] at h
  split_ifs at h with ht1 hz ht2 ht3 hf ht4 ht5 hf <;> cases h <;> subst tag
  · have hword : (0#12 ++ f.extractLsb' 0 16 : BitVec 28) = f := by
      rw [← hz]
      exact (BitVec.extractLsb'_append_extractLsb'_eq_extractLsb' (start₁ := 0) (start₂ := 16) rfl).trans
        BitVec.extractLsb'_eq_self
    refine ⟨?_, ?_⟩
    · simp only [encode, Instr.desc, encodeChain, BitVec.ofNat_toNat, BitVec.setWidth_eq]
      rw [playWaveWord_eq, hword]
    · rintro id ⟨⟩
      exact (f.extractLsb' 0 16).isLt
  all_goals simp [encode, Instr.desc, encodeChain, *]

/-- Settles O4, opcode by opcode. -/
theorem chainOpcodeRoundTrip : Obligations.ChainOpcodeRoundTrip :=
  ⟨fun _ _ hk hw => decodeChain_encode hk hw,
    fun _ w _ h => ⟨Machine.opcode_chain (x := .word w) h, encode_of_decodeChain h⟩⟩

end Sys2Proof

namespace Sys2Proof

/-! ### Reserved chain words (30 R130; 44 R272) -/

/-- The words that decode to no chain opcode (30 R130). -/
theorem decodeChain_eq_none_iff (w : Word) : decodeChain w = none ↔
    (w.toNat / 2 ^ 28 = 0 ∨ 6 ≤ w.toNat / 2 ^ 28) ∨ (w.toNat / 2 ^ 28 = 1 ∧ w.toNat / 2 ^ 16 % 2 ^ 12 ≠ 0) ∨
      ((w.toNat / 2 ^ 28 = 3 ∨ w.toNat / 2 ^ 28 = 5) ∧ w.toNat % 2 ^ 28 ≠ 0) := by
  have hw := w.isLt
  unfold decodeChain
  simp only [extract_eq_iff, BitVec.toNat_ofNat, Nat.reducePow, Nat.reduceMod]
  split_ifs <;> simp only [false_iff, true_iff] <;> omega

namespace Machine

/-- Validation goes on from where it reached. -/
theorem advanceItems_append {c : Config} {waves : List (Nat × WaveRange)} {a b : Build} {pre : List ChainItem}
    (h : advanceItems c waves a pre = .ok b) (post : List ChainItem) :
    advanceItems c waves a (pre ++ post) = advanceItems c waves b post := by
  induction pre generalizing a with
  | nil => cases h; rfl
  | cons x xs ih =>
    obtain ⟨-, a', -, -, hx, hxs, -⟩ := advanceItems_cons h
    rw [List.cons_append, advanceItems, hx]
    exact ih hxs

/-- A program is rejected with badOpcode at the first word that decodes to nothing (44 R272). -/
theorem validate_badOpcode {c : Config} {waves : List (Nat × WaveRange)} {b : Build} {pre : List ChainItem} {w : Word}
    (h : advanceItems c waves Build.init pre = .ok b) (hw : decodeChain w = none) (post : List ChainItem) :
    validate c waves (pre ++ .word w :: post) = .error .badOpcode := by
  have hx : advanceItem c waves b (.word w) = .error .badOpcode := by rw [advanceItem, ChainItem.opcode, hw]
  rw [validate, advanceItems_append h, advanceItems, hx]

/-- Settles O5: the tags and zero fields of the table, and validation up to the word. -/
theorem reservedChainWordsAreRejected : Obligations.ReservedChainWordsAreRejected := by
  refine ⟨decodeChain_eq_none_iff, fun s pre post b w hpre hw => ?_⟩
  rw [State.submit, validate_badOpcode hpre hw]
  rfl

end Machine
end Sys2Proof

namespace Sys2Proof

/-! ### Beat addresses and the overlap check (30 R119, R122 step 8) -/

theorem anyFrom_eq_true_iff (p : Nat → Bool) (fuel start : Nat) :
    anyFrom p fuel start = true ↔ ∃ i, start ≤ i ∧ i < start + fuel ∧ p i = true := by
  induction fuel generalizing start with
  | zero => simp [anyFrom]; omega
  | succ n ih =>
    rw [anyFrom, Bool.or_eq_true, ih]
    constructor
    · rintro (h | ⟨i, h1, h2, h3⟩)
      · exact ⟨start, le_rfl, by omega, h⟩
      · exact ⟨i, by omega, by omega, h3⟩
    · rintro ⟨i, h1, h2, h3⟩
      rcases h1.eq_or_lt with rfl | h1
      · exact .inl h3
      · exact .inr ⟨i, h1, by omega, h3⟩

/-- A descriptor has fewer than 2^28 beats. -/
theorem Desc.beats_lt (d : Desc) : d.beats < 2 ^ 28 := (d.txfrLen.extractLsb' 2 28).isLt

/-- Word i after one address is word j after another exactly where the distance is j - i words modulo 2^32. -/
theorem add_words_eq_iff (a b : Word) {i j : Nat} (hij : i ≤ j) (hj : j < 2 ^ 28) :
    b + BitVec.ofNat 32 (4 * i) = a + BitVec.ofNat 32 (4 * j) ↔ (b - a).toNat = 4 * (j - i) := by
  rw [← BitVec.toNat_inj]
  have := a.isLt
  have := b.isLt
  simp only [BitVec.toNat_add, BitVec.toNat_sub, BitVec.toNat_ofNat]
  omega

/-- An address is word k after another exactly where the distance is k words modulo 2^32. -/
theorem eq_add_words_iff (a b : Word) {k : Nat} (hk : k < 2 ^ 28) :
    b = a + BitVec.ofNat 32 (4 * k) ↔ (b - a).toNat = 4 * k := by
  simpa using add_words_eq_iff a b (Nat.zero_le k) hk

/-- Settles O6, by which of the two addresses move. -/
theorem overlapCheckMatchesBeats : Obligations.OverlapCheckMatchesBeats := by
  intro c d
  have hn := d.beats_lt
  have hdist := (d.destAd - d.sourceAd).isLt
  unfold Desc.overlaps
  split <;> rename_i hs hd <;>
    simp only [Bool.and_eq_true, decide_eq_true_eq, anyFrom_eq_true_iff, Desc.srcAt, Desc.dstAt, hs, hd, if_true,
      Bool.false_eq_true, if_false, BitVec.add_zero]
  · -- neither address moves: beat 1 reads the one word that beat 0 writes
    constructor
    · rintro ⟨⟨h2, he⟩, hm⟩
      exact ⟨0, 1, by omega, by omega, he, hm⟩
    · rintro ⟨i, j, hij, hj, he, hm⟩
      exact ⟨⟨by omega, he⟩, hm⟩
  · -- the source moves onto the fixed destination
    constructor
    · rintro ⟨⟨⟨hm, h4⟩, h1⟩, hlt⟩
      exact ⟨0, (d.destAd - d.sourceAd).toNat / 4, by omega, by omega,
        (eq_add_words_iff _ _ (by omega)).2 (by omega), hm⟩
    · rintro ⟨i, j, hij, hj, he, hm⟩
      have := (eq_add_words_iff _ _ (by omega)).1 he
      exact ⟨⟨⟨hm, by omega⟩, by omega⟩, by omega⟩
  · -- the destination moves onto the fixed source
    constructor
    · rintro ⟨⟨hm, h4⟩, hlt⟩
      have he := (eq_add_words_iff d.destAd d.sourceAd (k := (d.sourceAd - d.destAd).toNat / 4) (by omega)).2 (by omega)
      exact ⟨_, (d.sourceAd - d.destAd).toNat / 4 + 1, by omega, by omega, he.symm, he ▸ hm⟩
    · rintro ⟨i, j, hij, hj, he, hm⟩
      have := (eq_add_words_iff _ _ (by omega)).1 he.symm
      exact ⟨⟨he ▸ hm, by omega⟩, by omega⟩
  · -- both move, the destination a whole number of words ahead
    constructor
    · rintro ⟨⟨⟨h4, h1⟩, hlt⟩, i, -, hi, hm⟩
      exact ⟨i, i + (d.destAd - d.sourceAd).toNat / 4, by omega, by omega,
        (add_words_eq_iff _ _ (by omega) (by omega)).2 (by omega), hm⟩
    · rintro ⟨i, j, hij, hj, he, hm⟩
      have := (add_words_eq_iff _ _ (by omega) (by omega)).1 he
      exact ⟨⟨⟨by omega, by omega⟩, by omega⟩, i, by omega, by omega, hm⟩

end Sys2Proof

namespace Sys2Proof

/-! ### The checks of a fetch, in order (30 R122) -/

/-- Steps 4 to 8 as numbers: the first check that fails decides. -/
theorem Desc.check_eq (c : Config) (d : Desc) : d.check c =
    if c.admittedTI d.ti = false then some .unadmitted
    else if 2 ^ 30 ≤ d.txfrLen.toNat ∨ d.txfrLen.toNat % 4 ≠ 0 then some .badLength
    else if d.sourceAd.toNat % 4 ≠ 0 ∨ d.destAd.toNat % 4 ≠ 0 then some .misaligned
    else if d.nextconbk.toNat % 32 ≠ 0 then some .misaligned
    else if d.overlaps c = true then some .overlap
    else none := by
  have hlen : d.txfrLen.extractLsb' 30 2 = 0#2 ↔ ¬ 2 ^ 30 ≤ d.txfrLen.toNat := by
    rw [extract_eq_iff]
    have := d.txfrLen.isLt
    simp only [BitVec.toNat_ofNat]
    omega
  simp only [Desc.check, ne_eq, hlen, extract_low2_eq_zero_iff, extract_low5_eq_zero_iff, not_not]

/-- A descriptor that fails a check is not decoded. -/
theorem decodeDesc_of_check {c : Config} {d : Desc} {r : FaultReason} (h : d.check c = some r) :
    decodeDesc c d = .error r := by
  unfold decodeDesc
  rw [h]

/-- A descriptor that passes the checks is decoded to an instruction that stands for it. -/
theorem decodeDesc_of_checked {c : Config} {d : Desc} (h : d.check c = none) :
    ∃ i, decodeDesc c d = .ok i ∧ i.desc c = some d :=
  have hi := (decodeDesc_eq_ok_iff c d _).2 ⟨h, rfl⟩
  ⟨_, hi, decodeDesc_desc hi⟩

namespace Machine

/-! What FETCH answers, by the step of 30 R122 that decides: 1, 2, 3, or the descriptor read. -/

section
variable (s : State) (early : List (Nat × Option Word)) {a : Word}

theorem State.fetchInstr_misaligned (h : a.toNat % 32 ≠ 0) : s.fetchInstr early a = .error .misaligned := by
  rw [Ne, ← extract_low5_eq_zero_iff] at h
  rw [State.fetchInstr, State.fetchDesc, if_pos h]

variable (ha : a.toNat % 32 = 0)
include ha

theorem State.fetchInstr_unmapped (h : s.cfg.fetchable a = false) : s.fetchInstr early a = .error .unmapped := by
  rw [← extract_low5_eq_zero_iff] at ha
  rw [State.fetchInstr, State.fetchDesc, if_neg (not_not.2 ha), if_pos h]

variable (hf : s.cfg.fetchable a = true)
include hf

theorem State.fetchInstr_unwritten {k : Nat} (hk : k < 8) (h : s.fetchWord early a k = none) :
    s.fetchInstr early a = .error .unwritten := by
  rw [← extract_low5_eq_zero_iff] at ha
  have hd : s.fetchDesc early a = .error .unwritten := by
    rw [State.fetchDesc, if_neg (not_not.2 ha), if_neg (by simp [hf])]
    dsimp only
    split
    · interval_cases k <;> simp_all
    · rfl
  rw [State.fetchInstr, hd]

theorem State.fetchInstr_words {w0 w1 w2 w3 w4 w5 w6 w7 : Word}
    (h : ∀ k, k < 8 → s.fetchWord early a k = [w0, w1, w2, w3, w4, w5, w6, w7][k]?) :
    s.fetchInstr early a = decodeDesc s.cfg ⟨w0, w1, w2, w3, w4, w5⟩ := by
  rw [← extract_low5_eq_zero_iff] at ha
  have hd : s.fetchDesc early a = .ok ⟨w0, w1, w2, w3, w4, w5⟩ := by
    rw [State.fetchDesc, if_neg (not_not.2 ha), if_neg (by simp [hf])]
    simp [h]
  rw [State.fetchInstr, hd]

end

/-- Settles O7, check by check. -/
theorem fetchChecksInOrder : Obligations.FetchChecksInOrder := by
  intro s early a
  refine ⟨s.fetchInstr_misaligned early, fun ha => ⟨fun hu => ?_, fun hm => ?_⟩⟩
  · refine s.fetchInstr_unmapped early ha (Bool.eq_false_iff.2 fun hf => ?_)
    rcases (Config.fetchable_iff _ _).1 hf with ⟨p, hp, h⟩ | h
    · exact hu.1 p hp h
    · exact hu.2 h
  have hf := (Config.fetchable_iff _ _).2 hm
  refine ⟨fun ⟨k, hk, h⟩ => s.fetchInstr_unwritten early ha hf hk h, fun w0 w1 w2 w3 w4 w5 w6 w7 hw => ?_⟩
  have hcheck := Desc.check_eq s.cfg ⟨w0, w1, w2, w3, w4, w5⟩
  rw [s.fetchInstr_words early ha hf hw, ← overlapCheckMatchesBeats]
  split_ifs at hcheck ⊢
  · exact decodeDesc_of_check hcheck
  · exact decodeDesc_of_check hcheck
  · exact decodeDesc_of_check hcheck
  · exact decodeDesc_of_check hcheck
  · exact ⟨fun _ => decodeDesc_of_check hcheck, fun hno => absurd ‹_› hno⟩
  · exact ⟨fun ho => absurd ho ‹_›, fun _ => decodeDesc_of_checked hcheck⟩

end Machine
end Sys2Proof

namespace Sys2Proof.Machine

/-! ### Storing a descriptor (30 R110, R131; 41 R193) -/

section
variable {a : Word} (ha : a.toNat % 32 = 0)
include ha

theorem descWord_toNat_of_aligned {k : Nat} (hk : k < 8) : (a + BitVec.ofNat 32 (4 * k)).toNat = a.toNat + 4 * k :=
  descWord_toNat (by have := a.isLt; omega) hk

/-- The words of a descriptor are aligned and lie in its 32 bytes. -/
theorem descPairs_addr {d : Desc} {p : Word × Word} (hp : p ∈ descPairs a d) :
    wordAligned p.1 = true ∧ a.toNat ≤ p.1.toNat ∧ p.1.toNat + 4 ≤ a.toNat + 32 := by
  obtain ⟨k, hk, he, -⟩ := mem_descPairs.1 hp
  have := descWord_toNat_of_aligned ha hk
  rw [← he] at this
  exact ⟨(wordAligned_iff _).2 (by omega), by omega, by omega⟩

/-- Each word of a descriptor is stored once. -/
theorem descPairs_unique {d : Desc} {p q : Word × Word} (hp : p ∈ descPairs a d) (hq : q ∈ descPairs a d)
    (h : p.1 = q.1) : p.2 = q.2 := by
  obtain ⟨k, hk, hpa, hpv⟩ := mem_descPairs.1 hp
  obtain ⟨j, hj, hqa, hqv⟩ := mem_descPairs.1 hq
  have hpn := descWord_toNat_of_aligned ha hk
  have hqn := descWord_toNat_of_aligned ha hj
  rw [← hpa, h] at hpn
  rw [← hqa] at hqn
  obtain rfl : k = j := by omega
  exact Option.some.inj (hpv.symm.trans hqv)

/-- A descriptor stored at a multiple of 32 stands there. -/
theorem descAt_writeAll (m : Memory) (d : Desc) : descAt (Memory.writeAll m (descPairs a d)) a d := by
  intro k hk
  have hv : d.words[k]? = some d.words[k] := List.getElem?_eq_getElem (by rw [Desc.words_length]; exact hk)
  have hp : (a + BitVec.ofNat 32 (4 * k), d.words[k]) ∈ descPairs a d := mem_descPairs.2 ⟨k, hk, rfl, hv⟩
  rw [hv]
  exact Memory.writeAll_word (descPairs_addr ha hp).1 (fun q hq => (descPairs_addr ha hq).1) (.inl ⟨_, hp, rfl⟩)
    fun q hq => descPairs_unique ha hq hp

/-- Storing a descriptor leaves every byte outside its 32 as it was. -/
theorem byte_writeAll_descPairs (m : Memory) (d : Desc) {x : Nat} (hx : x < a.toNat ∨ a.toNat + 32 ≤ x) :
    (Memory.writeAll m (descPairs a d)).byte x = m.byte x :=
  Memory.writeAll_byte fun p hp => by
    obtain ⟨-, hlo, hhi⟩ := descPairs_addr ha hp
    omega

end

/-- Settles O45: the STOREs are writes of the descriptor's words, all in memory. -/
theorem eightStoresBuildADescriptor : Obligations.EightStoresBuildADescriptor := by
  intro s a d rest hc ha hf htodo
  obtain ⟨-, -, hmem⟩ := (Config.meets hc).fetchable_words hf
  have hreach : ∀ p ∈ descPairs a d, s.hostReaches p.1 = true := fun p hp => by
    obtain ⟨hal, hlo, hhi⟩ := descPairs_addr ha hp
    rw [State.hostReaches, hal, hmem p.1 hlo (by omega)]
    rfl
  have hlen : (descPairs a d).length = 8 := rfl
  rw [storeDesc_eq] at htodo
  exact ⟨_, hlen ▸ stores_run htodo hreach, descAt_writeAll ha _ _, fun x hx => byte_writeAll_descPairs ha _ _ hx⟩

end Sys2Proof.Machine

namespace Sys2Proof

/-! ### Fixed words and operand assembly (30 R110 to R121) -/

/-- Settles O1: the fixed words are evaluated; the TI constants are words of fields that are admitted. -/
theorem specWordsDecode : Obligations.SpecWordsDecode := by
  refine ⟨by decide +kernel, by decide +kernel, by decide +kernel, by decide, by decide, by decide, by decide,
    by decide, by decide, by decide, by decide, fun c => ?_⟩
  rw [← XferTI.word_normal, ← XferTI.word_inc, ← XferTI.word_pace, ← XferTI.word_pace]
  simp [admittedTI_word, XferTI.normal, XferTI.inc, XferTI.pace]

/-- Settles O8: fields as arithmetic, addresses as numbers modulo 2^32. -/
theorem operandAssembly : Obligations.OperandAssembly := by
  intro c d i
  have hlen := d.txfrLen.isLt
  refine ⟨?_, ?_, ?_, ?_, ?_⟩
  · rw [Desc.beats, extract_toNat]
    omega
  · simp only [Desc.srcAt, Desc.srcInc, getLsbD_eq_decide, decide_eq_true_eq, BitVec.toNat_add]
    split_ifs <;> simp
  · simp only [Desc.dstAt, Desc.destInc, getLsbD_eq_decide, decide_eq_true_eq, BitVec.toNat_add]
    split_ifs <;> simp
  · simp only [Desc.pacerOf, Desc.permap, extract_eq_iff]
  · simp only [Desc.destDreq, getLsbD_eq_decide, decide_eq_true_eq]

end Sys2Proof

namespace Sys2Proof.Machine

/-! ### The turn of a channel (40 R150, R151) -/

theorem State.canStep_iff (s : State) (ch : ChanId) : s.canStep ch = true ↔
    (s.chan ch).active = true ∧ (s.chan ch).fault = none ∧ (s.chan ch).phase ≠ .idle := by
  simp [State.canStep, and_assoc]

@[simp] theorem State.setCur_canStep (s : State) (c ch : ChanId) : (s.setCur c).canStep ch = s.canStep ch :=
  State.canStep_congr (State.setCur_chan s c ch)

section
variable {s : State} {ch : ChanId}

/-- A channel that cannot step holds (log 28). -/
theorem State.chanStep_disabled (h : s.canStep ch = false) : s.chanStep ch = .next (s.setCur ch) :=
  if_pos (by simpa using h)

variable (hc : s.canStep ch = true)
include hc

theorem State.chanStep_fetch {e : List (Nat × Option Word)} {i : Instr} (hp : (s.chan ch).phase = .fetch e)
    (hi : s.fetchInstr e (s.chan ch).conblkAd = .ok i) : s.chanStep ch = exec i (s.setCur ch) := by
  have hf : (s.setCur ch).fetchInstr e = s.fetchInstr e := rfl
  simp [State.chanStep, hc, hp, hf, hi]

theorem State.chanStep_fetch_error {e : List (Nat × Option Word)} {r : FaultReason}
    (hp : (s.chan ch).phase = .fetch e) (hr : s.fetchInstr e (s.chan ch).conblkAd = .error r) :
    s.chanStep ch = .next ((s.setCur ch).raise ch r) := by
  have hf : (s.setCur ch).fetchInstr e = s.fetchInstr e := rfl
  simp [State.chanStep, hc, hp, hf, hr]

theorem State.chanStep_exec {d : Desc} {n k : Nat} {h : Option Word} {i : Instr}
    (hp : (s.chan ch).phase = .exec d n k h) (hi : decodeDesc s.cfg d = .ok i) :
    s.chanStep ch = exec i (s.setCur ch) := by
  simp [State.chanStep, hc, hp, hi]

end

/-! ### Early word reads (20 R83; log 12) -/

section
variable {s : State} {ch : ChanId} {k : Nat}

theorem State.earlyRead_of_unread {e : List (Nat × Option Word)} (hc : s.canStep ch = true)
    (hp : (s.chan ch).phase = .fetch e) (hk : Table.get e k = none) : s.earlyRead ch k =
      s.setPhase ch (.fetch (Table.set e k (s.descWord (s.chan ch).conblkAd k))) := by
  simp [State.earlyRead, hp, hc, hk]

/-- An early turn holds where the channel cannot step or has read the word before. -/
theorem State.earlyRead_holds (h : s.canStep ch = false ∨ ∀ e, (s.chan ch).phase = .fetch e → Table.get e k ≠ none) :
    s.earlyRead ch k = s := by
  rcases s.earlyRead_cases ch k with he | ⟨e, hc, hp, hk, -⟩
  · exact he
  · rcases h with h | h
    · simp [h] at hc
    · exact absurd hk (h e hp)

end

/-- The host's turn with a chain-opcode word waiting. -/
theorem host_word {s : State} {w : Word} {i : Instr} {ts : List HostTask} (h : s.host.todo = .word w :: ts)
    (hi : decodeChain w = some i) : s.agentStep .host = exec i (s.setTodo ts) := by
  simp [State.agentStep, State.hostStep, h, hi]

/-- Settles O9, agent by agent. -/
theorem turnRunsDecodedInstruction : Obligations.TurnRunsDecodedInstruction := by
  refine ⟨fun _ => rfl, ?turn, ?fetch, ?early, fun s ch k h => congrArg _ (State.earlyRead_holds h), ?loaded,
    fun s i ts => host_instr, fun s w i ts => host_word, fun _ _ => rfl⟩
  case turn =>
    intro s a rest h
    simp [State.takeTurn, h]
  case fetch =>
    intro s ch e i hc hp hi
    exact State.chanStep_fetch hc hp hi
  case early =>
    intro s ch k e hc hp hk
    exact ⟨_, congrArg _ (State.earlyRead_of_unread hc hp hk), Table.get_set_self _ _ _,
      fun j hj => Table.get_set_of_ne _ _ hj⟩
  case loaded =>
    intro s ch d n k h i hc hp hi
    exact State.chanStep_exec hc hp hi

/-- The instruction fetched is the one that the descriptor fetched decodes to. -/
theorem State.fetchInstr_ok {s : State} {e : List (Nat × Option Word)} {a : Word} {i : Instr}
    (h : s.fetchInstr e a = .ok i) : ∃ d, s.fetchDesc e a = .ok d ∧ decodeDesc s.cfg d = .ok i := by
  unfold State.fetchInstr at h
  split at h
  · exact ⟨_, ‹_›, h⟩
  · cases h

/-! ### Enabled steps (40 R150, R152) -/

theorem State.dreq_iff (s : State) (pc : ChanId) :
    s.dreq pc = true ↔ (s.pacer pc).configured = true ∧ (s.pacer pc).fill < s.cfg.pacerDepth pc := by
  simp [State.dreq]

theorem State.dreq_eq_false_iff (s : State) (pc : ChanId) :
    s.dreq pc = false ↔ ¬ ((s.pacer pc).configured = true ∧ (s.pacer pc).fill < s.cfg.pacerDepth pc) := by
  rw [← State.dreq_iff, Bool.not_eq_true]

theorem State.heldOnPacer_iff (s : State) (ch : ChanId) : s.heldOnPacer ch = true ↔
    ∃ d n i v, (s.chan ch).phase = .exec d n i (some v) ∧ d.destDreq = true ∧ s.dreq (d.pacerOf s.cfg) = false := by
  unfold State.heldOnPacer
  split <;> rename_i hp <;> simp [hp]

theorem State.enabled_chan_iff (s : State) (ch : ChanId) :
    s.enabled (.chan ch) = true ↔ s.canStep ch = true ∧ ¬ s.heldOnPacer ch = true := by
  simp [State.enabled]

/-- A paced beat holds until its pacer requests (40 R152). -/
theorem State.engineStep_held {s : State} {ch : ChanId} {d d0 : Desc} {n k : Nat} {v : Word}
    (hp : (s.chan ch).phase = .exec d0 n k (some v)) (hD : d.destDreq = true)
    (hq : s.dreq (d.pacerOf s.cfg) = false) : s.engineStep ch d = s := by
  unfold State.engineStep
  split_ifs
  · rfl
  · simp only [hp]
    split_ifs
    · exact if_pos ⟨hD, hq⟩
    · rfl

/-- A write of a new phase changes a channel's registers. -/
theorem State.setPhase_chan_ne {s : State} (t : State) {ch : ChanId} {p : Phase} (h : (s.chan ch).phase ≠ p) :
    (t.setPhase ch p).chan ch ≠ s.chan ch := fun he => h (by rw [← he, State.phase_setPhase])

/-- A fault changes the registers of a channel that has none. -/
theorem State.raise_chan_ne {s : State} {ch : ChanId} (r : FaultReason) (h : (s.chan ch).fault = none) :
    (s.raise ch r).chan ch ≠ s.chan ch := fun he => by
  have hf := congrArg Channel.fault he
  rw [State.raise_chan_self, h] at hf
  cases hf

/-- Every engine step that is enabled moves the phase on or takes a fault. -/
theorem State.engineStep_chan_ne {s : State} {ch : ChanId} {d : Desc} (hc : s.canStep ch = true)
    (hcons : (s.chan ch).consistent s.cfg) (hheld : ∀ d0 n k v, (s.chan ch).phase = .exec d0 n k (some v) →
      ¬ (d.destDreq = true ∧ s.dreq (d.pacerOf s.cfg) = false)) : (s.engineStep ch d).chan ch ≠ s.chan ch := by
  obtain ⟨-, hfault, hidle⟩ := (s.canStep_iff ch).1 hc
  rcases hp : (s.chan ch).phase with _ | e | ⟨d0, n, k, _ | v⟩
  · exact absurd hp hidle
  · rw [State.engineStep_fetch hc hp, State.loadDesc]
    split_ifs <;> exact State.setPhase_chan_ne (s := s) _ (by simp [hp])
  · obtain ⟨-, -, -, -, -, hkn, -⟩ := (Channel.consistent_exec hp).1 hcons
    rcases hkn.lt_or_eq with hk | rfl
    · rw [State.engineStep_read hc hp hk, State.beatRead]
      split
      · exact State.setPhase_chan_ne _ (by simp [hp])
      · exact State.raise_chan_ne _ hfault
    · rw [State.engineStep_complete hc hp, State.complete]
      split_ifs <;> exact fun he => by simpa [hp] using congrArg Channel.phase he
  · obtain ⟨-, -, -, -, -, -, hk⟩ := (Channel.consistent_exec hp).1 hcons
    rw [State.engineStep_write hc hp (hk (by simp)), State.beatWrite, if_neg (hheld _ _ _ _ hp)]
    split
    · exact State.setPhase_chan_ne _ (by simp [hp])
    · exact State.raise_chan_ne _ hfault

/-- The turn of a channel that may step and is not held changes its registers. -/
theorem State.chanStep_enabled {s : State} {ch : ChanId} (hcons : (s.chan ch).consistent s.cfg)
    (hc : s.canStep ch = true) (hheld : ¬ s.heldOnPacer ch = true) :
    ∃ t, s.chanStep ch = .next t ∧ t.chan ch ≠ s.chan ch := by
  obtain ⟨-, hfault, hidle⟩ := (s.canStep_iff ch).1 hc
  have hmoves : ∀ d, _ → ((s.setCur ch).engineStep ch d).chan ch ≠ s.chan ch :=
    fun d => State.engineStep_chan_ne (s := s.setCur ch) hc hcons
  rw [State.heldOnPacer_iff] at hheld
  rcases hp : (s.chan ch).phase with _ | e | ⟨d, n, k, v⟩
  · exact absurd hp hidle
  · rcases hi : s.fetchInstr e (s.chan ch).conblkAd with r | i
    · exact ⟨_, State.chanStep_fetch_error hc hp hi, State.raise_chan_ne (s := s.setCur ch) r hfault⟩
    · obtain ⟨d, -, hd⟩ := State.fetchInstr_ok hi
      rw [State.chanStep_fetch hc hp hi]
      exact ⟨_, exec_decoded (s := s.setCur ch) hd, hmoves d (by simp [hp])⟩
  · obtain ⟨-, -, -, hd, -⟩ := (Channel.consistent_exec hp).1 hcons
    obtain ⟨i, hi, -⟩ := decodeDesc_of_checked hd
    rw [State.chanStep_exec hc hp hi]
    refine ⟨_, exec_decoded hi, hmoves _ fun d0 m j w hw hq => ?_⟩
    rw [State.setCur_chan, hp] at hw
    cases hw
    exact hheld ⟨_, _, _, _, hp, hq⟩

/-- The turn of a channel held on its pacer changes nothing but `cur`. -/
theorem State.chanStep_held {s : State} {ch : ChanId} (hcons : (s.chan ch).consistent s.cfg)
    (hc : s.canStep ch = true) (hheld : s.heldOnPacer ch = true) : s.chanStep ch = .next (s.setCur ch) := by
  obtain ⟨d, n, k, v, hp, hD, hq⟩ := (s.heldOnPacer_iff ch).1 hheld
  obtain ⟨-, -, -, hd, -⟩ := (Channel.consistent_exec hp).1 hcons
  obtain ⟨i, hi, -⟩ := decodeDesc_of_checked hd
  have hexec : exec i (s.setCur ch) = .next ((s.setCur ch).engineStep ch d) := exec_decoded hi
  have hp' : ((s.setCur ch).chan ch).phase = .exec d n k (some v) := by simpa using hp
  rw [State.chanStep_exec hc hp hi]
  exact hexec.trans (congrArg _ (State.engineStep_held hp' hD hq))

/-- Settles O11, by whether the channel may step and is held on its pacer. -/
theorem channelStepsExactlyWhenEnabled : Obligations.ChannelStepsExactlyWhenEnabled := by
  intro s ch hs
  have hcons := hs.chan ch
  refine ⟨?_, ?_⟩
  · simp only [State.enabled_chan_iff, State.canStep_iff, State.heldOnPacer_iff, State.dreq_eq_false_iff]
    rfl
  · rcases hc : s.canStep ch with _ | _
    · exact ⟨_, State.chanStep_disabled hc, by simp [State.enabled, hc], fun _ => rfl⟩
    · by_cases hheld : s.heldOnPacer ch = true
      · exact ⟨_, State.chanStep_held hcons hc hheld, by simp [State.enabled, hheld], fun _ => rfl⟩
      · obtain ⟨t, ht, hne⟩ := State.chanStep_enabled hcons hc hheld
        exact ⟨t, ht, fun _ => hne, by simp [State.enabled, hc, hheld]⟩

end Sys2Proof.Machine

namespace Sys2Proof

/-! ### Beat addresses by the TI fields (30 R111 to R114, R119) -/

section
variable {d : Desc} {f : XferTI} (h : d.ti = f.word)
include h

theorem Desc.destInc_of_ti : d.destInc = f.destInc := by
  rw [← XferTI.ofWord_word f, ← h]; rfl

theorem Desc.destDreq_of_ti : d.destDreq = f.destDreq := by
  rw [← XferTI.ofWord_word f, ← h]; rfl

theorem Desc.srcInc_of_ti : d.srcInc = f.srcInc := by
  rw [← XferTI.ofWord_word f, ← h]; rfl

theorem Desc.permap_of_ti : d.permap = f.permap := by
  rw [← XferTI.ofWord_word f, ← h]; rfl

end

theorem Desc.beats_of_lenWord {d : Desc} {n : BitVec 28} (h : d.txfrLen = lenWord n) : d.beats = n.toNat := by
  rw [Desc.beats, h, extract_lenWord]

section
variable {d : Desc} (k : Nat)

theorem Desc.srcAt_fixed (h : d.srcInc = false) : d.srcAt k = d.sourceAd := by simp [Desc.srcAt, h]
theorem Desc.srcAt_moving (h : d.srcInc = true) : d.srcAt k = d.sourceAd + BitVec.ofNat 32 (4 * k) := by
  simp [Desc.srcAt, h]
theorem Desc.dstAt_fixed (h : d.destInc = false) : d.dstAt k = d.destAd := by simp [Desc.dstAt, h]
theorem Desc.dstAt_moving (h : d.destInc = true) : d.dstAt k = d.destAd + BitVec.ofNat 32 (4 * k) := by
  simp [Desc.dstAt, h]

end

theorem Config.region_eq_memory_iff (c : Config) (a : Word) : c.region a = .memory ↔ c.inMem a = true := by
  refine ⟨fun h => ?_, Config.region_memory⟩
  unfold Config.region at h
  split_ifs at h with hm
  exact hm

namespace Machine

/-! ### One engine step by phase (40 R151 to R153) -/

theorem State.isSample_iff (s : State) (a b : Word) : s.isSample a b = true ↔
    s.cfg.inMem b = true ∧ (s.cfg.region a = .gplev ∨ s.cfg.region a = .timer) := by
  simp [State.isSample]

/-- A beat whose destination is no memory word is no sample. -/
theorem State.isSample_of_region {s : State} {a b : Word} (h : s.cfg.region b ≠ .memory) :
    s.isSample a b = false := by
  rw [Ne, Config.region_eq_memory_iff, Bool.not_eq_true] at h
  simp [State.isSample, h]

/-- A channel whose registers a bus access left alone, in a new phase. -/
theorem State.setPhase_of_chan {s t : State} {ch : ChanId} (h : t.chan ch = s.chan ch) (p : Phase) :
    t.setPhase ch p = t.setChan ch { s.chan ch with phase := p } := by rw [State.setPhase, h]

/-- Settles O17, phase by phase. -/
theorem descriptorPhases : Obligations.DescriptorPhases := by
  intro i d s hi hc
  simp only [exec_desc hi, ← State.dreq_iff, Host.Outcome.next.injEq]
  refine ⟨fun e hp hb => ?fetch, fun d0 n k v t hp hk hr => ?read, fun d0 n k v t hp hk hD hw => ?write,
    fun d0 n k v hp hD hq => State.engineStep_held hp hD (by simpa using hq), fun d0 n hp => ?complete⟩
  case fetch => rw [State.engineStep_fetch hc hp, State.loadDesc, if_neg hb]; rfl
  case read =>
    obtain ⟨-, hchan, -⟩ := State.busRead_keeps hr
    rw [State.engineStep_read hc hp hk, State.beatRead, hr]
    exact State.setPhase_of_chan (hchan _) _
  case write =>
    obtain ⟨-, hchan, -⟩ := State.busWrite_keeps hw
    have hgo : ¬ (d.destDreq = true ∧ s.dreq (d.pacerOf s.cfg) = false) := fun h => by simp [hD h.1] at h
    refine ⟨_, ?_, rfl⟩
    simp only [State.engineStep_write hc hp hk, State.beatWrite, if_neg hgo, hw, ← State.isSample_iff]
    split_ifs
    · exact State.setPhase_of_chan (t := t.log _) (by simpa using hchan s.cur) _
    · simpa using State.setPhase_of_chan (hchan _) _
  case complete =>
    rw [State.engineStep_complete hc hp, State.complete]
    split_ifs with hn
    · rw [hn]
    · rfl

/-! ### A descriptor of LENGTH 0 (40 R154) -/

/-- Once a descriptor is loaded its length word is not read again: the beat count stands in the phase (10 R32). -/
theorem State.engineStep_txfrLen {s : State} {ch : ChanId} (d : Desc) (len : Word)
    (h : ∀ e, (s.chan ch).phase ≠ .fetch e) : s.engineStep ch { d with txfrLen := len } = s.engineStep ch d := by
  unfold State.engineStep
  split_ifs
  · rfl
  · rcases hp : (s.chan ch).phase with _ | e | ⟨d0, n, k, _ | v⟩
    · rfl
    · exact absurd hp (h e)
    · rfl
    · rfl

/-- Settles O18: the beat count is the free value at the draw counter. -/
theorem zeroLengthDrawsItsBeatCount : Obligations.ZeroLengthDrawsItsBeatCount := by
  intro i d s hi hb ⟨hc, e, hp⟩
  have hload : exec i s = .next (s.drawn.setPhase s.cur
      (.exec d (if Config.freeBeat s.draws then 1 else 0) 0 none)) := by
    rw [exec_desc hi, State.engineStep_fetch hc hp, State.loadDesc, if_pos hb]
    generalize s.cur = ch
    cases ch <;> rfl
  refine ⟨_, by split_ifs <;> simp, hload, fun hn => ?none, fun _ j u hu hp' hj => ?one⟩
  case none =>
    have h1 : execTimes i 1 s = .next (s.drawn.setPhase s.cur (.exec d 0 0 none)) := by
      rw [hn] at hload
      simp only [execTimes, hload]
    rw [show 2 = 1 + 1 from rfl, execTimes_trans h1]
    have hc' : s.drawn.canStep s.cur = true := (State.canStep_congr (by simp)).trans hc
    have hdone := complete_step (s := s.drawn) (n := 0) rfl hi hc'
    rwa [State.drawn_chan] at hdone
  case one =>
    rw [← hu] at hi hj
    rw [exec_desc hi, exec_desc hj]
    exact congrArg _ (State.engineStep_txfrLen d _ hp').symm

/-! ### What one step of a descriptor leaves unchanged (40 R150 to R155; 20 R80, R81) -/

/-- What one engine step of the current channel of s, running d, may change in making t: memory at `storeTarget`, the
channel itself, a FIFO or the latch a beat writes, the timer a beat reads, one event of the trace, and the draws. -/
structure DescFrame (s : State) (d : Desc) (t : State) : Prop where
  mem : ∀ a, (∀ b, s.storeTarget d = some b → a < b.toNat ∨ b.toNat + 4 ≤ a) → t.mem.byte a = s.mem.byte a
  chan : ∀ x, x ≠ s.cur → t.chan x = s.chan x
  registers : (∀ d0 n, (s.chan s.cur).phase ≠ .exec d0 n n none) →
    (t.chan s.cur).active = (s.chan s.cur).active ∧ (t.chan s.cur).conblkAd = (s.chan s.cur).conblkAd
  pacer : ∀ pc, (t.pacer pc).configured = (s.pacer pc).configured ∧ (t.pacer pc).ticks = (s.pacer pc).ticks ∧
    (t.pacer pc).period = (s.pacer pc).period
  fill : ∀ pc, (∀ d0 n k v, (s.chan s.cur).phase = .exec d0 n k (some v) → s.cfg.region (d.dstAt k) ≠ .fifo pc) →
    (t.pacer pc).fill = (s.pacer pc).fill
  latch : (∀ d0 n k v, (s.chan s.cur).phase = .exec d0 n k (some v) → s.cfg.region (d.dstAt k) ≠ .gpset ∧
    s.cfg.region (d.dstAt k) ≠ .gpclr) → t.gpioOut = s.gpioOut
  timer : (∀ d0 n k, (s.chan s.cur).phase = .exec d0 n k none → s.cfg.region (d.srcAt k) ≠ .timer) →
    t.timer = s.timer
  trace : ∃ es, t.trace = s.trace ++ es ∧ es.length ≤ 1
  rest : t.cfg = s.cfg ∧ t.host = s.host ∧ t.refused = s.refused ∧ t.sched = s.sched ∧ t.cur = s.cur

namespace DescFrame
variable {s t : State} {d d0 : Desc} {n k : Nat} {v : Word}

theorem refl (s : State) (d : Desc) : DescFrame s d s where
  mem _ _ := rfl
  chan _ _ := rfl
  registers _ := ⟨rfl, rfl⟩
  pacer _ := ⟨rfl, rfl, rfl⟩
  fill _ _ := rfl
  latch _ := rfl
  timer _ := rfl
  trace := ⟨[], by simp⟩
  rest := ⟨rfl, rfl, rfl, rfl, rfl⟩

/-- The channel's own registers may be written, ACTIVE and CONBLK_AD where it completes. -/
theorem setChan (h : DescFrame s d t) {c : Channel} (hc : (∀ d0 n, (s.chan s.cur).phase ≠ .exec d0 n n none) →
    c.active = (s.chan s.cur).active ∧ c.conblkAd = (s.chan s.cur).conblkAd) :
    DescFrame s d (t.setChan s.cur c) where
  mem := by simpa using h.mem
  chan x hx := by rw [State.setChan_chan_of_ne _ _ _ _ hx, h.chan x hx]
  registers := by simpa using hc
  pacer := by simpa using h.pacer
  fill := by simpa using h.fill
  latch := by simpa using h.latch
  timer := by simpa using h.timer
  trace := by simpa using h.trace
  rest := by simpa using h.rest

theorem setPhase (h : DescFrame s d t) (p : Phase) : DescFrame s d (t.setPhase s.cur p) := h.setChan h.registers

theorem drawn (h : DescFrame s d t) : DescFrame s d t.drawn := { h with }

/-- One event may be recorded. -/
theorem log (h : DescFrame s d t) (ht : t.trace = s.trace) (e : Event) : DescFrame s d (t.log e) :=
  { h with trace := ⟨[e], by simp [ht]⟩ }

/-- A step that faults for anything but an unadmitted TI. -/
theorem raise {r : FaultReason} (hr : r ≠ .unadmitted) : DescFrame s d (s.raise s.cur r) := by
  have hfault : DescFrame s d (s.setChan s.cur { s.chan s.cur with fault := some r }) :=
    (refl s d).setChan fun _ => ⟨rfl, rfl⟩
  rw [State.raise, if_neg hr]
  exact hfault.log (by simp) _

theorem loadDesc : DescFrame s d (s.loadDesc s.cur d) := by
  unfold State.loadDesc
  by_cases hb : d.beats = 0
  · rw [if_pos hb]; exact ((refl s d).setPhase _).drawn
  · rw [if_neg hb]; exact (refl s d).setPhase _

theorem complete (hp : (s.chan s.cur).phase = .exec d0 n n none) (next : Word) :
    DescFrame s d (s.complete s.cur next) := by
  unfold State.complete
  split_ifs <;> exact (refl s d).setChan fun h => absurd hp (h _ _)

/-- A read changes the timer where it reads it, and the draws. -/
theorem busRead (hp : (s.chan s.cur).phase = .exec d0 n k none) (h : s.busRead (d.srcAt k) = .ok (v, t)) :
    DescFrame s d t := by
  obtain ⟨-, ⟨-, -, rfl⟩ | ⟨-, -, rfl⟩ | ⟨hr, -, rfl⟩⟩ := State.busRead_ok h
  · exact refl _ d
  · exact (refl s d).drawn
  · exact { (refl s d).drawn with timer := fun hno => absurd hr (hno _ _ _ hp) }

theorem beatRead (hp : (s.chan s.cur).phase = .exec d0 n k none) : DescFrame s d (s.beatRead s.cur d d0 n k) := by
  unfold State.beatRead
  split
  · rename_i hr
    exact (busRead hp hr).setPhase _
  · rename_i hr
    exact raise (State.busRead_error hr)

section
variable (hp : (s.chan s.cur).phase = .exec d0 n k (some v))
include hp

/-- A memory write changes the four bytes of its word. -/
theorem setMem (hk : k < n) (hm : s.cfg.inMem (d.dstAt k) = true) :
    DescFrame s d (s.setMem (s.mem.writeWord (d.dstAt k) v)) :=
  { refl s d with
    mem := fun a ha => Memory.byte_writeWord_of_outside _ _ _ (ha _ (by simp [State.storeTarget, hp, hk, hm])) }

/-- A GPIO write changes the latch and records itself. -/
theorem setGpio (hr : s.cfg.region (d.dstAt k) = .gpset ∨ s.cfg.region (d.dstAt k) = .gpclr) (g : Word) (e : Event) :
    DescFrame s d ((s.setGpio g).log e) :=
  { (refl s d).log rfl e with
    latch := fun hno => by
      obtain ⟨h1, h2⟩ := hno _ _ _ _ hp
      exact absurd hr (by simp [h1, h2]) }

/-- A FIFO write changes the fill of its pacer. -/
theorem fillPacer {pc : ChanId} (hr : s.cfg.region (d.dstAt k) = .fifo pc) (f : Nat) :
    DescFrame s d (s.setPacer pc { s.pacer pc with fill := f }) where
  mem := by simp
  chan := by simp
  registers := by simp
  pacer x := by
    rw [State.setPacer_pacer]
    split_ifs with hx
    · subst hx; exact ⟨rfl, rfl, rfl⟩
    · exact ⟨rfl, rfl, rfl⟩
  fill x hno := by
    have hx : x ≠ pc := by rintro rfl; exact hno _ _ _ _ hp hr
    rw [State.setPacer_pacer_of_ne _ _ _ _ hx]
  latch := by simp
  timer := by simp
  trace := by simp
  rest := by simp

theorem beatWrite (hk : k < n) : DescFrame s d (s.beatWrite s.cur d d0 n k v) := by
  unfold State.beatWrite
  by_cases hheld : d.destDreq = true ∧ s.dreq (d.pacerOf s.cfg) = false
  · rw [if_pos hheld]; exact refl s d
  rw [if_neg hheld]
  rcases hw : s.busWrite s.cur (d.dstAt k) v with r | t
  · exact raise (State.busWrite_error hw)
  refine DescFrame.setPhase ?_ _
  obtain ⟨-, ⟨hr, rfl⟩ | ⟨hr, rfl⟩ | ⟨hr, rfl⟩ | ⟨pc, hr, -, rfl⟩⟩ := State.busWrite_ok hw
  · have hm := setMem hp hk ((Config.region_eq_memory_iff _ _).1 hr)
    split_ifs
    · exact hm.log rfl _
    · exact hm
  · rw [State.isSample_of_region (by simp [hr])]; exact setGpio hp (.inl hr) _ _
  · rw [State.isSample_of_region (by simp [hr])]; exact setGpio hp (.inr hr) _ _
  · rw [State.isSample_of_region (by simp [hr])]; exact fillPacer hp hr _

end

/-- One engine step keeps to the frame. -/
theorem engineStep (s : State) (d : Desc) : DescFrame s d (s.engineStep s.cur d) := by
  rcases s.engineStep_cases s.cur d with h | ⟨e, -, -, h⟩ | ⟨d0, n, k, -, hp, -, h⟩ | ⟨d0, n, k, v, -, hp, hk, h⟩ |
    ⟨d0, n, -, hp, h⟩ <;> rw [h]
  · exact refl s d
  · exact loadDesc
  · exact beatRead hp
  · exact beatWrite hp hk
  · exact complete hp _

end DescFrame

/-- Settles O26: an engine step keeps to the frame. -/
theorem descriptorStepFrame : Obligations.DescriptorStepFrame := by
  intro i d s t hi ht
  rw [exec_desc hi] at ht
  cases ht
  obtain ⟨hmem, hchan, hreg, hpacer, hfill, hlatch, htimer, htrace, hrest⟩ := DescFrame.engineStep s d
  exact ⟨hmem, hchan, hreg, hpacer, hfill, hlatch, htimer, htrace, hrest⟩

end Machine
end Sys2Proof

namespace Sys2Proof

/-- Descriptor positions and chain slots are descriptor addresses (20 R73). -/
theorem Config.Meets.fetchable_of_isDescSlot {c : Config} (M : c.Meets) {t : Word} (ht : c.isDescSlot t = true) :
    c.fetchable t = true ∧ t.toNat % 32 = 0 := by
  simp only [Config.isDescSlot, Bool.or_eq_true, List.any_eq_true, Bool.and_eq_true, decide_eq_true_eq,
    exists_eq_right] at ht
  rw [Config.fetchable_iff]
  rcases ht with ⟨p, hp, ⟨hlo, hhi⟩, hal⟩ | ht
  · have := (M.page p hp).1
    have := M.fits
    exact ⟨.inl ⟨p, hp, by omega, by omega⟩, by omega⟩
  · exact ⟨.inr ht, (M.slot t ht).1⟩

/-- The NEXTCONBK word of a descriptor position lies in memory, at an aligned address (30 R110, R135). -/
theorem Config.Meets.nextWord_mem {c : Config} (M : c.Meets) {t : Word} (ht : c.isDescSlot t = true) :
    c.inMem (t + 0x14#32) = true ∧ (t + 0x14#32).toNat % 4 = 0 := by
  obtain ⟨hf, hal⟩ := M.fetchable_of_isDescSlot ht
  obtain ⟨hend, -, hmem⟩ := M.fetchable_words hf
  have hn : (t + 0x14#32).toNat = t.toNat + 20 := by
    rw [BitVec.toNat_add, BitVec.toNat_ofNat, Nat.mod_eq_of_lt (by omega)]
  exact ⟨hmem _ (by omega) (by omega), by omega⟩

namespace Machine

/-! ### The classes of one beat: SET, CLR, LEV, TICK, COPY, NOP, LINK (40 R156 to R163) -/

theorem wordStored_writeWord (m : Memory) (a v : Word) : wordStored m a v (m.writeWord a v) :=
  ⟨Memory.word_writeWord_self m a v, fun _ => Memory.byte_writeWord_of_outside m a v⟩

section
variable {i : Instr} {src dst stride next v : Word} {s r t u : State}

/-- A descriptor of one unpaced beat with TI_NORMAL, from its read and its write (30 R121). -/
theorem oneBeat_normal (hi : i.desc s.cfg = some ⟨0x04000008#32, src, dst, 4#32, stride, next⟩) (hf : s.atFetch)
    (hread : s.busRead src = .ok (v, r)) (hwrite : r.busWrite s.cur dst v = .ok u)
    (ht : t = if r.isSample src dst then u.log (.sample s.cur dst v) else u) :
    oneBeat i ⟨0x04000008#32, src, dst, 4#32, stride, next⟩ s r t v := by
  have hti : (descCopy src dst stride next).ti = XferTI.normal.word := XferTI.word_normal.symm
  have hsrc : (descCopy src dst stride next).srcAt 0 = src := Desc.srcAt_fixed 0 (Desc.srcInc_of_ti hti)
  have hdst : (descCopy src dst stride next).dstAt 0 = dst := Desc.dstAt_fixed 0 (Desc.destInc_of_ti hti)
  have hone : (descCopy src dst stride next).beats = 1 :=
    Desc.beats_of_lenWord (n := 1#28) ((lenWord_eq_four_iff _).2 rfl).symm
  exact oneBeat_intro (d := descCopy src dst stride next) hi hf hone (Desc.destDreq_of_ti hti) (by rwa [hsrc])
    (by rwa [hdst]) (by rwa [hsrc, hdst])

/-- A beat from one memory word to another (40 R162). -/
theorem oneBeat_copy (hi : i.desc s.cfg = some ⟨0x04000008#32, src, dst, 4#32, stride, next⟩) (hf : s.atFetch)
    (hsrc : s.cfg.inMem src = true) (hdst : s.cfg.inMem dst = true) (hsa : src.toNat % 4 = 0)
    (hda : dst.toNat % 4 = 0) (hv : s.mem.word src = some v) :
    oneBeat i ⟨0x04000008#32, src, dst, 4#32, stride, next⟩ s s { s with mem := s.mem.writeWord dst v } v :=
  oneBeat_normal hi hf (State.busRead_memory ((wordAligned_iff _).2 hsa) hsrc hv)
    (State.busWrite_memory ((wordAligned_iff _).2 hda) hdst) (by rw [State.isSample_memory hsrc]; rfl)

end

/-- Settles O19: the mask word is read from memory and written to GPSET0 or GPCLR0. -/
theorem setAndClrDriveTheLatch : Obligations.SetAndClrDriveTheLatch := by
  intro m stride next s v hc hf hm hal hv
  have M := Config.meets hc
  have hread := State.busRead_memory ((wordAligned_iff m).2 hal) hm hv
  have hset := M.wordAligned_peripheral (a := s.cfg.gpset0) (by simp [Config.peripherals])
  have hclr := M.wordAligned_peripheral (a := s.cfg.gpclr0) (by simp [Config.peripherals])
  have hs : ∀ a, s.isSample m a = false := fun a => State.isSample_memory hm
  exact ⟨oneBeat_normal rfl hf hread (State.busWrite_gpset hset M.region_gpset) (by rw [hs]; rfl),
    oneBeat_normal rfl hf hread (State.busWrite_gpclr hclr M.region_gpclr) (by rw [hs]; rfl)⟩

/-- With every line an output the levels are the latch (10 R40). -/
theorem State.levels_of_allOutputs {s : State} (h : s.cfg.outputMask = 0xFFFFFFFF#32) (x : Word) :
    s.levels x = s.gpioOut := by
  have hall : 0xFFFFFFFF#32 = BitVec.allOnes 32 := rfl
  rw [State.levels, h, hall, BitVec.not_allOnes, BitVec.and_allOnes, BitVec.and_zero, BitVec.or_zero]

/-- Settles O20: the sample is read from GPLEV0 or TIMER_LO and written to the cell. -/
theorem levAndTickSample : Obligations.LevAndTickSample := by
  intro cell stride next s hc hf hm hal
  have M := Config.meets hc
  have hcell := (wordAligned_iff cell).2 hal
  have hlev := M.wordAligned_peripheral (a := s.cfg.gplev0) (by simp [Config.peripherals])
  have htim := M.wordAligned_peripheral (a := s.cfg.timerLo) (by simp [Config.peripherals])
  refine ⟨⟨Config.freeLevels s.draws, _, _, rfl, fun h => State.levels_of_allOutputs h _,
    wordStored_writeWord _ _ _, ?lev⟩, ⟨Config.freeTimer s.draws, _, wordStored_writeWord _ _ _, ?tick⟩⟩
  case lev =>
    have hs := (s.drawn.isSample_iff s.cfg.gplev0 cell).2 ⟨hm, .inl M.region_gplev⟩
    exact oneBeat_normal rfl hf (State.busRead_gplev hlev M.region_gplev) (State.busWrite_memory hcell hm)
      (if_pos hs).symm
  case tick =>
    have hs := ((s.setTimer (Config.freeTimer s.draws)).drawn.isSample_iff s.cfg.timerLo cell).2
      ⟨hm, .inr M.region_timer⟩
    exact oneBeat_normal rfl hf (State.busRead_timer htim M.region_timer) (State.busWrite_memory hcell hm)
      (if_pos hs).symm

/-- Settles O22: a memory beat; NOP's writes back the word that is there. -/
theorem copyAndNopMoveOneWord : Obligations.CopyAndNopMoveOneWord := by
  refine ⟨fun src dst stride next s v hc hf hs hd hsa hda hv => ?copy, fun stride next s v hc hf hwf hv => ?nop⟩
  case copy => exact ⟨_, wordStored_writeWord _ _ _, oneBeat_copy rfl hf hs hd hsa hda hv⟩
  case nop =>
    obtain ⟨hm, hal⟩ := (Config.meets hc).zw_mem
    have h := oneBeat_copy (i := .nop stride next) rfl hf hm hm hal hal hv
    rwa [Memory.writeWord_same hwf hv] at h

/-- The NEXTCONBK of a descriptor fetched is its word 5 (30 R110). -/
theorem State.fetchDesc_nextconbk {s : State} {e : List (Nat × Option Word)} {a : Word} {d : Desc}
    (h : s.fetchDesc e a = .ok d) : s.fetchWord e a 5 = some d.nextconbk := by
  unfold State.fetchDesc at h
  split_ifs at h
  dsimp only at h
  split at h
  · cases h; assumption
  · cases h

/-- Settles O23: the beat stores word 5 of the target, which is the NEXTCONBK that a later fetch reads. -/
theorem linkWritesTheNextWord : Obligations.LinkWritesTheNextWord := by
  intro cell t stride next s v hc hf hm ht hal hv
  obtain ⟨hnm, hna⟩ := (Config.meets hc).nextWord_mem ht
  refine ⟨_, wordStored_writeWord _ _ _, oneBeat_copy rfl hf hm hnm hal hna hv, fun d hd => ?_⟩
  have hnext := State.fetchDesc_nextconbk hd
  have hword : (s.mem.writeWord (t + 0x14#32) v).word (t + 0x14#32) = some d.nextconbk := hnext
  rw [Memory.word_writeWord_self] at hword
  exact (Option.some.inj hword).symm

/-! ### PACE_P and PACE_S (40 R160, R161; 30 R134) -/

section
variable (c : Config) (pc : ChanId) (t : BitVec 28) (stride next : Word) (k : Nat)

theorem paceInstr_desc : (paceInstr pc t stride next).desc c = some (paceDesc c pc t stride next) := by
  cases pc <;> rfl

theorem paceDesc_nextconbk : (paceDesc c pc t stride next).nextconbk = next := by cases pc <;> rfl

theorem paceDesc_ti : (paceDesc c pc t stride next).ti =
    (XferTI.pace (match pc with | .P => c.permapP | .S => c.permapS)).word := by
  rw [XferTI.word_pace]; cases pc <;> rfl

theorem paceDesc_beats : (paceDesc c pc t stride next).beats = t.toNat :=
  Desc.beats_of_lenWord (by cases pc <;> rfl)

theorem paceDesc_destDreq : (paceDesc c pc t stride next).destDreq = true :=
  Desc.destDreq_of_ti (paceDesc_ti c pc t stride next)

theorem paceDesc_srcAt : (paceDesc c pc t stride next).srcAt k = c.zw := by
  rw [Desc.srcAt_fixed k (Desc.srcInc_of_ti (paceDesc_ti c pc t stride next))]
  cases pc <;> rfl

theorem paceDesc_dstAt :
    (paceDesc c pc t stride next).dstAt k = match pc with | .P => c.fifoP | .S => c.fifoS := by
  rw [Desc.dstAt_fixed k (Desc.destInc_of_ti (paceDesc_ti c pc t stride next))]
  cases pc <;> rfl

variable {c} (M : c.Meets)
include M

/-- The two PERMAP numbers differ, so each paces its own pacer (00 R9; 30 R119). -/
theorem paceDesc_pacerOf : (paceDesc c pc t stride next).pacerOf c = pc := by
  rw [Desc.pacerOf, Desc.permap_of_ti (paceDesc_ti c pc t stride next)]
  cases pc
  · exact if_pos rfl
  · exact if_neg M.permaps.symm

theorem paceDesc_region : c.region ((paceDesc c pc t stride next).dstAt k) = .fifo pc := by
  rw [paceDesc_dstAt]
  exact M.region_fifo pc

theorem paceDesc_aligned : wordAligned ((paceDesc c pc t stride next).dstAt k) = true := by
  rw [paceDesc_dstAt]
  cases pc <;> exact M.wordAligned_peripheral (by simp [Config.peripherals])

end

/-- The state with k more words in the FIFO of pacer pc. -/
def State.addWords (s : State) (pc : ChanId) (k : Nat) : State :=
  s.setPacer pc { s.pacer pc with fill := (s.pacer pc).fill + k }

section
variable (s : State) (pc : ChanId) (k : Nat)

@[simp] theorem State.addWords_zero : s.addWords pc 0 = s := by cases pc <;> rfl
theorem State.addWords_succ : (s.addWords pc k).addWords pc 1 = s.addWords pc (k + 1) := by cases pc <;> rfl
@[simp] theorem State.addWords_cfg : (s.addWords pc k).cfg = s.cfg := by simp [State.addWords]
@[simp] theorem State.addWords_mem : (s.addWords pc k).mem = s.mem := by simp [State.addWords]
@[simp] theorem State.addWords_cur : (s.addWords pc k).cur = s.cur := by simp [State.addWords]
@[simp] theorem State.addWords_chan (ch : ChanId) : (s.addWords pc k).chan ch = s.chan ch := by
  simp [State.addWords]
@[simp] theorem State.addWords_pacer :
    (s.addWords pc k).pacer pc = { s.pacer pc with fill := (s.pacer pc).fill + k } := by simp [State.addWords]

end

section
variable {s : State} {pc : ChanId} {t : BitVec 28} {stride next v : Word} (M : s.cfg.Meets)
include M

/-- A beat reads ZW. -/
theorem pace_busRead (hv : s.mem.word s.cfg.zw = some v) (k : Nat) :
    s.busRead ((paceDesc s.cfg pc t stride next).srcAt k) = .ok (v, s) := by
  obtain ⟨hm, hal⟩ := M.zw_mem
  rw [paceDesc_srcAt]
  exact State.busRead_memory ((wordAligned_iff _).2 hal) hm hv

/-- A beat adds one word to its FIFO where there is room. -/
theorem pace_busWrite (hroom : (s.pacer pc).fill < s.cfg.pacerDepth pc) (k : Nat) (w : Word) :
    s.busWrite s.cur ((paceDesc s.cfg pc t stride next).dstAt k) w = .ok (s.addWords pc 1) :=
  State.busWrite_fifo (paceDesc_aligned pc t stride next k M) (paceDesc_region pc t stride next k M) hroom.ne

/-- A beat into a FIFO is no sample. -/
theorem pace_isSample (a : Word) (k : Nat) :
    s.isSample a ((paceDesc s.cfg pc t stride next).dstAt k) = false :=
  State.isSample_of_region (by rw [paceDesc_region pc t stride next k M]; simp)

/-- The write of a paced beat: one word into the FIFO while the pacer requests, else a hold (40 R152). -/
theorem pace_write {k : Nat} {w : Word} (hk : k < t.toNat)
    (h : s.ready (.exec (paceDesc s.cfg pc t stride next) t.toNat k (some w))) :
    exec (paceInstr pc t stride next) s = .next
      (if (s.pacer pc).configured = true ∧ (s.pacer pc).fill < s.cfg.pacerDepth pc
        then (s.addWords pc 1).setPhase s.cur (.exec (paceDesc s.cfg pc t stride next) t.toNat (k + 1) none)
        else s) := by
  obtain ⟨hc, hp⟩ := h
  have hpacer := paceDesc_pacerOf pc t stride next M
  rw [exec_desc (paceInstr_desc s.cfg pc t stride next)]
  by_cases hq : s.dreq pc = true
  · rw [if_pos ((s.dreq_iff pc).1 hq), State.engineStep_write hc hp hk, State.beatWrite, if_neg (by simp [hpacer, hq]),
      pace_busWrite M ((s.dreq_iff pc).1 hq).2, pace_isSample M]
    rfl
  · rw [if_neg ((s.dreq_iff pc).not.1 hq), State.engineStep_held hp (paceDesc_destDreq _ _ _ _ _)
      (by simpa [hpacer] using hq)]

/-- With room for every word the descriptor runs through, and no tick passes. -/
theorem pace_run (ht : t ≠ 0#28) (hv : s.mem.word s.cfg.zw = some v) (hf : s.atFetch)
    (hconf : (s.pacer pc).configured = true) (hroom : (s.pacer pc).fill + t.toNat ≤ s.cfg.pacerDepth pc) :
    execTimes (paceInstr pc t stride next) (2 * t.toNat + 2) s =
      .next ((s.addWords pc t.toNat).setChan s.cur ((s.chan s.cur).completed next)) := by
  obtain ⟨hc, e, hp⟩ := hf
  have hn : t.toNat ≠ 0 := fun h0 => ht (BitVec.eq_of_toNat_eq h0)
  have hM : ∀ k, (s.addWords pc k).cfg.Meets := fun k => by simpa using M
  have hread : ∀ k, (s.addWords pc k).busRead ((paceDesc s.cfg pc t stride next).srcAt k) =
      .ok (v, s.addWords pc k) := fun k => by
    simpa using pace_busRead (pc := pc) (t := t) (stride := stride) (next := next) (hM k) (by simpa using hv) k
  have hlt : ∀ k, k < t.toNat → ((s.addWords pc k).pacer pc).fill < (s.addWords pc k).cfg.pacerDepth pc :=
    fun k hk => by simp; omega
  have hwrite : ∀ k, k < t.toNat → (s.addWords pc k).busWrite s.cur ((paceDesc s.cfg pc t stride next).dstAt k) v =
      .ok (s.addWords pc (k + 1)) := fun k hk => by
    simpa [State.addWords_succ] using pace_busWrite (t := t) (stride := stride) (next := next) (hM k) (hlt k hk) k v
  have hrun := desc_run (i := paceInstr pc t stride next) (S := s.addWords pc) (n := t.toNat) (e := e)
    (s.addWords_cur pc) (fun k => by simpa using paceInstr_desc s.cfg pc t stride next)
    (fun k => (State.canStep_congr (by simp)).trans hc) (by simpa using hp) (paceDesc_beats _ _ _ _ _) hn
    (fun k hk => ⟨v, hread k, hwrite k hk⟩) ?dreq ?sample
  case dreq =>
    intro k hk
    have := (State.dreq_iff (s.addWords pc k) pc).2 ⟨by simpa using hconf, hlt k hk⟩
    simp [paceDesc_pacerOf pc t stride next M, this]
  case sample =>
    intro k _
    simpa using pace_isSample (pc := pc) (t := t) (stride := stride) (next := next) (hM k) _ k
  simpa [paceDesc_nextconbk] using hrun

end

/-- Settles O21: FETCH and COMPLETE as for every descriptor, the beats and the whole run as above. -/
theorem paceFillsItsPacer : Obligations.PaceFillsItsPacer := by
  intro pc t stride next s v hc ht hv i d
  have M := Config.meets hc
  have hb : d.beats = t.toNat := paceDesc_beats _ _ _ _ _
  have hn : t.toNat ≠ 0 := fun h0 => ht (BitVec.eq_of_toNat_eq h0)
  have phases := descriptorPhases i d s (paceInstr_desc _ _ _ _ _)
  refine ⟨fun ⟨hc, e, hp⟩ => ?fetch, fun k hk ⟨hc, hp⟩ => ?read, fun k w => pace_write M, fun ⟨hc, hp⟩ => ?complete,
    pace_run M ht hv⟩
  case fetch =>
    obtain ⟨hfetch, -⟩ := phases hc
    rw [← hb]
    exact hfetch e hp (by rwa [hb])
  case read =>
    obtain ⟨-, hread, -⟩ := phases hc
    exact hread _ _ _ _ _ hp hk (pace_busRead M hv k)
  case complete =>
    obtain ⟨-, -, -, -, hdone⟩ := phases hc
    have h := hdone _ _ hp
    rw [paceDesc_nextconbk] at h
    exact h

end Machine
end Sys2Proof

namespace Sys2Proof.Machine

/-! ### COPY of w words (40 R162; 30 R122 step 8) -/

/-- The word stored at every destination of the first k beats of a copy, in order. -/
def copyPairs (dst : Word) (x : Nat → Word) (k : Nat) : List (Word × Word) :=
  (List.range k).map fun j => (dst + BitVec.ofNat 32 (4 * j), x j)

theorem mem_copyPairs {dst : Word} {x : Nat → Word} {k : Nat} {p : Word × Word} :
    p ∈ copyPairs dst x k ↔ ∃ j, j < k ∧ p = (dst + BitVec.ofNat 32 (4 * j), x j) := by
  simp [copyPairs, eq_comm]

/-- The state after the first k beats of a copy of the words x to dst. -/
def State.copied (s : State) (dst : Word) (x : Nat → Word) (k : Nat) : State :=
  s.setMem (Memory.writeAll s.mem (copyPairs dst x k))

theorem State.copied_succ (s : State) (dst : Word) (x : Nat → Word) (k : Nat) : s.copied dst x (k + 1) =
    (s.copied dst x k).setMem ((s.copied dst x k).mem.writeWord (dst + BitVec.ofNat 32 (4 * k)) (x k)) := by
  rw [State.copied, copyPairs, List.range_succ, List.map_append, Memory.writeAll_append]
  rfl

/-- Word k after an aligned address is aligned. -/
theorem wordAligned_add {a : Word} (ha : a.toNat % 4 = 0) (k : Nat) :
    wordAligned (a + BitVec.ofNat 32 (4 * k)) = true := by
  rw [wordAligned_iff, BitVec.toNat_add, BitVec.toNat_ofNat]
  omega

/-- Fewer than 2^28 words after one address have addresses of their own. -/
theorem add_words_inj {a : Word} {j k : Nat} (hj : j < 2 ^ 28) (hk : k < 2 ^ 28)
    (h : a + BitVec.ofNat 32 (4 * j) = a + BitVec.ofNat 32 (4 * k)) : j = k := by
  have h := congrArg BitVec.toNat h
  simp only [BitVec.toNat_add, BitVec.toNat_ofNat] at h
  have := a.isLt
  omega

section
variable {m : Memory} {src dst : Word} {x : Nat → Word} {n k : Nat}

theorem copyPairs_aligned (hd : dst.toNat % 4 = 0) : ∀ p ∈ copyPairs dst x n, wordAligned p.1 = true := by
  intro p hp
  obtain ⟨j, -, rfl⟩ := mem_copyPairs.1 hp
  exact wordAligned_add hd j

/-- The words copied stand at their destinations. -/
theorem word_writeAll_copyPairs (hd : dst.toNat % 4 = 0) (hn : n ≤ 2 ^ 28) (hk : k < n) :
    (Memory.writeAll m (copyPairs dst x n)).word (dst + BitVec.ofNat 32 (4 * k)) = some (x k) := by
  refine Memory.writeAll_word (wordAligned_add hd k) (copyPairs_aligned hd)
    (.inl ⟨_, mem_copyPairs.2 ⟨k, hk, rfl⟩, rfl⟩) fun p hp he => ?_
  obtain ⟨j, hj, rfl⟩ := mem_copyPairs.1 hp
  rw [add_words_inj (by omega) (by omega) he]

/-- A source word that no earlier beat writes reads as at the start. -/
theorem word_writeAll_copyPairs_of_ne (hs : src.toNat % 4 = 0) (hd : dst.toNat % 4 = 0)
    (h : ∀ j, j < n → dst + BitVec.ofNat 32 (4 * j) ≠ src + BitVec.ofNat 32 (4 * k)) :
    (Memory.writeAll m (copyPairs dst x n)).word (src + BitVec.ofNat 32 (4 * k)) =
      m.word (src + BitVec.ofNat 32 (4 * k)) := by
  refine Memory.writeAll_word_of_not (wordAligned_add hs k) (copyPairs_aligned hd) fun p hp => ?_
  obtain ⟨j, hj, rfl⟩ := mem_copyPairs.1 hp
  exact h j hj

end

section
variable (src dst : Word) (w : BitVec 28) (stride next : Word)

theorem descCopyN_srcAt (k : Nat) : (descCopyN src dst w stride next).srcAt k = src + BitVec.ofNat 32 (4 * k) :=
  Desc.srcAt_moving k (Desc.srcInc_of_ti (f := .inc) XferTI.word_inc.symm)

theorem descCopyN_dstAt (k : Nat) : (descCopyN src dst w stride next).dstAt k = dst + BitVec.ofNat 32 (4 * k) :=
  Desc.dstAt_moving k (Desc.destInc_of_ti (f := .inc) XferTI.word_inc.symm)

theorem descCopyN_destDreq : (descCopyN src dst w stride next).destDreq = false :=
  Desc.destDreq_of_ti (f := .inc) XferTI.word_inc.symm

theorem descCopyN_beats : (descCopyN src dst w stride next).beats = w.toNat := Desc.beats_of_lenWord rfl

end

/-- The overlap check admits no copy in which a beat reads what an earlier beat wrote (30 R122 step 8). -/
theorem copyN_dst_ne_src {c : Config} {src dst : Word} {w : BitVec 28} {stride next : Word}
    (h : (descCopyN src dst w stride next).overlaps c = false) {j k : Nat} (hj : j < k) (hk : k < w.toNat)
    (hm : c.inMem (dst + BitVec.ofNat 32 (4 * j)) = true) :
    dst + BitVec.ofNat 32 (4 * j) ≠ src + BitVec.ofNat 32 (4 * k) := fun he => by
  rw [← Bool.not_eq_true, overlapCheckMatchesBeats] at h
  refine h ⟨j, k, hj, by rwa [descCopyN_beats], ?_, ?_⟩
  · rwa [descCopyN_dstAt, descCopyN_srcAt]
  · rwa [descCopyN_dstAt]

/-- Settles O24: before beat k memory holds the first k words copied, and the source word of beat k as at the start. -/
theorem copyNMovesABlock : Obligations.CopyNMovesABlock := by
  intro src dst w stride next s x _ ⟨hc, e, hp⟩ hw hcheck hmem
  obtain ⟨-, -, -, hs, hd, -, hover⟩ := (Desc.check_eq_none_iff s.cfg (descCopyN src dst w stride next)).1 hcheck
  have hs : src.toNat % 4 = 0 := (extract_low2_eq_zero_iff src).1 hs
  have hd : dst.toNat % 4 = 0 := (extract_low2_eq_zero_iff dst).1 hd
  have hn : w.toNat ≠ 0 := fun h0 => hw (BitVec.eq_of_toNat_eq h0)
  have hbeat : ∀ k, k < w.toNat → ∃ v,
      (s.copied dst x k).busRead ((descCopyN src dst w stride next).srcAt k) = .ok (v, s.copied dst x k) ∧
      (s.copied dst x k).busWrite s.cur ((descCopyN src dst w stride next).dstAt k) v =
        .ok (s.copied dst x (k + 1)) := by
    intro k hk
    obtain ⟨hsm, hdm, hv⟩ := hmem k hk
    have hkept := word_writeAll_copyPairs_of_ne (m := s.mem) (x := x) (n := k) (k := k) hs hd
      fun j hj => copyN_dst_ne_src hover hj hk (hmem j (by omega)).2.1
    rw [descCopyN_srcAt, descCopyN_dstAt, State.copied_succ]
    exact ⟨x k, State.busRead_memory (wordAligned_add hs k) hsm (hkept.trans hv),
      State.busWrite_memory (wordAligned_add hd k) hdm⟩
  have hrun := desc_run (i := .copyN src dst w stride next) (d := descCopyN src dst w stride next)
    (S := s.copied dst x) (fun _ => rfl) (fun _ => rfl) (fun _ => hc) hp (descCopyN_beats _ _ _ _ _) hn hbeat
    (fun k _ h => by simp [descCopyN_destDreq] at h)
    fun k hk => State.isSample_memory (by rw [descCopyN_srcAt]; exact (hmem k hk).1)
  refine ⟨Memory.writeAll s.mem (copyPairs dst x w.toNat), hrun,
    fun k hk => word_writeAll_copyPairs hd (by omega) hk, fun a ha => Memory.writeAll_byte fun p hpair => ?_⟩
  obtain ⟨k, hk, rfl⟩ := mem_copyPairs.1 hpair
  exact ha k hk

/-! ### XFER onto GPSET0 (40 R155; 30 R112, R113; 20 R81) -/

/-- The state after the words x 0 to x (k - 1) were written to GPSET0 by channel ch. -/
def State.latched (s : State) (ch : ChanId) (x : Nat → Word) (k : Nat) : State :=
  { s with
    gpioOut := (List.range k).foldl (fun g j => g ||| x j) s.gpioOut,
    trace := s.trace ++ (List.range k).map (fun j => Event.gpioSet (.chan ch) (x j)) }

theorem State.latched_zero (s : State) (ch : ChanId) (x : Nat → Word) : s.latched ch x 0 = s := by
  simp [State.latched]

theorem State.latched_succ (s : State) (ch : ChanId) (x : Nat → Word) (k : Nat) :
    s.latched ch x (k + 1) = (s.latched ch x k).gpioSet (.chan ch) (x k) := by
  simp [State.latched, State.gpioSet, State.setGpio, State.log, List.range_succ]

section
variable {f : XferTI} (src dst : Word) (n : BitVec 28) (stride next : Word)

theorem descXfer_srcAt (h : f.srcInc = true) (k : Nat) :
    (descXfer f src dst n stride next).srcAt k = src + BitVec.ofNat 32 (4 * k) :=
  Desc.srcAt_moving k ((Desc.srcInc_of_ti rfl).trans h)

theorem descXfer_dstAt (h : f.destInc = false) (k : Nat) : (descXfer f src dst n stride next).dstAt k = dst :=
  Desc.dstAt_fixed k ((Desc.destInc_of_ti rfl).trans h)

theorem descXfer_destDreq (h : f.destDreq = false) : (descXfer f src dst n stride next).destDreq = false :=
  (Desc.destDreq_of_ti rfl).trans h

theorem descXfer_beats : (descXfer f src dst n stride next).beats = n.toNat := Desc.beats_of_lenWord rfl

end

/-- A run of an XFER with only the source moving, onto GPSET0: before beat k the latch holds the words of the beats
before it. -/
theorem xfer_latch_run {f : XferTI} (hfs : f.srcInc = true) (hfd : f.destInc = false) (hfq : f.destDreq = false)
    {s : State} (M : s.cfg.Meets) (hf : s.atFetch) {src : Word} {n : BitVec 28} (hn0 : n ≠ 0#28)
    (hal : src.toNat % 4 = 0) {x : Nat → Word}
    (hmem : ∀ k, k < n.toNat → s.cfg.inMem (src + BitVec.ofNat 32 (4 * k)) = true ∧
      s.mem.word (src + BitVec.ofNat 32 (4 * k)) = some (x k)) (stride next : Word) :
    execTimes (.xfer f src s.cfg.gpset0 n stride next) (2 * n.toNat + 2) s =
      .next ((s.latched s.cur x n.toNat).setChan s.cur ((s.chan s.cur).completed next)) := by
  obtain ⟨hc, e, hp⟩ := hf
  have hset := M.wordAligned_peripheral (a := s.cfg.gpset0) (by simp [Config.peripherals])
  have hn : n.toNat ≠ 0 := fun h0 => hn0 (BitVec.eq_of_toNat_eq h0)
  have hsrc := descXfer_srcAt src s.cfg.gpset0 n stride next hfs
  have hdst := descXfer_dstAt src s.cfg.gpset0 n stride next hfd
  have hquiet := descXfer_destDreq src s.cfg.gpset0 n stride next hfq
  have hbeat : ∀ k, k < n.toNat → ∃ v,
      (s.latched s.cur x k).busRead ((descXfer f src s.cfg.gpset0 n stride next).srcAt k) =
        .ok (v, s.latched s.cur x k) ∧
      (s.latched s.cur x k).busWrite s.cur ((descXfer f src s.cfg.gpset0 n stride next).dstAt k) v =
        .ok (s.latched s.cur x (k + 1)) := by
    intro k hk
    obtain ⟨hm, hv⟩ := hmem k hk
    rw [hsrc, hdst, State.latched_succ]
    exact ⟨x k, State.busRead_memory (wordAligned_add hal k) hm hv, State.busWrite_gpset hset M.region_gpset⟩
  have hrun := desc_run (i := .xfer f src s.cfg.gpset0 n stride next) (S := s.latched s.cur x) (fun _ => rfl)
    (fun _ => rfl) (fun _ => hc) hp (descXfer_beats _ _ _ _ _) hn hbeat (fun k _ h => by simp [hquiet] at h)
    fun k hk => State.isSample_memory (by rw [hsrc]; exact (hmem k hk).1)
  rwa [State.latched_zero] at hrun

/-- Settles O25: the timing fields are not read. -/
theorem xferOrsEachWordIntoTheLatch : Obligations.XferOrsEachWordIntoTheLatch := by
  intro burst permap waits noWide src n stride next s x hcfg hf hn hal hmem
  exact xfer_latch_run rfl rfl rfl (Config.meets hcfg) hf hn hal hmem stride next

end Sys2Proof.Machine

namespace Sys2Proof.Machine

/-! ### The first-use transition (41 R196; 10 R42) -/

section
variable {s t : State}

/-- Only the recorded transitions, the host's flag and PacerS's configured bit matter. -/
theorem State.waveClockConsistent.of_eq (h : s.waveClockConsistent)
    (htrace : t.trace.count .waveClock = s.trace.count .waveClock)
    (hready : t.host.waveClockReady = s.host.waveClockReady) (hconf : t.pacerS.configured = s.pacerS.configured) :
    t.waveClockConsistent := by
  unfold State.waveClockConsistent
  rw [htrace, hready, hconf]
  exact h

theorem State.waveClockConsistent.setChan (h : s.waveClockConsistent) (ch : ChanId) (c : Channel) :
    (s.setChan ch c).waveClockConsistent := h.of_eq (by simp) (by simp) (by simp)

theorem State.waveClockConsistent.log (h : s.waveClockConsistent) {e : Event} (he : e ≠ .waveClock) :
    (s.log e).waveClockConsistent := h.of_eq (by simp [he]) rfl rfl

/-- A pacer other than PacerS may be given any registers, PacerS any that leave it as configured as it was. -/
theorem State.waveClockConsistent.setPacer (h : s.waveClockConsistent) {pc : ChanId} {p : Pacer}
    (hp : pc = .S → p.configured = s.pacerS.configured) : (s.setPacer pc p).waveClockConsistent := by
  refine h.of_eq (by simp) (by simp) ?_
  rw [State.setPacer_pacerS]
  split_ifs with hpc
  · exact hp hpc
  · rfl

/-- Ticks and FIFO writes change a pacer's counts alone. -/
theorem State.waveClockConsistent.setCounts (h : s.waveClockConsistent) (pc : ChanId) (fill ticks : Nat) :
    (s.setPacer pc { s.pacer pc with fill := fill, ticks := ticks }).waveClockConsistent :=
  h.setPacer fun hpc => by rw [hpc, State.pacer_S]

theorem State.waveClockConsistent.busWrite (h : s.waveClockConsistent) {ch : ChanId} {a v : Word}
    (hw : s.busWrite ch a v = .ok t) : t.waveClockConsistent := by
  obtain ⟨-, ⟨-, rfl⟩ | ⟨-, rfl⟩ | ⟨-, rfl⟩ | ⟨pc, -, -, rfl⟩⟩ := State.busWrite_ok hw
  · exact h
  · exact State.waveClockConsistent.log (s := s.setGpio _) h nofun
  · exact State.waveClockConsistent.log (s := s.setGpio _) h nofun
  · exact h.setCounts pc _ _

/-- The transition, made where it has not been made, is recorded once and configures PacerS. -/
theorem State.waveClockConsistent.takeWaveClock (h : s.waveClockConsistent) (hr : s.host.waveClockReady = false) :
    s.takeWaveClock.waveClockConsistent := by
  obtain ⟨hcount, -⟩ := h
  rw [hr] at hcount
  refine ⟨?_, rfl⟩
  show (s.trace ++ [Event.waveClock]).count .waveClock = 1
  simpa using hcount

end

/-- PacerS is configured, and the transition recorded, in the transition alone. -/
theorem waveClockConsistent_kept : KeptByOps State.waveClockConsistent where
  sched _ h := h
  drawn h := h
  cur _ h := h
  todo _ h := h
  ret _ h := h
  build _ h := h
  register _ _ _ h := h
  delete _ _ _ h := h
  carrier _ h := h
  refuse h := h
  tick pc ht h := by
    rw [State.pacerTick_of_enabled ht]
    exact (h.setCounts pc _ _).log nofun
  raise ch r _ h := h.of_eq (by simp) (by simp) (by simp)
  early ch _ _ _ _ _ h := h.setChan ch _
  load ch _ _ _ _ _ _ _ h := by
    unfold State.loadDesc
    split_ifs <;> exact h.setChan ch _
  read ch _ _ _ _ _ _ _ hr h := by
    obtain ⟨-, -, -, hpacer, -, -, htrace, hhost, -⟩ := State.busRead_keeps hr
    have hconf := congrArg Pacer.configured (hpacer .S)
    exact (h.of_eq (by rw [htrace]) (by rw [hhost]) hconf).setChan ch _
  write ch _ _ _ v _ _ _ hw h := by
    have ht := h.busWrite hw
    split_ifs
    · exact (ht.log (e := .sample ch _ v) nofun).setChan ch _
    · exact ht.setChan ch _
  complete ch _ _ _ _ h := by
    unfold State.complete
    split_ifs <;> exact h.setChan ch _
  reset ch h := (h.setChan ch _).log nofun
  stopped _ h := h.log nofun
  arm ch a h := by
    unfold State.armChan
    split_ifs
    · exact (h.setChan ch _).log nofun
    · exact (h.setChan ch _).log nofun
    · exact h
  pause ch h := h.setChan ch _
  resume ch _ h := h.setChan ch _
  store _ _ _ _ h := h
  gpioSet _ h := State.waveClockConsistent.log (s := State.setGpio _ _) h nofun
  gpioClr _ h := State.waveClockConsistent.log (s := State.setGpio _ _) h nofun
  configureP _ h := h.setPacer nofun
  waveClock hr h := h.takeWaveClock hr

/-- Settles O32: every operation a step is made of keeps the transition recorded exactly when it has been made. -/
theorem waveClockHappensAtMostOnce : Obligations.WaveClockHappensAtMostOnce :=
  fun _ _ => waveClockConsistent_kept.step

end Sys2Proof.Machine

namespace Sys2Proof.Machine

/-! ### The host's operations on channels and memory (41 R190 to R199)

What each does, once: an equation per case of its definition. -/

/-- Recording an event and writing a channel commute. -/
theorem State.log_setChan (s : State) (e : Event) (ch : ChanId) (c : Channel) :
    (s.log e).setChan ch c = (s.setChan ch c).log e := by cases ch <;> rfl

section
variable {s : State} {ch : ChanId}

theorem State.armChan_of_idle (h : s.chanIdle ch = true) (a : Word) :
    s.armChan ch a = (s.log (.arm ch a)).setChan ch (if a = 0#32 then { s.chan ch with conblkAd := 0#32 }
      else { s.chan ch with conblkAd := a, active := true, phase := .fetch [] }) := by
  rw [State.armChan, if_pos h, State.log_setChan]
  split_ifs with ha
  · rw [ha]
  · rfl

theorem State.armChan_of_busy (h : ¬ s.chanIdle ch = true) (a : Word) : s.armChan ch a = s.refuse := if_neg h

theorem State.resetChan_eq (s : State) (ch : ChanId) : s.resetChan ch = (s.log (.reset ch)).setChan ch
    { s.chan ch with active := false, conblkAd := 0#32, phase := .idle } := (s.log_setChan _ _ _).symm

theorem State.csWrite_reset {v : Word} (hv : v.extractLsb' 1 30 = 0#30) (h : v.getLsbD 31 = true) :
    s.csWrite ch v = s.resetChan ch := by
  rw [State.csWrite, if_neg (not_not_intro hv), if_pos h]

/-- An idle channel keeps ACTIVE = 0 (log 18). -/
theorem State.csWrite_active {v : Word} (hv : v.extractLsb' 1 30 = 0#30) (h : v.getLsbD 31 = false) :
    s.csWrite ch v = s.setChan ch { s.chan ch with
      active := v.getLsbD 0 && decide ((s.chan ch).phase ≠ .idle) } := by
  rw [State.csWrite, if_neg (not_not_intro hv), if_neg (by rw [h]; decide)]
  split_ifs with hp <;> simp [hp]

/-- The host's turn with a CS write waiting. -/
theorem host_csWrite {v : Word} {ts : List HostTask} (h : s.host.todo = .csWrite ch v :: ts) :
    s.agentStep .host = .next ((s.setTodo ts).csWrite ch v) := by
  simp [State.agentStep, State.hostStep, h, State.runTask]

theorem csValue_getLsbD_zero (b : Bool) (x : Word) : (csValue b x).getLsbD 0 = b := by
  rw [csValue, BitVec.getLsbD_append, if_pos (by decide), BitVec.getLsbD_ofBool, decide_eq_true rfl, Bool.true_and]

theorem csValue_getLsbD_31 (b : Bool) (x : Word) : (csValue b x).getLsbD 31 = false := by
  rw [csValue, BitVec.getLsbD_append, if_neg (by decide), BitVec.getLsbD_append, if_neg (by decide),
    BitVec.getLsbD_zero]

variable {a v : Word}

theorem State.hostReaches_iff : s.hostReaches a = true ↔ a.toNat % 4 = 0 ∧ s.cfg.inMem a = true := by
  rw [State.hostReaches, Bool.and_eq_true, wordAligned_iff]

theorem State.hostStore_of_reaches (h : s.hostReaches a = true) (v : Word) :
    s.hostStore a v = s.setMem (s.mem.writeWord a v) := if_pos h

theorem State.hostLoad_written (h : s.hostReaches a = true) (hv : s.mem.word a = some v) :
    s.hostLoad a = s.setRet (.word v) := by
  rw [State.hostLoad, if_pos h, hv]

theorem State.hostLoad_unwritten (h : s.hostReaches a = true) (hv : s.mem.word a = none) :
    s.hostLoad a = (s.setRet (.word (Config.freeUnwritten s.draws))).drawn := by
  rw [State.hostLoad, if_pos h, hv]

end

/-! ### Host steps one by one (41 R190 to R199) -/

/-- Settles O37, by whether the channel is idle. -/
theorem armStartsAnIdleChannel : Obligations.ArmStartsAnIdleChannel := by
  refine fun s ch a => ⟨fun hact hp => ?idle, fun hbusy => ?busy⟩
  case idle => exact congrArg Host.Outcome.next (State.armChan_of_idle ((s.chanIdle_iff ch).2 ⟨hact, hp⟩) a)
  case busy =>
    refine congrArg Host.Outcome.next (State.armChan_of_busy (fun hidle => ?_) a)
    obtain ⟨hact, hp⟩ := (s.chanIdle_iff ch).1 hidle
    rcases hbusy with h | h
    · rw [hact] at h; cases h
    · exact h hp

/-- Settles O38: a CS write is that RESET or writes ACTIVE, by its bit 31. -/
theorem resetStopsOneChannel : Obligations.ResetStopsOneChannel := by
  refine fun s ch => ⟨congrArg Host.Outcome.next (s.resetChan_eq ch), fun v ts htodo hv => ?_⟩
  rw [host_csWrite htodo]
  refine ⟨fun h => congrArg Host.Outcome.next (State.csWrite_reset hv h), fun h => ?_⟩
  have hw := State.csWrite_active (s := s.setTodo ts) (ch := ch) hv h
  rw [State.setTodo_chan] at hw
  exact congrArg Host.Outcome.next hw

/-- Settles O39, by bits 0 and 31 of the word CSREAD makes. -/
theorem busyAndCsreadOnlyRead : Obligations.BusyAndCsreadOnlyRead := fun _ _ =>
  ⟨rfl, _, rfl, csValue_getLsbD_zero _ _, csValue_getLsbD_31 _ _⟩

/-- Settles O40: a reachable word is stored, and reads as what stands there. -/
theorem storeAndLoadOneWord : Obligations.StoreAndLoadOneWord := by
  intro s a v hal hm
  have hr : s.hostReaches a = true := State.hostReaches_iff.2 ⟨hal, hm⟩
  refine ⟨⟨s.mem.writeWord a v, wordStored_writeWord _ _ _,
    congrArg Host.Outcome.next (State.hostStore_of_reaches hr v), ?reload⟩,
    fun hv => congrArg Host.Outcome.next (State.hostLoad_written hr hv),
    fun hv => ⟨_, congrArg Host.Outcome.next (State.hostLoad_unwritten hr hv)⟩⟩
  case reload =>
    exact congrArg Host.Outcome.next
      (State.hostLoad_written (s := s.setMem _) hr (Memory.word_writeWord_self s.mem a v))

/-- Settles O41, by the period and by whether the transition has been made. -/
theorem pacersAreConfigured : Obligations.PacersAreConfigured := by
  refine fun s => ⟨fun n hn => ?period, fun hfirst => ?first, fun hlater => ?later⟩
  case period => exact if_neg (by omega)
  case first => exact if_neg (by simp [hfirst])
  case later => exact if_pos hlater

/-- Settles O42: each is the latch's own operation. -/
theorem hostGpioWrites : Obligations.HostGpioWrites := fun _ _ => ⟨rfl, rfl⟩

/-- Settles O43: RESET's event stands before STOP's. -/
theorem stopResetsTheChannel : Obligations.StopResetsTheChannel := by
  intro s ch
  rw [List.append_cons]
  cases ch <;> rfl

/-! ### What the host steps leave unchanged (41 R190 to R199) -/

/-- What host step i leaves unchanged from s to t. -/
structure HostFrame (i : Instr) (s t : State) : Prop where
  mem : ∀ x, (∀ a v, i = .store a v → x < a.toNat ∨ a.toNat + 4 ≤ x) → t.mem.byte x = s.mem.byte x
  chan : ∀ ch, (∀ a, i ≠ .arm ch a) → i ≠ .reset ch → i ≠ .stop ch → t.chan ch = s.chan ch
  fault : ∀ ch, (t.chan ch).fault = (s.chan ch).fault
  pacerP : (∀ n, i ≠ .pacerCfg n) → t.pacerP = s.pacerP
  pacerS : i ≠ .waveclk → t.pacerS = s.pacerS
  ticks : ∀ pc, (t.pacer pc).ticks = (s.pacer pc).ticks
  latch : (∀ v, i ≠ .gpioSet v ∧ i ≠ .gpioClr v) → t.gpioOut = s.gpioOut
  waveClock : i ≠ .waveclk → t.host.waveClockReady = s.host.waveClockReady
  carrier : i ≠ .stop .P → t.host.carrierRunning = s.host.carrierRunning
  refused : (∀ ch a, i ≠ .arm ch a) → (∀ a v, i ≠ .store a v ∧ i ≠ .load a) → t.refused = s.refused
  rest : t.timer = s.timer ∧ t.cfg = s.cfg ∧ t.sched = s.sched ∧ t.cur = s.cur ∧ t.host.waves = s.host.waves ∧
    t.host.todo = s.host.todo ∧ t.host.build = s.host.build

namespace HostFrame
variable {i : Instr} {s t : State} {ch : ChanId}

theorem refl (i : Instr) (s : State) : HostFrame i s s where
  mem _ _ := rfl
  chan _ _ _ _ := rfl
  fault _ := rfl
  pacerP _ := rfl
  pacerS _ := rfl
  ticks _ := rfl
  latch _ := rfl
  waveClock _ := rfl
  carrier _ := rfl
  refused _ _ := rfl
  rest := ⟨rfl, rfl, rfl, rfl, rfl, rfl, rfl⟩

theorem setRet (h : HostFrame i s t) (r : Ret) : HostFrame i s (t.setRet r) := { h with }

theorem drawn (h : HostFrame i s t) : HostFrame i s t.drawn := { h with }

theorem log (h : HostFrame i s t) (e : Event) : HostFrame i s (t.log e) := { h with }

/-- ARM, STORE and LOAD may be refused. -/
theorem refuse (h : HostFrame i s t)
    (hi : (∀ ch a, i ≠ .arm ch a) → (∀ a v, i ≠ .store a v ∧ i ≠ .load a) → False) : HostFrame i s t.refuse :=
  { h with refused := fun harm hmem => (hi harm hmem).elim }

/-- ARM, RESET and STOP write the registers of their channel but its fault. -/
theorem setChan {c : Channel} (hi : (∀ a, i ≠ .arm ch a) → i ≠ .reset ch → i ≠ .stop ch → False)
    (hf : c.fault = (s.chan ch).fault := by rfl) : HostFrame i s (s.setChan ch c) where
  mem := by simp
  chan x harm hreset hstop := State.setChan_chan_of_ne _ _ _ _ fun hx => hi (hx ▸ harm) (hx ▸ hreset) (hx ▸ hstop)
  fault x := by
    rw [State.setChan_chan]
    split_ifs with hx
    · rw [hx, hf]
    · rfl
  pacerP := by simp
  pacerS := by simp
  ticks := by simp
  latch := by simp
  waveClock := by simp
  carrier := by simp
  refused := by simp
  rest := by simp

theorem resetChan (hi : i ≠ .reset ch → i ≠ .stop ch → False) : HostFrame i s (s.resetChan ch) :=
  log (setChan fun _ => hi) _

theorem armChan (s : State) (ch : ChanId) (a : Word) : HostFrame (.arm ch a) s (s.armChan ch a) := by
  have hi : ∀ {p : Prop}, (∀ b, Instr.arm ch a ≠ .arm ch b) → p := fun h => absurd rfl (h a)
  unfold State.armChan
  split_ifs
  · exact log (setChan hi) _
  · exact log (setChan hi) _
  · exact (refl _ s).refuse fun h => hi (h ch)

theorem hostStore (s : State) (a v : Word) : HostFrame (.store a v) s (s.hostStore a v) := by
  unfold State.hostStore
  split_ifs
  · exact { refl _ s with mem := fun x hx => Memory.byte_writeWord_of_outside _ _ _ (hx a v rfl) }
  · exact (refl _ s).refuse fun _ h => (h a v).1 rfl

theorem hostLoad (s : State) (a : Word) : HostFrame (.load a) s (s.hostLoad a) := by
  unfold State.hostLoad
  split_ifs
  · split
    · exact (refl _ s).setRet _
    · exact ((refl _ s).setRet _).drawn
  · exact ((refl _ s).setRet _).refuse fun _ h => (h a 0#32).2 rfl

/-- A pacer is configured by PACER_CFG or by the first-use transition, and keeps its count of ticks. -/
theorem configurePacer {pc : ChanId} (n : Nat) (hP : pc = .P → ∃ n, i = .pacerCfg n) (hS : pc = .S → i = .waveclk) :
    HostFrame i s (s.configurePacer pc n) := by
  cases pc with
  | P =>
    obtain ⟨m, hm⟩ := hP rfl
    exact { refl i s with pacerP := fun h => absurd hm (h m), ticks := by rintro (_ | _) <;> rfl }
  | S => exact { refl i s with pacerS := fun h => absurd (hS rfl) h, ticks := by rintro (_ | _) <;> rfl }

theorem takeWaveClock (s : State) : HostFrame .waveclk s s.takeWaveClock :=
  have h : HostFrame .waveclk s ((s.configurePacer .S 1).log .waveClock) :=
    log (configurePacer (pc := .S) 1 nofun fun _ => rfl) _
  { h with waveClock := fun h => absurd rfl h }

/-- Every host step keeps to the frame. -/
theorem exec (hk : i.kind = .host) (ht : exec i s = .next t) : HostFrame i s t := by
  cases i <;> simp only [Instr.kind, reduceCtorEq] at hk <;> simp only [Machine.exec] at ht
  case arm ch a => cases ht; exact armChan s ch a
  case reset ch => cases ht; exact resetChan fun h _ => h rfl
  case busy ch => cases ht; exact (refl _ s).setRet _
  case store a v => cases ht; exact hostStore s a v
  case load a => cases ht; exact hostLoad s a
  case pacerCfg n =>
    unfold execPacerCfg at ht
    split_ifs at ht <;> cases ht
    · exact (refl _ s).setRet _
    · exact configurePacer n (fun _ => ⟨n, rfl⟩) nofun
  case waveclk =>
    unfold execWaveclk at ht
    split_ifs at ht <;> cases ht
    · exact refl _ s
    · exact takeWaveClock s
  case gpioSet v => cases ht; exact { (refl _ s).log (.gpioSet .host v) with latch := fun h => absurd rfl (h v).1 }
  case gpioClr v => cases ht; exact { (refl _ s).log (.gpioClr .host v) with latch := fun h => absurd rfl (h v).2 }
  case stop ch =>
    have hstop : HostFrame (.stop ch) s ((s.resetChan ch).log (.stop ch)) := (resetChan fun _ h => h rfl).log _
    cases ch <;> cases ht
    · exact { hstop with carrier := fun h => absurd rfl h }
    · exact hstop
  case csread ch => cases ht; exact ((refl _ s).setRet _).drawn

end HostFrame

/-- Settles O44: every host step keeps to the frame. -/
theorem hostStepFrame : Obligations.HostStepFrame := by
  intro i s t hk ht
  obtain ⟨hmem, hchan, hfault, hpacerP, hpacerS, hticks, hlatch, hclock, hcarrier, hrefused, hrest⟩ :=
    HostFrame.exec hk ht
  exact ⟨hmem, hchan, hfault, hpacerP, hpacerS, hticks, hlatch, hclock, hcarrier, hrefused, hrest⟩

end Sys2Proof.Machine

namespace Sys2Proof.Machine

/-! ### The host's turn with a task that is no instruction (log 9) -/

/-- One turn, and the turns after it. -/
theorem agentTimes_succ {g : Agent} {s t : State} (h : s.agentStep g = .next t) (k : Nat) :
    agentTimes g (k + 1) s = agentTimes g k t := by rw [agentTimes, h]

section
variable {s : State} {ts : List HostTask}

theorem host_task {x : HostTask} (h : s.host.todo = x :: ts) (hi : ∀ i, x ≠ .instr i) (hw : ∀ w, x ≠ .word w) :
    s.agentStep .host = .next ((s.setTodo ts).runTask x) := by
  rw [State.agentStep, State.hostStep, h]
  cases x with
  | instr i => exact absurd rfl (hi i)
  | word w => exact absurd rfl (hw w)
  | _ => rfl

/-! ### The live table update (42 R218) -/

theorem State.rmwStore_of_word {w : Word} (h : s.host.ret = .word w) (a mask : Word) (setBits : Bool) :
    s.rmwStore a mask setBits = s.hostStore a (if setBits then w ||| mask else w &&& ~~~mask) := by
  rw [State.rmwStore, h]

end

/-- Settles O60: the turn that takes the task up, the LOAD, and the STORE of the word loaded. -/
theorem tableUpdateRewritesOneWord : Obligations.TableUpdateRewritesOneWord := by
  intro s a mask v setBits ts hal hm hv htodo
  let new := if setBits then v ||| mask else v &&& ~~~mask
  have hr : s.hostReaches a = true := State.hostReaches_iff.2 ⟨hal, hm⟩
  let t := s.setTodo (.instr (.load a) :: .rmwStore a mask setBits :: ts)
  let u := (s.setTodo (.rmwStore a mask setBits :: ts)).setRet (.word v)
  have htake : s.agentStep .host = .next t := host_task htodo nofun nofun
  have hload : t.agentStep .host = .next u := by
    rw [host_instr rfl (by simp [Instr.kind])]
    exact congrArg Host.Outcome.next (State.hostLoad_written (s := s.setTodo _) hr hv)
  have hstore : u.agentStep .host = .next ((u.setTodo ts).setMem (s.mem.writeWord a new)) := by
    rw [host_task (x := .rmwStore a mask setBits) rfl nofun nofun, State.runTask, State.rmwStore_of_word rfl]
    exact congrArg Host.Outcome.next (State.hostStore_of_reaches (s := u.setTodo ts) hr new)
  exact ⟨_, wordStored_writeWord s.mem a new,
    by rw [agentTimes_succ htake, agentTimes_succ hload, agentTimes_succ hstore]; rfl⟩

/-! ### Rejections (42 R212; 43 R241, R249; 44 R272) -/

section
variable {s : State} {e : HostReject}

theorem State.carrierStart_rejected {n C : Nat} (h : carrierReject s.cfg s.host.carrierRunning n C = some e) :
    s.carrierStart n C = s.reject e := by rw [State.carrierStart, h]

theorem State.compileWave_rejected {pulses : List PulseSpec} (h : compileReject s.cfg pulses = some e)
    (mode : WaveMode) (alloc : Alloc) : s.compileWave pulses mode alloc = s.reject e := by
  simp only [State.compileWave, h]

theorem State.compileWave_unallocated {pulses : List PulseSpec} (h : compileReject s.cfg pulses = none)
    (mode : WaveMode) (x : AllocError) : s.compileWave pulses mode (.fail x) = s.reject x.code := by
  simp only [State.compileWave, h]

theorem State.play_rejected {id : Nat} (h : liveWave s.cfg s.host.waves id = none) (mode : WaveMode) :
    s.play id mode = s.reject .badWaveId := by rw [State.play, h]

theorem State.submit_rejected {prog : List ChainItem} (h : validate s.cfg s.host.waves prog = .error e) :
    s.submit prog = s.reject e := by rw [State.submit, h]

end

section
variable {c : Config} {waves : List (Nat × WaveRange)} {b : Build}

theorem liveWave_eq_none {id : Nat} (h : c.maxWaves ≤ id ∨ Table.get waves id = none ∨
    ∃ r, Table.get waves id = some r ∧ r.deleted = true) : liveWave c waves id = none := by
  by_cases hid : id < c.maxWaves
  · rw [liveWave, if_pos hid]
    rcases h with h | h | ⟨r, h, hd⟩
    · omega
    · rw [h]
    · simp only [h, hd, if_true]
  · exact if_neg hid

/-- The first item that is rejected decides (44 R272). -/
theorem validate_item_rejected {pre : List ChainItem} {x : ChainItem} {e : HostReject}
    (hpre : advanceItems c waves Build.init pre = .ok b) (hx : advanceItem c waves b x = .error e)
    (post : List ChainItem) : validate c waves (pre ++ x :: post) = .error e := by
  rw [validate, advanceItems_append hpre, advanceItems, hx]

theorem validate_loop_left_open {prog : List ChainItem} (h : advanceItems c waves Build.init prog = .ok b)
    (hopen : b.openHeads ≠ []) (hrep : b.seenRepeat = false) : validate c waves prog = .error .badLoop := by
  rw [validate, h]
  exact if_pos ⟨hopen, hrep⟩

/-- compile rejects a delay that PACE_S cannot count (43 R241). -/
theorem long_delay_iff (pulses : List PulseSpec) :
    (pulses.any fun p => decide (2 ^ 28 - 1 < p.delay.toNat)) = true ↔ ∃ p ∈ pulses, 2 ^ 28 ≤ p.delay.toNat := by
  simp only [List.any_eq_true, decide_eq_true_eq]
  exact exists_congr fun p => and_congr_right fun _ => by omega

end

/-- Settles O54, procedure by procedure, each by the code its first failing check has. -/
theorem rejectedProceduresChangeNothing : Obligations.RejectedProceduresChangeNothing := by
  intro s ts rejected
  have hsubmit : ∀ {prog e}, s.host.todo = .submit prog :: ts →
      validate s.cfg s.host.waves prog = .error e → s.agentStep .host = rejected e := fun h hv =>
    (host_task h nofun nofun).trans (congrArg Host.Outcome.next (State.submit_rejected (s := s.setTodo ts) hv))
  refine ⟨fun n C h => ?start, fun pulses mode alloc h => ?compile, fun id mode h hid => ?play,
    fun prog e h hv => ?invalid, fun pre x post b e h hpre hx => ?item, fun prog b h hb hopen hrep => ?loop⟩
  case start =>
    have hrej : ∀ e, carrierReject s.cfg s.host.carrierRunning n C = some e → s.agentStep .host = rejected e :=
      fun e he => (host_task h nofun nofun).trans
        (congrArg Host.Outcome.next (State.carrierStart_rejected (s := s.setTodo ts) he))
    split_ifs with hrun hargs hbig
    · exact hrej _ (if_pos hrun)
    · exact hrej _ (by rw [carrierReject, if_neg hrun, if_pos hargs])
    · exact hrej _ (by rw [carrierReject, if_neg hrun, if_neg hargs, Config.carrierN, if_pos hbig])
  case compile =>
    have hstep : s.agentStep .host = .next ((s.setTodo ts).compileWave pulses mode alloc) := host_task h nofun nofun
    have hrej : ∀ e, compileReject s.cfg pulses = some e → s.agentStep .host = rejected e := fun e he =>
      hstep.trans (congrArg Host.Outcome.next (State.compileWave_rejected (s := s.setTodo ts) he mode alloc))
    split_ifs with hempty hmany hlong
    · exact hrej _ (if_pos hempty)
    · exact hrej _ (by rw [compileReject, if_neg hempty, if_pos hmany])
    · exact hrej _ (by rw [compileReject, if_neg hempty, if_neg hmany, if_pos ((long_delay_iff pulses).2 hlong)])
    · have hnone : compileReject s.cfg pulses = none := by
        rw [compileReject, if_neg hempty, if_neg hmany, if_neg (mt (long_delay_iff pulses).1 hlong)]
      have hfail : ∀ x, alloc = .fail x → s.agentStep .host = rejected x.code := by
        rintro x rfl
        exact hstep.trans (congrArg Host.Outcome.next (State.compileWave_unallocated (s := s.setTodo ts) hnone mode x))
      exact ⟨hfail _, hfail _, hfail _⟩
  case play =>
    exact (host_task h nofun nofun).trans
      (congrArg Host.Outcome.next (State.play_rejected (s := s.setTodo ts) (liveWave_eq_none hid) mode))
  case invalid => exact hsubmit h hv
  case item => exact hsubmit h (validate_item_rejected hpre hx post)
  case loop => exact hsubmit h (validate_loop_left_open hb hopen hrep)

end Sys2Proof.Machine

namespace Sys2Proof.Machine

/-! ### The carrier's words and descriptors (42 R210, R211) -/

/-- Item j of row `rep` stands inside a table of C rows of w items. -/
theorem row_item_lt {rep C j w : Nat} (hrep : rep < C) (hj : j < w) : rep * w + j < C * w :=
  calc rep * w + j < (rep + 1) * w := by rw [Nat.succ_mul]; omega
    _ ≤ C * w := Nat.mul_le_mul_right w hrep

section
variable (c : Config) {C rep j : Nat}

theorem carrierDesc_set (rep : Nat) : c.carrierDesc C (rep * (1 + 2 * c.carrierSlots)) =
    descSet c (c.carrierOn rep) 0#32 (c.carrierNext C (rep * (1 + 2 * c.carrierSlots))) := by
  rw [Config.carrierDesc, Nat.mul_mod_left, Nat.mul_div_cancel _ (by omega)]
  rfl

/-- A repetition's descriptors after its SET, by their offset in it. -/
theorem carrierDesc_offset {o : Nat} (ho : o < 1 + 2 * c.carrierSlots) (hpos : o ≠ 0) :
    c.carrierDesc C (rep * (1 + 2 * c.carrierSlots) + o) =
      if o % 2 = 1 then descPaceP c 1#28 0#32 (c.carrierNext C (rep * (1 + 2 * c.carrierSlots) + o))
      else descClr c (c.carrierOff C rep (o / 2 - 1)) 0#32
        (c.carrierNext C (rep * (1 + 2 * c.carrierSlots) + o)) := by
  rw [Config.carrierDesc, Nat.mul_add_mod_self_right, Nat.mod_eq_of_lt ho, Nat.mul_comm rep,
    Nat.mul_add_div (by omega), Nat.div_eq_of_lt ho, Nat.add_zero]
  exact if_neg hpos

theorem carrierDesc_pace (hj : j < c.carrierSlots) : c.carrierDesc C (rep * (1 + 2 * c.carrierSlots) + 1 + 2 * j) =
    descPaceP c 1#28 0#32 (c.carrierNext C (rep * (1 + 2 * c.carrierSlots) + 1 + 2 * j)) := by
  rw [Nat.add_assoc, carrierDesc_offset c (by omega) (by omega), if_pos (by omega)]

theorem carrierDesc_clr (hj : j < c.carrierSlots) : c.carrierDesc C (rep * (1 + 2 * c.carrierSlots) + 2 + 2 * j) =
    descClr c (c.carrierOff C rep j) 0#32 (c.carrierNext C (rep * (1 + 2 * c.carrierSlots) + 2 + 2 * j)) := by
  rw [Nat.add_assoc, carrierDesc_offset c (by omega) (by omega), if_neg (by omega),
    show (2 + 2 * j) / 2 - 1 = j by omega]

/-! ### The STOREs of carrier start (42 R212) -/

/-- The tables' words, by repetition and slot, each stored as 0. -/
def carrierTablePairs (c : Config) (C : Nat) : List (Word × Word) :=
  (List.range C).flatMap fun rep =>
    (c.carrierOn rep, 0#32) :: (List.range c.carrierSlots).map fun j => (c.carrierOff C rep j, 0#32)

/-- The words of the N descriptors. -/
def carrierCyclePairs (c : Config) (C : Nat) : List (Word × Word) :=
  (List.range (c.carrierN C)).flatMap fun q => descPairs (c.carrierCd q) (c.carrierDesc C q)

/-- Everything carrier start stores, the tables first. -/
def carrierPairs (c : Config) (C : Nat) : List (Word × Word) := carrierTablePairs c C ++ carrierCyclePairs c C

theorem carrierStores_eq (C : Nat) : carrierStores c C = storeTasks (carrierPairs c C) := by
  simp [carrierStores, carrierPairs, carrierTablePairs, carrierCyclePairs, storeDesc_eq, storeTasks, List.map_flatMap,
    Function.comp_def]

variable {c} {p : Word × Word}

theorem mem_carrierTablePairs : p ∈ carrierTablePairs c C ↔
    ∃ rep < C, p = (c.carrierOn rep, 0#32) ∨ ∃ j < c.carrierSlots, p = (c.carrierOff C rep j, 0#32) := by
  simp [carrierTablePairs, eq_comm]

theorem mem_carrierCyclePairs : p ∈ carrierCyclePairs c C ↔
    ∃ q < c.carrierN C, p ∈ descPairs (c.carrierCd q) (c.carrierDesc C q) := by
  simp [carrierCyclePairs]

/-- The tables fill the first C·(1 + K) OOL positions of the carrier region, ON before OFF (42 R210). -/
theorem carrierTablePairs_position (hp : p ∈ carrierTablePairs c C) :
    p.2 = 0#32 ∧ ∃ n < C * (1 + c.carrierSlots), p.1 = c.oolBus (c.carrierOol0 + n) := by
  obtain ⟨rep, hrep, rfl | ⟨j, hj, rfl⟩⟩ := mem_carrierTablePairs.1 hp
  · exact ⟨rfl, rep, lt_of_lt_of_le hrep (Nat.le_mul_of_pos_right C (by omega)), rfl⟩
  · have := row_item_lt hrep hj
    refine ⟨rfl, C + (rep * c.carrierSlots + j), by rw [Nat.mul_add, Nat.mul_one]; omega, ?_⟩
    exact congrArg c.oolBus (by omega)

end

/-! ### Memory after carrier start -/

section
variable {c : Config} {C : Nat} (M : c.Meets) (hcbs : c.carrierN C ≤ c.carrierCbs)
  (hool : C * (1 + c.carrierSlots) ≤ c.carrierOol)
include M

include hcbs in
theorem carrierCd_inArena {q : Nat} (hq : q < c.carrierN C) :
    c.carrierCb0 + q < c.pageBus.length * c.cbsPerPage := by
  have := M.carrierCb
  omega

include hool in
theorem carrierOol_inArena {n : Nat} (hn : n < C * (1 + c.carrierSlots)) :
    c.carrierOol0 + n < c.pageBus.length * c.oolPerPage := by
  have := M.carrierOolFits
  omega

include hcbs in
theorem carrierCd_aligned {q : Nat} (hq : q < c.carrierN C) : (c.carrierCd q).toNat % 32 = 0 :=
  (M.cbBus_fetchable (carrierCd_inArena M hcbs hq)).2

include hcbs hool in
/-- Every word stored is an aligned word of memory. -/
theorem carrierPairs_reach {p : Word × Word} (hp : p ∈ carrierPairs c C) :
    wordAligned p.1 = true ∧ c.inMem p.1 = true := by
  rcases List.mem_append.1 hp with hp | hp
  · obtain ⟨-, n, hn, he⟩ := carrierTablePairs_position hp
    obtain ⟨hmem, hal⟩ := M.oolBus_mem (carrierOol_inArena M hool hn)
    rw [he]
    exact ⟨(wordAligned_iff _).2 hal, hmem⟩
  · obtain ⟨q, hq, hp⟩ := mem_carrierCyclePairs.1 hp
    obtain ⟨hf, h32⟩ := M.cbBus_fetchable (carrierCd_inArena M hcbs hq)
    obtain ⟨hal, hlo, hhi⟩ := descPairs_addr h32 hp
    exact ⟨hal, (M.fetchable_words hf).2.2 p.1 hlo (by omega)⟩

include hcbs in
/-- No word of a descriptor is an OOL word of the arena. -/
theorem carrierCyclePairs_ne_oolBus {p : Word × Word} (hp : p ∈ carrierCyclePairs c C) {n : Nat}
    (hn : n < c.pageBus.length * c.oolPerPage) : p.1 ≠ c.oolBus n := by
  intro he
  obtain ⟨q, hq, hp⟩ := mem_carrierCyclePairs.1 hp
  obtain ⟨-, hlo, hhi⟩ := descPairs_addr (carrierCd_aligned M hcbs hq) hp
  have := M.cbBus_oolBus_apart (carrierCd_inArena M hcbs hq) hn
  rw [← he] at this
  rw [Config.carrierCd] at hlo hhi
  omega

include hcbs in
/-- The descriptors' words at one address have one value. -/
theorem carrierCyclePairs_unique {q : Nat} (hq : q < c.carrierN C) {p r : Word × Word}
    (hp : p ∈ descPairs (c.carrierCd q) (c.carrierDesc C q)) (hr : r ∈ carrierCyclePairs c C) (h : r.1 = p.1) :
    r.2 = p.2 := by
  obtain ⟨k, hk, hr⟩ := mem_carrierCyclePairs.1 hr
  obtain rfl | hne := eq_or_ne k q
  · exact descPairs_unique (carrierCd_aligned M hcbs hq) hr hp h
  · obtain ⟨-, hplo, hphi⟩ := descPairs_addr (carrierCd_aligned M hcbs hq) hp
    obtain ⟨-, hrlo, hrhi⟩ := descPairs_addr (carrierCd_aligned M hcbs hk) hr
    have := M.cbBus_apart (carrierCd_inArena M hcbs hk) (carrierCd_inArena M hcbs hq) (by omega)
    rw [h] at hrlo hrhi
    rw [Config.carrierCd] at hplo hphi hrlo hrhi
    omega

include hcbs hool

theorem carrier_table_zeroed (m : Memory) {p : Word × Word} (hp : p ∈ carrierTablePairs c C) :
    (Memory.writeAll m (carrierPairs c C)).word p.1 = some 0#32 := by
  have hal : ∀ r ∈ carrierPairs c C, wordAligned r.1 = true := fun r hr => (carrierPairs_reach M hcbs hool hr).1
  have halp : wordAligned p.1 = true := hal p (List.mem_append_left _ hp)
  obtain ⟨-, n, hn, he⟩ := carrierTablePairs_position hp
  rw [carrierPairs, Memory.writeAll_append,
    Memory.writeAll_word_of_not halp (fun r hr => hal r (List.mem_append_right _ hr))
      fun r hr => he ▸ carrierCyclePairs_ne_oolBus M hcbs hr (carrierOol_inArena M hool hn)]
  exact Memory.writeAll_word halp (fun r hr => hal r (List.mem_append_left _ hr)) (.inl ⟨p, hp, rfl⟩)
    fun r hr _ => (carrierTablePairs_position hr).1

theorem carrier_descAt (m : Memory) {q : Nat} (hq : q < c.carrierN C) :
    descAt (Memory.writeAll m (carrierPairs c C)) (c.carrierCd q) (c.carrierDesc C q) := by
  intro k hk
  have hv := List.getElem?_eq_getElem (Desc.words_length (c.carrierDesc C q) ▸ hk)
  have hp : (c.carrierCd q + BitVec.ofNat 32 (4 * k), _) ∈ descPairs (c.carrierCd q) (c.carrierDesc C q) :=
    mem_descPairs.2 ⟨k, hk, rfl, hv⟩
  have hpc := mem_carrierCyclePairs.2 ⟨q, hq, hp⟩
  have hal : ∀ r ∈ carrierPairs c C, wordAligned r.1 = true := fun r hr => (carrierPairs_reach M hcbs hool hr).1
  rw [hv, carrierPairs, Memory.writeAll_append]
  exact Memory.writeAll_word (hal _ (List.mem_append_right _ hpc)) (fun r hr => hal r (List.mem_append_right _ hr))
    (.inl ⟨_, hpc, rfl⟩) fun r hr h => carrierCyclePairs_unique M hcbs hq hp hr h

/-- ZW lies outside the carrier region (00 R9). -/
theorem carrier_zw_kept (m : Memory) : (Memory.writeAll m (carrierPairs c C)).word c.zw = m.word c.zw := by
  obtain ⟨z, hz, hzw, hout⟩ := M.zeroWord
  refine Memory.writeAll_word_of_not ((wordAligned_iff _).2 M.zw_mem.2)
    (fun r hr => (carrierPairs_reach M hcbs hool hr).1) fun r hr => ?_
  rw [hzw]
  rcases List.mem_append.1 hr with hr | hr
  · obtain ⟨-, n, hn, he⟩ := carrierTablePairs_position hr
    rw [he]
    intro h
    have := oolBus_inj M (carrierOol_inArena M hool hn) hz h
    omega
  · exact carrierCyclePairs_ne_oolBus M hcbs hr hz

omit hool in
theorem carrier_byte_kept (m : Memory) {x : Nat}
    (hcd : ∀ q < c.carrierN C, x < (c.carrierCd q).toNat ∨ (c.carrierCd q).toNat + 32 ≤ x)
    (htab : ∀ rep < C, (x < (c.carrierOn rep).toNat ∨ (c.carrierOn rep).toNat + 4 ≤ x) ∧
      ∀ j < c.carrierSlots, x < (c.carrierOff C rep j).toNat ∨ (c.carrierOff C rep j).toNat + 4 ≤ x) :
    (Memory.writeAll m (carrierPairs c C)).byte x = m.byte x := by
  refine Memory.writeAll_byte fun p hp => ?_
  rcases List.mem_append.1 hp with hp | hp
  · obtain ⟨rep, hrep, rfl | ⟨j, hj, rfl⟩⟩ := mem_carrierTablePairs.1 hp
    · exact (htab rep hrep).1
    · exact (htab rep hrep).2 j hj
  · obtain ⟨q, hq, hp⟩ := mem_carrierCyclePairs.1 hp
    obtain ⟨-, hlo, hhi⟩ := descPairs_addr (carrierCd_aligned M hcbs hq) hp
    have := hcd q hq
    omega

end

/-! ### The host's turns of carrier start (42 R212; 41 R190, R191, R195) -/

section
variable {s : State} {n : Nat} {ts : List HostTask}

/-- RESET and ARM of one channel, as the procedures make them: whatever it was doing, it starts at `a`. -/
theorem resetArm_run {ch : ChanId} {a : Word} (h : s.host.todo = .instr (.reset ch) :: .instr (.arm ch a) :: ts)
    (ha : a ≠ 0#32) : agentTimes .host 2 s = .next (State.setChan
      { s with trace := s.trace ++ [Event.reset ch, Event.arm ch a], host := { s.host with todo := ts } } ch
      { s.chan ch with active := true, conblkAd := a, phase := .fetch [] }) := by
  let t := (s.setTodo (.instr (.arm ch a) :: ts)).resetChan ch
  have hreset : s.agentStep .host = .next t := host_instr h (by simp [Instr.kind])
  have htodo : t.host.todo = .instr (.arm ch a) :: ts := by cases ch <;> rfl
  have harm : t.agentStep .host = .next ((t.setTodo ts).armChan ch a) := host_instr htodo (by simp [Instr.kind])
  have hidle : (t.setTodo ts).chanIdle ch = true := (State.chanIdle_iff _ ch).2 (by simp [t, State.resetChan_eq])
  rw [agentTimes_succ hreset, agentTimes_succ harm, State.armChan_of_idle hidle, if_neg ha, List.append_cons]
  cases ch <;> rfl

/-- Carrier start's last turns: PacerP is configured, ChanP is reset and armed, and the carrier runs. -/
theorem carrierEnd_run {a : Word} (hn : n ≠ 0) (ha : a ≠ 0#32) (h : s.host.todo = .instr (.pacerCfg n) ::
      .instr (.reset .P) :: .instr (.arm .P a) :: .carrierStarted :: .ret .done :: ts) :
    agentTimes .host 5 s = .next { s with
      chanP := { s.chanP with active := true, conblkAd := a, phase := .fetch [] },
      pacerP := { s.pacerP with configured := true, fill := 0, period := n },
      trace := s.trace ++ [Event.reset .P, Event.arm .P a],
      host := { s.host with todo := ts, ret := .done, carrierRunning := true } } := by
  have hcfg : s.agentStep .host = .next ((s.setTodo (.instr (.reset .P) :: .instr (.arm .P a) :: .carrierStarted ::
      .ret .done :: ts)).configurePacer .P n) := by
    rw [host_instr h (by simp [Instr.kind])]
    exact if_neg hn
  rw [agentTimes_succ hcfg, agentTimes_trans (a := 2) (b := 2) (resetArm_run rfl ha),
    agentTimes_succ (host_task (x := .carrierStarted) rfl nofun nofun),
    agentTimes_succ (host_task (x := .ret .done) rfl nofun nofun)]
  rfl

/-- start is accepted where none of the rejections of 42 R212 holds. -/
theorem State.carrierStart_accepted {C : Nat} (h : carrierReject s.cfg s.host.carrierRunning n C = none) :
    s.carrierStart n C = s.pushTasks (carrierTasks s.cfg n C) := by rw [State.carrierStart, h]

/-- An accepted carrier start: the stores, then its last turns. -/
theorem carrierStart_run {C : Nat} (M : s.cfg.Meets) (h : s.host.todo = .start n C :: ts)
    (hidle : s.host.carrierRunning = false) (hn : n ≠ 0) (hC : C ≠ 0) (hcbs : s.cfg.carrierN C ≤ s.cfg.carrierCbs)
    (hool : C * (1 + s.cfg.carrierSlots) ≤ s.cfg.carrierOol) :
    agentTimes .host ((carrierPairs s.cfg C).length + 5 + 1) s = .next { s with
      mem := Memory.writeAll s.mem (carrierPairs s.cfg C),
      chanP := { s.chanP with active := true, conblkAd := s.cfg.carrierCd 0, phase := .fetch [] },
      pacerP := { s.pacerP with configured := true, fill := 0, period := n },
      trace := s.trace ++ [Event.reset .P, Event.arm .P (s.cfg.carrierCd 0)],
      host := { s.host with todo := ts, ret := .done, carrierRunning := true } } := by
  have hK := M.slotsPos
  have haccept : carrierReject s.cfg s.host.carrierRunning n C = none := by
    rw [carrierReject, hidle, if_neg Bool.false_ne_true, if_neg (by omega), if_neg (by omega)]
  have hN : 0 < s.cfg.carrierN C := Nat.mul_pos (Nat.pos_of_ne_zero hC) (by omega)
  have hcd : s.cfg.carrierCd 0 ≠ 0#32 :=
    (M.fetchable_words (M.cbBus_fetchable (carrierCd_inArena M hcbs hN)).1).2.1
  let t := (s.setTodo ts).pushTasks (carrierTasks s.cfg n C)
  have htake : s.agentStep .host = .next t := (host_task h nofun nofun).trans
    (congrArg Host.Outcome.next (State.carrierStart_accepted (s := s.setTodo ts) haccept))
  have htodo : t.host.todo = storeTasks (carrierPairs s.cfg C) ++ .instr (.pacerCfg n) :: .instr (.reset .P) ::
      .instr (.arm .P (s.cfg.carrierCd 0)) :: .carrierStarted :: .ret .done :: ts := by
    rw [← carrierStores_eq]
    exact List.append_assoc _ _ _
  have hreach : ∀ p ∈ carrierPairs s.cfg C, t.hostReaches p.1 = true := fun p hp => by
    obtain ⟨hal, hmem⟩ := carrierPairs_reach M hcbs hool hp
    exact State.hostReaches_iff.2 ⟨(wordAligned_iff _).1 hal, hmem⟩
  rw [agentTimes_succ htake, agentTimes_trans (stores_run htodo hreach), carrierEnd_run hn hcd rfl]
  rfl

end

/-- Settles O59: the host's turns, then each word and descriptor of the memory they leave. -/
theorem carrierStartBuildsItsCycle : Obligations.CarrierStartBuildsItsCycle := by
  intro s n C ts hok htodo hidle hn hC K N hcbs hool cd next ON OFF
  have M := Config.meets hok
  have hrow : ∀ {c o}, c < C → o < 1 + 2 * K → c * (1 + 2 * K) + o < N := row_item_lt
  have hdesc : ∀ {q d}, q < N → s.cfg.carrierDesc C q = d →
      descAt (Memory.writeAll s.mem (carrierPairs s.cfg C)) (cd q) d :=
    fun hq h => h ▸ carrier_descAt M hcbs hool s.mem hq
  refine ⟨_, _, carrierStart_run M htodo hidle hn hC hcbs hool,
    fun c hc => ⟨?on, ?set, fun j hj => ⟨?off, ?pace, ?clr⟩⟩,
    carrier_zw_kept M hcbs hool s.mem, fun x => carrier_byte_kept M hcbs s.mem⟩
  case on => exact carrier_table_zeroed M hcbs hool s.mem (mem_carrierTablePairs.2 ⟨c, hc, .inl rfl⟩)
  case off => exact carrier_table_zeroed M hcbs hool s.mem (mem_carrierTablePairs.2 ⟨c, hc, .inr ⟨j, hj, rfl⟩⟩)
  case set => exact hdesc (hrow hc (o := 0) (by omega)) (carrierDesc_set s.cfg c)
  case pace =>
    have hq : c * (1 + 2 * K) + 1 + 2 * j < N := by have := hrow hc (show 1 + 2 * j < 1 + 2 * K by omega); omega
    exact hdesc hq (carrierDesc_pace s.cfg hj)
  case clr =>
    have hq : c * (1 + 2 * K) + 2 + 2 * j < N := by have := hrow hc (show 2 + 2 * j < 1 + 2 * K by omega); omega
    exact hdesc hq (carrierDesc_clr s.cfg hj)

end Sys2Proof.Machine

namespace Sys2Proof.Machine

/-! ### The registry's ranges (43 R240; 20 R72; 42 R210; 00 R9) -/

theorem Table.mem_of_get {α : Type} {m : List (Nat × α)} {k : Nat} {v : α} (h : Table.get m k = some v) :
    (k, v) ∈ m := by
  induction m with
  | nil => cases h
  | cons e t ih =>
    rw [Table.get] at h
    split_ifs at h with hk
    · cases h; exact hk ▸ List.mem_cons_self
    · exact List.mem_cons_of_mem _ (ih h)

/-- A range registered under this id is one that 43 R240 admits by itself. -/
def WaveRange.placed (c : Config) (id : Nat) (r : WaveRange) : Prop :=
  id < c.maxWaves ∧ 1 ≤ r.cbCount ∧ r.topCB = r.bottomCB + r.cbCount - 1 ∧
  (∀ n, r.cbAt n → n < c.pageBus.length * c.cbsPerPage ∧ (n < c.carrierCb0 ∨ c.carrierCb0 + c.carrierCbs ≤ n)) ∧
  ∀ n, r.oolAt n → n < c.pageBus.length * c.oolPerPage ∧ c.oolBus n ≠ c.zw ∧
    (n < c.carrierOol0 ∨ c.carrierOol0 + c.carrierOol ≤ n)

/-- No position belongs to both ranges. -/
def WaveRange.disjoint (r q : WaveRange) : Prop := ∀ n, ¬ (r.cbAt n ∧ q.cbAt n) ∧ ¬ (r.oolAt n ∧ q.oolAt n)

theorem WaveRange.disjoint.symm {r q : WaveRange} (h : r.disjoint q) : q.disjoint r :=
  fun n => ⟨fun hcb => (h n).1 hcb.symm, fun hool => (h n).2 hool.symm⟩

theorem State.wavesOk_iff (s : State) : s.wavesOk ↔ Table.rising s.host.waves = true ∧
    (∀ id r, Table.get s.host.waves id = some r → r.placed s.cfg id) ∧
    ∀ i j r q, i ≠ j → Table.get s.host.waves i = some r → Table.get s.host.waves j = some q →
      r.deleted = false → q.deleted = false → r.disjoint q := Iff.rfl

section
variable {s t : State} {id : Nat} {r : WaveRange}

/-- Only the configuration and the registry matter. -/
theorem State.wavesOk.of_eq (hcfg : t.cfg = s.cfg) (hwaves : t.host.waves = s.host.waves) (h : s.wavesOk) :
    t.wavesOk := by
  unfold State.wavesOk
  rwa [hcfg, hwaves]

/-- An entry may be written with a placed range that is deleted or shares no position with the other live ones. -/
theorem State.wavesOk.setEntry (h : s.wavesOk) (hr : r.placed s.cfg id)
    (hfree : r.deleted = false → ∀ j q, j ≠ id → Table.get s.host.waves j = some q → q.deleted = false →
      r.disjoint q) : (s.setWaves (Table.set s.host.waves id r)).wavesOk := by
  obtain ⟨hrise, hplaced, hdisj⟩ := s.wavesOk_iff.1 h
  simp only [State.wavesOk_iff, State.setWaves_host, State.setWaves_cfg, Table.get_set]
  refine ⟨Table.rising_set _ id r hrise, fun j q hq => ?placed, fun i j p q hij hp hq hpl hql => ?disjoint⟩
  case placed =>
    split_ifs at hq with hj
    · cases hq; exact hj ▸ hr
    · exact hplaced j q hq
  case disjoint =>
    split_ifs at hp hq with hi hj hj
    · exact absurd (hi.trans hj.symm) hij
    · cases hp; exact hfree hpl j q hj hq hql
    · cases hq; exact (hfree hql i p hi hp hpl).symm
    · exact hdisj i j p q hij hp hq hpl hql

/-- A range the registry may hand back is placed, and apart from every live wave. -/
theorem State.wavesOk.register (h : s.wavesOk) (ha : s.cfg.admitsRange s.host.waves id r = true) :
    (s.setWaves (Table.set s.host.waves id r)).wavesOk := by
  obtain ⟨hid, -, hok, hapart⟩ := (admitsRange_iff s.cfg s.host.waves id r).1 ha
  obtain ⟨hcount, htop, -, hcb, hool, -⟩ := rangeOk_positions hok
  exact h.setEntry ⟨hid, hcount, htop, hcb, hool⟩ fun _ j q _ hq hql =>
    WaveRange.apartFrom_positions (hapart (j, q) (Table.mem_of_get hq) hql).2

/-- A deleted range keeps its positions. -/
theorem State.wavesOk.delete (h : s.wavesOk) (hr : Table.get s.host.waves id = some r) :
    (s.setWaves (Table.set s.host.waves id { r with deleted := true })).wavesOk :=
  h.setEntry ((s.wavesOk_iff.1 h).2.1 id r hr) nofun

/-- A bus write changes nothing of the host (20 R81). -/
theorem State.busWrite_host {ch : ChanId} {a v : Word} (hw : s.busWrite ch a v = .ok t) : t.host = s.host := by
  obtain ⟨-, ⟨-, rfl⟩ | ⟨-, rfl⟩ | ⟨-, rfl⟩ | ⟨pc, -, -, rfl⟩⟩ := State.busWrite_ok hw
  · rfl
  · rfl
  · rfl
  · simp

end

/-- Registering and deleting alone write the registry. -/
theorem wavesOk_kept : KeptByOps State.wavesOk where
  sched _ h := h
  drawn h := h
  cur _ h := h
  todo _ h := h
  ret _ h := h
  build _ h := h
  register _ _ ha h := h.register ha
  delete _ _ hr h := h.delete hr
  carrier _ h := h
  refuse h := h
  tick _ ht := by
    rw [State.pacerTick_of_enabled ht]
    exact .of_eq (by simp) (by simp)
  raise _ _ _ := .of_eq (by simp) (by simp)
  early _ _ _ _ _ _ := .of_eq (by simp) (by simp)
  load _ _ _ _ _ _ _ _ := .of_eq (by simp) (by unfold State.loadDesc; split_ifs <;> simp)
  read _ _ _ _ _ _ _ _ hr := by
    obtain ⟨hcfg, -, -, -, -, -, -, hhost, -⟩ := State.busRead_keeps hr
    exact .of_eq (by simp [hcfg]) (by simp [hhost])
  write _ _ _ _ _ _ _ _ hw := by
    obtain ⟨hcfg, -⟩ := State.busWrite_keeps hw
    have hhost := State.busWrite_host hw
    exact .of_eq (by split_ifs <;> simp [hcfg]) (by split_ifs <;> simp [hhost])
  complete _ _ _ _ _ := .of_eq (by simp) (by unfold State.complete; split_ifs <;> simp)
  reset _ := .of_eq (by simp) (by simp [State.resetChan])
  stopped _ h := h
  arm _ _ := .of_eq (by simp) (by unfold State.armChan; split_ifs <;> simp)
  pause _ := .of_eq (by simp) (by simp)
  resume _ _ := .of_eq (by simp) (by simp)
  store _ _ _ _ h := h
  gpioSet _ h := h
  gpioClr _ h := h
  configureP _ h := h
  waveClock _ h := h

/-- Settles O33: every operation a step is made of keeps the registry's ranges placed and apart. -/
theorem waveRangesStayApart : Obligations.WaveRangesStayApart := fun _ _ => wavesOk_kept.step

end Sys2Proof.Machine

namespace Sys2Proof.Machine

/-! ### The STOREs of a pulse (43 R242, R243) -/

theorem storeTasks_cons (a v : Word) (l : List (Word × Word)) :
    storeTasks ((a, v) :: l) = .instr (.store a v) :: storeTasks l := rfl

section
variable (c : Config) (r : WaveRange) (last : Word)

/-- One transfer, and the transfers after it at the counters it leaves. -/
theorem emitOps_cons (op : PulseOp) (ops : List PulseOp) (q b t : Nat) :
    emitOps c r last (op :: ops) q b t =
      (storeTasks (opEmitPairs c r q b t (if ops = [] then last else c.wcb r (q + 1)) op) ++
          (emitOps c r last ops (q + 1) (b + op.bottoms) (t + op.tops)).1,
        (emitOps c r last ops (q + 1) (b + op.bottoms) (t + op.tops)).2) := by
  cases op <;> simp [emitOps, opEmitPairs, storeTasks, storeDesc_eq, PulseOp.bottoms, PulseOp.tops]

/-- A transfer made where P holds, with transfers to follow. -/
theorem emitOps_optional (P : Prop) [Decidable P] (op : PulseOp) {ops : List PulseOp} (hops : ops ≠ []) (q b t : Nat) :
    emitOps c r last ((if P then [op] else []) ++ ops) q b t =
      ((if P then storeTasks (opEmitPairs c r q b t (c.wcb r (q + 1)) op) else []) ++
          (emitOps c r last ops (q + if P then 1 else 0) (b + if P then op.bottoms else 0)
            (t + if P then op.tops else 0)).1,
        (emitOps c r last ops (q + if P then 1 else 0) (b + if P then op.bottoms else 0)
          (t + if P then op.tops else 0)).2) := by
  by_cases hP : P
  · simp only [if_pos hP, List.singleton_append, emitOps_cons, if_neg hops]
  · simp only [if_neg hP, List.nil_append, Nat.add_zero]

end

theorem pulseOps_ne_nil (p : PulseSpec) : pulseOps p ≠ [] := by simp [pulseOps]

/-- Settles O55: the four optional transfers in turn, and the delay, which alone may be the last. -/
theorem pulsesBecomeDescriptors : Obligations.PulsesBecomeDescriptors := by
  intro c r p q b t last bit hasSet hasClr q1 b1 q2 q3 t3 q4 next stores delay
  have hpulse : ∀ rest, emitOps c r last (pulseOps p ++ rest) q b t =
      (stores ++ delay (if rest = [] then last else next q4) ++
          (emitOps c r last rest (q4 + 1) (b1 + bit hasClr) (t3 + bit p.sampleTick)).1,
        (emitOps c r last rest (q4 + 1) (b1 + bit hasClr) (t3 + bit p.sampleTick)).2) := by
    intro rest
    simp only [pulseOps, List.append_assoc]
    rw [emitOps_optional _ _ _ _ _ (by simp), emitOps_optional _ _ _ _ _ (by simp),
      emitOps_optional _ _ _ _ _ (by simp), emitOps_optional _ _ _ _ _ (by simp), List.singleton_append, emitOps_cons]
    simp [stores, delay, hasSet, hasClr, bit, q1, q2, q3, q4, b1, t3, next, opEmitPairs, PulseOp.bottoms, PulseOp.tops,
      storeTasks_cons, ← storeDesc_eq, descPaceSWords, Config.wcb, Config.wbo, Config.wto]
  refine ⟨?alone, fun ps hps => ?followed⟩
  case alone => simpa [emitOps] using congrArg Prod.fst (hpulse [])
  case followed =>
    obtain ⟨p', ps', rfl⟩ := List.exists_cons_of_ne_nil hps
    have hne : (p' :: ps').flatMap pulseOps ≠ [] := by simp [pulseOps_ne_nil]
    rw [List.flatMap_cons, hpulse, if_neg hne]

end Sys2Proof.Machine

namespace Sys2Proof.Machine

/-! ### What compile estimates and emits (43 R244, R247, R248) -/

theorem bottomSum_append (l k : List PulseOp) : bottomSum (l ++ k) = bottomSum l + bottomSum k := by
  simp [bottomSum]

theorem topSum_append (l k : List PulseOp) : topSum (l ++ k) = topSum l + topSum k := by simp [topSum]

theorem pulseOps_length (p : PulseSpec) : (pulseOps p).length =
    (if p.set ≠ 0#32 then 1 else 0) + (if p.clear ≠ 0#32 then 1 else 0) + (if p.sampleLevels then 1 else 0) +
      (if p.sampleTick then 1 else 0) + 1 := by
  simp only [pulseOps, List.length_append, apply_ite List.length, List.length_singleton, List.length_nil]

theorem pulseOps_bottomSum (p : PulseSpec) : bottomSum (pulseOps p) =
    (if p.set ≠ 0#32 then 1 else 0) + (if p.clear ≠ 0#32 then 1 else 0) := by
  simp only [pulseOps, bottomSum_append, apply_ite bottomSum]
  simp [bottomSum, PulseOp.bottoms]

theorem pulseOps_topSum (p : PulseSpec) : topSum (pulseOps p) =
    (if p.sampleLevels then 1 else 0) + (if p.sampleTick then 1 else 0) := by
  simp only [pulseOps, topSum_append, apply_ite topSum]
  simp [topSum, PulseOp.tops]

/-- The estimate counts the transfers, and the words each takes. -/
theorem estimate_eq (pulses : List PulseSpec) : estimate pulses =
    ⟨(pulses.flatMap pulseOps).length, bottomSum (pulses.flatMap pulseOps), topSum (pulses.flatMap pulseOps)⟩ := by
  induction pulses with
  | nil => rfl
  | cons p ps ih =>
    simp only [estimate, ih, List.flatMap_cons, List.length_append, bottomSum_append, topSum_append, pulseOps_length,
      pulseOps_bottomSum, pulseOps_topSum]

/-- The estimate sums the transfers and words of each pulse (43 R244). -/
theorem estimate_sums (pulses : List PulseSpec) : estimate pulses =
    ⟨(pulses.map fun p => (if p.set ≠ 0#32 then 1 else 0) + (if p.clear ≠ 0#32 then 1 else 0) +
        (if p.sampleLevels then 1 else 0) + (if p.sampleTick then 1 else 0) + 1).sum,
      (pulses.map fun p => (if p.set ≠ 0#32 then 1 else 0) + (if p.clear ≠ 0#32 then 1 else 0)).sum,
      (pulses.map fun p => (if p.sampleLevels then 1 else 0) + (if p.sampleTick then 1 else 0)).sum⟩ := by
  induction pulses with
  | nil => rfl
  | cons p ps ih => simp only [estimate, ih, List.map_cons, List.sum_cons]

/-- The emission ends at the counters estimated. -/
theorem emitWave_counts (c : Config) (pulses : List PulseSpec) (mode : WaveMode) (r : WaveRange) :
    (emitWave c pulses mode r).2 = estimate pulses := by
  simp [emitWave, emitOps_counts, estimate_eq]

/-- The last transfer is stored last, and its NEXT is `last` (43 R247). -/
theorem emitPairs_concat (c : Config) (r : WaveRange) (last : Word) (ops : List PulseOp) (op : PulseOp) (q b t : Nat) :
    ∃ pre, emitPairs c r last (ops ++ [op]) q b t =
      pre ++ opEmitPairs c r (q + ops.length) (b + bottomSum ops) (t + topSum ops) last op := by
  induction ops generalizing q b t with
  | nil => exact ⟨[], by simp [emitPairs, bottomSum, topSum]⟩
  | cons o ops ih =>
    obtain ⟨pre, hpre⟩ := ih (q + 1) (b + o.bottoms) (t + o.tops)
    refine ⟨opEmitPairs c r q b t (c.wcb r (q + 1)) o ++ pre, ?_⟩
    rw [List.cons_append, emitPairs, if_neg (by simp), hpre, List.append_assoc]
    simp [bottomSum, topSum, Nat.add_comm, Nat.add_left_comm]

/-- A wave's last descriptor is its last pulse's delay. -/
theorem emitWave_concat (c : Config) (ps : List PulseSpec) (p : PulseSpec) (mode : WaveMode) (r : WaveRange) :
    ∃ pre, (emitWave c (ps ++ [p]) mode r).1 = pre ++
      storeDesc (c.wcb r ((estimate (ps ++ [p])).cbCount - 1))
        (descPaceSWords c p.delay.toNat (finalNext c r mode)) := by
  obtain ⟨ops, hops⟩ : ∃ ops, (ps ++ [p]).flatMap pulseOps = ops ++ [.pace p.delay] := by
    refine ⟨ps.flatMap pulseOps ++ (pulseOps p).dropLast, ?_⟩
    simp [pulseOps]
  obtain ⟨pre, hpre⟩ := emitPairs_concat c r (finalNext c r mode) ops (.pace p.delay) 0 0 0
  refine ⟨storeTasks pre, ?_⟩
  rw [emitWave, emitOps_pairs, estimate_eq, hops, hpre, storeTasks_append, storeDesc_eq]
  simp [opEmitPairs]

/-- Settles O56, the sums of the estimate pulse by pulse. -/
theorem emissionMatchesTheEstimate : Obligations.EmissionMatchesTheEstimate := by
  intro c pulses mode r bit
  refine ⟨emitWave_counts c pulses mode r, ?cbs, ?bottoms, ?tops, ?last,
    fun s => if_pos (emitWave_counts c pulses mode r)⟩
  case cbs => simp only [estimate_sums, bit, decide_eq_true_eq]
  case bottoms => simp only [estimate_sums, bit, decide_eq_true_eq]
  case tops => simp only [estimate_sums, bit]
  case last =>
    rintro ps p rfl
    obtain ⟨pre, hpre⟩ := emitWave_concat c ps p mode r
    refine ⟨pre, hpre.trans ?_⟩
    cases mode <;> rfl

end Sys2Proof.Machine

namespace Sys2Proof.Machine

/-! ### Memory after compile (43 R240, R242, R243) -/

section
variable {c : Config} {pulses : List PulseSpec} {mode : WaveMode} {r : WaveRange}

/-- What compile stores. -/
def wavePairs (c : Config) (pulses : List PulseSpec) (mode : WaveMode) (r : WaveRange) : List (Word × Word) :=
  emitPairs c r (finalNext c r mode) (pulses.flatMap pulseOps) 0 0 0

theorem emitWave_stores : (emitWave c pulses mode r).1 = storeTasks (wavePairs c pulses mode r) :=
  emitOps_pairs c r _ _ 0 0 0

theorem mem_storeTasks {l : List (Word × Word)} {a v : Word} : .instr (.store a v) ∈ storeTasks l ↔ (a, v) ∈ l := by
  simp [storeTasks]

/-- A range of the sizes asked for holds the transfers and their words. -/
theorem hasSize_iff : r.hasSize (estimate pulses) = true ↔ r.cbCount = (pulses.flatMap pulseOps).length ∧
    r.oolBottomCount = bottomSum (pulses.flatMap pulseOps) ∧ r.oolTopCount = topSum (pulses.flatMap pulseOps) := by
  simp only [WaveRange.hasSize, estimate_eq, Bool.and_eq_true, decide_eq_true_eq, and_assoc]

variable (hsize : r.hasSize (estimate pulses) = true)
include hsize

theorem wavePairs_spot {p : Word × Word} (hp : p ∈ wavePairs c pulses mode r) :
    ∃ x : Spot, x.ok r ∧ p.1 = x.addr c r := by
  obtain ⟨hcb, hbottom, htop⟩ := hasSize_iff.1 hsize
  exact emit_spot (by omega) (by omega) (by omega) hp

variable (G : WaveRange.SpotsOk c r)
include G

theorem wavePairs_reach {p : Word × Word} (hp : p ∈ wavePairs c pulses mode r) :
    p.1.toNat % 4 = 0 ∧ c.inMem p.1 = true := by
  obtain ⟨x, hx, he⟩ := wavePairs_spot hsize hp
  exact he ▸ G.al x hx

theorem wave_word (m : Memory) {p : Word × Word} (hp : p ∈ wavePairs c pulses mode r) :
    (Memory.writeAll m (wavePairs c pulses mode r)).word p.1 = some p.2 := by
  obtain ⟨hcb, hbottom, htop⟩ := hasSize_iff.1 hsize
  have hal : ∀ q ∈ wavePairs c pulses mode r, wordAligned q.1 = true := fun q hq =>
    (wordAligned_iff _).2 (wavePairs_reach hsize G hq).1
  exact Memory.writeAll_word (hal p hp) hal (.inl ⟨p, hp, rfl⟩) fun q hq he =>
    emit_unique G _ 0 0 0 (by omega) (by omega) (by omega) hp hq he

theorem wave_byte_kept (m : Memory) {x : Nat}
    (hcb : ∀ n, r.cbAt n → x < (c.cbBus n).toNat ∨ (c.cbBus n).toNat + 32 ≤ x)
    (hool : ∀ n, r.oolAt n → x < (c.oolBus n).toNat ∨ (c.oolBus n).toNat + 4 ≤ x) :
    (Memory.writeAll m (wavePairs c pulses mode r)).byte x = m.byte x := by
  refine Memory.writeAll_byte fun p hp => ?_
  obtain ⟨y, hy, he⟩ := wavePairs_spot hsize hp
  exact he ▸ G.fr y hy x hcb hool

end

/-! ### The host's turns of compile (43 R241, R248) -/

section
variable {s : State} {pulses : List PulseSpec} {mode : WaveMode} {id : Nat} {r : WaveRange} {ts : List HostTask}

theorem State.compileWave_admitted (h : compileReject s.cfg pulses = none)
    (hr : (r.hasSize (estimate pulses) && s.cfg.admitsRange s.host.waves id r) = true) :
    s.compileWave pulses mode (.ok id r) = s.pushTasks (compileTasks s.cfg pulses mode id r) := by
  simp only [State.compileWave, h, hr, if_true]

/-- A range the registry may not hand back (log 21). -/
theorem State.compileWave_notAdmitted (h : compileReject s.cfg pulses = none)
    (hr : (r.hasSize (estimate pulses) && s.cfg.admitsRange s.host.waves id r) = false) :
    s.compileWave pulses mode (.ok id r) = s.refuse := by
  simp only [State.compileWave, h, hr, Bool.false_eq_true, if_false]

theorem compileReject_eq_none {c : Config} (hne : pulses ≠ []) (hlen : pulses.length ≤ c.maxPulses)
    (hdelay : ∀ p ∈ pulses, p.delay.toNat < 2 ^ 28) : compileReject c pulses = none := by
  rw [compileReject, if_neg hne, if_neg (by omega), if_neg]
  rw [long_delay_iff]
  rintro ⟨p, hp, hlong⟩
  have := hdelay p hp
  omega

/-- compile's last turns: the sizes are as estimated, and the range is registered. -/
theorem compileEnd_run {e : WaveSize} (ha : s.cfg.admitsRange s.host.waves id r = true)
    (h : s.host.todo = .checkSize e e :: .register id r :: ts) :
    agentTimes .host 2 s = .next { s with host := { s.host with
      todo := ts, ret := .waveId id, waves := Table.set s.host.waves id r } } := by
  have hcheck : s.agentStep .host = .next (s.setTodo (.register id r :: ts)) :=
    (host_task h nofun nofun).trans (congrArg Host.Outcome.next (if_pos rfl))
  rw [agentTimes_succ hcheck, agentTimes_succ (host_task (x := .register id r) rfl nofun nofun)]
  exact congrArg Host.Outcome.next (if_pos ha)

/-- An accepted compile: the stores, then its last turns. -/
theorem compile_run (M : s.cfg.Meets) (h : s.host.todo = .compile pulses mode (.ok id r) :: ts)
    (haccept : compileReject s.cfg pulses = none) (hsize : r.hasSize (estimate pulses) = true)
    (ha : s.cfg.admitsRange s.host.waves id r = true) :
    agentTimes .host ((wavePairs s.cfg pulses mode r).length + 2 + 1) s = .next { s with
      mem := Memory.writeAll s.mem (wavePairs s.cfg pulses mode r)
      host := { s.host with todo := ts, ret := .waveId id, waves := Table.set s.host.waves id r } } := by
  obtain ⟨-, -, hok, -⟩ := (admitsRange_iff s.cfg s.host.waves id r).1 ha
  let t := (s.setTodo ts).pushTasks (compileTasks s.cfg pulses mode id r)
  have htake : s.agentStep .host = .next t := (host_task h nofun nofun).trans (congrArg Host.Outcome.next
    (State.compileWave_admitted (s := s.setTodo ts) haccept (Bool.and_eq_true_iff.2 ⟨hsize, ha⟩)))
  have htodo : t.host.todo = storeTasks (wavePairs s.cfg pulses mode r) ++
      .checkSize (estimate pulses) (estimate pulses) :: .register id r :: ts := by
    simp [t, State.pushTasks, compileTasks, emitWave_counts, emitWave_stores]
  have hreach : ∀ p ∈ wavePairs s.cfg pulses mode r, t.hostReaches p.1 = true := fun p hp =>
    State.hostReaches_iff.2 (wavePairs_reach hsize (spotsOk_of_rangeOk M hok) hp)
  rw [agentTimes_succ htake, agentTimes_trans (stores_run htodo hreach)]
  exact compileEnd_run (s := { t with mem := _, host := { t.host with todo := _ } }) ha rfl

theorem State.deleteWave_registered (h : Table.get s.host.waves id = some r) : s.deleteWave id =
    (s.setWaves (Table.set s.host.waves id { r with deleted := true })).setRet .done := by
  rw [State.deleteWave, h]

theorem State.deleteWave_unknown (h : Table.get s.host.waves id = none) : s.deleteWave id = s.setRet (.info none) := by
  rw [State.deleteWave, h]

end

/-- Settles O57: compile's turns and the memory they leave; delete and info by the registry's entry. -/
theorem waveRegistryFollowsTheProcedures : Obligations.WaveRegistryFollowsTheProcedures := by
  refine fun s ts => ⟨fun pulses mode id r hok h hne hlen hdelay hr => ?accepted,
    fun pulses mode id r h haccept hr => ?notAdmitted, fun id r h hr => ?delete, fun id h hr => ?unknown,
    fun id h => host_task h nofun nofun⟩
  case accepted =>
    have M := Config.meets hok
    obtain ⟨hsize, ha⟩ := Bool.and_eq_true_iff.1 hr
    obtain ⟨-, -, hrange, -⟩ := (admitsRange_iff s.cfg s.host.waves id r).1 ha
    have G := spotsOk_of_rangeOk M hrange
    refine ⟨_, _, compile_run M h (compileReject_eq_none hne hlen hdelay) hsize ha, fun a v hav => ?_,
      fun x hcb hool => wave_byte_kept hsize G s.mem hcb hool⟩
    rw [emitWave_stores, mem_storeTasks] at hav
    exact wave_word hsize G s.mem hav
  case notAdmitted =>
    exact (host_task h nofun nofun).trans
      (congrArg Host.Outcome.next (State.compileWave_notAdmitted (s := s.setTodo ts) haccept hr))
  case delete =>
    exact ⟨_, (host_task h nofun nofun).trans
      (congrArg Host.Outcome.next (State.deleteWave_registered (s := s.setTodo ts) hr)),
      Table.get_set_self _ _ _, fun j hj => Table.get_set_of_ne _ _ hj⟩
  case unknown =>
    exact (host_task h nofun nofun).trans
      (congrArg Host.Outcome.next (State.deleteWave_unknown (s := s.setTodo ts) hr))

end Sys2Proof.Machine

namespace Sys2Proof.Machine

/-! ### The host's turns of play (43 R249; 41 R190, R191, R193, R196) -/

theorem liveWave_eq_some {c : Config} {waves : List (Nat × WaveRange)} {id : Nat} {r : WaveRange}
    (hid : id < c.maxWaves) (h : Table.get waves id = some r) (hlive : r.deleted = false) :
    liveWave c waves id = some r := by
  simp only [liveWave, if_pos hid, h, hlive, Bool.false_eq_true, if_false]

/-- The state after WAVECLK: on the first use PacerS is configured and the transition recorded (41 R196). -/
def State.clocked (s : State) : State :=
  { s with
    pacerS := if s.host.waveClockReady then s.pacerS else { s.pacerS with configured := true, fill := 0, period := 1 },
    trace := s.trace ++ if s.host.waveClockReady then [] else [Event.waveClock],
    host := { s.host with waveClockReady := true } }

theorem execWaveclk_eq (s : State) : exec .waveclk s = .next s.clocked := by
  unfold State.clocked
  rcases hready : s.host.waveClockReady with _ | _
  · exact if_neg (by simp [hready])
  · rw [if_pos rfl, if_pos rfl, List.append_nil, ← hready]
    exact if_pos hready

section
variable {s : State} {id : Nat} {mode : WaveMode} {r : WaveRange} {ts : List HostTask}

theorem State.play_live (h : liveWave s.cfg s.host.waves id = some r) :
    s.play id mode = s.pushTasks (playTasks s.cfg r mode) := by rw [State.play, h]

/-- Word 5 of an arena descriptor is a word the host reaches. -/
theorem State.hostReaches_next (M : s.cfg.Meets) {n : Nat} (hn : n < s.cfg.pageBus.length * s.cfg.cbsPerPage) :
    s.hostReaches (s.cfg.cbBus n + 0x14#32) = true := by
  obtain ⟨hfetch, hal⟩ := M.cbBus_fetchable hn
  obtain ⟨hend, -, hmem⟩ := M.fetchable_words hfetch
  have haddr : (s.cfg.cbBus n + 0x14#32).toNat = (s.cfg.cbBus n).toNat + 20 := descWord_toNat hend (k := 5) (by omega)
  exact State.hostReaches_iff.2 ⟨by omega, hmem _ (by omega) (by omega)⟩

/-- RESET, a STORE and ARM of one channel: whatever it was doing, it starts at `a` with `v` stored. -/
theorem resetStoreArm_run {ch : ChanId} {w v a : Word} (hw : s.hostReaches w = true) (ha : a ≠ 0#32)
    (h : s.host.todo = .instr (.reset ch) :: .instr (.store w v) :: .instr (.arm ch a) :: ts) :
    agentTimes .host 3 s = .next (State.setChan { s with
        mem := s.mem.writeWord w v, trace := s.trace ++ [Event.reset ch, Event.arm ch a],
        host := { s.host with todo := ts } } ch
      { s.chan ch with active := true, conblkAd := a, phase := .fetch [] }) := by
  let t := (s.setTodo (.instr (.store w v) :: .instr (.arm ch a) :: ts)).resetChan ch
  let u : State := { t with mem := t.mem.writeWord w v, host := { t.host with todo := .instr (.arm ch a) :: ts } }
  have hreset : s.agentStep .host = .next t := host_instr h (by simp [Instr.kind])
  have hstore : agentTimes .host 1 t = .next u := by
    refine host_store ?_ ?_
    · cases ch <;> rfl
    · cases ch <;> exact hw
  have harm : u.agentStep .host = .next ((u.setTodo ts).armChan ch a) :=
    host_instr (i := .arm ch a) rfl (by simp [Instr.kind])
  have hidle : (u.setTodo ts).chanIdle ch = true := by
    rw [State.chanIdle_iff]
    cases ch <;> exact ⟨rfl, rfl⟩
  rw [agentTimes_succ hreset, agentTimes_trans (a := 1) (b := 1) hstore, agentTimes_succ harm,
    State.armChan_of_idle hidle, if_neg ha, List.append_cons]
  cases ch <;> rfl

end

/-- Settles O58: the turn that takes the play up, WAVECLK, the channel's restart at the wave, and the return. -/
theorem playArmsTheWave : Obligations.PlayArmsTheWave := by
  intro s id mode r ts hok htodo hid hget hlive hbottom htop
  have M := Config.meets hok
  have hfirst : s.cfg.cbBus r.bottomCB ≠ 0#32 := (M.fetchable_words (M.cbBus_fetchable hbottom).1).2.1
  let restart : List HostTask := [.instr (.reset .S),
    .instr (.store (s.cfg.cbBus r.topCB + 0x14#32) (finalNext s.cfg r mode)), .instr (.arm .S (s.cfg.cbBus r.bottomCB))]
  let t := s.setTodo (.instr .waveclk :: restart ++ .ret .done :: ts)
  let u := (s.setTodo (restart ++ .ret .done :: ts)).clocked
  have htake : s.agentStep .host = .next t := (host_task htodo nofun nofun).trans (congrArg Host.Outcome.next
    (State.play_live (s := s.setTodo ts) (liveWave_eq_some hid hget hlive)))
  have hclock : t.agentStep .host = .next u :=
    (host_instr (s := t) rfl (by simp [Instr.kind])).trans (execWaveclk_eq _)
  have hrestart := resetStoreArm_run (s := u) (ch := .S) (v := finalNext s.cfg r mode) (State.hostReaches_next M htop)
    hfirst rfl
  refine ⟨s.mem.writeWord (s.cfg.cbBus r.topCB + 0x14#32) (finalNext s.cfg r mode), ?stored, ?turns⟩
  case stored => cases mode <;> exact wordStored_writeWord _ _ _
  case turns =>
    rw [agentTimes_succ htake, agentTimes_succ hclock, agentTimes_trans (a := 3) (b := 1) hrestart,
      agentTimes_succ (host_task (x := .ret .done) rfl nofun nofun)]
    rfl

end Sys2Proof.Machine

namespace Sys2Proof.Machine

/-! ### The checks around a chain opcode (44 R272) -/

section
variable {c : Config} {b b' : Build}

/-- Nothing may follow RepeatForever. -/
theorem guardOp_mustBeLast (h : b.seenRepeat = true) (adv : Except HostReject Build) :
    guardOp c b adv = .error .mustBeLast := if_pos h

variable (h : b.seenRepeat = false)
include h

theorem guardOp_error (e : HostReject) : guardOp c b (.error e) = .error e :=
  if_neg (by rw [h]; decide)

theorem guardOp_fits (hq : b'.q + 1 ≤ c.chainCbBus.length) (hm : b'.m ≤ c.chainOol) :
    guardOp c b (.ok b') = .ok b' := by
  rw [guardOp, if_neg (by rw [h]; decide)]
  exact if_neg (by omega)

theorem guardOp_tooBig (hbig : c.chainCbBus.length < b'.q + 1 ∨ c.chainOol < b'.m) :
    guardOp c b (.ok b') = .error .chainTooBig := by
  rw [guardOp, if_neg (by rw [h]; decide)]
  exact if_pos hbig

end

/-! ### One opcode's check at the builder's cursors (44 R272), case by case -/

section
variable {c : Config} {waves : List (Nat × WaveRange)} {b : Build} {id n k h : Nat} {outer : List Nat} {r : WaveRange}

theorem advPlayWave_live (hl : liveWave c waves id = some r) :
    advPlayWave c waves b id = .ok { b with q := b.q + 1, m := b.m + 1 } := by rw [advPlayWave, hl]

theorem advPlayWave_dead (hl : liveWave c waves id = none) : advPlayWave c waves b id = .error .badWaveId := by
  rw [advPlayWave, hl]

theorem advDelayMicros_tooLong (hn : 2 ^ 28 ≤ n) : advDelayMicros b n = .error .delayTooLong := if_pos (by omega)

theorem advDelayMicros_pos (h0 : 0 < n) (hn : n < 2 ^ 28) : advDelayMicros b n = .ok { b with q := b.q + 1 } := by
  rw [advDelayMicros, if_neg (by omega), if_pos h0]

theorem advLoopBegin_tooDeep (hd : b.openHeads.length = c.maxLoopDepth) :
    advLoopBegin c b = .error .nestingTooDeep := if_pos hd

theorem advLoopBegin_ok (hd : b.openHeads.length ≠ c.maxLoopDepth) :
    advLoopBegin c b = .ok { b with q := b.q + 1, openHeads := b.q :: b.openHeads } := if_neg hd

theorem advLoopEnd_unopened (ho : b.openHeads = []) : advLoopEnd c b k = .error .badLoop := by
  rw [advLoopEnd, ho]

variable (ho : b.openHeads = h :: outer)
include ho

theorem advLoopEnd_badCount (hk : c.blockLength ^ c.blocks < k) : advLoopEnd c b k = .error .badLoopCount := by
  rw [advLoopEnd, ho]
  exact if_pos hk

variable (hk : k ≤ c.blockLength ^ c.blocks)
include hk

/-- LoopEnd(0) and LoopEnd(1) take no Counter. -/
theorem advLoopEnd_plain (h2 : k < 2) : advLoopEnd c b k = .ok { b with openHeads := outer } := by
  rw [advLoopEnd, ho]
  dsimp only
  rw [if_neg (by omega), if_neg (by omega)]

theorem advLoopEnd_noCounter (h2 : 2 ≤ k) (hn : c.maxCounters < b.counters + 1) :
    advLoopEnd c b k = .error .chainTooBig := by
  rw [advLoopEnd, ho]
  dsimp only
  rw [if_neg (by omega), if_pos h2, if_pos hn]

theorem advLoopEnd_counter (h2 : 2 ≤ k) (hn : b.counters + 1 ≤ c.maxCounters) :
    advLoopEnd c b k = .ok { b with
      openHeads := outer, counters := b.counters + 1, q := b.q + (3 * c.blocks + 1),
      m := b.m + 2 * c.blocks * (c.blockLength + 1) } := by
  rw [advLoopEnd, ho]
  dsimp only
  rw [if_neg (by omega), if_pos h2, if_neg (by omega)]

end

/-! ### A chain opcode on its own (44 R272, R274) -/

section
variable {s : State} {adv : Except HostReject Build} {b : Build}

theorem State.emitOp_rejected {e : HostReject} (h : guardOp s.cfg s.host.build adv = .error e)
    (stores : List HostTask) : s.emitOp adv stores = .next (s.reject e) := by rw [State.emitOp, h]

theorem State.emitOp_admitted (h : guardOp s.cfg s.host.build adv = .ok b) (stores : List HostTask) :
    s.emitOp adv stores = .next ((s.setBuild b).pushTasks stores) := by rw [State.emitOp, h]

variable {i : Instr}

/-- What every chain opcode does: it emits, or is rejected. -/
theorem exec_chain (hk : i.kind = .chain) (s : State) : ∃ adv stores, exec i s = s.emitOp adv stores := by
  cases i <;> simp only [Instr.kind, reduceCtorEq] at hk
  case playWave id => exact ⟨_, _, rfl⟩
  case delayMicros n => exact ⟨_, _, rfl⟩
  case loopBegin => exact ⟨_, _, rfl⟩
  case loopEnd k => exact ⟨_, _, rfl⟩
  case repeatForever => exact ⟨_, _, rfl⟩

/-- The STOREs of LoopEnd with a head open. -/
theorem loopEndTasks_open {c : Config} {h : Nat} {outer : List Nat} (ho : b.openHeads = h :: outer) (k : Nat) :
    loopEndTasks c b k = if k = 0 then [.instr (.store (c.chainCb h + 0x14#32) (c.chainCb b.q))]
      else if k = 1 then []
      else counterTasks c b.q b.m (c.chainCb h) (c.chainCb (b.q + 3 * c.blocks + 1)) (k - 1) := by
  rw [loopEndTasks, ho]

end

/-- Settles O46, opcode by opcode: each is admitted at these cursors. -/
theorem straightOpcodesEmit : Obligations.StraightOpcodesEmit := by
  intro s q m n open' hb hm
  have hrep : s.host.build.seenRepeat = false := by rw [hb]
  refine ⟨fun id r hid hget hlive hq hm1 => ?playWave, fun k h0 hk hq => ?delay, fun hq => ?noDelay,
    fun hd hq => ?loopBegin⟩
  case playWave =>
    have hl := liveWave_eq_some hid hget hlive
    rw [exec, execPlayWave, advPlayWave_live hl,
      State.emitOp_admitted (guardOp_fits hrep (by rw [hb]; exact hq) (by rw [hb]; exact hm1)), playWaveTasks, hl, hb]
    rfl
  case delay =>
    rw [exec, execDelayMicros, advDelayMicros_pos h0 hk,
      State.emitOp_admitted (guardOp_fits hrep (by rw [hb]; exact hq) (by rw [hb]; exact hm)), delayMicrosTasks,
      if_pos h0, hb]
    rfl
  case noDelay =>
    exact State.emitOp_admitted (guardOp_fits hrep (by rw [hb]; exact hq) (by rw [hb]; exact hm)) []
  case loopBegin =>
    rw [exec, execLoopBegin, advLoopBegin_ok (by rw [hb]; exact hd),
      State.emitOp_admitted (guardOp_fits hrep (by rw [hb]; exact hq) (by rw [hb]; exact hm)), loopBeginTasks, hb]
    rfl

/-- Settles O47, by the count. -/
theorem loopEndEmits : Obligations.LoopEndEmits := by
  intro s q m n h k outer hb hq hm
  have hrep : s.host.build.seenRepeat = false := by rw [hb]
  have ho : s.host.build.openHeads = h :: outer := by rw [hb]
  have hplain : ∀ {j}, j < 2 → j ≤ s.cfg.blockLength ^ s.cfg.blocks → exec (.loopEnd j) s =
      .next ((s.setBuild ⟨q, m, n, outer, false⟩).pushTasks (loopEndTasks s.cfg s.host.build j)) := fun h2 hj => by
    rw [exec, execLoopEnd, advLoopEnd_plain ho hj h2,
      State.emitOp_admitted (guardOp_fits hrep (by rw [hb]; exact hq) (by rw [hb]; exact hm)), hb]
  refine ⟨?zero, fun h1 => ?one, fun h2 hk hn hq' hm' => ?counter⟩
  case zero =>
    rw [hplain (by omega) (Nat.zero_le _), loopEndTasks_open ho, if_pos rfl, hb]
    rfl
  case one =>
    rw [hplain (by omega) h1, loopEndTasks_open ho, if_neg (by omega), if_pos rfl]
    rfl
  case counter =>
    rw [exec, execLoopEnd, advLoopEnd_counter ho hk h2 (by rw [hb]; exact hn),
      State.emitOp_admitted (guardOp_fits hrep (by rw [hb]; exact hq') (by rw [hb]; exact hm')), loopEndTasks_open ho,
      if_neg (by omega), if_neg (by omega), hb]
    rfl

section
variable {c : Config} {b : Build}

/-- The tail's NEXT: 0 without RepeatForever, and with it the outermost head still open, or CH(0) (44 R290, R291). -/
theorem tailNext_eq : tailNext c b = if b.seenRepeat then c.chainCb (b.openHeads.getLast?.getD 0) else 0#32 := by
  rw [tailNext]
  cases b.openHeads.getLast? <;> rfl

end

/-- Settles O48: the opcode is admitted with no stores; the tail's NEXT by RepeatForever and the open heads. -/
theorem repeatForeverClosesTheGraph : Obligations.RepeatForeverClosesTheGraph := by
  refine ⟨fun s hrep hq hm => ?opcode, fun s ts next htodo hnext => ?tail⟩
  case opcode =>
    exact State.emitOp_admitted (guardOp_fits (b' := { s.host.build with seenRepeat := true }) hrep hq hm) []
  case tail =>
    have he : tailNext s.cfg s.host.build = next := by
      rw [tailNext_eq]
      rcases hnext with ⟨hrep, rfl⟩ | ⟨hrep, ho, rfl⟩ | ⟨hrep, inner, h, ho, rfl⟩ <;> rw [hrep]
      · rfl
      · rw [ho]; rfl
      · rw [ho, List.getLast?_concat]; rfl
    rw [← he]
    exact host_task htodo nofun nofun

/-- Settles O49: what emission does, and each rejection by the check that fails. -/
theorem chainOpcodesEmitOrReject : Obligations.ChainOpcodesEmitOrReject := by
  refine ⟨fun i s t hk ht => ?shape, fun s => ⟨fun i hk hrep => ?last, fun hrep => ?codes⟩⟩
  case shape =>
    obtain ⟨adv, stores, he⟩ := exec_chain hk s
    rw [he] at ht
    rcases s.emitOp_cases adv stores with ⟨e, -, h⟩ | ⟨b, -, h⟩ <;> rw [h] at ht <;> cases ht
    · exact .inr ⟨e, rfl⟩
    · exact .inl ⟨b, stores, rfl⟩
  case last =>
    obtain ⟨adv, stores, he⟩ := exec_chain hk s
    rw [he]
    exact State.emitOp_rejected (guardOp_mustBeLast hrep adv) stores
  case codes =>
    have hbad : ∀ {adv e} (stores : List HostTask), adv = .error e → s.emitOp adv stores = .next (s.reject e) :=
      fun stores h => State.emitOp_rejected (by rw [h, guardOp_error hrep]) stores
    have hbig : ∀ {adv b} (stores : List HostTask), adv = .ok b →
        (s.cfg.chainCbBus.length < b.q + 1 ∨ s.cfg.chainOol < b.m) →
        s.emitOp adv stores = .next (s.reject .chainTooBig) :=
      fun stores h hb => State.emitOp_rejected (by rw [h, guardOp_tooBig hrep hb]) stores
    refine ⟨fun id hid => hbad _ (advPlayWave_dead (liveWave_eq_none hid)),
      fun k hk => hbad _ (advDelayMicros_tooLong hk), fun hd => hbad _ (advLoopBegin_tooDeep hd),
      fun k ho => hbad _ (advLoopEnd_unopened ho), fun k ho hk => ?badCount, fun k ho hk h2 hroom => ?counter,
      fun hd hq => hbig _ (advLoopBegin_ok hd) (.inl hq),
      fun id r hid hget hlive hroom => hbig _ (advPlayWave_live (liveWave_eq_some hid hget hlive)) hroom,
      fun n h0 hn hroom => hbig _ (advDelayMicros_pos h0 hn) hroom⟩
    case badCount =>
      obtain ⟨h, outer, ho⟩ := List.exists_cons_of_ne_nil ho
      exact hbad _ (advLoopEnd_badCount ho hk)
    case counter =>
      obtain ⟨h, outer, ho⟩ := List.exists_cons_of_ne_nil ho
      by_cases hn : s.cfg.maxCounters < s.host.build.counters + 1
      · exact hbad _ (advLoopEnd_noCounter ho hk h2 hn)
      · exact hbig _ (advLoopEnd_counter ho hk h2 (by omega)) (by dsimp only; omega)

end Sys2Proof.Machine

namespace Sys2Proof.Machine

/-! ### The size of an admitted program (44 R272, R273) -/

section
variable {c : Config} {waves : List (Nat × WaveRange)} {b b' : Build}

/-- What the checks around an opcode admit. -/
theorem guardOp_eq_ok_iff {adv : Except HostReject Build} : guardOp c b adv = .ok b' ↔
    b.seenRepeat = false ∧ adv = .ok b' ∧ b'.q + 1 ≤ c.chainCbBus.length ∧ b'.m ≤ c.chainOol := by
  constructor
  · intro h
    unfold guardOp at h
    split_ifs at h with hrep
    split at h
    · cases h
    · split_ifs at h with hbig
      cases h
      exact ⟨by simpa using hrep, rfl, by omega, by omega⟩
  · rintro ⟨hrep, rfl, hq, hm⟩
    exact guardOp_fits hrep hq hm

theorem advPlayWave_eq_ok_iff {id : Nat} : advPlayWave c waves b id = .ok b' ↔
    (∃ r, liveWave c waves id = some r) ∧ b' = { b with q := b.q + 1, m := b.m + 1 } := by
  rcases hl : liveWave c waves id with _ | r
  · simp [advPlayWave_dead hl]
  · simp [advPlayWave_live hl, eq_comm]

theorem advDelayMicros_ok {n : Nat} (h : advDelayMicros b n = .ok b') :
    n < 2 ^ 28 ∧ b' = { b with q := b.q + if 0 < n then 1 else 0 } := by
  by_cases hn : n < 2 ^ 28
  · refine ⟨hn, ?_⟩
    rcases n.eq_zero_or_pos with rfl | h0
    · cases h; rfl
    · rw [advDelayMicros_pos h0 hn] at h
      rw [if_pos h0]
      exact (Except.ok.inj h).symm
  · rw [advDelayMicros_tooLong (by omega)] at h
    cases h

theorem advLoopBegin_eq_ok_iff : advLoopBegin c b = .ok b' ↔
    b.openHeads.length ≠ c.maxLoopDepth ∧ b' = { b with q := b.q + 1, openHeads := b.q :: b.openHeads } := by
  by_cases hd : b.openHeads.length = c.maxLoopDepth
  · simp [advLoopBegin_tooDeep hd, hd]
  · simp [advLoopBegin_ok hd, hd, eq_comm]

/-- An admitted LoopEnd pops the innermost head; from 2 on it takes a Counter. -/
theorem advLoopEnd_ok_cases {k : Nat} (h : advLoopEnd c b k = .ok b') : ∃ head outer, b.openHeads = head :: outer ∧
    ((k < 2 ∧ b' = { b with openHeads := outer }) ∨
      (2 ≤ k ∧ b.counters + 1 ≤ c.maxCounters ∧ b' = { b with
        openHeads := outer, counters := b.counters + 1, q := b.q + (3 * c.blocks + 1),
        m := b.m + 2 * c.blocks * (c.blockLength + 1) })) := by
  rcases ho : b.openHeads with _ | ⟨head, outer⟩
  · rw [advLoopEnd_unopened ho] at h; cases h
  by_cases hk : k ≤ c.blockLength ^ c.blocks
  · refine ⟨head, outer, rfl, ?_⟩
    by_cases h2 : k < 2
    · rw [advLoopEnd_plain ho hk h2] at h
      cases h
      exact .inl ⟨h2, rfl⟩
    by_cases hn : b.counters + 1 ≤ c.maxCounters
    · rw [advLoopEnd_counter ho hk (by omega) hn] at h
      cases h
      exact .inr ⟨by omega, hn, rfl⟩
    · rw [advLoopEnd_noCounter ho hk (by omega) (by omega)] at h
      cases h
  · rw [advLoopEnd_badCount ho (by omega)] at h
    cases h

/-- An admitted opcode moves the cursors by what 44 R273 counts for it, and keeps the Counters within their limit. -/
theorem advanceOp_cost {i : Instr} (hk : i.kind = .chain) (h : advanceOp c waves b i = .ok b') :
    b'.q = b.q + chainCbCost c (some i) ∧ b'.m = b.m + chainOolCost c (some i) ∧
      (b.counters ≤ c.maxCounters → b'.counters ≤ c.maxCounters) := by
  cases i <;> simp only [Instr.kind, reduceCtorEq] at hk <;>
    simp only [advanceOp] at h <;> obtain ⟨-, ha, -, -⟩ := guardOp_eq_ok_iff.1 h
  case playWave id =>
    obtain ⟨-, rfl⟩ := advPlayWave_eq_ok_iff.1 ha
    exact ⟨rfl, rfl, fun hn => hn⟩
  case delayMicros n =>
    obtain ⟨-, rfl⟩ := advDelayMicros_ok ha
    exact ⟨rfl, rfl, fun hn => hn⟩
  case loopBegin =>
    obtain ⟨-, rfl⟩ := advLoopBegin_eq_ok_iff.1 ha
    exact ⟨rfl, rfl, fun hn => hn⟩
  case loopEnd k =>
    obtain ⟨head, outer, -, ⟨h2, rfl⟩ | ⟨h2, hn, rfl⟩⟩ := advLoopEnd_ok_cases ha
    · simp [chainCbCost, chainOolCost, show ¬ 2 ≤ k by omega]
    · simp [chainCbCost, chainOolCost, h2, hn]
  case repeatForever =>
    cases ha
    exact ⟨rfl, rfl, fun hn => hn⟩

/-- The cursors after an admitted program are the sums of its opcodes' costs. -/
theorem advanceItems_cost {prog : List ChainItem} (h : advanceItems c waves b prog = .ok b') :
    b'.q = b.q + (prog.map fun x => chainCbCost c x.opcode).sum ∧
    b'.m = b.m + (prog.map fun x => chainOolCost c x.opcode).sum ∧
    (b.counters ≤ c.maxCounters → b'.counters ≤ c.maxCounters) ∧ ∀ x ∈ prog, x.opcode ≠ none := by
  induction prog generalizing b with
  | nil => cases h; exact ⟨rfl, rfl, id, nofun⟩
  | cons x xs ih =>
    obtain ⟨i, b1, hi, ha, -, hxs, -⟩ := advanceItems_cons h
    obtain ⟨hq, hm, hn⟩ := advanceOp_cost (opcode_chain hi) ha
    obtain ⟨hqs, hms, hns, hop⟩ := ih hxs
    simp only [List.map_cons, List.sum_cons, hi, List.forall_mem_cons]
    exact ⟨by omega, by omega, hns ∘ hn, by simp, hop⟩

/-- A valid program is admitted item by item. -/
theorem validate_ok {prog : List ChainItem} (h : validate c waves prog = .ok b) :
    advanceItems c waves Build.init prog = .ok b := by
  unfold validate at h
  split at h
  · cases h
  · split_ifs at h
    cases h
    assumption

end

/-- Settles O52: the cursors are the sums of the costs, and the builder stays within the chain region. -/
theorem validProgramsHaveTheirSize : Obligations.ValidProgramsHaveTheirSize := by
  intro c waves prog b hok hv
  have M := Config.meets hok
  obtain ⟨hq, hm, hn, hop⟩ := advanceItems_cost (validate_ok hv)
  obtain ⟨⟨hroom, hool, -, -⟩, -⟩ := items_where M prog Build.init b (Build.good_init M) (validate_ok hv)
  have hq0 : Build.init.q = 0 := rfl
  have hm0 : Build.init.m = 0 := rfl
  exact ⟨by omega, by omega, hroom, hool, hn (Nat.zero_le _), hop⟩

end Sys2Proof.Machine

namespace Sys2Proof.Machine

/-! ### Memory after a Counter's STOREs (44 R298, R299) -/

/-- What a Counter is stored as. -/
def counterPairs (c : Config) (q m : Nat) (R X : Word) (v : Nat) : List (Word × Word) :=
  counterArrayPairs c q m R v ++ counterDescPairs c q m R X v

section
variable {c : Config} {q m v d : Nat} {R X : Word}

theorem mem_counterDescPairs {p : Word × Word} : p ∈ counterDescPairs c q m R X v ↔ ∃ j k, j ≤ 3 * c.blocks ∧ k < 8 ∧
    p.1 = c.chainCb (q + j) + BitVec.ofNat 32 (4 * k) ∧ (counterDescAt c q m R X v j).words[k]? = some p.2 := by
  simp only [counterDescPairs, List.mem_flatMap, mem_counterDescs, mem_descPairs]
  constructor
  · rintro ⟨-, ⟨j, hj, rfl⟩, k, hk, ha, hv⟩
    exact ⟨j, k, hj, hk, ha, hv⟩
  · rintro ⟨j, k, hj, hk, ha, hv⟩
    exact ⟨_, ⟨j, hj, rfl⟩, k, hk, ha, hv⟩

/-- The branch write of digit d (44 R299). -/
theorem counterDescAt_branch (hd : d < c.blocks) : counterDescAt c q m R X v (3 * d) = ⟨0x04000008#32,
    c.chainCo (m + d * (c.blockLength + 1) + 0), c.chainCb (q + 3 * d + 2) + 0x14#32, 4#32, 0#32,
    c.chainCb (q + 3 * d + 1)⟩ := by
  rw [counterDescAt, if_neg (by omega), if_pos (by omega), Nat.mul_div_cancel_left d (by omega)]
  rfl

/-- The save of digit d's head. -/
theorem counterDescAt_save : counterDescAt c q m R X v (3 * d + 1) = ⟨0x04000008#32,
    c.chainCo (m + d * (c.blockLength + 1) + 0), c.chainCo (m + d * (c.blockLength + 1) + c.blockLength), 4#32, 0#32,
    c.chainCb (q + 3 * d + 2)⟩ := by
  rw [counterDescAt, if_neg (by omega), if_neg (by omega), if_pos (by omega), show (3 * d + 1) / 3 = d by omega]
  rfl

/-- The rotate of digit d, its NEXT the array's first word. -/
theorem counterDescAt_rotate (hL : 2 ≤ c.blockLength) :
    counterDescAt c q m R X v (3 * d + 2) = ⟨0x04000118#32, c.chainCo (m + d * (c.blockLength + 1) + 1),
      c.chainCo (m + d * (c.blockLength + 1) + 0), BitVec.ofNat 32 (4 * c.blockLength), 0#32,
      counterInit c q R v d 0⟩ := by
  rw [counterDescAt, if_neg (by omega), if_neg (by omega), if_neg (by omega), show (3 * d + 2) / 3 = d by omega,
    descCopyWords, if_neg (by omega), counterInit]
  simp only [show 0 < c.blockLength by omega, true_and]
  rfl

/-- The exit and restore descriptor E. -/
theorem counterDescAt_exit (hL : 2 ≤ c.blockLength) (hB : 1 ≤ c.blocks) :
    counterDescAt c q m R X v (3 * c.blocks) = ⟨0x04000118#32,
      c.chainCo (m + c.blocks * (c.blockLength + 1) + 0 * (c.blockLength + 1) + 0),
      c.chainCo (m + 0 * (c.blockLength + 1) + 0), BitVec.ofNat 32 (4 * (c.blocks * (c.blockLength + 1))), 0#32,
      X⟩ := by
  have hw : 1 * 2 ≤ c.blocks * (c.blockLength + 1) := Nat.mul_le_mul hB (by omega)
  rw [counterDescAt, if_pos rfl, Config.exitDesc]
  dsimp only
  rw [descCopyWords, if_neg (by omega)]
  rfl

section
variable (M : c.Meets) {mem : Memory} (h : ∀ p ∈ counterPairs c q m R X v, mem.word p.1 = some p.2)
include h

theorem counter_descAt {j : Nat} (hj : j ≤ 3 * c.blocks) {D : Desc} (hD : counterDescAt c q m R X v j = D) :
    descAt mem (c.chainCb (q + j)) D := by
  intro k hk
  have hv := List.getElem?_eq_getElem (Desc.words_length D ▸ hk)
  rw [hv]
  exact h (_, _) (List.mem_append_right _ (mem_counterDescPairs.2 ⟨j, k, hj, hk, rfl, hD ▸ hv⟩))

/-- Word i of digit d's arrays, the working (e = 0) and the pristine one (e = 1). -/
theorem counter_array_word {i e : Nat} (hd : d < c.blocks) (hi : i ≤ c.blockLength) (he : e < 2) :
    mem.word (c.chainCo (m + (e * c.blocks + d) * (c.blockLength + 1) + i)) = some (counterInit c q R v d i) :=
  h (_, _) (List.mem_append_left _ (mem_counterArrayPairs.2 ⟨d, i, e, hd, hi, he, rfl⟩))

include M

/-- A Counter whose words stand in memory stands as 44 R298 and R299 lay it out. -/
theorem counterAt_of_stored : counterAt c mem q m v R X := by
  refine ⟨fun d hd i hi => ⟨?working, ?pristine⟩, fun d hd => ⟨?branch, ?save, ?rotate⟩, ?exit⟩
  case working =>
    have hw := counter_array_word h hd hi (e := 0) (by omega)
    rwa [Nat.zero_mul, Nat.zero_add] at hw
  case pristine =>
    have hw := counter_array_word h hd hi (e := 1) (by omega)
    rwa [Nat.one_mul, Nat.add_mul, ← Nat.add_assoc] at hw
  case branch => exact counter_descAt h (by omega) (counterDescAt_branch hd)
  case save => exact counter_descAt h (j := 3 * d + 1) (by omega) counterDescAt_save
  case rotate => exact counter_descAt h (j := 3 * d + 2) (by omega) (counterDescAt_rotate M.radix)
  case exit => exact counter_descAt h le_rfl (counterDescAt_exit M.radix M.digits)

end

variable (M : c.Meets) (hq : q + 3 * c.blocks + 1 ≤ c.chainCbBus.length)
  (hm : m + 2 * c.blocks * (c.blockLength + 1) ≤ c.chainOol)
include M hq hm

theorem counterPairs_stores : ChainStores c (counterPairs c q m R X v) := ChainStores.counter M hq hm

/-- Each word of a Counter is stored with one value. -/
theorem counterPairs_unique {p r : Word × Word} (hp : p ∈ counterPairs c q m R X v)
    (hr : r ∈ counterPairs c q m R X v) (h : p.1 = r.1) : p.2 = r.2 := by
  have apart : ∀ {a r : Word × Word}, a ∈ counterArrayPairs c q m R v → r ∈ counterDescPairs c q m R X v →
      r.1 ≠ a.1 := fun ha hr => by
    obtain ⟨d, i, e, hd, hi, he, rfl⟩ := mem_counterArrayPairs.1 ha
    obtain ⟨j, k, hj, hk, hrj, -⟩ := mem_counterDescPairs.1 hr
    have := counter_index_lt hd hi he
    exact hrj ▸ chainCb_word_ne_chainCo M (by omega) (by omega) hk
  rcases List.mem_append.1 hp with hp | hp <;> rcases List.mem_append.1 hr with hr | hr
  · obtain ⟨d, i, e, hd, hi, he, rfl⟩ := mem_counterArrayPairs.1 hp
    obtain ⟨d', i', e', hd', hi', he', rfl⟩ := mem_counterArrayPairs.1 hr
    have hlt := counter_index_lt hd hi he
    have hlt' := counter_index_lt hd' hi' he'
    have hidx := chainCo_inj M (by omega) (by omega) h
    obtain ⟨rfl, rfl⟩ := counter_index_inj hd hi he hd' hi' he' (by omega)
    rfl
  · exact absurd h.symm (apart hp hr)
  · exact absurd h (apart hr hp)
  · obtain ⟨j, k, hj, hk, hpj, hpv⟩ := mem_counterDescPairs.1 hp
    obtain ⟨j', k', hj', hk', hrj, hrv⟩ := mem_counterDescPairs.1 hr
    rw [hpj, hrj] at h
    obtain ⟨hjj, rfl⟩ := chainCb_word_inj M (by omega) (by omega) hk hk' h
    obtain rfl : j = j' := by omega
    exact Option.some.inj (hpv.symm.trans hrv)

/-- Every word stored stands in memory afterwards. -/
theorem counter_word (mem : Memory) {p : Word × Word} (hp : p ∈ counterPairs c q m R X v) :
    (Memory.writeAll mem (counterPairs c q m R X v)).word p.1 = some p.2 :=
  have hal := (counterPairs_stores (R := R) (X := X) (v := v) M hq hm).aligned
  Memory.writeAll_word (hal p hp) hal (.inl ⟨p, hp, rfl⟩) fun _ hr h => counterPairs_unique M hq hm hr hp h

/-- A Counter's STOREs leave every byte outside its slots and arrays as it was. -/
theorem counter_byte_kept (mem : Memory) {x : Nat} (hcb : ∀ j, q ≤ j → j ≤ q + 3 * c.blocks →
      x < (c.chainCb j).toNat ∨ (c.chainCb j).toNat + 32 ≤ x)
    (hco : x < (c.chainCo m).toNat ∨ (c.chainCo m).toNat + 8 * (c.blocks * (c.blockLength + 1)) ≤ x) :
    (Memory.writeAll mem (counterPairs c q m R X v)).byte x = mem.byte x := by
  refine Memory.writeAll_byte fun p hp => ?_
  rcases List.mem_append.1 hp with hp | hp
  · obtain ⟨d, i, e, hd, hi, he, rfl⟩ := mem_counterArrayPairs.1 hp
    have hlt := counter_index_lt hd hi he
    rw [M.chainCo_toNat (by omega)] at hco
    rw [Nat.mul_assoc] at hlt hm
    dsimp only
    rw [M.chainCo_toNat (by omega)]
    omega
  · obtain ⟨j, k, hj, hk, hpj, -⟩ := mem_counterDescPairs.1 hp
    have haddr := descWord_toNat_of_aligned (M.chainCb_fetchable (i := q + j) (by omega)).2 hk
    have := hcb (q + j) (by omega) (by omega)
    rw [hpj, haddr]
    omega

end

/-- A copy of 2^28 words or more fails the length check (30 R122 step 5; log 36). -/
theorem decodeDesc_copy_tooLong (c : Config) {w : Nat} (hlo : 2 ^ 28 ≤ w) (hhi : w < 2 ^ 30) (src dst next : Word) :
    decodeDesc c ⟨0x04000118#32, src, dst, BitVec.ofNat 32 (4 * w), 0#32, next⟩ = .error .badLength := by
  have hti : c.admittedTI 0x04000118#32 = true := by
    show c.admittedTI tiInc = true
    rw [← XferTI.word_inc, admittedTI_word]
    nofun
  refine decodeDesc_of_check ?_
  rw [Desc.check_eq, if_neg (by rw [hti]; decide), if_pos]
  left
  rw [BitVec.toNat_ofNat]
  omega

/-- Settles O50: the host's turns, the memory they leave, and the length check of a longer copy. -/
theorem counterIsLaidOut : Obligations.CounterIsLaidOut := by
  intro s q m v R X ts hok hq hm htodo n
  have M := Config.meets hok
  rw [counterTasks_eq] at htodo
  have hreach : ∀ p ∈ counterPairs s.cfg q m R X v, s.hostReaches p.1 = true := fun p hp =>
    have ⟨hal, hmem, _⟩ := counterPairs_stores M hq hm p hp
    State.hostReaches_iff.2 ⟨hal, hmem⟩
  refine ⟨⟨_, _, stores_run htodo hreach, counterAt_of_stored M fun _ hp => counter_word M hq hm s.mem hp,
    fun x hcb hco => counter_byte_kept M hq hm s.mem hcb hco⟩, fun w src dst next hw hlo => ?tooLong⟩
  case tooLong =>
    have hend := M.oolEnd
    have hLn : 1 * s.cfg.blockLength ≤ s.cfg.blocks * (s.cfg.blockLength + 1) := Nat.mul_le_mul M.digits (by omega)
    rw [Nat.mul_assoc] at hm
    exact decodeDesc_copy_tooLong _ hlo (by omega) src dst next

end Sys2Proof.Machine

namespace Sys2Proof.Machine

/-! ### Words of the chain region by position (44 R270) -/

/-- A word of the chain region: word k of descriptor j, or OOL word n. -/
inductive ChainSpot where
  | cb (j k : Nat)
  | co (n : Nat)
  deriving DecidableEq

/-- Its address. -/
def ChainSpot.addr (c : Config) : ChainSpot → Word
  | .cb j k => c.chainCb j + BitVec.ofNat 32 (4 * k)
  | .co n => c.chainCo n

/-- The chain region has it. -/
def ChainSpot.ok (c : Config) : ChainSpot → Prop
  | .cb j k => j < c.chainCbBus.length ∧ k < 8
  | .co n => n < c.chainOol

section
variable {c : Config} (M : c.Meets) {x y : ChainSpot}
include M

theorem ChainSpot.addr_inj (hx : x.ok c) (hy : y.ok c) (h : x.addr c = y.addr c) : x = y := by
  rcases x with ⟨j, k⟩ | n <;> rcases y with ⟨j', k'⟩ | n'
  · obtain ⟨rfl, rfl⟩ := chainCb_word_inj M hx.1 hy.1 hx.2 hy.2 h
    rfl
  · exact absurd h (chainCb_word_ne_chainCo M hx.1 hy hx.2)
  · exact absurd h.symm (chainCb_word_ne_chainCo M hy.1 hx hy.2)
  · exact congrArg ChainSpot.co (chainCo_inj M hx hy h)

theorem ChainSpot.aligned (hx : x.ok c) : wordAligned (x.addr c) = true := by
  rcases x with ⟨j, k⟩ | n
  · have := (M.chainCb_fetchable hx.1).2
    exact wordAligned_add (by omega) k
  · exact (wordAligned_iff _).2 (M.chainCo_mem hx).2

/-- A write of one word of the chain region, as every word of it reads afterwards. -/
theorem ChainSpot.word_writeWord (hx : x.ok c) (hy : y.ok c) (m : Memory) (v : Word) :
    (m.writeWord (x.addr c) v).word (y.addr c) = if y = x then some v else m.word (y.addr c) := by
  have hiff : y.addr c = x.addr c ↔ y = x := ⟨addr_inj M hy hx, congrArg _⟩
  rw [Memory.word_writeWord m v (aligned M hx) (aligned M hy)]
  simp only [hiff]

end

/-- The words of a descriptor with another NEXTCONBK (30 R110). -/
theorem Desc.words_next (d : Desc) (v : Word) {k : Nat} (hk : k < 8) :
    ({ d with nextconbk := v } : Desc).words[k]? = if k = 5 then some v else d.words[k]? := by
  interval_cases k <;> rfl

/-- A write of a chain descriptor's NEXTCONBK word leaves the descriptor with that NEXT. -/
theorem descAt_writeNext {c : Config} (M : c.Meets) {m : Memory} {j : Nat} {d : Desc}
    (hj : j < c.chainCbBus.length) (hd : descAt m (c.chainCb j) d) (v : Word) :
    descAt (m.writeWord (c.chainCb j + 0x14#32) v) (c.chainCb j) { d with nextconbk := v } := by
  intro k hk
  have h := ChainSpot.word_writeWord M (x := .cb j 5) (y := .cb j k) ⟨hj, by omega⟩ ⟨hj, hk⟩ m v
  simp only [ChainSpot.cb.injEq, true_and] at h
  rw [Desc.words_next d v hk, ← hd k hk]
  exact h

/-! ### A channel's turns through one descriptor (40 R150 to R153) -/

section
variable {s : State} {ch : ChanId} {d : Desc} {i : Instr}

/-- FETCH reads the descriptor that stands at the address (30 R122 steps 1 to 3). -/
theorem State.fetchInstr_of_descAt {a : Word} (ha : a.toNat % 32 = 0) (hf : s.cfg.fetchable a = true)
    (hd : descAt s.mem a d) : s.fetchInstr [] a = decodeDesc s.cfg d :=
  s.fetchInstr_words [] ha hf (w6 := 0#32) (w7 := 0#32) hd

/-- The turn of the current channel with a descriptor loaded, whether it may step or holds. -/
theorem chanStep_loaded {n k : Nat} {h : Option Word} (hcur : s.cur = ch) (hp : (s.chan ch).phase = .exec d n k h)
    (hi : decodeDesc s.cfg d = .ok i) : s.agentStep (.chan ch) = exec i s := by
  subst hcur
  rcases hc : s.canStep s.cur with _ | _
  · rw [exec_decoded hi, State.engineStep_disabled hc]
    exact State.chanStep_disabled hc
  · exact State.chanStep_exec hc hp hi

/-- After BEAT-READ the same descriptor is loaded, also where the read faults (40 R152). -/
theorem State.engineStep_read_loaded {n k : Nat} (hp : (s.chan ch).phase = .exec d n k none) (hk : k < n) :
    ∃ h, ((s.engineStep ch d).chan ch).phase = .exec d n k h ∧ (s.engineStep ch d).cfg = s.cfg ∧
      (s.engineStep ch d).cur = s.cur := by
  rcases hc : s.canStep ch with _ | _
  · rw [State.engineStep_disabled hc]
    exact ⟨none, hp, rfl, rfl⟩
  · rw [State.engineStep_read hc hp hk, State.beatRead]
    split
    · rename_i v t hr
      obtain ⟨hcfg, -, hcur, -⟩ := State.busRead_keeps hr
      exact ⟨some v, State.phase_setPhase _ _ _, by simpa using hcfg, by simpa using hcur⟩
    · exact ⟨none, by simpa using hp, by simp, by simp⟩

/-- The two turns of a beat are two steps of the descriptor's instruction. -/
theorem chan_beat_turns {n k : Nat} (hcur : s.cur = ch) (hp : (s.chan ch).phase = .exec d n k none) (hk : k < n)
    (hi : decodeDesc s.cfg d = .ok i) : agentTimes (.chan ch) 2 s = execTimes i 2 s := by
  have he : exec i s = .next (s.engineStep ch d) := hcur ▸ exec_decoded hi
  obtain ⟨h, hp', hcfg', hcur'⟩ := State.engineStep_read_loaded hp hk
  simp only [agentTimes, execTimes, chanStep_loaded hcur hp hi, he,
    chanStep_loaded (hcur'.trans hcur) hp' (hcfg' ▸ hi)]

/-- All turns of the current channel through a descriptor of n beats are the steps of its instruction, from the states
S k before each beat. -/
theorem chan_desc_turns {S : Nat → State} {n : Nat} {e : List (Nat × Option Word)} (hcur : ∀ k, (S k).cur = ch)
    (hi : ∀ k, decodeDesc (S k).cfg d = .ok i) (hc : ∀ k, (S k).canStep ch = true)
    (hp : ((S 0).chan ch).phase = .fetch e) (hf : (S 0).fetchInstr e ((S 0).chan ch).conblkAd = .ok i)
    (hn : d.beats = n) (hn0 : n ≠ 0) (hb : ∀ k, k < n → ∃ v, (S k).busRead (d.srcAt k) = .ok (v, S k) ∧
      (S k).busWrite ch (d.dstAt k) v = .ok (S (k + 1)))
    (hD : d.destDreq = false) (hs : ∀ k, k < n → (S k).isSample (d.srcAt k) (d.dstAt k) = false) :
    agentTimes (.chan ch) (2 * n + 2) (S 0) = .next ((S n).setChan ch (((S n).chan ch).completed d.nextconbk)) := by
  have hdesc : ∀ k, i.desc (S k).cfg = some d := fun k => decodeDesc_desc (hi k)
  have hfetch : (S 0).agentStep (.chan ch) = .next ((S 0).setPhase ch (.exec d n 0 none)) := by
    have h : (S 0).agentStep (.chan ch) = exec i ((S 0).setCur ch) := State.chanStep_fetch (hc 0) hp hf
    have hsc : (S 0).setCur ch = S 0 := hcur 0 ▸ rfl
    rw [h, hsc, exec_desc (hdesc 0), hcur 0, State.engineStep_fetch (hc 0) hp, State.loadDesc, if_neg (by omega), hn]
  have hbeats : ∀ m, m ≤ n → agentTimes (.chan ch) (2 * m) ((S 0).setPhase ch (.exec d n 0 none)) =
      .next ((S m).setPhase ch (.exec d n m none)) := by
    intro m hm
    induction m with
    | zero => rfl
    | succ m ih =>
      obtain ⟨v, hread, hwrite⟩ := hb m (by omega)
      rw [Nat.mul_succ, agentTimes_trans (ih (by omega)), chan_beat_turns (d := d) (i := i)
        (by rw [State.setPhase_cur, hcur]) (State.phase_setPhase _ _ _) (by omega : m < n)
        (by rw [State.setPhase_cfg]; exact hi m)]
      exact beat_pair (hcur m) (hdesc m) (hc m) (by omega) hread (by simp [hD]) hwrite (hs m (by omega))
  have hdone := complete_step (n := n) (hcur n) (hdesc n) (hc n)
  rw [agentTimes_succ hfetch, agentTimes_trans (hbeats n le_rfl), agentTimes, chanStep_loaded (d := d) (i := i)
    (by rw [State.setPhase_cur, hcur]) (State.phase_setPhase _ _ _) (by rw [State.setPhase_cfg]; exact hi n)]
  exact hdone

/-- Channel ch, the current one, about to fetch from a, with memory m. -/
def State.fetching (s : State) (ch : ChanId) (m : Memory) (a : Word) : State :=
  ((s.setCur ch).setMem m).setChan ch { s.chan ch with conblkAd := a, phase := .fetch [] }

@[simp] theorem State.fetching_cfg (s : State) (ch : ChanId) (m : Memory) (a : Word) :
    (s.fetching ch m a).cfg = s.cfg := by simp [State.fetching]

@[simp] theorem State.fetching_mem (s : State) (ch : ChanId) (m : Memory) (a : Word) :
    (s.fetching ch m a).mem = m := by simp [State.fetching]

@[simp] theorem State.fetching_cur (s : State) (ch : ChanId) (m : Memory) (a : Word) :
    (s.fetching ch m a).cur = ch := by simp [State.fetching]

@[simp] theorem State.fetching_chan_self (s : State) (ch : ChanId) (m : Memory) (a : Word) :
    (s.fetching ch m a).chan ch = { s.chan ch with conblkAd := a, phase := .fetch [] } := by simp [State.fetching]

theorem State.fetching_canStep (h : s.canStep ch = true) (m : Memory) (a : Word) :
    (s.fetching ch m a).canStep ch = true := by
  rw [State.canStep_iff] at h ⊢
  simpa using ⟨h.1, h.2.1⟩

/-- Turns of a channel that is about to fetch do not read which channel was current before. -/
theorem chan_turns_fetching (hp : (s.chan ch).phase = .fetch []) (k : Nat) : agentTimes (.chan ch) (k + 1) s =
    agentTimes (.chan ch) (k + 1) (s.fetching ch s.mem (s.chan ch).conblkAd) := by
  have h : s.setCur ch = s.fetching ch s.mem (s.chan ch).conblkAd := by
    rw [State.fetching, ← hp]
    cases ch <;> rfl
  rw [← h]
  rfl

/-- The turns of a channel through a descriptor at a, unpaced and from memory words x to memory words (40 R162). -/
theorem chan_copy_turns {mem : Memory} {a : Word} {x : Nat → Word} (hc : s.canStep ch = true)
    (hal : a.toNat % 32 = 0) (hf : s.cfg.fetchable a = true) (hd : descAt mem a d) (hcheck : d.check s.cfg = none)
    (hn : d.beats ≠ 0) (hD : d.destDreq = false)
    (hsrc : ∀ k, k < d.beats → d.srcAt k = d.sourceAd + BitVec.ofNat 32 (4 * k))
    (hdst : ∀ k, k < d.beats → d.dstAt k = d.destAd + BitVec.ofNat 32 (4 * k))
    (hmem : ∀ k, k < d.beats → s.cfg.inMem (d.srcAt k) = true ∧ s.cfg.inMem (d.dstAt k) = true ∧
      mem.word (d.srcAt k) = some (x k)) (hnext : d.nextconbk ≠ 0#32) :
    agentTimes (.chan ch) (2 * d.beats + 2) (s.fetching ch mem a) =
      .next (s.fetching ch (Memory.writeAll mem (copyPairs d.destAd x d.beats)) d.nextconbk) := by
  let S := (s.fetching ch mem a).copied d.destAd x
  have hcfg : ∀ k, (S k).cfg = s.cfg := fun _ => State.fetching_cfg _ _ _ _
  have hstart : S 0 = s.fetching ch mem a := rfl
  obtain ⟨i, hi, -⟩ := decodeDesc_of_checked hcheck
  obtain ⟨-, -, -, hs4, hd4, -, hover⟩ := (Desc.check_eq_none_iff s.cfg d).1 hcheck
  have hs4 : d.sourceAd.toNat % 4 = 0 := (extract_low2_eq_zero_iff _).1 hs4
  have hd4 : d.destAd.toNat % 4 = 0 := (extract_low2_eq_zero_iff _).1 hd4
  have hfetch : (s.fetching ch mem a).fetchInstr [] a = .ok i := by
    rw [State.fetchInstr_of_descAt hal (by simpa using hf) (by simpa using hd), State.fetching_cfg, hi]
  have hbeat : ∀ k, k < d.beats → ∃ v, (S k).busRead (d.srcAt k) = .ok (v, S k) ∧
      (S k).busWrite ch (d.dstAt k) v = .ok (S (k + 1)) := by
    intro k hk
    obtain ⟨hsm, hdm, hv⟩ := hmem k hk
    have hfresh : ∀ j, j < k → d.destAd + BitVec.ofNat 32 (4 * j) ≠ d.sourceAd + BitVec.ofNat 32 (4 * k) := by
      intro j hj he
      rw [← hdst j (by omega), ← hsrc k hk] at he
      have hno := (overlapCheckMatchesBeats s.cfg d).2 ⟨j, k, hj, hk, he, (hmem j (by omega)).2.1⟩
      rw [hover] at hno
      cases hno
    have hkept : (S k).mem.word (d.sourceAd + BitVec.ofNat 32 (4 * k)) =
        mem.word (d.sourceAd + BitVec.ofNat 32 (4 * k)) := by
      simpa [S, State.copied] using word_writeAll_copyPairs_of_ne (m := mem) (x := x) hs4 hd4 hfresh
    rw [← hcfg k] at hsm hdm
    rw [hsrc k hk] at hsm hv ⊢
    rw [hdst k hk] at hdm ⊢
    exact ⟨x k, State.busRead_memory (wordAligned_add hs4 k) hsm (hkept.trans hv),
      (State.busWrite_memory (wordAligned_add hd4 k) hdm).trans (congrArg _ (State.copied_succ _ _ _ _).symm)⟩
  have hrun := chan_desc_turns (S := S) (fun _ => State.fetching_cur _ _ _ _) (fun k => by rw [hcfg]; exact hi)
    (fun _ => State.fetching_canStep hc _ _) (e := []) (by simp [hstart]) (by simpa [hstart] using hfetch)
    rfl hn hbeat hD fun k hk => State.isSample_memory (by rw [hcfg]; exact (hmem k hk).1)
  rw [← hstart, hrun, Channel.completed, if_neg hnext]
  cases ch <;> rfl

end

end Sys2Proof.Machine

namespace Sys2Proof.Machine

/-! ### The descriptors of a Counter's digit, as FETCH checks them (30 R122; 44 R299) -/

/-- An unpaced descriptor with a length, aligned addresses and no overlap passes the checks. -/
theorem Desc.check_unpaced {c : Config} {d : Desc} {f : XferTI} (hti : d.ti = f.word) (hD : f.destDreq = false)
    (hlen : d.txfrLen.toNat < 2 ^ 30 ∧ d.txfrLen.toNat % 4 = 0) (hs : d.sourceAd.toNat % 4 = 0)
    (hd : d.destAd.toNat % 4 = 0) (hn : d.nextconbk.toNat % 32 = 0) (hover : ¬ d.overlaps c = true) :
    d.check c = none := by
  have hadm : c.admittedTI d.ti = true := by
    rw [hti, admittedTI_word, hD]
    nofun
  rw [Desc.check_eq, if_neg (by rw [hadm]; decide), if_neg (by omega), if_neg (by omega), if_neg (by omega),
    if_neg hover]

theorem descCopy_beats (src dst next : Word) : (descCopy src dst 0#32 next).beats = 1 :=
  Desc.beats_of_lenWord (n := 1#28) ((lenWord_eq_four_iff _).2 rfl).symm

/-- A copy of one word from aligned address to aligned address passes the checks. -/
theorem descCopy_check (c : Config) {src dst next : Word} (hs : src.toNat % 4 = 0) (hd : dst.toNat % 4 = 0)
    (hn : next.toNat % 32 = 0) : (descCopy src dst 0#32 next).check c = none := by
  have hover : ¬ (descCopy src dst 0#32 next).overlaps c = true := by
    rw [overlapCheckMatchesBeats]
    rintro ⟨i, j, hij, hj, -⟩
    rw [descCopy_beats] at hj
    omega
  exact Desc.check_unpaced XferTI.word_normal.symm rfl (by decide : 4 < 2 ^ 30 ∧ 4 % 4 = 0) hs hd hn hover

/-- The length word of a copy of fewer than 2^28 words. -/
theorem lenWord_ofNat {w : Nat} (hw : w < 2 ^ 28) : lenWord (BitVec.ofNat 28 w) = BitVec.ofNat 32 (4 * w) := by
  apply BitVec.eq_of_toNat_eq
  rw [lenWord_toNat, BitVec.toNat_ofNat, BitVec.toNat_ofNat]
  omega

/-- Word k after the next word is word k + 1. -/
theorem add_four_words (a : Word) (k : Nat) :
    a + 4#32 + BitVec.ofNat 32 (4 * k) = a + BitVec.ofNat 32 (4 * (k + 1)) := by
  rw [Nat.mul_succ, BitVec.add_assoc, BitVec.add_comm 4#32, BitVec.ofNat_add]

/-- A rotate to the left by one word passes the checks: no beat reads what an earlier beat wrote. -/
theorem descCopyN_check_rotate (c : Config) {a next : Word} {w : BitVec 28} (ha : a.toNat % 4 = 0)
    (hn : next.toNat % 32 = 0) : (descCopyN (a + 4#32) a w 0#32 next).check c = none := by
  have hw := w.isLt
  have hlen : (descCopyN (a + 4#32) a w 0#32 next).txfrLen.toNat = 4 * w.toNat := lenWord_toNat w
  have hs : (a + 4#32).toNat % 4 = 0 := (wordAligned_iff _).1 (wordAligned_add ha 1)
  have hover : ¬ (descCopyN (a + 4#32) a w 0#32 next).overlaps c = true := by
    rw [overlapCheckMatchesBeats]
    rintro ⟨i, j, hij, hj, he, -⟩
    rw [descCopyN_beats] at hj
    rw [descCopyN_dstAt, descCopyN_srcAt, add_four_words] at he
    have := add_words_inj (by omega) (by omega) he
    omega
  exact Desc.check_unpaced XferTI.word_inc.symm rfl (by omega) hs ha hn hover

/-! ### A digit's three descriptors, one after the other (44 R300, R302) -/

section
variable {s : State} {ch : ChanId} {mem : Memory} {a src dst next v : Word}

/-- A channel's four turns through a copy of the word v. -/
theorem chan_copyWord_turns (hc : s.canStep ch = true) (hal : a.toNat % 32 = 0) (hf : s.cfg.fetchable a = true)
    (hd : descAt mem a (descCopy src dst 0#32 next)) (hs : s.cfg.inMem src = true ∧ src.toNat % 4 = 0)
    (hdst : s.cfg.inMem dst = true ∧ dst.toNat % 4 = 0) (hv : mem.word src = some v) (hn32 : next.toNat % 32 = 0)
    (hn : next ≠ 0#32) :
    agentTimes (.chan ch) 4 (s.fetching ch mem a) = .next (s.fetching ch (mem.writeWord dst v) next) := by
  have hti : (descCopy src dst 0#32 next).ti = XferTI.normal.word := XferTI.word_normal.symm
  have hbeats := descCopy_beats src dst next
  have hsrcAt : ∀ k, (descCopy src dst 0#32 next).srcAt k = src := fun k => Desc.srcAt_fixed k (Desc.srcInc_of_ti hti)
  have hdstAt : ∀ k, (descCopy src dst 0#32 next).dstAt k = dst :=
    fun k => Desc.dstAt_fixed k (Desc.destInc_of_ti hti)
  have hone : ∀ {b : Word} k, k < (descCopy src dst 0#32 next).beats → b = b + BitVec.ofNat 32 (4 * k) := fun k hk => by
    obtain rfl : k = 0 := by omega
    exact (BitVec.add_zero _).symm
  have hrun := chan_copy_turns (x := fun _ => v) hc hal hf hd (descCopy_check s.cfg hs.2 hdst.2 hn32) (by omega)
    (Desc.destDreq_of_ti hti) (fun k hk => (hsrcAt k).trans (hone k hk)) (fun k hk => (hdstAt k).trans (hone k hk))
    (fun k _ => by rw [hsrcAt, hdstAt]; exact ⟨hs.1, hdst.1, hv⟩) hn
  have hstore : Memory.writeAll mem (copyPairs dst (fun _ => v) 1) = mem.writeWord (dst + 0#32) v := rfl
  rw [BitVec.add_zero] at hstore
  rw [hbeats] at hrun
  rw [← hstore]
  exact hrun

/-- A channel's turns through a rotate of w words x to the left by one. -/
theorem chan_rotate_turns {w : Nat} {x : Nat → Word} (hc : s.canStep ch = true) (hal : a.toNat % 32 = 0)
    (hf : s.cfg.fetchable a = true)
    (hd : descAt mem a ⟨0x04000118#32, dst + 4#32, dst, BitVec.ofNat 32 (4 * w), 0#32, next⟩)
    (hw0 : w ≠ 0) (hw : w < 2 ^ 28) (hd4 : dst.toNat % 4 = 0)
    (hm : ∀ k, k ≤ w → s.cfg.inMem (dst + BitVec.ofNat 32 (4 * k)) = true)
    (hx : ∀ k, k < w → mem.word (dst + BitVec.ofNat 32 (4 * (k + 1))) = some (x k))
    (hn32 : next.toNat % 32 = 0) (hn : next ≠ 0#32) :
    agentTimes (.chan ch) (2 * w + 2) (s.fetching ch mem a) =
      .next (s.fetching ch (Memory.writeAll mem (copyPairs dst x w)) next) := by
  rw [← lenWord_ofNat hw] at hd
  have hbeats : (descCopyN (dst + 4#32) dst (BitVec.ofNat 28 w) 0#32 next).beats = w := by
    rw [descCopyN_beats, BitVec.toNat_ofNat, Nat.mod_eq_of_lt hw]
  have hrun := chan_copy_turns (d := descCopyN (dst + 4#32) dst (BitVec.ofNat 28 w) 0#32 next) (x := x) hc hal hf
    hd (descCopyN_check_rotate s.cfg hd4 hn32) (by rw [hbeats]; exact hw0) (descCopyN_destDreq _ _ _ _ _)
    (fun k _ => descCopyN_srcAt _ _ _ _ _ k) (fun k _ => descCopyN_dstAt _ _ _ _ _ k) (fun k hk => ?words) hn
  case words =>
    rw [hbeats] at hk
    rw [descCopyN_srcAt, descCopyN_dstAt, add_four_words]
    exact ⟨hm _ (by omega), hm _ (by omega), hx k hk⟩
  rw [hbeats] at hrun
  exact hrun

end

end Sys2Proof.Machine

namespace Sys2Proof.Machine

/-! ### Memory through a digit's turn (44 R300, R302) -/

section
variable {c : Config}

/-- A word of digit d's working array lies in the chain region. -/
theorem digit_word_lt {m d i : Nat} (hm : m + 2 * c.blocks * (c.blockLength + 1) ≤ c.chainOol) (hd : d < c.blocks)
    (hi : i ≤ c.blockLength) : m + d * (c.blockLength + 1) + i < c.chainOol := by
  have h := counter_index_lt hd hi (e := 0) (by omega)
  rw [Nat.zero_mul, Nat.zero_add] at h
  omega

/-- A write of an OOL word leaves the chain's descriptors alone. -/
theorem descAt_writeOol (M : c.Meets) {mem : Memory} {j n : Nat} {d : Desc} (hj : j < c.chainCbBus.length)
    (hn : n < c.chainOol) (hd : descAt mem (c.chainCb j) d) (v : Word) :
    descAt (mem.writeWord (c.chainCo n) v) (c.chainCb j) d := fun k hk =>
  (ChainSpot.word_writeWord M (x := .co n) (y := .cb j k) hn ⟨hj, hk⟩ mem v).trans ((if_neg nofun).trans (hd k hk))

/-- A write of another descriptor's NEXTCONBK leaves a descriptor alone. -/
theorem descAt_writeNext_of_ne (M : c.Meets) {mem : Memory} {j g : Nat} {d : Desc} (hj : j < c.chainCbBus.length)
    (hg : g < c.chainCbBus.length) (hne : j ≠ g) (hd : descAt mem (c.chainCb j) d) (v : Word) :
    descAt (mem.writeWord (c.chainCb g + 0x14#32) v) (c.chainCb j) d := fun k hk =>
  (ChainSpot.word_writeWord M (x := .cb g 5) (y := .cb j k) ⟨hg, by omega⟩ ⟨hj, hk⟩ mem v).trans
    ((if_neg (by simp [hne])).trans (hd k hk))

/-- Memory after the branch write into descriptor g and the save of an array's head v behind its L words at OOL
position o. -/
def branchedMem (c : Config) (mem : Memory) (g o L : Nat) (v : Word) : Memory :=
  (mem.writeWord (c.chainCb g + 0x14#32) v).writeWord (c.chainCo (o + L)) v

/-- Memory after a digit's turn: the array, whose words are w, rotated left by one besides. -/
def turnedMem (c : Config) (mem : Memory) (g o L : Nat) (w : Nat → Word) : Memory :=
  Memory.writeAll (branchedMem c mem g o L (w 0)) (copyPairs (c.chainCo o) (fun k => w ((k + 1) % L)) L)

variable (M : c.Meets) {mem : Memory} {g o L : Nat} {w : Nat → Word} (hg : g < c.chainCbBus.length) (ho : o + L < c.chainOol)

include M hg ho in
/-- What the rotate reads. -/
theorem branchedMem_word (hw : ∀ i, i ≤ L → mem.word (c.chainCo (o + i)) = some (w i)) {k : Nat} (hk : k < L) :
    (branchedMem c mem g o L (w 0)).word (c.chainCo o + BitVec.ofNat 32 (4 * (k + 1))) = some (w ((k + 1) % L)) := by
  have hlast := ChainSpot.word_writeWord M (x := .co (o + L)) (y := .co (o + (k + 1))) ho
    (show _ < _ by omega) (mem.writeWord (c.chainCb g + 0x14#32) (w 0)) (w 0)
  have hnext := ChainSpot.word_writeWord M (x := .cb g 5) (y := .co (o + (k + 1))) ⟨hg, by omega⟩
    (show _ < _ by omega) mem (w 0)
  rw [chainCo_add]
  refine hlast.trans ?_
  split_ifs with hkL
  · obtain rfl : L = k + 1 := by simpa using hkL.symm
    rw [Nat.mod_self]
  · have hkL : k + 1 ≠ L := fun h => hkL (by rw [h])
    rw [Nat.mod_eq_of_lt (by omega), ← hw (k + 1) (by omega)]
    exact hnext.trans (if_neg nofun)

include M ho in
/-- The rotated array. -/
theorem turnedMem_word (hL : L < 2 ^ 28) {k : Nat} (hk : k < L) :
    (turnedMem c mem g o L w).word (c.chainCo (o + k)) = some (w ((k + 1) % L)) := by
  rw [← chainCo_add]
  exact word_writeAll_copyPairs (M.chainCo_mem (by omega)).2 hL.le hk

include M hg ho in
/-- The rotate's NEXTCONBK after the branch write. -/
theorem turnedMem_next : (turnedMem c mem g o L w).word (c.chainCb g + 0x14#32) = some (w 0) := by
  have hspot : ChainSpot.ok c (.cb g 5) := ⟨hg, by omega⟩
  have hrotate : (turnedMem c mem g o L w).word (c.chainCb g + 0x14#32) =
      (branchedMem c mem g o L (w 0)).word (c.chainCb g + 0x14#32) := by
    refine Memory.writeAll_word_of_not (ChainSpot.aligned M hspot)
      (copyPairs_aligned (M.chainCo_mem (by omega)).2) fun p hp => ?_
    obtain ⟨k, hk, rfl⟩ := mem_copyPairs.1 hp
    rw [chainCo_add]
    exact (chainCb_word_ne_chainCo M hg (by omega) (by omega : 5 < 8)).symm
  rw [hrotate, ← Memory.word_writeWord_self mem (c.chainCb g + 0x14#32) (w 0)]
  exact (ChainSpot.word_writeWord M (x := .co (o + L)) (y := .cb g 5) ho hspot _ (w 0)).trans (if_neg nofun)

include M hg ho in
/-- No byte outside the array and the rotate's NEXTCONBK changes. -/
theorem turnedMem_byte_kept {x : Nat} (harr : x < (c.chainCo o).toNat ∨ (c.chainCo o).toNat + 4 * (L + 1) ≤ x)
    (hnext : x < (c.chainCb g).toNat + 0x14 ∨ (c.chainCb g).toNat + 0x18 ≤ x) :
    (turnedMem c mem g o L w).byte x = mem.byte x := by
  have hco : ∀ k, k ≤ L → (c.chainCo (o + k)).toNat = (c.chainCo o).toNat + 4 * k := fun k hk => by
    rw [M.chainCo_toNat (by omega), M.chainCo_toNat (by omega)]
    omega
  have hcb : (c.chainCb g + 0x14#32).toNat = (c.chainCb g).toNat + 20 :=
    descWord_toNat_of_aligned (M.chainCb_fetchable hg).2 (k := 5) (by omega)
  have hrotate : (turnedMem c mem g o L w).byte x = (branchedMem c mem g o L (w 0)).byte x :=
    Memory.writeAll_byte fun p hp => by
      obtain ⟨k, hk, rfl⟩ := mem_copyPairs.1 hp
      dsimp only
      rw [chainCo_add, hco k hk.le]
      omega
  rw [hrotate, branchedMem, Memory.byte_writeWord_of_outside _ _ _ (by rw [hco L le_rfl]; omega),
    Memory.byte_writeWord_of_outside _ _ _ (by omega)]

end

/-- Settles O51: the branch write, the save and the rotate are three copies, each from where the one before leaves
the channel. -/
theorem counterDigitTurnsAndBranches : Obligations.CounterDigitTurnsAndBranches := by
  intro s q m d w old hok hq hm hL hd hc hp L CH W hentry hbranch hsave hrotate hw h32 hne
  have M := Config.meets hok
  have hL2 : 2 ≤ L := M.radix
  have hslot : ∀ j, j ≤ 2 → q + 3 * d + j < s.cfg.chainCbBus.length := fun j hj => by omega
  have hfetch := fun j hj => M.chainCb_fetchable (hslot j hj)
  have hcb0 := fun j hj => (M.fetchable_words (hfetch j hj).1).2.1
  have hco : ∀ i, i ≤ L → s.cfg.inMem (W i) = true ∧ (W i).toNat % 4 = 0 := fun i hi =>
    M.chainCo_mem (digit_word_lt hm hd hi)
  obtain ⟨hn4, hnm, -⟩ := ChainStores.next M (hslot 2 le_rfl) 0#32 _ (List.mem_singleton.2 rfl)
  let g := q + 3 * d + 2
  let o := m + d * (L + 1)
  have ho : o + L < s.cfg.chainOol := digit_word_lt hm hd le_rfl
  have hfirst : W 1 = W 0 + 4#32 := (chainCo_add s.cfg (o + 0) 1).symm
  rw [hfirst] at hrotate
  let mem1 := s.mem.writeWord (CH g + 0x14#32) (w 0)
  let mem2 := branchedMem s.cfg s.mem g o L (w 0)
  have hhead : mem1.word (W 0) = some (w 0) :=
    (ChainSpot.word_writeWord M (x := .cb g 5) (y := .co (o + 0)) ⟨hslot 2 le_rfl, by omega⟩
      (digit_word_lt hm hd (Nat.zero_le _)) s.mem (w 0)).trans ((if_neg nofun).trans (hw 0 (Nat.zero_le _)))
  have hbranchTurns : agentTimes (.chan .S) 4 (s.fetching .S s.mem (CH (q + 3 * d))) =
      .next (s.fetching .S mem1 (CH (q + 3 * d + 1))) := chan_copyWord_turns hc (hfetch 0 (by omega)).2 (hfetch 0 (by omega)).1 hbranch
    (hco 0 (by omega)) ⟨hnm, hn4⟩ (hw 0 (by omega)) (hfetch 1 (by omega)).2 (hcb0 1 (by omega))
  have hsaveTurns : agentTimes (.chan .S) 4 (s.fetching .S mem1 (CH (q + 3 * d + 1))) =
      .next (s.fetching .S mem2 (CH g)) := chan_copyWord_turns hc (hfetch 1 (by omega)).2 (hfetch 1 (by omega)).1
    (descAt_writeNext_of_ne M (hslot 1 (by omega)) (hslot 2 le_rfl) (by omega) hsave (w 0)) (hco 0 (by omega))
    (hco L le_rfl) hhead (hfetch 2 le_rfl).2 (hcb0 2 le_rfl)
  have hrotateTurns : agentTimes (.chan .S) (2 * L + 2) (s.fetching .S mem2 (CH g)) =
      .next (s.fetching .S (turnedMem s.cfg s.mem g o L w) (w 0)) := chan_rotate_turns hc (hfetch 2 le_rfl).2 (hfetch 2 le_rfl).1
    (descAt_writeOol M (hslot 2 le_rfl) ho (descAt_writeNext M (hslot 2 le_rfl) hrotate (w 0)) (w 0)) (by omega) hL
    (hco 0 (by omega)).2 (fun k hk => by rw [chainCo_add]; exact (hco k hk).1)
    (fun k hk => branchedMem_word M (hslot 2 le_rfl) ho hw hk) h32 hne
  refine ⟨turnedMem s.cfg s.mem g o L w, ?turns, fun i hi => ?shifted, ?last, turnedMem_next M (hslot 2 le_rfl) ho,
    fun x => turnedMem_byte_kept M (hslot 2 le_rfl) ho⟩
  case turns =>
    rw [show 2 * L + 10 = 2 * L + 9 + 1 by omega, chan_turns_fetching (ch := .S) hp, State.chan_S, hentry,
      show 2 * L + 9 + 1 = 4 + (4 + (2 * L + 2)) by omega, agentTimes_trans hbranchTurns, agentTimes_trans hsaveTurns]
    exact hrotateTurns
  case shifted =>
    have h := turnedMem_word M (mem := s.mem) (g := g) (w := w) ho hL (k := i) (by omega)
    rwa [Nat.mod_eq_of_lt (by omega)] at h
  case last =>
    have h := turnedMem_word M (mem := s.mem) (g := g) (w := w) ho hL (k := L - 1) (by omega)
    rwa [show L - 1 + 1 = L by omega, Nat.mod_self] at h

end Sys2Proof.Machine

namespace Sys2Proof.Machine

/-! ### The host's turns of submit (44 R271, R274) -/

/-- The tail as stored (44 R290). -/
def tailPairs (c : Config) (last : Build) : List (Word × Word) :=
  descPairs (c.chainCb last.q) (descNop c 0#32 (tailNext c last))

/-- What the items xs are stored as from builder b on, and the tail at the builder they end with. -/
def restPairs (c : Config) (waves : List (Nat × WaveRange)) (b : Build) (xs : List ChainItem) (last : Build) :
    List (Word × Word) := itemPairs c waves b xs ++ tailPairs c last

theorem ChainStores.tail {c : Config} (M : c.Meets) {last : Build} (hg : Build.good c last) :
    ChainStores c (tailPairs c last) := ChainStores.desc M (by have := hg.1; omega) _

/-- Stores into the chain region are ones the host may make. -/
theorem ChainStores.reach {l : List (Word × Word)} {s : State} (h : ChainStores s.cfg l) :
    ∀ p ∈ l, s.hostReaches p.1 = true := fun p hp =>
  have ⟨hal, hmem, _⟩ := h p hp
  State.hostReaches_iff.2 ⟨hal, hmem⟩

/-- The state with the words l stored, the builder at b and the tasks ts waiting. -/
def State.emitted (s : State) (l : List (Word × Word)) (b : Build) (ts : List HostTask) : State :=
  { s with mem := Memory.writeAll s.mem l, host := { s.host with todo := ts, build := b } }

theorem State.emitted_emitted (s : State) (l l' : List (Word × Word)) (b b' : Build) (ts ts' : List HostTask) :
    (s.emitted l b ts).emitted l' b' ts' = s.emitted (l ++ l') b' ts' := by
  simp only [State.emitted, Memory.writeAll_append]

section
variable {s : State} {ts : List HostTask}

/-- The host's turn with an item of an accepted program waiting. -/
theorem host_item {x : ChainItem} {i : Instr} (h : s.host.todo = x.task :: ts) (hi : x.opcode = some i) :
    s.agentStep .host = exec i (s.setTodo ts) := by
  have hk := opcode_chain hi
  cases x with
  | word w => exact host_word h hi
  | op j =>
    simp only [ChainItem.opcode] at hi
    split_ifs at hi
    cases hi
    exact host_instr h (by simp [hk])

/-- The turns of one item: the opcode's, and one for each of its stores. -/
theorem item_run {x : ChainItem} {i : Instr} {b : Build} (M : s.cfg.Meets) (hg : Build.good s.cfg s.host.build)
    (h : s.host.todo = x.task :: ts) (hi : x.opcode = some i)
    (ha : advanceOp s.cfg s.host.waves s.host.build i = .ok b) :
    agentTimes .host ((opPairs s.cfg s.host.waves s.host.build i).length + 1) s =
      .next (s.emitted (opPairs s.cfg s.host.waves s.host.build i) b ts) := by
  have hk := opcode_chain hi
  let t := ((s.setTodo ts).setBuild b).pushTasks (storeTasks (opPairs s.cfg s.host.waves s.host.build i))
  have hopcode : s.agentStep .host = .next t := (host_item h hi).trans (exec_opPairs (s := s.setTodo ts) hk ha)
  rw [agentTimes_succ hopcode]
  exact stores_run (s := t) rfl (ChainStores.reach (s := t) (opOk M hk hg ha).cs)

/-- The turns of the items of an admitted program. -/
theorem items_run {xs : List ChainItem} {last : Build} (M : s.cfg.Meets) (hg : Build.good s.cfg s.host.build)
    (h : s.host.todo = xs.map ChainItem.task ++ ts)
    (ha : advanceItems s.cfg s.host.waves s.host.build xs = .ok last) :
    ∃ k, agentTimes .host k s = .next (s.emitted (itemPairs s.cfg s.host.waves s.host.build xs) last ts) := by
  induction xs generalizing s with
  | nil =>
    cases ha
    exact ⟨0, congrArg (fun l => Host.Outcome.next (s.setTodo l)) h⟩
  | cons x xs ih =>
    obtain ⟨i, b, hi, hop, -, hxs, hpairs⟩ := advanceItems_cons ha
    have hrun := item_run M hg (ts := xs.map ChainItem.task ++ ts) h hi hop
    obtain ⟨k, hk⟩ := ih (s := s.emitted (opPairs s.cfg s.host.waves s.host.build i) b (xs.map ChainItem.task ++ ts)) M
      (opOk M (opcode_chain hi) hg hop).good rfl hxs
    rw [State.emitted_emitted] at hk
    exact ⟨_, (agentTimes_trans hrun).trans (hpairs ▸ hk)⟩

/-- The tail's turns: the one that takes it up, and its eight stores. -/
theorem tail_run (M : s.cfg.Meets) (hg : Build.good s.cfg s.host.build) (h : s.host.todo = .tail :: ts) :
    agentTimes .host 9 s = .next (s.emitted (tailPairs s.cfg s.host.build) s.host.build ts) := by
  let t := (s.setTodo ts).pushTasks (tailTasks s.cfg s.host.build)
  have htake : s.agentStep .host = .next t := host_task h nofun nofun
  have htodo : t.host.todo = storeTasks (tailPairs s.cfg s.host.build) ++ ts := congrArg (· ++ ts) (storeDesc_eq _ _)
  have hstores := stores_run htodo (ChainStores.reach (s := t) (ChainStores.tail M hg))
  exact (agentTimes_succ htake 8).trans hstores

/-- submit is accepted where validation admits the program. -/
theorem State.submit_valid {prog : List ChainItem} {b : Build} (h : validate s.cfg s.host.waves prog = .ok b) :
    s.submit prog = (s.setBuild Build.init).pushTasks (submitTasks s.cfg prog) := by rw [State.submit, h]

/-- The state in which an accepted submit begins to build: the first-use transition is made, ChanS is reset, and the
builder is at its start (41 R191, R196; 44 R271). -/
def State.building (s : State) (todo : List HostTask) : State :=
  { s.clocked with
    chanS := { s.chanS with active := false, conblkAd := 0#32, phase := .idle },
    trace := s.clocked.trace ++ [.reset .S],
    host := { s.clocked.host with todo := todo, build := Build.init } }

/-- The first turns, from the builder at its start to the RESET. -/
theorem State.resetChan_clocked (s : State) (l todo : List HostTask) :
    ((((s.setBuild Build.init).setTodo l).clocked.setTodo todo).resetChan .S) = s.building todo := rfl

/-- submit's first turns: the one that takes it up, WAVECLK and RESET. -/
theorem submitStart_run {prog : List ChainItem} {b : Build} (hv : validate s.cfg s.host.waves prog = .ok b)
    (h : s.host.todo = .submit prog :: ts) : agentTimes .host 3 s = .next (s.building
      (prog.map ChainItem.task ++ .tail :: .instr (.arm .S (s.cfg.chainCb 0)) :: .ret .done :: ts)) := by
  let todo := prog.map ChainItem.task ++ .tail :: .instr (.arm .S (s.cfg.chainCb 0)) :: .ret .done :: ts
  let t := (s.setBuild Build.init).setTodo (.instr .waveclk :: .instr (.reset .S) :: todo)
  let u := (t.setTodo (.instr (.reset .S) :: todo)).clocked
  have htodo : submitTasks s.cfg prog ++ ts = .instr .waveclk :: .instr (.reset .S) :: todo := by
    simp [submitTasks, todo]
  have hpush : (s.setTodo ts).submit prog = t :=
    (State.submit_valid (s := s.setTodo ts) hv).trans (congrArg (s.setBuild Build.init).setTodo htodo)
  have htake : s.agentStep .host = .next t := (host_task h nofun nofun).trans (congrArg _ hpush)
  have hclock : t.agentStep .host = .next u := (host_instr (s := t) rfl (by simp [Instr.kind])).trans (execWaveclk_eq _)
  have hreset : u.agentStep .host = .next ((u.setTodo todo).resetChan .S) :=
    host_instr (s := u) (i := .reset .S) rfl (by simp [Instr.kind])
  rw [agentTimes_succ htake, agentTimes_succ hclock, agentTimes_succ hreset]
  exact congrArg Host.Outcome.next (State.resetChan_clocked s _ todo)

/-- submit's last turns: an idle ChanS is armed, and the procedure returns. -/
theorem submitEnd_run {a : Word} (ha : a ≠ 0#32) (hidle : s.chanIdle .S = true)
    (h : s.host.todo = .instr (.arm .S a) :: .ret .done :: ts) : agentTimes .host 2 s = .next { s with
      chanS := { s.chanS with conblkAd := a, active := true, phase := .fetch [] },
      trace := s.trace ++ [.arm .S a], host := { s.host with todo := ts, ret := .done } } := by
  have harm : s.agentStep .host = .next ((s.setTodo (.ret .done :: ts)).armChan .S a) :=
    host_instr h (by simp [Instr.kind])
  rw [State.armChan_of_idle (s := s.setTodo (.ret .done :: ts)) (ch := .S) hidle, if_neg ha] at harm
  rw [agentTimes_succ harm, agentTimes_succ (host_task (x := .ret .done) rfl nofun nofun)]
  rfl

/-- The turns of an accepted submit from where it begins to build: the items, and the tail. -/
theorem build_run {prog : List ChainItem} {b : Build} (M : s.cfg.Meets)
    (ha : advanceItems s.cfg s.host.waves Build.init prog = .ok b) (hb : s.host.build = Build.init)
    (h : s.host.todo = prog.map ChainItem.task ++ .tail :: ts) :
    ∃ k, agentTimes .host k s = .next (s.emitted (restPairs s.cfg s.host.waves Build.init prog b) b ts) := by
  have hend := (items_where M prog Build.init b (Build.good_init M) ha).1
  have hitems := items_run M (hb ▸ Build.good_init M) h (hb ▸ ha)
  rw [hb] at hitems
  obtain ⟨k, hitems⟩ := hitems
  have htail := tail_run (s := s.emitted (itemPairs s.cfg s.host.waves Build.init prog) b (.tail :: ts)) M hend rfl
  rw [State.emitted_emitted] at htail
  exact ⟨k + 9, (agentTimes_trans hitems).trans htail⟩

/-- The state a submit leaves: the chain's words l stored, and ChanS armed at CH(0). -/
def State.submitted (s : State) (l : List (Word × Word)) (b : Build) (ts : List HostTask) : State :=
  { s.clocked with
    mem := Memory.writeAll s.mem l,
    chanS := { s.chanS with active := true, conblkAd := s.cfg.chainCb 0, phase := .fetch [] },
    trace := s.clocked.trace ++ [.reset .S] ++ [.arm .S (s.cfg.chainCb 0)],
    host := { s.clocked.host with todo := ts, ret := .done, build := b } }

/-- An accepted submit: its first turns, the chain, and its last turns. -/
theorem submit_run {prog : List ChainItem} {b : Build} (M : s.cfg.Meets)
    (hv : validate s.cfg s.host.waves prog = .ok b) (h : s.host.todo = .submit prog :: ts) :
    ∃ k, agentTimes .host k s = .next (s.submitted (restPairs s.cfg s.host.waves Build.init prog b) b ts) := by
  have hslots := (Build.good_init M).1
  have hfirst : s.cfg.chainCb 0 ≠ 0#32 := (M.fetchable_words (M.chainCb_fetchable (by omega)).1).2.1
  let closing : List HostTask := .instr (.arm .S (s.cfg.chainCb 0)) :: .ret .done :: ts
  let t := s.building (prog.map ChainItem.task ++ .tail :: closing)
  let l := restPairs s.cfg s.host.waves Build.init prog b
  have hstart : agentTimes .host 3 s = .next t := submitStart_run hv h
  obtain ⟨k, hbuild⟩ := build_run (s := t) (ts := closing) M (validate_ok hv) rfl rfl
  have hend := submitEnd_run (s := t.emitted l b closing) (ts := ts) hfirst
    ((State.chanIdle_iff _ .S).2 ⟨rfl, rfl⟩) rfl
  exact ⟨3 + (k + 2), (agentTimes_trans hstart).trans ((agentTimes_trans hbuild).trans hend)⟩

end

end Sys2Proof.Machine

namespace Sys2Proof.Machine

/-! ### What later items leave of the chain (44 R274 to R291) -/

/-- The spot lies below the builder's cursors. -/
def ChainSpot.before (b : Build) : ChainSpot → Prop
  | .cb j _ => j < b.q
  | .co n => n < b.m

/-- From builder b on, the items xs hold a LoopEnd(0) that closes the loop with head h (44 R286). -/
def closesForever (c : Config) (waves : List (Nat × WaveRange)) (b : Build) (xs : List ChainItem) (h : Nat) : Prop :=
  ∃ pre x post e, xs = pre ++ x :: post ∧ advanceItems c waves b pre = .ok e ∧ x.opcode = some (.loopEnd 0) ∧
    e.openHeads.head? = some h

section
variable {c : Config} {waves : List (Nat × WaveRange)} {prog xs : List ChainItem} {b last : Build} {i : Instr}
  (M : c.Meets)
include M

/-- What follows builder b is stored from its cursors on, but for the NEXTCONBK words of heads that a LoopEnd(0)
closes. -/
theorem restPairs_ne {x : ChainSpot} (hg : Build.good c b) (ha : advanceItems c waves b xs = .ok last) (hx : x.ok c)
    (hb : x.before b) (hopen : ∀ h ∈ b.openHeads, closesForever c waves b xs h → x ≠ .cb h 5) :
    ∀ p ∈ restPairs c waves b xs last, p.1 ≠ x.addr c := by
  obtain ⟨⟨hroom, hool, -, -⟩, hq, -, -, hwhere⟩ := items_where M xs b last hg ha
  have hlater : ∀ {y : ChainSpot}, y.ok c → ¬ y.before b → y.addr c ≠ x.addr c := fun hy hyb h =>
    hyb (ChainSpot.addr_inj M hy hx h ▸ hb)
  intro p hp
  rcases List.mem_append.1 hp with hp | hp
  · rcases hwhere p hp with ⟨j, k, hj, hjl, hk, hpj⟩ | ⟨n, hn, hnl, hpn⟩ | ⟨h, hh, hph, hclose⟩
    · exact hpj ▸ hlater (y := .cb j k) ⟨by omega, hk⟩ (Nat.not_lt.2 hj)
    · exact hpn ▸ hlater (y := .co n) (show n < c.chainOol by omega) (Nat.not_lt.2 hn)
    · have hlt := hg.2.2.1 h hh
      have hroomb := hg.1
      exact fun he => hopen h hh hclose
        (ChainSpot.addr_inj M (y := .cb h 5) hx ⟨by omega, by omega⟩ (he.symm.trans hph))
  · obtain ⟨k, hk, hpk, -⟩ := mem_descPairs.1 hp
    exact hpk ▸ hlater (y := .cb last.q k) ⟨by omega, hk⟩ (Nat.not_lt.2 hq)

/-- The whole chain is stored into the chain region. -/
theorem restPairs_stores (hg : Build.good c b) (ha : advanceItems c waves b xs = .ok last) :
    ChainStores c (restPairs c waves b xs last) :=
  have ⟨hend, _, _, hstores, _⟩ := items_where M xs b last hg ha
  hstores.append (ChainStores.tail M hend)

/-- The program at an opcode it reaches: what comes before, the opcode's stores, and what follows. -/
theorem reaches_split (ha : advanceItems c waves Build.init prog = .ok last) (hr : reaches c waves prog b i) :
    ∃ pre b' post, Build.good c b ∧ i.kind = .chain ∧ advanceOp c waves b i = .ok b' ∧
      advanceItems c waves b' post = .ok last ∧ restPairs c waves Build.init prog last =
        itemPairs c waves Build.init pre ++ (opPairs c waves b i ++ restPairs c waves b' post last) ∧
      ∀ h, closesForever c waves b' post h →
        ∃ e, reaches c waves prog e (.loopEnd 0) ∧ e.openHeads.head? = some h := by
  obtain ⟨pre, x, post, rfl, hpre, hxi⟩ := hr
  obtain ⟨j, b', hxj, hop, hx, hpost, hpairs⟩ := items_split pre Build.init ha hpre
  cases hxi.symm.trans hxj
  refine ⟨pre, b', post, (items_where M pre _ b (Build.good_init M) hpre).1, opcode_chain hxi, hop, hpost, ?_, ?_⟩
  · rw [restPairs, hpairs, restPairs]
    simp only [List.append_assoc]
  · rintro h ⟨pre', y, post', e, rfl, he, hy, hhead⟩
    refine ⟨e, ⟨pre ++ x :: pre', y, post', by simp, ?_, hy⟩, hhead⟩
    rw [advanceItems_append hpre, advanceItems, hx]
    exact he

/-- Where the program reaches an opcode, what the opcode's stores leave below its cursors is what stands at the end,
but for the NEXTCONBK words of heads open after it that a LoopEnd(0) closes. -/
theorem reached_word (ha : advanceItems c waves Build.init prog = .ok last) (hr : reaches c waves prog b i)
    (m : Memory) : ∃ b' m', Build.good c b ∧ advanceOp c waves b i = .ok b' ∧
      OpOk c b b' i (opPairs c waves b i) ∧
      ∀ x : ChainSpot, x.before b' → x.ok c → (∀ h ∈ b'.openHeads, x = .cb h 5 →
          ∀ e, reaches c waves prog e (.loopEnd 0) → e.openHeads.head? ≠ some h) →
        (Memory.writeAll m (restPairs c waves Build.init prog last)).word (x.addr c) =
          (Memory.writeAll m' (opPairs c waves b i)).word (x.addr c) := by
  obtain ⟨pre, b', post, hg, hk, hop, hpost, hpairs, hclose⟩ := reaches_split M ha hr
  have hok := opOk M hk hg hop
  refine ⟨b', Memory.writeAll m (itemPairs c waves Build.init pre), hg, hop, hok, fun x hb hx hopen => ?_⟩
  rw [hpairs, Memory.writeAll_append, Memory.writeAll_append]
  refine Memory.writeAll_word_of_not (ChainSpot.aligned M hx) (restPairs_stores M hok.good hpost).aligned
    (restPairs_ne M hok.good hpost hx hb fun h hh hch hxh => ?_)
  obtain ⟨e, he, hhead⟩ := hclose h hch
  exact hopen h hh hxh e he hhead

end

end Sys2Proof.Machine

namespace Sys2Proof.Machine

/-! ### The chain word by word (44 R274 to R291) -/

/-- A wave that may be played is in the registry. -/
theorem liveWave_get {c : Config} {waves : List (Nat × WaveRange)} {id : Nat} {r : WaveRange}
    (h : liveWave c waves id = some r) : Table.get waves id = some r := by
  unfold liveWave at h
  split_ifs at h
  split at h
  · split_ifs at h
    cases h
    assumption
  · cases h

section
variable {c : Config} {waves : List (Nat × WaveRange)} {prog : List ChainItem} {b last : Build}
  (M : c.Meets) (ha : advanceItems c waves Build.init prog = .ok last) (m : Memory)
include M ha

/-- A descriptor that an opcode stores at its first slot stands at the end, where no loop opens there. -/
theorem reached_descAt {i : Instr} (hr : reaches c waves prog b i) {l : List (Word × Word)} {d : Desc}
    (hpairs : opPairs c waves b i = l ++ descPairs (c.chainCb b.q) d)
    (hq : ∀ b', advanceOp c waves b i = .ok b' → b.q < b'.q ∧ b.q ∉ b'.openHeads) :
    descAt (Memory.writeAll m (restPairs c waves Build.init prog last)) (c.chainCb b.q) d := by
  obtain ⟨b', m', ⟨hroom, -⟩, hop, -, hkeep⟩ := reached_word M ha hr m
  obtain ⟨hlt, hnot⟩ := hq b' hop
  intro k hk
  rw [← chainCb_descAt M hroom (Memory.writeAll m' l) d k hk, ← Memory.writeAll_append, ← hpairs]
  refine hkeep (.cb b.q k) hlt ⟨hroom, hk⟩ fun h hh he => ?_
  cases he
  exact absurd hh hnot

theorem chain_playWave {id : Nat} {r : WaveRange} (hr : reaches c waves prog b (.playWave id))
    (hget : Table.get waves id = some r) :
    (Memory.writeAll m (restPairs c waves Build.init prog last)).word (c.chainCo b.m) = some (c.chainCb (b.q + 1)) ∧
    descAt (Memory.writeAll m (restPairs c waves Build.init prog last)) (c.chainCb b.q)
      (descLink (c.chainCo b.m) (c.cbBus r.topCB) 0#32 (c.cbBus r.bottomCB)) := by
  obtain ⟨b', m', ⟨hroom, -, hbelow, -⟩, hop, ⟨-, ⟨-, hool, -⟩, -⟩, hkeep⟩ := reached_word M ha hr m
  obtain ⟨-, hadv, -⟩ := guardOp_eq_ok_iff.1 hop
  obtain ⟨⟨r', hl⟩, rfl⟩ := advPlayWave_eq_ok_iff.1 hadv
  obtain rfl : r' = r := Option.some.inj ((liveWave_get hl).symm.trans hget)
  have hpairs : opPairs c waves b (.playWave id) = [(c.chainCo b.m, c.chainCb (b.q + 1))] ++
      descPairs (c.chainCb b.q) (descLink (c.chainCo b.m) (c.cbBus r'.topCB) 0#32 (c.cbBus r'.bottomCB)) := by
    rw [opPairs, hl]
    rfl
  refine ⟨?cell, reached_descAt M ha m hr hpairs fun b'' hop' => ?head⟩
  case cell =>
    have hal := ChainSpot.aligned M (x := .co b.m) hool
    have hcell := hkeep (.co b.m) (Nat.lt_succ_self _) hool nofun
    refine hcell.trans ?_
    rw [hpairs, Memory.writeAll_append, Memory.writeAll_word_of_not hal (ChainStores.desc M hroom _).aligned]
    · exact Memory.word_writeWord_self _ _ _
    · intro p hp
      obtain ⟨k, hk, hpk, -⟩ := mem_descPairs.1 hp
      exact hpk ▸ chainCb_word_ne_chainCo M hroom hool hk
  case head =>
    cases hop'.symm.trans hop
    exact ⟨Nat.lt_succ_self _, fun hh => Nat.lt_irrefl _ (hbelow _ hh)⟩

theorem chain_delayMicros {n : Nat} (hr : reaches c waves prog b (.delayMicros n)) (h0 : 0 < n) :
    descAt (Memory.writeAll m (restPairs c waves Build.init prog last)) (c.chainCb b.q)
      (descPaceSWords c n (c.chainCb (b.q + 1))) := by
  obtain ⟨-, -, ⟨-, -, hbelow, -⟩, -⟩ := reached_word M ha hr m
  refine reached_descAt M ha m hr (l := []) (if_pos h0) fun b' hop => ?_
  obtain ⟨-, hadv, -⟩ := guardOp_eq_ok_iff.1 hop
  obtain ⟨-, rfl⟩ := advDelayMicros_ok hadv
  simp only [if_pos h0]
  exact ⟨Nat.lt_succ_self _, fun hh => Nat.lt_irrefl _ (hbelow _ hh)⟩

theorem chain_loopEnd_zero {h : Nat} (hr : reaches c waves prog b (.loopEnd 0)) (hh : b.openHeads.head? = some h) :
    (Memory.writeAll m (restPairs c waves Build.init prog last)).word (c.chainCb h + 0x14#32) =
      some (c.chainCb b.q) := by
  obtain ⟨b', m', ⟨hroom, -, hbelow, -⟩, hop, hok, hkeep⟩ := reached_word M ha hr m
  obtain ⟨outer, ho⟩ := List.head?_eq_some_iff.1 hh
  have hlt : h < b.q := hbelow h (by rw [ho]; exact List.mem_cons_self)
  have hspot : (ChainSpot.cb h 5).ok c := ⟨by omega, by omega⟩
  have hword := hkeep (.cb h 5) (Nat.lt_of_lt_of_le hlt hok.q) hspot fun h' hh' he => by
    cases he
    exact absurd hh' (hok.popped 0 h rfl hh)
  refine hword.trans ?_
  rw [opPairs, ho]
  exact Memory.word_writeWord_self _ _ _

/-- A loop head stands with the body as its NEXT, or with the continuation that LoopEnd(0) stores there (44 R285,
R286). -/
theorem chain_loopBegin (hr : reaches c waves prog b .loopBegin) : ∃ next,
    descAt (Memory.writeAll m (restPairs c waves Build.init prog last)) (c.chainCb b.q) (descNop c 0#32 next) ∧
    ((∀ e, reaches c waves prog e (.loopEnd 0) → e.openHeads.head? ≠ some b.q) → next = c.chainCb (b.q + 1)) := by
  obtain ⟨b', m', ⟨hroom, -, hbelow, -⟩, hop, hok, hkeep⟩ := reached_word M ha hr m
  obtain ⟨-, hadv, -⟩ := guardOp_eq_ok_iff.1 hop
  obtain ⟨-, rfl⟩ := advLoopBegin_eq_ok_iff.1 hadv
  have hword : ∀ k, k < 8 →
      (k = 5 → ∀ e, reaches c waves prog e (.loopEnd 0) → e.openHeads.head? ≠ some b.q) →
      (Memory.writeAll m (restPairs c waves Build.init prog last)).word (c.chainCb b.q + BitVec.ofNat 32 (4 * k)) =
        (descNop c 0#32 (c.chainCb (b.q + 1))).words[k]? := fun k hk hopen => by
    refine (hkeep (.cb b.q k) (Nat.lt_succ_self _) ⟨hroom, hk⟩ fun h _ he => ?_).trans (chainCb_descAt M hroom _ _ k hk)
    cases he
    exact hopen rfl
  by_cases hclose : ∃ e, reaches c waves prog e (.loopEnd 0) ∧ e.openHeads.head? = some b.q
  · obtain ⟨e, he, hhead⟩ := hclose
    refine ⟨c.chainCb e.q, fun k hk => ?_, fun hno => absurd hhead (hno e he)⟩
    have hwords := Desc.words_next (descNop c 0#32 (c.chainCb (b.q + 1))) (c.chainCb e.q) hk
    refine Eq.trans ?_ hwords.symm
    split_ifs with h5
    · subst h5
      exact chain_loopEnd_zero M ha m he hhead
    · exact hword k hk fun h => absurd h h5
  · exact ⟨_, fun k hk => hword k hk fun _ e he hhead => hclose ⟨e, he, hhead⟩, fun _ => rfl⟩

theorem chain_counter {h k : Nat} (hr : reaches c waves prog b (.loopEnd k)) (h2 : 2 ≤ k)
    (hh : b.openHeads.head? = some h) :
    counterAt c (Memory.writeAll m (restPairs c waves Build.init prog last)) b.q b.m (k - 1) (c.chainCb h)
      (c.chainCb (b.q + 3 * c.blocks + 1)) := by
  obtain ⟨b', m', ⟨hroom, -, hbelow, -⟩, hop, ⟨-, ⟨hroom', hool', -⟩, -⟩, hkeep⟩ := reached_word M ha hr m
  obtain ⟨-, hadv, -⟩ := guardOp_eq_ok_iff.1 hop
  obtain ⟨head, outer, ho, ⟨hlt, -⟩ | ⟨-, -, rfl⟩⟩ := advLoopEnd_ok_cases hadv
  · omega
  obtain rfl : head = h := by simpa [ho] using hh
  have hpairs : opPairs c waves b (.loopEnd k) =
      counterPairs c b.q b.m (c.chainCb head) (c.chainCb (b.q + 3 * c.blocks + 1)) (k - 1) := by
    rw [opPairs, ho]
    dsimp only
    rw [if_neg (by omega), if_neg (by omega)]
    rfl
  dsimp only at hroom' hool'
  refine counterAt_of_stored M fun p hp => ?_
  rw [← counter_word M (by omega) (by omega) m' hp, ← hpairs]
  rcases List.mem_append.1 hp with hp | hp
  · obtain ⟨d, i, e, hd, hi, he, rfl⟩ := mem_counterArrayPairs.1 hp
    have hlt := counter_index_lt (L := c.blockLength) hd hi he
    exact hkeep (.co _) (by simp only [ChainSpot.before]; omega) (show _ < c.chainOol by omega) nofun
  · obtain ⟨j, w, hj, hw, hpj, -⟩ := mem_counterDescPairs.1 hp
    rw [hpj]
    refine hkeep (.cb (b.q + j) w) (by simp only [ChainSpot.before]; omega) ⟨by omega, hw⟩ fun h' hh' he => ?_
    have hlow := hbelow h' (by rw [ho]; exact List.mem_cons_of_mem _ hh')
    cases he
    omega

/-- The tail stands at the final position (44 R290, R291). -/
theorem chain_tail : descAt (Memory.writeAll m (restPairs c waves Build.init prog last)) (c.chainCb last.q)
    (descNop c 0#32 (tailNext c last)) := by
  obtain ⟨⟨hroom, -⟩, -⟩ := items_where M prog Build.init last (Build.good_init M) ha
  rw [restPairs, Memory.writeAll_append]
  exact chainCb_descAt M hroom _ _

/-- The chain's words, stored, are the chain as the rules give it. -/
theorem chainAt_writeAll : chainAt c waves prog last (Memory.writeAll m (restPairs c waves Build.init prog last)) := by
  refine ⟨fun b id r hr hget => chain_playWave M ha m hr hget, fun b n hr h0 => chain_delayMicros M ha m hr h0,
    fun b hr => chain_loopBegin M ha m hr, fun b h hr hh => chain_loopEnd_zero M ha m hr hh,
    fun b h k hr h2 hh => chain_counter M ha m hr h2 hh, ?tail⟩
  case tail =>
    rw [← tailNext_eq]
    exact chain_tail M ha m

end

/-- Settles O53: the host's turns end with the chain's words stored, which stand as the rules give them. -/
theorem submitBuildsAndArmsTheChain : Obligations.SubmitBuildsAndArmsTheChain := by
  intro s prog ts b hok hv htodo
  have M := Config.meets hok
  have ha := validate_ok hv
  obtain ⟨k, hrun⟩ := submit_run M hv htodo
  refine ⟨k, _, hrun, chainAt_writeAll M ha s.mem, rfl, rfl, rfl, rfl, rfl, rfl, rfl, rfl, rfl, rfl, rfl, rfl, ?trace,
    fun x hcb hco => Memory.writeAll_byte fun p hp => (restPairs_stores M (Build.good_init M) ha p hp).2.2 x hcb hco⟩
  case trace => exact List.append_assoc _ [_] [_]

end Sys2Proof.Machine

namespace Sys2Proof.Machine

/-! ### Marks that no step clears: a channel's fault and `refused` (60 R332, R333) -/

/-- Every fault that a channel has in s it has in t, and t is refused where s is. -/
def State.marksKept (s t : State) : Prop :=
  (∀ ch r, (s.chan ch).fault = some r → (t.chan ch).fault = some r) ∧ (s.refused = true → t.refused = true)

section
variable {s t u : State}

theorem State.marksKept.refl (s : State) : s.marksKept s := ⟨fun _ _ h => h, fun h => h⟩

/-- Only the channels' faults and `refused` matter. -/
theorem State.marksKept.of_eq (h : s.marksKept t) (hf : ∀ ch, (u.chan ch).fault = (t.chan ch).fault)
    (hr : u.refused = t.refused) : s.marksKept u :=
  ⟨fun ch r hs => (hf ch).trans (h.1 ch r hs), fun hs => hr.trans (h.2 hs)⟩

/-- A channel may be given any registers that leave its fault as it is. -/
theorem State.marksKept.setChan (h : s.marksKept t) {ch : ChanId} {c : Channel}
    (hc : c.fault = (t.chan ch).fault := by rfl) : s.marksKept (t.setChan ch c) := by
  refine h.of_eq (fun x => ?_) (by simp)
  rw [State.setChan_chan]
  split_ifs with hx
  · rw [hx, hc]
  · rfl

theorem State.marksKept.refuse (h : s.marksKept t) : s.marksKept t.refuse := ⟨h.1, fun _ => rfl⟩

/-- Only a channel that can step takes a fault, and it has none before (40 R150). -/
theorem State.marksKept.raise (h : s.marksKept t) {ch : ChanId} (hc : t.canStep ch = true) (r : FaultReason) :
    s.marksKept (t.raise ch r) := by
  obtain ⟨-, hnone, -⟩ := (t.canStep_iff ch).1 hc
  refine ⟨fun x q hx => ?fault, fun hs => ?refused⟩
  case fault =>
    have hxt := h.1 x q hx
    have hne : x ≠ ch := by
      rintro rfl
      rw [hnone] at hxt
      cases hxt
    rwa [State.raise_chan_of_ne _ _ _ _ hne]
  case refused => rw [State.raise_refused, h.2 hs, Bool.true_or]

theorem State.marksKept.busWrite (h : s.marksKept t) {ch : ChanId} {a v : Word} (hw : t.busWrite ch a v = .ok u) :
    s.marksKept u := by
  obtain ⟨-, ⟨-, rfl⟩ | ⟨-, rfl⟩ | ⟨-, rfl⟩ | ⟨pc, -, -, rfl⟩⟩ := State.busWrite_ok hw
  · exact h
  · exact h
  · exact h
  · exact h.of_eq (by simp) (by simp)

end

/-- A fault is only ever taken by a channel without one, and `refused` is only ever set. -/
theorem marksKept_kept (s : State) : KeptByOps s.marksKept where
  sched _ h := h
  drawn h := h
  cur _ h := h
  todo _ h := h
  ret _ h := h
  build _ h := h
  register _ _ _ h := h
  delete _ _ _ h := h
  carrier _ h := h
  refuse h := h.refuse
  tick pc ht h := by
    rw [State.pacerTick_of_enabled ht]
    exact h.of_eq (by simp) (by simp)
  raise _ r hc h := h.raise hc r
  early _ _ _ _ _ _ h := h.setChan
  load ch _ _ _ _ _ _ _ h := by
    unfold State.loadDesc
    split_ifs <;> exact h.setChan (ch := ch)
  read _ _ _ _ _ _ _ _ hr h := by
    obtain ⟨-, hchan, -, -, -, -, -, -, hrefused, -⟩ := State.busRead_keeps hr
    exact (h.of_eq (fun x => by rw [hchan]) hrefused).setChan
  write ch _ _ _ _ _ _ _ hw h := by
    have ht := h.busWrite hw
    refine State.marksKept.setChan (ch := ch) ?_
    split_ifs <;> exact ht
  complete _ _ _ _ _ h := by
    unfold State.complete
    split_ifs <;> exact h.setChan
  reset _ h := h.setChan
  stopped _ h := h
  arm ch a h := by
    unfold State.armChan
    split_ifs
    · exact h.setChan
    · exact h.setChan
    · exact h.refuse
  pause _ h := h.setChan
  resume _ _ h := h.setChan
  store _ _ _ _ h := h
  gpioSet _ h := h
  gpioClr _ h := h
  configureP _ h := h.of_eq (by simp) (by simp [State.configurePacer])
  waveClock _ h := h

theorem step_marksKept {s t : State} (h : step s = .next t) : s.marksKept t :=
  (marksKept_kept s).step (.refl s) h

/-! ### A faulted channel (60 R332; 40 R150) -/

section
variable {s : State} {ch : ChanId}

theorem State.canStep_of_fault (h : (s.chan ch).fault ≠ none) : s.canStep ch = false :=
  Bool.eq_false_iff.2 fun hc => h ((s.canStep_iff ch).1 hc).2.1

theorem State.resetChan_chan_self (s : State) (ch : ChanId) :
    (s.resetChan ch).chan ch = { s.chan ch with active := false, conblkAd := 0#32, phase := .idle } := by
  rw [State.resetChan_eq, State.setChan_chan_self]

theorem State.resetChan_chanIdle (s : State) (ch : ChanId) : (s.resetChan ch).chanIdle ch = true := by
  rw [State.chanIdle_iff, State.resetChan_chan_self]
  exact ⟨rfl, rfl⟩

/-- ARM after RESET starts the channel at a, whatever it was doing, and leaves its fault (41 R190, R191). -/
theorem State.armChan_resetChan_chan (s : State) (ch : ChanId) {a : Word} (ha : a ≠ 0#32) :
    ((s.resetChan ch).armChan ch a).chan ch =
      { s.chan ch with active := true, conblkAd := a, phase := .fetch [] } := by
  rw [State.armChan_of_idle (s.resetChan_chanIdle ch), if_neg ha, State.setChan_chan_self, State.resetChan_chan_self]

end

/-- Settles O13: no operation of a step clears a fault, and a channel with one cannot step. -/
theorem faultsAreSticky : Obligations.FaultsAreSticky := by
  refine ⟨fun s t ch r hf hs => (step_marksKept hs).1 ch r hf, fun s ch r hf => ?holds, fun s ch a hf ha => ?rearmed⟩
  case holds =>
    have hc : s.canStep ch = false := State.canStep_of_fault (by simp [hf])
    exact ⟨State.chanStep_disabled hc, fun k => congrArg Host.Outcome.next (State.earlyRead_holds (.inl hc))⟩
  case rearmed =>
    have hchan := s.armChan_resetChan_chan ch ha
    have hc : ((s.resetChan ch).armChan ch a).canStep ch = false := State.canStep_of_fault (by rwa [hchan])
    exact ⟨_, _, rfl, rfl, by rw [hchan], by rw [hchan], State.chanStep_disabled hc⟩

/-! ### What refuses the run (60 R333) -/

section
variable {s : State}

theorem State.hostStore_refused {a : Word} (h : ¬ s.hostReaches a = true) (v : Word) : s.hostStore a v = s.refuse :=
  if_neg h

theorem State.hostLoad_refused {a : Word} (h : ¬ s.hostReaches a = true) : s.hostLoad a = (s.setRet .none).refuse :=
  if_neg h

theorem State.csWrite_refused {v : Word} (h : v.extractLsb' 1 30 ≠ 0#30) (ch : ChanId) : s.csWrite ch v = s.refuse :=
  if_pos h

theorem State.checkSize_mismatch {emitted est : WaveSize} (h : emitted ≠ est) :
    s.checkSize emitted est = ((s.reject .accountingMismatch).setTodo []).refuse := if_neg h

end

/-- Settles O14: no operation of a step clears the mark, and each cause sets it. -/
theorem refusedIsSetAndKept : Obligations.RefusedIsSetAndKept := by
  refine ⟨fun s t hr hs => (step_marksKept hs).2 hr, fun s ch => by simp [State.raise_refused],
    fun s ch a hbusy => ?arm, fun s a v ha => ?access, fun s ch v ts hv h => ?csWrite, fun s x ts hx h => ?task,
    fun s emitted est ts hne h => ?size⟩
  case arm => exact (armStartsAnIdleChannel s ch a).2 hbusy
  case access =>
    have hr : ¬ s.hostReaches a = true := fun hr => by
      obtain ⟨hal, hm⟩ := State.hostReaches_iff.1 hr
      rcases ha with h | h
      · exact h hal
      · simp [hm] at h
    exact ⟨congrArg Host.Outcome.next (State.hostStore_refused hr v),
      congrArg Host.Outcome.next (State.hostLoad_refused hr)⟩
  case csWrite =>
    exact (host_csWrite h).trans (congrArg Host.Outcome.next (State.csWrite_refused (s := s.setTodo ts) hv ch))
  case task =>
    rcases hx with rfl | ⟨ch, rfl⟩
    · exact host_task h nofun nofun
    · exact host_task h nofun nofun
  case size =>
    have hsize := State.checkSize_mismatch (s := s.setTodo ts) hne
    exact ⟨_, (host_task h nofun nofun).trans (congrArg Host.Outcome.next hsize), rfl, rfl⟩

/-! ### A step that fails (60 R330; 40 R151, R152) -/

/-- Taking a fault changes what it should and nothing else. -/
theorem State.raise_faultTaken (s : State) (ch : ChanId) (r : FaultReason) : faultTaken s ch r (s.raise ch r) :=
  ⟨by simp, fun x => s.raise_chan_of_ne ch x r, by simp, s.raise_refused ch r, by simp, by simp, by simp, by simp,
    by simp, by simp, by simp, by simp, by simp, by simp⟩

/-- A bus read does not look at `cur`. -/
theorem State.busRead_setCur (s : State) (ch : ChanId) (a : Word) :
    (s.setCur ch).busRead a = (s.busRead a).map fun p => (p.1, p.2.setCur ch) := by
  unfold State.busRead
  split_ifs
  · rfl
  · simp only [State.setCur_cfg, State.setCur_mem]
    cases s.cfg.region a with
    | memory => cases s.mem.word a <;> rfl
    | _ => rfl

/-- A bus write does not look at `cur`. -/
theorem State.busWrite_setCur (s : State) (c ch : ChanId) (a v : Word) :
    (s.setCur c).busWrite ch a v = (s.busWrite ch a v).map (·.setCur c) := by
  unfold State.busWrite
  split_ifs
  · rfl
  · simp only [State.setCur_cfg, State.setCur_pacer]
    cases s.cfg.region a with
    | fifo pc =>
      simp only
      split_ifs
      · rfl
      · cases pc <;> rfl
    | _ => rfl

section
variable {s : State} {ch : ChanId} {d : Desc} {n i : Nat} {v : Word} {r : FaultReason}

theorem State.beatRead_fault (h : s.busRead (d.srcAt i) = .error r) : s.beatRead ch d d n i = s.raise ch r := by
  rw [State.beatRead, h]

theorem State.beatWrite_fault (hq : d.destDreq = true → s.dreq (d.pacerOf s.cfg) = true)
    (h : s.busWrite ch (d.dstAt i) v = .error r) : s.beatWrite ch d d n i v = s.raise ch r := by
  rw [State.beatWrite, if_neg (fun hheld => by simp [hq hheld.1] at hheld), h]

/-- The turn of a channel that runs a snapshot which passes the checks is an engine step of it. -/
theorem State.chanStep_checked {o : Option Word} (hc : s.canStep ch = true)
    (hp : (s.chan ch).phase = .exec d n i o) (hd : d.check s.cfg = none) :
    s.chanStep ch = .next ((s.setCur ch).engineStep ch d) := by
  obtain ⟨x, hx, -⟩ := decodeDesc_of_checked hd
  rw [State.chanStep_exec hc hp hx]
  exact exec_decoded (s := s.setCur ch) hx

end

/-- Settles O12, by what the turn fails at. -/
theorem failingStepTakesTheFault : Obligations.FailingStepTakesTheFault := by
  intro s ch r hc
  have taken : faultTaken { s with cur := ch } ch r ((s.setCur ch).raise ch r) := (s.setCur ch).raise_faultTaken ch r
  refine ⟨fun e hp he => ⟨_, State.chanStep_fetch_error hc hp he, taken⟩, fun d n i hp hi hd he => ⟨_, ?read, taken⟩,
    fun d n i v hp hi hd hq he => ⟨_, ?write, taken⟩⟩
  case read =>
    have hfail : (s.setCur ch).busRead (d.srcAt i) = .error r := by rw [State.busRead_setCur, he]; rfl
    refine (State.chanStep_checked hc hp hd).trans (congrArg Host.Outcome.next ?_)
    rw [State.engineStep_read (s := s.setCur ch) hc hp hi, State.beatRead_fault hfail]
  case write =>
    have hfail : (s.setCur ch).busWrite ch (d.dstAt i) v = .error r := by rw [State.busWrite_setCur, he]; rfl
    refine (State.chanStep_checked hc hp hd).trans (congrArg Host.Outcome.next ?_)
    rw [State.engineStep_write (s := s.setCur ch) hc hp hi, State.beatWrite_fault (s := s.setCur ch) hq hfail]

end Sys2Proof.Machine

namespace Sys2Proof.Machine

/-! ### No step changes the configuration, and the trace grows by at most two events (00 R9; 10 R48) -/

/-- t has the configuration of s, and its trace with at most two events more. -/
def State.growsTo (s t : State) : Prop := t.cfg = s.cfg ∧ ∃ es, t.trace = s.trace ++ es ∧ es.length ≤ 2

section
variable {s t : State}

theorem State.growsTo.of_same (hc : t.cfg = s.cfg := by rfl) (ht : t.trace = s.trace := by rfl) : s.growsTo t :=
  ⟨hc, [], by simp [ht], by simp⟩

theorem State.growsTo.of_event {e : Event} (hc : t.cfg = s.cfg) (ht : t.trace = s.trace ++ [e]) : s.growsTo t :=
  ⟨hc, [e], ht, by simp⟩

end

section
variable (s : State)

theorem State.resetChan_grows (ch : ChanId) : s.growsTo (s.resetChan ch) :=
  .of_event (e := .reset ch) (by simp) (by simp [State.resetChan])

theorem State.armChan_grows (ch : ChanId) (a : Word) : s.growsTo (s.armChan ch a) := by
  unfold State.armChan
  split_ifs
  · exact .of_event (e := .arm ch a) (by simp) (by simp)
  · exact .of_event (e := .arm ch a) (by simp) (by simp)
  · exact .of_same

theorem State.raise_grows (ch : ChanId) (r : FaultReason) : s.growsTo (s.raise ch r) :=
  .of_event (s.raise_cfg ch r) (s.raise_trace ch r)

theorem State.pacerTick_grows (pc : ChanId) : s.growsTo (s.pacerTick pc) := by
  unfold State.pacerTick
  split_ifs
  · exact .of_event (e := .tick pc) (by simp) (by simp)
  · exact .of_same

theorem State.earlyRead_grows (ch : ChanId) (k : Nat) : s.growsTo (s.earlyRead ch k) := by
  rcases s.earlyRead_cases ch k with h | ⟨e, -, -, -, h⟩ <;> rw [h]
  · exact .of_same
  · exact .of_same (by simp) (by simp)

theorem State.hostStore_grows (a v : Word) : s.growsTo (s.hostStore a v) := by
  unfold State.hostStore
  split_ifs <;> exact .of_same

theorem State.hostLoad_grows (a : Word) : s.growsTo (s.hostLoad a) := by
  unfold State.hostLoad
  split_ifs
  · split <;> exact .of_same
  · exact .of_same

theorem State.csWrite_grows (ch : ChanId) (v : Word) : s.growsTo (s.csWrite ch v) := by
  unfold State.csWrite
  split_ifs
  · exact .of_same
  · exact s.resetChan_grows ch
  · exact .of_same (by simp) (by simp)
  · exact .of_same (by simp) (by simp)

/-- A host task that is no instruction; only a CS write records an event, that of its RESET. -/
theorem State.runTask_grows (x : HostTask) : s.growsTo (s.runTask x) := by
  cases x <;> simp only [State.runTask]
  case csWrite ch v => exact s.csWrite_grows ch v
  case checkSize emitted est => unfold State.checkSize; split_ifs <;> exact .of_same
  case register id r => unfold State.registerWave; split_ifs <;> exact .of_same
  case rmwStore a mask setBits =>
    unfold State.rmwStore
    split
    · exact s.hostStore_grows a _
    all_goals exact .of_same
  case start n C => unfold State.carrierStart; split <;> exact .of_same
  case compile pulses mode alloc =>
    unfold State.compileWave
    split
    · exact .of_same
    · split
      · exact .of_same
      · split_ifs <;> exact .of_same
  case play id mode => unfold State.play; split <;> exact .of_same
  case submit prog => unfold State.submit; split <;> exact .of_same
  case delete id => unfold State.deleteWave; split <;> exact .of_same
  all_goals exact .of_same

theorem State.emitOp_grows {t : State} {adv : Except HostReject Build} {stores : List HostTask}
    (h : s.emitOp adv stores = .next t) : s.growsTo t := by
  rcases s.emitOp_cases adv stores with ⟨e, -, he⟩ | ⟨b, -, he⟩ <;> rw [he] at h <;> cases h <;> exact .of_same

/-- An engine step records at most one event, STOP two, every other host step at most one. -/
theorem exec_grows {t : State} {i : Instr} (h : exec i s = .next t) : s.growsTo t := by
  rcases hd : i.desc s.cfg with _ | d
  · cases i <;> simp only [Instr.desc, reduceCtorEq] at hd <;> simp only [exec] at h
    case playWave id => exact s.emitOp_grows h
    case delayMicros n => exact s.emitOp_grows h
    case loopBegin => exact s.emitOp_grows h
    case loopEnd k => exact s.emitOp_grows h
    case repeatForever => exact s.emitOp_grows h
    case arm ch a => cases h; exact s.armChan_grows ch a
    case reset ch => cases h; exact s.resetChan_grows ch
    case busy ch => cases h; exact .of_same
    case store a v => cases h; exact s.hostStore_grows a v
    case load a => cases h; exact s.hostLoad_grows a
    case pacerCfg n => unfold execPacerCfg at h; split_ifs at h <;> cases h <;> exact .of_same
    case waveclk =>
      unfold execWaveclk at h
      split_ifs at h <;> cases h
      · exact .of_same
      · exact .of_event (e := .waveClock) rfl rfl
    case gpioSet v => cases h; exact .of_event (e := .gpioSet .host v) rfl rfl
    case gpioClr v => cases h; exact .of_event (e := .gpioClr .host v) rfl rfl
    case stop ch =>
      have htwo : ((s.resetChan ch).log (.stop ch)).trace = s.trace ++ [.reset ch, .stop ch] := by
        simp [State.resetChan]
      cases ch <;> cases h <;> exact ⟨rfl, _, htwo, le_rfl⟩
    case csread ch => cases h; exact .of_same
  · rw [exec_desc hd] at h
    cases h
    have hframe := DescFrame.engineStep s d
    obtain ⟨es, htrace, hlen⟩ := hframe.trace
    exact ⟨hframe.rest.1, es, htrace, by omega⟩

theorem exec_answers (i : Instr) : ∃ t, exec i s = .next t ∧ s.growsTo t :=
  (exec_total i s).imp fun _ h => ⟨h, exec_grows s h⟩

/-- A channel's turn holds, is `exec` of one instruction, or takes a fault. -/
theorem State.chanStep_answers (ch : ChanId) : ∃ t, s.chanStep ch = .next t ∧ s.growsTo t := by
  unfold State.chanStep
  simp only
  split_ifs
  · exact ⟨_, rfl, .of_same⟩
  · split
    · exact ⟨_, rfl, .of_same⟩
    · split
      · exact exec_answers (s.setCur ch) _
      · exact ⟨_, rfl, (s.setCur ch).raise_grows ch _⟩
    · split
      · exact exec_answers (s.setCur ch) _
      · exact ⟨_, rfl, (s.setCur ch).raise_grows ch _⟩

/-- The host's turn has nothing to do, is `exec` of one instruction, a refusal, a rejection, or another task. -/
theorem State.hostStep_answers : ∃ t, s.hostStep = .next t ∧ s.growsTo t := by
  unfold State.hostStep
  split
  · exact ⟨_, rfl, .of_same⟩
  · split_ifs
    · exact ⟨_, rfl, .of_same⟩
    · exact exec_answers (s.setTodo _) _
  · split
    · exact exec_answers (s.setTodo _) _
    · exact ⟨_, rfl, .of_same⟩
  · exact ⟨_, rfl, (s.setTodo _).runTask_grows _⟩

theorem State.agentStep_answers (a : Agent) : ∃ t, s.agentStep a = .next t ∧ s.growsTo t := by
  cases a with
  | host => exact s.hostStep_answers
  | chan ch => exact s.chanStep_answers ch
  | early ch k => exact ⟨_, rfl, s.earlyRead_grows ch k⟩
  | pacer pc => exact ⟨_, rfl, s.pacerTick_grows pc⟩

theorem State.takeTurn_keeps : s.takeTurn.2.cfg = s.cfg ∧ s.takeTurn.2.trace = s.trace := by
  unfold State.takeTurn
  split <;> exact ⟨rfl, rfl⟩

end

/-- Settles O10, by the agent whose turn it is. -/
theorem everyStepAnswersNext : Obligations.EveryStepAnswersNext := by
  intro s
  obtain ⟨t, ht, hcfg, es, htrace, hlen⟩ := s.takeTurn.2.agentStep_answers s.takeTurn.1
  obtain ⟨hcfg0, htrace0⟩ := s.takeTurn_keeps
  exact ⟨t, es, ht, hcfg.trans hcfg0, by rw [htrace, htrace0], hlen⟩

end Sys2Proof.Machine

namespace Sys2Proof.Machine

/-! ### Boot (70 R370, R371, R372; 10 R50; 42 R210 to R212) -/

section
variable (c : Config) (g : Word)

/-- Launch memory is memory nothing has written, after STORE(ZW, 0) (70 R371 step 3). -/
theorem State.launch_mem : (State.launch c g).mem = Memory.writeWord [] c.zw 0#32 := by
  simp [State.launch, Memory.writeWord, Table.set]

theorem State.launch_word_zw : (State.launch c g).mem.word c.zw = some 0#32 := by
  rw [State.launch_mem, Memory.word_writeWord_self]

theorem State.launch_byte_outside {a : Nat} (ha : a < c.zw.toNat ∨ c.zw.toNat + 4 ≤ a) :
    (State.launch c g).mem.byte a = none := by
  rw [State.launch_mem, Memory.byte_writeWord_of_outside _ _ _ ha]
  rfl

variable {c}

/-- Whatever the channels hold at power-on, the two RESETs and STORE(ZW, 0) leave the launch state (70 R371 step 3). -/
theorem State.powerOn_reset_store (hok : c.ok = true) (p q : Channel) :
    (((State.powerOn c p q g).resetChan .P).resetChan .S).hostStore c.zw 0#32 = State.launch c g := by
  obtain ⟨hmem, hal⟩ := (Config.meets hok).zw_mem
  rw [State.hostStore_of_reaches (State.hostReaches_iff.2 ⟨hal, hmem⟩)]
  exact congrArg (State.setMem (State.launch c g)) (State.launch_mem c g).symm

end

section
variable {inp : BootInput} (s : State)

theorem boot_of_unmapped (h : inp.regsMap = false) : boot inp s = .fault .initRegisters := if_pos h

theorem boot_of_no_memory (hregs : inp.regsMap = true) (h : inp.memLocks = false ∨ inp.withinHorizon = false) :
    boot inp s = .fault .initMemory := by
  rw [boot, if_neg (by simp [hregs]), if_pos h]

/-- Where steps 1 and 2 succeed, boot is the two RESETs, STORE(ZW, 0) and the host's program (70 R371 steps 3 to 5). -/
theorem boot_of_found (hregs : inp.regsMap = true) (hlock : inp.memLocks = true) (hhor : inp.withinHorizon = true) :
    boot inp s = .next ((((s.resetChan .P).resetChan .S).hostStore s.cfg.zw 0#32).giveProgram
      inp.tickMicros inp.cycles inp.later) := by
  rw [boot, if_neg (by simp [hregs]), if_neg (by simp [hlock, hhor])]

end

/-- Settles O35: boot's own cases; then carrier start's turns, which end with ChanP armed and the later procedures
still on the task list. -/
theorem bootReachesTheLaunchState : Obligations.BootReachesTheLaunchState := by
  intro c p q g inp hok
  refine ⟨fun ⟨hregs, hlock, hhor⟩ => ?_, boot_of_unmapped _, boot_of_no_memory _, State.launch_word_zw c g,
    fun _ => State.launch_byte_outside c g⟩
  intro s t
  refine ⟨?boot, fun hn hC hcbs hool => ?start⟩
  case boot =>
    rw [boot_of_found _ hregs hlock hhor]
    exact congrArg (fun u : State => Host.Outcome.next (u.giveProgram inp.tickMicros inp.cycles inp.later))
      (State.powerOn_reset_store g hok p q)
  case start =>
    have M : t.cfg.Meets := Config.meets hok
    exact ⟨_, _, carrierStart_run M rfl rfl hn hC hcbs hool, rfl, rfl, rfl, rfl, rfl, rfl, rfl⟩

end Sys2Proof.Machine
